-- ==== Sys2Proof/Word.lean ====
section
/-! DEFINITION. The value types of the acarsGO MSK receiver: bytes, exact real numbers as plain data, complex pairs,
timestamps (spec/00_scope.md R7, R8, R11; spec/30_encoding.md R91, R94).

The spec gives every "real" quantity its exact mathematical meaning, with exact reals as the reference domain (R7).  A
state must nevertheless be plain data, so a real is held as a term (`Scalar`): numbers `a + b·π` with rational `a`, `b` are
held evaluated, a real from outside is an atom, every other real is held as the expression that the rules of the spec
compute.  `Scalar.toReal` (Machine/Numerics.lean) is the number a term stands for; statements speak through it. -/

namespace Sys2Proof

/-- A byte; bit 0 is the least significant (R11). -/
abbrev Byte := BitVec 8

/-- The values a numeric domain may have that are no real number (R108 (b)): they only ever enter from the feed. -/
inductive NonFinite where
  | nan
  | posInf
  | negInf
deriving DecidableEq, Repr, Inhabited

/-- An exact real number, or a non-finite value, as plain data (R7; notes/assumptions/1.md).
`lin a b` is `a + b·π`; `input i` is any real from outside and `drawn k` any real that a `draw real` answers, both
uninterpreted (`Config.inputReal`, `Config.drawnReal`); the other constructors are the operations of the rules applied to
terms. -/
inductive Scalar where
  | lin (a b : ℚ)
  | input (i : Nat)
  | drawn (k : Nat)
  | nonFinite (k : NonFinite)
  | opp (x : Scalar)
  | sum (x y : Scalar)
  | prod (x y : Scalar)
  | quot (x y : Scalar)
  | root (x : Scalar)
  | cosine (x : Scalar)
  | sine (x : Scalar)
  | logTen (x : Scalar)
deriving DecidableEq, Repr, Inhabited

/-- No non-finite value occurs in the term: over exact reals, the test `x is not finite` of R132 and R153, negated. -/
def Scalar.finite : Scalar → Bool
  | .lin _ _ => true
  | .input _ => true
  | .drawn _ => true
  | .nonFinite _ => false
  | .opp x => x.finite
  | .sum x y => x.finite && y.finite
  | .prod x y => x.finite && y.finite
  | .quot x y => x.finite && y.finite
  | .root x => x.finite
  | .cosine x => x.finite
  | .sine x => x.finite
  | .logTen x => x.finite

namespace Scalar

/-- The rational number `q`. -/
abbrev rat (q : ℚ) : Scalar := .lin q 0

/-- Zero. -/
abbrev zero : Scalar := .lin 0 0

/-- One. -/
abbrev one : Scalar := .lin 1 0

/-- The constant `π` (R12). -/
abbrev pi : Scalar := .lin 0 1

/-- Not a number: what an operation without a real result answers. -/
abbrev nan : Scalar := .nonFinite .nan

end Scalar

/-- A complex value: the pair (real, imaginary), which for a sample is (in-phase, quadrature) (R7, R68, R91). -/
structure Cplx where
  re : Scalar
  im : Scalar
deriving DecidableEq, Repr, Inhabited

/-- Both components are finite. -/
def Cplx.finite (z : Cplx) : Bool := z.re.finite && z.im.finite

/-- The complex zero `(0, 0)`. -/
abbrev Cplx.zero : Cplx := ⟨Scalar.zero, Scalar.zero⟩

/-- One sample block: ComplexSample values, index 0 first in time (R92). -/
abbrev Block := List Cplx

/-- A reception timestamp, type TIME: opaque, never computed with (R37, R249); the token only tells one from another. -/
structure Time where
  token : Nat
deriving DecidableEq, Repr, Inhabited

/-- BitDecision: soft bit value and linear level (R94). -/
structure BitDecision where
  soft : Scalar
  lvl : Scalar
deriving DecidableEq, Repr, Inhabited

end Sys2Proof
end

