-- ==== Sys2Proof/Config.lean ====
section
/-! DEFINITION. The configuration record of spec/00_scope.md R5 with its numeric domain (R7), the integer constants to which
the document gives a value, and the free values: what the spec leaves open and draws from the environment (R12 `draw`). -/

namespace Sys2Proof

/-- The five control characters (R97), parameters of R5; 8-bit values, admitted only in 0x00..0x7F (R6). -/
structure ControlChars where
  syn : Byte
  soh : Byte
  stx : Byte
  etx : Byte
  etb : Byte
deriving DecidableEq, Repr, Inhabited

/-- The ASCII values the spec takes as defaults (R97, decision D17). -/
def ControlChars.default : ControlChars :=
  { syn := 0x16#8, soh := 0x01#8, stx := 0x02#8, etx := 0x03#8, etb := 0x17#8 }

/-- One row of the demapper table (R158): which component is the decision component `vo` (`useIm` false: `ur`, true:
`ui`; the other component carries the error), whether the soft value is negated, whether the error term is negated. -/
structure DemapRow where
  useIm : Bool
  negSoft : Bool
  negErr : Bool
deriving DecidableEq, Repr, Inhabited

/-- The demapper table `DEMAP`: one row per symbol phase (R158; R5: a parameter). -/
structure DemapTable where
  row0 : DemapRow
  row1 : DemapRow
  row2 : DemapRow
  row3 : DemapRow
deriving DecidableEq, Repr, Inhabited

/-- The table of R158. -/
def DemapTable.default : DemapTable :=
  { row0 := { useIm := false, negSoft := false, negErr := false }
    row1 := { useIm := true, negSoft := false, negErr := true }
    row2 := { useIm := false, negSoft := true, negErr := false }
    row3 := { useIm := true, negSoft := true, negErr := true } }

/-- The operations of the rules on a carrier type (R7); the rules say which is applied to which operands in which order
(R8). -/
structure RealOps (α : Type) where
  ofRat : ℚ → α
  pi : α
  add : α → α → α
  sub : α → α → α
  neg : α → α
  mul : α → α → α
  div : α → α → α
  sqrt : α → α
  cos : α → α
  sin : α → α
  log10 : α → α
  lt : α → α → Bool
  le : α → α → Bool
  floor : α → Int
  finite : α → Bool

/-- A `Numerics` record (R7): a carrier type, the operations on it, and how a state, which is plain data, holds its values.
`name a` is the term a state holds for the value `a`; `value x` is the value that the term `x` is read as, be it a value's
name or a real that comes from outside (notes/assumptions/22.md). -/
structure Numerics where
  Carrier : Type
  ops : RealOps Carrier
  name : Carrier → Scalar
  value : Scalar → Carrier
  /-- A value that is held is read back. -/
  value_name : ∀ a, value (name a) = a

/-- A number format with finitely many values: `k · 2^e` with `|k| < 2^precision` and `emin ≤ e ≤ emax`, and one value that
is not a number.  IEEE binary64 without signed zero and infinities is `⟨53, -1074, 971⟩`; with `emin = emax` the format is
fixed-point. -/
structure FloatFormat where
  precision : Nat
  emin : Int
  emax : Int
deriving DecidableEq, Repr, Inhabited

/-- The parameter `NUM` (R5): exact real arithmetic, the reference; a finite number format with every operation correctly
rounded; or any other record, `Config.otherNumerics n` (notes/assumptions/22.md).  A name and not the record, so that the
configuration is plain data. -/
inductive NumericsChoice where
  | exact
  | float (f : FloatFormat)
  | other (n : Nat)
deriving DecidableEq, Repr, Inhabited

/-- The parameter record (R5): every parameter that is open or that the spec lets a model take as an argument.
`coefTable = none` asks for the default matched-filter formula of R152.  The parameters to which the document gives a
value are the constants of `Config` below; `FS_D`, `W0` and `FLEN` are computed from the record (R292). -/
structure Params where
  num : NumericsChoice
  nchan : Nat
  fs : Scalar
  fc : Scalar
  ft : List Scalar
  decim : Nat
  blockLen : Nat
  loLen : Nat
  f0 : Scalar
  coefTable : Option (List Scalar)
  demap : DemapTable
  chars : ControlChars
  seekReload : Nat
  bqCap : Nat
  oqCap : Nat
deriving DecidableEq, Repr, Inhabited

/-- The configuration `State.reset` carries (notes/assumptions/5.md, DESIGN CHOICE: R5 leaves these values open).
`FS_D = 7200` is the rate of the spec's vector V-DM-1 and `FT[0] − FC = FS/4` that of its vector V-CH-1; the defaults
of R5 everywhere else. -/
def Params.default : Params :=
  { num := .exact
    nchan := 1
    fs := .lin 28800 0
    fc := .lin 131542800 0
    ft := [.lin 131550000 0]
    decim := 4
    blockLen := 8
    loLen := 8
    f0 := .lin 1800 0
    coefTable := none
    demap := DemapTable.default
    chars := ControlChars.default
    seekReload := 8
    bqCap := 256
    oqCap := 256 }

/-- The moves the schedule may name (R9): the channel agents `CD[c]` and `FDA[c]`, the dispatch agent, the host agent
`FEED` with its block and end-of-stream ports, the configuration and reset ports, and the host agent `SINK`, which
makes itself ready or not ready (R248). -/
inductive Turn where
  | cd (c : Nat)
  | fda (c : Nat)
  | disp
  | feed
  | eos
  | config
  | reset
  | sink (ready : Bool)
deriving DecidableEq, Repr, Inhabited

namespace Config

/-- `HDR_MAX = 23` (R5). -/
def hdrMax : Nat := 23

/-- `TXT_MAX = 220` (R5). -/
def txtMax : Nat := 220

/-- `BLK_MAX = 243`, header plus payload (R5). -/
def blkMax : Nat := hdrMax + txtMax

/-- The agent that moves next where the state lists no choice: the document gives no schedule (R9, R80, U4), so the
choice is free (notes/assumptions/7.md). -/
opaque schedule : Nat → Turn

/-- The value a read of `TIME_IN` returns: `draw TIME` (R249, U15; notes/assumptions/8.md). -/
opaque freeTime : Nat → Time

/-- The real that the `k`-th `draw real` answers: the level in decibels of a non-positive level (R186, U3;
notes/assumptions/9.md), and the real-valued frame fields after `SYS.RESET` (R291, U14; notes/assumptions/10.md). -/
opaque drawnReal : Nat → ℝ

/-- The real an input atom stands for: any real a feed or a configuration source may deliver (R7, R91, R250). -/
opaque inputReal : Nat → ℝ

/-- A numeric domain of which nothing is known: the document fixes no number format, no rounding and no word width (R7), so
its carrier and its operations are uninterpreted (notes/assumptions/22.md).  The argument shows that there is a record. -/
opaque otherNumerics [Inhabited Numerics] : Nat → Numerics

/-- The bytes that `SYS.RESET` leaves unspecified: the two CRC bytes (R291, U14; notes/assumptions/10.md). -/
opaque freeByte : Nat → Byte

/-- Element `i` of `FD.buf` after the draw `k`: unspecified after `SYS.RESET` (R291, U14; notes/assumptions/10.md). -/
opaque freeChar : Nat → Nat → BitVec 7

end Config

end Sys2Proof
end

