-- ==== Sys2Proof/Syntax.lean ====
section
/-! DEFINITION. The 43 rows of spec/opcode_table.json as ONE inductive, and the sequencer positions that select the
rows without bits (spec/30_encoding.md R90, R103 to R105, R110). -/

namespace Sys2Proof

/-- The seven stages of the Frame Decoder (R32). -/
inductive Stage where
  | syn1
  | syn2
  | soh
  | txt
  | crc1
  | crc2
  | done
deriving DecidableEq, Repr, Inhabited

/-- The numbers of R32 (decision D32). -/
def Stage.number : Stage → BitVec 3
  | .syn1 => 0
  | .syn2 => 1
  | .soh => 2
  | .txt => 3
  | .crc1 => 4
  | .crc2 => 5
  | .done => 6

/-- The stage with a given number; 7 is unused (R32). -/
def Stage.ofNumber? (n : BitVec 3) : Option Stage :=
  match n.toNat with
  | 0 => some .syn1
  | 1 => some .syn2
  | 2 => some .soh
  | 3 => some .txt
  | 4 => some .crc1
  | 5 => some .crc2
  | 6 => some .done
  | _ => none

/-- Where agent `CD[c]` stands: the operation it runs next (the column "selected by" of R90).  Between the steps of a run
it stands at `idle` (between blocks), `block`, `sample`, or, held, at `push`; the other positions are passed inside a
composite's step.  `tail` is `DM.SYMBOL` after its step 5 (R154). -/
inductive CdPos where
  | idle
  | block
  | sample
  | dump
  | dmSample
  | symbol
  | mf
  | norm
  | level
  | demap
  | emit
  | push
  | tail
  | pll
deriving DecidableEq, Repr, Inhabited

/-- Where agent `FDA[c]` stands: the operation it runs next.  Between the steps of a run it stands at `pop` (between
operations, waiting for a decision) or, held, at `push`; the other positions are passed inside a composite's step.
`stage` is a completed byte at its stage operation; `opt` is step 3 of `BP.PARSE`; `resync` is `FD.DONE` after `OQ.PUSH`
(R193). -/
inductive FdaPos where
  | pop
  | bit
  | stage
  | done
  | parse
  | fixed
  | flags
  | opt
  | sublabel
  | build
  | push
  | resync
deriving DecidableEq, Repr, Inhabited

/-- The operations, one constructor per row of the table; `c` is the channel.  Operands that come from an earlier
operation of the same agent (`y`, `v`, `m`, `u`, `soft`, `err`, a popped decision, a parsed block) are read from the
agent's in-flight values, so no constructor repeats them; `r` is the completed byte of a Frame Decoder key and `p`
the discarded parity bit of a delimiter key (R103). -/
inductive Instr where
  | chBlock (c : Nat)
  | chSample (c : Nat)
  | chDump (c : Nat)
  | dmSample (c : Nat)
  | dmSymbol (c : Nat)
  | dmMf (c : Nat)
  | dmNorm (c : Nat)
  | dmLevel (c : Nat)
  | dmDemap0 (c : Nat)
  | dmDemap1 (c : Nat)
  | dmDemap2 (c : Nat)
  | dmDemap3 (c : Nat)
  | dmEmit (c : Nat)
  | dmPll (c : Nat)
  | fdBit (c : Nat)
  | fdSyn1Hit (c : Nat)
  | fdSyn1Miss (c : Nat) (r : Byte)
  | fdSyn2Hit (c : Nat)
  | fdSyn2Miss (c : Nat) (r : Byte)
  | fdSohHit (c : Nat)
  | fdSohMiss (c : Nat) (r : Byte)
  | fdTxtEndEtx (c : Nat) (p : Bool)
  | fdTxtEndEtb (c : Nat) (p : Bool)
  | fdTxtFull (c : Nat) (r : Byte)
  | fdTxtData (c : Nat) (r : Byte)
  | fdCrc1 (c : Nat) (r : Byte)
  | fdCrc2 (c : Nat) (r : Byte)
  | fdDone (c : Nat)
  | bpParse (c : Nat)
  | bpFixed (c : Nat)
  | bpFlags (c : Nat)
  | bpDown (c : Nat)
  | bpUp (c : Nat)
  | bpSublabel (c : Nat)
  | bqPush (c : Nat)
  | bqPop (c : Nat)
  | faBuild (c : Nat)
  | oqPush (c : Nat)
  | dispDeliver
  | feedBlock (b : Block)
  | feedEos
  | sysReset
  | sysConfig (p : Params)
deriving DecidableEq, Repr, Inhabited

end Sys2Proof
end

