-- ==== Sys2Proof/Machine/Bits.lean ====
section
/-! DEFINITION. Bit fields of bytes and of the Frame Decoder key (spec/00_scope.md R11; spec/30_encoding.md R96, R102,
R103). -/

namespace Sys2Proof

/-- Bits 6:0 of a byte as a byte: "mask the high (parity) bit off" (R96, R188). -/
def maskParity (r : Byte) : Byte := r &&& 0x7F#8

/-- The masked character is one of the two block delimiters (R103). -/
def ControlChars.isDelimiter (cc : ControlChars) (r : Byte) : Bool :=
  maskParity r == cc.etx || maskParity r == cc.etb

/-- The constraints of R6 on the control characters: pairwise distinct values in 0x00..0x7F. -/
def ControlChars.admitted (cc : ControlChars) : Bool :=
  [cc.syn, cc.soh, cc.stx, cc.etx, cc.etb].all (fun b => decide (b.toNat < 0x80)) &&
    decide ([cc.syn, cc.soh, cc.stx, cc.etx, cc.etb].Nodup)

/-- A 7-bit character with parity bit `p` in bit 7 (R96). -/
def withParity (p : Bool) (ch : Byte) : Byte := if p then ch ||| 0x80#8 else ch

/-- Bit 7 of a byte (R96). -/
def parityBit (r : Byte) : Bool := r.getLsbD 7

/-- The key `K = FD.stage[2:0] ++ FD.sr[7:0]` of R103. -/
def stageKey (st : BitVec 3) (r : Byte) : BitVec 11 := st ++ r

/-- `K[10:8]` (R103). -/
def keyStage (k : BitVec 11) : BitVec 3 := k.extractLsb' 8 3

/-- `K[7:0]` (R103). -/
def keyByte (k : BitVec 11) : Byte := k.extractLsb' 0 8

/-- `FD.sr <- (FD.sr >> 1) | (b << 7)`: logical shift right, the new bit into bit 7 (R181). -/
def shiftIn (sr : Byte) (b : Bool) : Byte := (sr >>> 1) ||| ((if b then 1#8 else 0#8) <<< 7)

end Sys2Proof
end

