-- ==== Sys2Proof/WellFormed.lean ====
section
/-! DEFINITION. Which terms of `Instr` stand for a row with legal operands, under a configuration: the channel exists,
and the byte of a Frame Decoder operation is one that its row of spec/30_encoding.md R103 matches. -/

namespace Sys2Proof

/-- The channel an operation names, where it names one. -/
def Instr.channel? : Instr → Option Nat
  | .chBlock c => some c
  | .chSample c => some c
  | .chDump c => some c
  | .dmSample c => some c
  | .dmSymbol c => some c
  | .dmMf c => some c
  | .dmNorm c => some c
  | .dmLevel c => some c
  | .dmDemap0 c => some c
  | .dmDemap1 c => some c
  | .dmDemap2 c => some c
  | .dmDemap3 c => some c
  | .dmEmit c => some c
  | .dmPll c => some c
  | .fdBit c => some c
  | .fdSyn1Hit c => some c
  | .fdSyn1Miss c _ => some c
  | .fdSyn2Hit c => some c
  | .fdSyn2Miss c _ => some c
  | .fdSohHit c => some c
  | .fdSohMiss c _ => some c
  | .fdTxtEndEtx c _ => some c
  | .fdTxtEndEtb c _ => some c
  | .fdTxtFull c _ => some c
  | .fdTxtData c _ => some c
  | .fdCrc1 c _ => some c
  | .fdCrc2 c _ => some c
  | .fdDone c => some c
  | .bpParse c => some c
  | .bpFixed c => some c
  | .bpFlags c => some c
  | .bpDown c => some c
  | .bpUp c => some c
  | .bpSublabel c => some c
  | .bqPush c => some c
  | .bqPop c => some c
  | .faBuild c => some c
  | .oqPush c => some c
  | .dispDeliver => none
  | .feedBlock _ => none
  | .feedEos => none
  | .sysReset => none
  | .sysConfig _ => none

/-- The byte operand is one the operation's row matches (R103). -/
def Instr.byteOk (cc : ControlChars) : Instr → Bool
  | .fdSyn1Miss _ r => r != cc.syn
  | .fdSyn2Miss _ r => r != cc.syn
  | .fdSohMiss _ r => r != cc.soh
  | .fdTxtFull _ r => !cc.isDelimiter r
  | .fdTxtData _ r => !cc.isDelimiter r
  | _ => true

/-- The channel exists: `c` in `0..NCHAN-1` (R9). -/
def Instr.channelOk (nchan : Nat) (i : Instr) : Bool :=
  match i.channel? with
  | some c => decide (c < nchan)
  | none => true

/-- Well-formed under a configuration of `nchan` channels with control characters `cc`. -/
def Instr.wellFormed (nchan : Nat) (cc : ControlChars) (i : Instr) : Bool :=
  i.channelOk nchan && i.byteOk cc

end Sys2Proof
end

