-- ==== Sys2Proof/Decode.lean ====
section
/-! DEFINITION. Decoding: from the selector of an operation to the operation, and back (spec/30_encoding.md R90, R103 to
R105, R110).

The hardware fetches nothing: an operation is selected by a key (Frame Decoder, demapper), by bytes of the block (step
3 of `BP.PARSE`), by the sequencer position of its agent, or by a port event.  `Selector` holds all five; `decode` is
total on it and rejects by name; `encode` gives a well-formed operation its selector. -/

namespace Sys2Proof

/-- What selects an operation (the column "selected by" of R90). -/
inductive Selector where
  /-- The 2-bit key `DM.S` of channel `c` (R104). -/
  | demapKey (c : Nat) (k : BitVec 2)
  /-- The 11-bit key of channel `c` with `FD.len`, the extra condition of R103. -/
  | fdKey (c : Nat) (k : BitVec 11) (len : Nat)
  /-- Step 3 of `BP.PARSE`: the preamble delimiter and the uplink flag (R105, R211). -/
  | blockByte (c : Nat) (delim : Option Byte) (up : Option Bool)
  /-- A sequencer position of `CD[c]`. -/
  | cdStep (c : Nat) (pos : CdPos)
  /-- A sequencer position of `FDA[c]`. -/
  | fdaStep (c : Nat) (pos : FdaPos)
  /-- `OQ` not empty and the sink ready, agent `DISP` (R245). -/
  | deliver
  /-- A block on `SAMPLE_IN` (R246). -/
  | sampleIn (b : Block)
  /-- A pulse on `EOS_IN` (R247). -/
  | eosIn
  /-- A parameter record on `CONFIG_IN` (R292). -/
  | configIn (p : Params)
  /-- A pulse on `RESET` (R290). -/
  | resetIn
deriving DecidableEq, Repr, Inhabited

/-- Why a selector selects nothing. -/
inductive DecodeError where
  /-- `CD[c]` is between blocks: nothing to run until a block is delivered. -/
  | agentIdle
  /-- The position is one at which a key or the block's bytes select, not the position itself. -/
  | selectedByKey
  /-- Stage number 6 or 7 at a completed byte: unreachable (R103, U16). -/
  | stageUnreachable
  /-- `FD.len > 242` in `S_TXT`: unreachable (R190). -/
  | lengthUnreachable
  /-- The preamble delimiter is `STX` but the uplink flag is unset: unreachable (R211). -/
  | directionUnset
deriving DecidableEq, Repr, Inhabited

/-- The operation for a completed byte (R103, rows in the order of the table). -/
def decodeByte (cc : ControlChars) (c : Nat) (st : Stage) (r : Byte) (len : Nat) : Except DecodeError Instr :=
  match st with
  | .syn1 => .ok (if r = cc.syn then .fdSyn1Hit c else .fdSyn1Miss c r)
  | .syn2 => .ok (if r = cc.syn then .fdSyn2Hit c else .fdSyn2Miss c r)
  | .soh => .ok (if r = cc.soh then .fdSohHit c else .fdSohMiss c r)
  | .txt =>
    if maskParity r = cc.etx then .ok (.fdTxtEndEtx c (parityBit r))
    else if maskParity r = cc.etb then .ok (.fdTxtEndEtb c (parityBit r))
    else if len = Config.blkMax - 1 then .ok (.fdTxtFull c r)
    else if len < Config.blkMax - 1 then .ok (.fdTxtData c r)
    else .error .lengthUnreachable
  | .crc1 => .ok (.fdCrc1 c r)
  | .crc2 => .ok (.fdCrc2 c r)
  | .done => .error .stageUnreachable

/-- The operation a Frame Decoder key selects (R103). -/
def decodeFdKey (cc : ControlChars) (c : Nat) (k : BitVec 11) (len : Nat) : Except DecodeError Instr :=
  match Stage.ofNumber? (keyStage k) with
  | some st => decodeByte cc c st (keyByte k) len
  | none => .error .stageUnreachable

/-- The operation the 2-bit demapper key selects (R104). -/
def decodeDemap (c : Nat) (k : BitVec 2) : Instr :=
  match k.toNat with
  | 0 => .dmDemap0 c
  | 1 => .dmDemap1 c
  | 2 => .dmDemap2 c
  | _ => .dmDemap3 c

/-- Step 3 of `BP.PARSE` (R211): with delimiter `STX` the direction selects; with any other there is no step 3 and
step 4 follows. -/
def decodeBlockByte (cc : ControlChars) (c : Nat) (delim : Option Byte) (up : Option Bool) :
    Except DecodeError Instr :=
  if delim = some cc.stx then
    match up with
    | some false => .ok (.bpDown c)
    | some true => .ok (.bpUp c)
    | none => .error .directionUnset
  else .ok (.bpSublabel c)

/-- The operation at a sequencer position of `CD[c]` (R90). -/
def decodeCd (c : Nat) : CdPos → Except DecodeError Instr
  | .idle => .error .agentIdle
  | .block => .ok (.chBlock c)
  | .sample => .ok (.chSample c)
  | .dump => .ok (.chDump c)
  | .dmSample => .ok (.dmSample c)
  | .symbol => .ok (.dmSymbol c)
  | .mf => .ok (.dmMf c)
  | .norm => .ok (.dmNorm c)
  | .level => .ok (.dmLevel c)
  | .demap => .error .selectedByKey
  | .emit => .ok (.dmEmit c)
  | .push => .ok (.bqPush c)
  | .tail => .ok (.dmSymbol c)
  | .pll => .ok (.dmPll c)

/-- The operation at a sequencer position of `FDA[c]` (R90). -/
def decodeFda (c : Nat) : FdaPos → Except DecodeError Instr
  | .pop => .ok (.bqPop c)
  | .bit => .ok (.fdBit c)
  | .stage => .error .selectedByKey
  | .done => .ok (.fdDone c)
  | .parse => .ok (.bpParse c)
  | .fixed => .ok (.bpFixed c)
  | .flags => .ok (.bpFlags c)
  | .opt => .error .selectedByKey
  | .sublabel => .ok (.bpSublabel c)
  | .build => .ok (.faBuild c)
  | .push => .ok (.oqPush c)
  | .resync => .ok (.fdDone c)

/-- The decoder: the operation a selector selects, under the configured control characters. -/
def decode (cc : ControlChars) : Selector → Except DecodeError Instr
  | .demapKey c k => .ok (decodeDemap c k)
  | .fdKey c k len => decodeFdKey cc c k len
  | .blockByte c delim up => decodeBlockByte cc c delim up
  | .cdStep c pos => decodeCd c pos
  | .fdaStep c pos => decodeFda c pos
  | .deliver => .ok .dispDeliver
  | .sampleIn b => .ok (.feedBlock b)
  | .eosIn => .ok .feedEos
  | .configIn p => .ok (.sysConfig p)
  | .resetIn => .ok .sysReset

/-- The key of the demapper from the low bits of a table word (R104). -/
def demapKeyOfWord (w : Nat) : BitVec 2 := BitVec.ofNat 2 w

/-- The key of the Frame Decoder from the low bits of a table word (R103). -/
def fdKeyOfWord (w : Nat) : BitVec 11 := BitVec.ofNat 11 w

/-- The selector a word of spec/opcode_table.json stands for: one byte holds a demapper key, two bytes a Frame Decoder
key; the bits of the word above the key's width do not exist in the hardware.  Channel 0, `FD.len = 0`, the value a
frame starts with; the row `FD.TXT.FULL` has the same word as `FD.TXT.DATA` and differs in `FD.len` alone. -/
def selectorOfWord (nbits w : Nat) : Option Selector :=
  if nbits = 0 then none
  else if nbits ≤ 8 then some (.demapKey 0 (demapKeyOfWord w))
  else if nbits ≤ 16 then some (.fdKey 0 (fdKeyOfWord w) 0)
  else none

/-- The instruction the decoder reads from a word of spec/opcode_table.json, with the default control characters. -/
def decodeTableWord (nbits w : Nat) : Option Instr :=
  match selectorOfWord nbits w with
  | some sel =>
    match decode ControlChars.default sel with
    | .ok i => some i
    | .error _ => none
  | none => none

/-- The Frame Decoder selector of a stage and byte (R103). -/
def encodeByte (c : Nat) (st : Stage) (r : Byte) (len : Nat) : Selector :=
  .fdKey c (stageKey st.number r) len

/-- The encoder: the selector of an operation (R90, R103 to R105).  `FD.TXT.FULL` and `FD.TXT.DATA` have the same key
and differ in the extra condition `FD.len = 242`, `FD.len < 242`. -/
def encode (cc : ControlChars) : Instr → Selector
  | .chBlock c => .cdStep c .block
  | .chSample c => .cdStep c .sample
  | .chDump c => .cdStep c .dump
  | .dmSample c => .cdStep c .dmSample
  | .dmSymbol c => .cdStep c .symbol
  | .dmMf c => .cdStep c .mf
  | .dmNorm c => .cdStep c .norm
  | .dmLevel c => .cdStep c .level
  | .dmDemap0 c => .demapKey c 0#2
  | .dmDemap1 c => .demapKey c 1#2
  | .dmDemap2 c => .demapKey c 2#2
  | .dmDemap3 c => .demapKey c 3#2
  | .dmEmit c => .cdStep c .emit
  | .dmPll c => .cdStep c .pll
  | .fdBit c => .fdaStep c .bit
  | .fdSyn1Hit c => encodeByte c .syn1 cc.syn 0
  | .fdSyn1Miss c r => encodeByte c .syn1 r 0
  | .fdSyn2Hit c => encodeByte c .syn2 cc.syn 0
  | .fdSyn2Miss c r => encodeByte c .syn2 r 0
  | .fdSohHit c => encodeByte c .soh cc.soh 0
  | .fdSohMiss c r => encodeByte c .soh r 0
  | .fdTxtEndEtx c p => encodeByte c .txt (withParity p cc.etx) 0
  | .fdTxtEndEtb c p => encodeByte c .txt (withParity p cc.etb) 0
  | .fdTxtFull c r => encodeByte c .txt r (Config.blkMax - 1)
  | .fdTxtData c r => encodeByte c .txt r 0
  | .fdCrc1 c r => encodeByte c .crc1 r 0
  | .fdCrc2 c r => encodeByte c .crc2 r 0
  | .fdDone c => .fdaStep c .done
  | .bpParse c => .fdaStep c .parse
  | .bpFixed c => .fdaStep c .fixed
  | .bpFlags c => .fdaStep c .flags
  | .bpDown c => .blockByte c (some cc.stx) (some false)
  | .bpUp c => .blockByte c (some cc.stx) (some true)
  | .bpSublabel c => .fdaStep c .sublabel
  | .bqPush c => .cdStep c .push
  | .bqPop c => .fdaStep c .pop
  | .faBuild c => .fdaStep c .build
  | .oqPush c => .fdaStep c .push
  | .dispDeliver => .deliver
  | .feedBlock b => .sampleIn b
  | .feedEos => .eosIn
  | .sysReset => .resetIn
  | .sysConfig p => .configIn p

/-- The words of a keyed operation as spec/opcode_table.json numbers its bits: (bits in whole bytes, word); `none` for
the rows whose encoding is "-" or a pattern of block bytes, which have no word. -/
def encodeWord (cc : ControlChars) (i : Instr) : Option (Nat × Nat) :=
  match encode cc i with
  | .demapKey _ k => some (8, k.toNat)
  | .fdKey _ k _ => some (16, k.toNat)
  | _ => none

/-- The operation's name in spec/opcode_table.json (R90). -/
def Instr.mnemonic : Instr → String
  | .chBlock _ => "CH.BLOCK"
  | .chSample _ => "CH.SAMPLE"
  | .chDump _ => "CH.DUMP"
  | .dmSample _ => "DM.SAMPLE"
  | .dmSymbol _ => "DM.SYMBOL"
  | .dmMf _ => "DM.MF"
  | .dmNorm _ => "DM.NORM"
  | .dmLevel _ => "DM.LEVEL"
  | .dmDemap0 _ => "DM.DEMAP0"
  | .dmDemap1 _ => "DM.DEMAP1"
  | .dmDemap2 _ => "DM.DEMAP2"
  | .dmDemap3 _ => "DM.DEMAP3"
  | .dmEmit _ => "DM.EMIT"
  | .dmPll _ => "DM.PLL"
  | .fdBit _ => "FD.BIT"
  | .fdSyn1Hit _ => "FD.SYN1.HIT"
  | .fdSyn1Miss _ _ => "FD.SYN1.MISS"
  | .fdSyn2Hit _ => "FD.SYN2.HIT"
  | .fdSyn2Miss _ _ => "FD.SYN2.MISS"
  | .fdSohHit _ => "FD.SOH.HIT"
  | .fdSohMiss _ _ => "FD.SOH.MISS"
  | .fdTxtEndEtx _ _ => "FD.TXT.END"
  | .fdTxtEndEtb _ _ => "FD.TXT.END"
  | .fdTxtFull _ _ => "FD.TXT.FULL"
  | .fdTxtData _ _ => "FD.TXT.DATA"
  | .fdCrc1 _ _ => "FD.CRC1"
  | .fdCrc2 _ _ => "FD.CRC2"
  | .fdDone _ => "FD.DONE"
  | .bpParse _ => "BP.PARSE"
  | .bpFixed _ => "BP.FIXED"
  | .bpFlags _ => "BP.FLAGS"
  | .bpDown _ => "BP.DOWN"
  | .bpUp _ => "BP.UP"
  | .bpSublabel _ => "BP.SUBLABEL"
  | .bqPush _ => "BQ.PUSH"
  | .bqPop _ => "BQ.POP"
  | .faBuild _ => "FA.BUILD"
  | .oqPush _ => "OQ.PUSH"
  | .dispDeliver => "DISP.DELIVER"
  | .feedBlock _ => "FEED.BLOCK"
  | .feedEos => "FEED.EOS"
  | .sysReset => "SYS.RESET"
  | .sysConfig _ => "SYS.CONFIG"

/-- One row of the selector table of R103: the key pattern, the extra condition on `FD.len`, and the operation. -/
structure SelRow where
  pattern : BitVec 11
  mask : BitVec 11
  lenOk : Option Bool
  mnemonic : String
deriving DecidableEq, Repr

/-- The table of R103 with the default control characters, rows in the order given (`lenOk`: `some true` asks for
`FD.len = 242`, `some false` for `FD.len < 242`). -/
def selectorRows : List SelRow :=
  [⟨0x016#11, 0x7FF#11, none, "FD.SYN1.HIT"⟩, ⟨0x000#11, 0x700#11, none, "FD.SYN1.MISS"⟩,
   ⟨0x116#11, 0x7FF#11, none, "FD.SYN2.HIT"⟩, ⟨0x100#11, 0x700#11, none, "FD.SYN2.MISS"⟩,
   ⟨0x201#11, 0x7FF#11, none, "FD.SOH.HIT"⟩, ⟨0x200#11, 0x700#11, none, "FD.SOH.MISS"⟩] ++
  [⟨0x303#11, 0x77F#11, none, "FD.TXT.END"⟩, ⟨0x317#11, 0x77F#11, none, "FD.TXT.END"⟩,
   ⟨0x300#11, 0x700#11, some true, "FD.TXT.FULL"⟩, ⟨0x300#11, 0x700#11, some false, "FD.TXT.DATA"⟩,
   ⟨0x400#11, 0x700#11, none, "FD.CRC1"⟩, ⟨0x500#11, 0x700#11, none, "FD.CRC2"⟩]

/-- The row matches the key and its condition on `FD.len` holds. -/
def SelRow.hits (row : SelRow) (k : BitVec 11) (len : Nat) : Bool :=
  (k &&& row.mask == row.pattern) &&
    match row.lenOk with
    | none => true
    | some true => decide (len = 242)
    | some false => decide (len < 242)

end Sys2Proof
end

