-- ==== Sys2Proof/Machine/Numerics.lean ====
section
/-! DEFINITION. The numeric domain: the exact reals of spec/00_scope.md R7, R8 and R12 on terms, the `Numerics` records of the
exact reals and of finite number formats, and the constants and complex operations that every record shares.

Each operation answers a term that stands for the exact result (Laws/Exact.lean proves it); rational results, rational
multiples of `π`, and the values of roots, cosines, sines and logarithms that are rational are evaluated, so that the
worked vectors of the spec compute.  Comparisons and floors are those of the reals for every term (`exactSign`,
`exactFloor`); where a rational, a multiple of `π` or a certified rational enclosure settles them, they evaluate. -/

namespace Sys2Proof

/-- The real number a term stands for (R7: every operation has its exact mathematical meaning); 0 for a non-finite value,
which stands for none. -/
noncomputable def Scalar.toReal : Scalar → ℝ
  | .lin a b => (a : ℝ) + (b : ℝ) * Real.pi
  | .input i => Config.inputReal i
  | .drawn k => Config.drawnReal k
  | .nonFinite _ => 0
  | .opp x => -x.toReal
  | .sum x y => x.toReal + y.toReal
  | .prod x y => x.toReal * y.toReal
  | .quot x y => x.toReal / y.toReal
  | .root x => Real.sqrt x.toReal
  | .cosine x => Real.cos x.toReal
  | .sine x => Real.sin x.toReal
  | .logTen x => Real.logb 10 x.toReal

/-- The sign of the real a term stands for, whatever the term (R7).  The order of the reals is not computable, so the
equation says nothing and nothing evaluates it; the type says which of the three signs it is. -/
def exactSign (x : Scalar) : { s : SignType // s = SignType.sign x.toReal } := exactSign x
partial_fixpoint

/-- The greatest integer not above the real a term stands for, whatever the term (R11); given by its type, like
`exactSign`. -/
def exactFloor (x : Scalar) : { n : ℤ // n = ⌊x.toReal⌋ } := exactFloor x
partial_fixpoint

namespace Scalar

/-- Addition (R12). -/
def add (x y : Scalar) : Scalar :=
  match x, y with
  | .lin a b, .lin c d => .lin (a + c) (b + d)
  | x, y => if x = zero then y else if y = zero then x else .sum x y

/-- Negation (R12). -/
def neg (x : Scalar) : Scalar :=
  match x with
  | .lin a b => .lin (-a) (-b)
  | .opp x => x
  | x => .opp x

/-- Subtraction (R12). -/
def sub (x y : Scalar) : Scalar := add x (neg y)

/-- Multiplication (R12). -/
def mul (x y : Scalar) : Scalar :=
  match x, y with
  | .lin a b, .lin c d =>
    if b = 0 then .lin (a * c) (a * d) else if d = 0 then .lin (a * c) (b * c) else .prod (.lin a b) (.lin c d)
  | x, y =>
    if x = zero then if y.finite then zero else nan
    else if y = zero then if x.finite then zero else nan
    else if x = one then y
    else if y = one then x
    else .prod x y

/-- Division (R12); a division by the number 0 has no real result. -/
def div (x y : Scalar) : Scalar :=
  match y with
  | .lin c d =>
    if d = 0 then if c = 0 then nan else mul (.lin c⁻¹ 0) x
    else
      match x with
      | .lin a b => if a = 0 ∧ c = 0 then .lin (b / d) 0 else .quot (.lin a b) (.lin c d)
      | x => .quot x (.lin c d)
  | y => .quot x y

/-- Bits `k − 1` down to 0 of the integer square root of `n`, given the bits above them. -/
def isqrtAux (n : Nat) : Nat → Nat → Nat
  | 0, r => r
  | k + 1, r =>
    let t := r + 2 ^ k
    if t * t ≤ n then isqrtAux n k t else isqrtAux n k r

/-- The integer square root. -/
def isqrt (n : Nat) : Nat := isqrtAux n (n.log2 / 2 + 1) 0

/-- The rational root of a rational perfect square. -/
def ratRoot? (q : ℚ) : Option ℚ :=
  let r : ℚ := (isqrt q.num.toNat : ℚ) / (isqrt q.den : ℚ)
  if r * r = q then some r else none

/-- Square root (R8, R12). -/
def sqrt (x : Scalar) : Scalar :=
  match x with
  | .lin a b =>
    if b = 0 then
      match ratRoot? a with
      | some r => rat r
      | none => .root (.lin a b)
    else .root (.lin a b)
  | x => .root x

/-- `b mod 2`: an angle `b·π` reduced to one turn. -/
def turn (b : ℚ) : ℚ := b - 2 * (⌊b / 2⌋ : ℚ)

/-- The rational values of `cos(b·π)` at multiples of `π/2` and `π/3`. -/
def cosTable (t : ℚ) : Option ℚ :=
  if t = 0 then some 1
  else if t = 1 / 3 then some (1 / 2)
  else if t = 1 / 2 then some 0
  else if t = 2 / 3 then some (-1 / 2)
  else if t = 1 then some (-1)
  else if t = 4 / 3 then some (-1 / 2)
  else if t = 3 / 2 then some 0
  else if t = 5 / 3 then some (1 / 2)
  else none

/-- Cosine (R12). -/
def cos (x : Scalar) : Scalar :=
  match x with
  | .lin a b =>
    if a = 0 then
      match cosTable (turn b) with
      | some r => rat r
      | none => .cosine (.lin a b)
    else .cosine (.lin a b)
  | x => .cosine x

/-- The rational values of `sin(b·π)`: `sin x = cos(x − π/2)`. -/
def sinTable (b : ℚ) : Option ℚ := cosTable (turn (b - 1 / 2))

/-- Sine (R12). -/
def sin (x : Scalar) : Scalar :=
  match x with
  | .lin a b =>
    if a = 0 then
      match sinTable b with
      | some r => rat r
      | none => .sine (.lin a b)
    else .sine (.lin a b)
  | x => .sine x

/-- The exponent of a rational power of ten between `10^-20` and `10^20`. -/
def powerOfTen? (q : ℚ) : Option Int :=
  match (List.range 21).find? (fun k => decide (q = (10 : ℚ) ^ k)) with
  | some k => some (k : Int)
  | none =>
    match (List.range 21).find? (fun k => decide (q * (10 : ℚ) ^ k = 1)) with
    | some k => some (-(k : Int))
    | none => none

/-- Decimal logarithm (R12, R186). -/
def log10 (x : Scalar) : Scalar :=
  match x with
  | .lin a b =>
    if b = 0 then
      match powerOfTen? a with
      | some k => rat (k : ℚ)
      | none => .logTen (.lin a b)
    else .logTen (.lin a b)
  | x => .logTen x

end Scalar

/-- A rational enclosure `[lo, hi]` of a real. -/
structure Encl where
  lo : ℚ
  hi : ℚ
deriving DecidableEq, Repr

namespace Encl

/-- The grid of enclosure ends: multiples of `2^-256`. -/
def grid : ℚ := (2 ^ 256 : Nat)

/-- Round down to the grid. -/
def down (q : ℚ) : ℚ := (⌊q * grid⌋ : ℚ) / grid

/-- Round up to the grid. -/
def up (q : ℚ) : ℚ := (⌈q * grid⌉ : ℚ) / grid

/-- An enclosure with its ends moved outward to the grid. -/
def outward (e : Encl) : Encl := ⟨down e.lo, up e.hi⟩

/-- Twenty decimals of `π`, from below and from above. -/
def pi : Encl := ⟨314159265358979323846 / 10 ^ 20, 314159265358979323847 / 10 ^ 20⟩

/-- Enclosure of the sum. -/
def add (x y : Encl) : Encl := outward ⟨x.lo + y.lo, x.hi + y.hi⟩

/-- Enclosure of the negation. -/
def neg (x : Encl) : Encl := ⟨-x.hi, -x.lo⟩

/-- Enclosure of the product: the least and the greatest of the four products of ends. -/
def mul (x y : Encl) : Encl :=
  outward
    ⟨min (min (x.lo * y.lo) (x.lo * y.hi)) (min (x.hi * y.lo) (x.hi * y.hi)),
     max (max (x.lo * y.lo) (x.lo * y.hi)) (max (x.hi * y.lo) (x.hi * y.hi))⟩

/-- Enclosure of the inverse, of an enclosure that keeps away from 0. -/
def inv (x : Encl) : Option Encl :=
  if 0 < x.lo ∨ x.hi < 0 then some (outward ⟨x.hi⁻¹, x.lo⁻¹⟩) else none

/-- A lower bound of the square root of a rational. -/
def rootDown (q : ℚ) : ℚ :=
  let r : ℚ := (Scalar.isqrt ⌊q * grid * grid⌋.toNat : ℚ) / grid
  if r * r ≤ q then r else 0

/-- An upper bound of the square root of a rational. -/
def rootUp (q : ℚ) : ℚ :=
  let r : ℚ := ((Scalar.isqrt ⌈q * grid * grid⌉.toNat : ℚ) + 1) / grid
  if q ≤ r * r then r else max q 1

/-- Enclosure of the square root (of 0 where the real is negative). -/
def root (x : Encl) : Encl := ⟨rootDown (max x.lo 0), rootUp (max x.hi 0)⟩

/-- `cos(2t) = 2·cos(t)² − 1`, applied `k` times. -/
def doubleCos : Nat → Encl → Encl
  | 0, e => e
  | k + 1, e => doubleCos k (add (mul ⟨2, 2⟩ (mul e e)) ⟨-1, -1⟩)

/-- Enclosure of `cos(q)` for a rational `q`: `q` is halved until its cosine is `1 − t²/2` up to `t⁴·5/96`, then
doubled back. -/
def cosRat (q : ℚ) : Option Encl :=
  let k := (⌈|q|⌉.toNat).log2 + 41
  let t := q / 2 ^ k
  if |t| ≤ 1 then
    some (doubleCos k (outward ⟨1 - t ^ 2 / 2 - |t| ^ 4 * (5 / 96), 1 - t ^ 2 / 2 + |t| ^ 4 * (5 / 96)⟩))
  else none

/-- Enclosure of the cosine: at the midpoint, widened by half the width. -/
def cos (x : Encl) : Option Encl :=
  match cosRat ((x.lo + x.hi) / 2) with
  | some e => some ⟨e.lo - (x.hi - x.lo) / 2, e.hi + (x.hi - x.lo) / 2⟩
  | none => none

end Encl

namespace Scalar

/-- A rational enclosure of the real a term stands for, where one is known. -/
def encl : Scalar → Option Encl
  | .lin a b => some (Encl.add ⟨a, a⟩ (Encl.mul ⟨b, b⟩ Encl.pi))
  | .input _ => none
  | .drawn _ => none
  | .nonFinite _ => none
  | .opp x => x.encl.map Encl.neg
  | .sum x y =>
    match x.encl, y.encl with
    | some e, some f => some (Encl.add e f)
    | _, _ => none
  | .prod x y =>
    match x.encl, y.encl with
    | some e, some f => some (Encl.mul e f)
    | _, _ => none
  | .quot x y =>
    match x.encl, y.encl.bind Encl.inv with
    | some e, some f => some (Encl.mul e f)
    | _, _ => none
  | .root x => x.encl.map Encl.root
  | .cosine x => x.encl.bind Encl.cos
  | .sine x => x.encl.bind (fun e => Encl.cos (Encl.add e (Encl.mul ⟨-1 / 2, -1 / 2⟩ Encl.pi)))
  | .logTen _ => none

/-- The sign of a term, by its enclosure where that settles it. -/
def enclSign (x : Scalar) : SignType :=
  match x.encl with
  | some e => if 0 < e.lo then 1 else if e.hi < 0 then -1 else (exactSign x).1
  | none => (exactSign x).1

/-- The sign of a real: evaluated for rationals, rational multiples of `π` and settled enclosures. -/
def sign (x : Scalar) : SignType :=
  match x with
  | .lin a b => if b = 0 then SignType.sign a else if a = 0 then SignType.sign b else enclSign (.lin a b)
  | x => enclSign x

/-- `x > 0`; a non-finite value compares false. -/
def isPos (x : Scalar) : Bool := x.finite && decide (x.sign = 1)

/-- `x ≥ 0`; a non-finite value compares false. -/
def isNonneg (x : Scalar) : Bool := x.finite && decide (x.sign ≠ -1)

/-- `x < y`. -/
def lt (x y : Scalar) : Bool := isPos (sub y x)

/-- `x ≤ y`. -/
def le (x y : Scalar) : Bool := isNonneg (sub y x)

/-- The floor of a term, by its enclosure where that settles it. -/
def enclFloor (x : Scalar) : Int :=
  match x.encl with
  | some e => if ⌊e.lo⌋ = ⌊e.hi⌋ then ⌊e.lo⌋ else (exactFloor x).1
  | none => (exactFloor x).1

/-- The greatest integer not above a real (R11): evaluated for rationals and settled enclosures. -/
def floor (x : Scalar) : Int :=
  match x with
  | .lin a b => if b = 0 then ⌊a⌋ else enclFloor (.lin a b)
  | x => enclFloor x

end Scalar

namespace Numerics

/-- The record whose values are named by terms and whose operations are the exact ones on the names, with `value` rounding
each result once. -/
def correctlyRounded (Carrier : Type) (name : Carrier → Scalar) (value : Scalar → Carrier)
    (h : ∀ a, value (name a) = a) : Numerics :=
  { Carrier := Carrier
    name := name
    value := value
    value_name := h
    ops :=
      { ofRat := fun q => value (Scalar.rat q)
        pi := value Scalar.pi
        add := fun a b => value (Scalar.add (name a) (name b))
        sub := fun a b => value (Scalar.sub (name a) (name b))
        neg := fun a => value (Scalar.neg (name a))
        mul := fun a b => value (Scalar.mul (name a) (name b))
        div := fun a b => value (Scalar.div (name a) (name b))
        sqrt := fun a => value (Scalar.sqrt (name a))
        cos := fun a => value (Scalar.cos (name a))
        sin := fun a => value (Scalar.sin (name a))
        log10 := fun a => value (Scalar.log10 (name a))
        lt := fun a b => Scalar.lt (name a) (name b)
        le := fun a b => Scalar.le (name a) (name b)
        floor := fun a => Scalar.floor (name a)
        finite := fun a => (name a).finite } }

/-- Exact real arithmetic, the reference (R5, R7): nothing is rounded. -/
def exact : Numerics := correctlyRounded Scalar id id (fun _ => rfl)

end Numerics

/-! ### Finite number formats -/

namespace FloatFormat

/-- The power `2^e`. -/
def twoPow (e : Int) : ℚ := if 0 ≤ e then ((2 ^ e.toNat : Nat) : ℚ) else 1 / ((2 ^ (-e).toNat : Nat) : ℚ)

/-- The number of units of the format, less one. -/
def span (f : FloatFormat) : Nat := (f.emax - f.emin).toNat

/-- The units of the format, the smallest first. -/
def unit (f : FloatFormat) (i : Nat) : ℚ := twoPow (f.emin + i)

/-- The least number from `r` on, and below `r + 2^n`, at which a property that once true stays true is true. -/
def leastFrom (fit : Nat → Bool) : Nat → Nat → Nat
  | 0, r => r
  | n + 1, r => if fit (r + 2 ^ n - 1) then leastFrom fit n r else leastFrom fit n (r + 2 ^ n)

/-- The smallest unit of which a real is less than `2^precision` times, in absolute value, given for each unit whether it is
so. -/
def leastUnit (f : FloatFormat) (fit : ℚ → Bool) : Nat := leastFrom (fun i => fit (f.unit i)) (f.span.log2 + 1) 0

/-- The nearest integer, and of two equally near ones the even one. -/
def nearest (x : Scalar) : Int :=
  let k := x.floor
  let r := x.sub (Scalar.rat k)
  if r.lt (Scalar.rat (1 / 2)) then k
  else if (Scalar.rat (1 / 2)).lt r then k + 1
  else if k % 2 = 0 then k
  else k + 1

/-- The multiple of unit `i` nearest to `x`, where there is such a unit and the multiple has few enough digits. -/
def roundTo (f : FloatFormat) (x : Scalar) (i : Nat) : Option ℚ :=
  let k := nearest (x.div (Scalar.rat (f.unit i)))
  if i ≤ f.span ∧ k.natAbs < 2 ^ f.precision then some (k * f.unit i) else none

/-- Rounding to the format: to the nearest multiple of the smallest unit that leaves it few enough digits, and one unit
higher where rounding adds a digit; not a number where there is no such unit. -/
def round (f : FloatFormat) (x : Scalar) : Scalar :=
  if x.finite then
    let bound := fun u : ℚ => u * ((2 ^ f.precision : Nat) : ℚ)
    let i := f.leastUnit fun u => x.lt (Scalar.rat (bound u)) && (Scalar.rat (-(bound u))).lt x
    match (f.roundTo x i).or (f.roundTo x (i + 1)) with
    | some q => Scalar.rat q
    | none => Scalar.nan
  else Scalar.nan

/-- The rational is `k · u` with few enough digits. -/
def fits (f : FloatFormat) (q u : ℚ) : Bool := decide ((q / u).den = 1) && decide ((q / u).num.natAbs < 2 ^ f.precision)

/-- The term is the name of a value of the format. -/
def holds (f : FloatFormat) (x : Scalar) : Bool :=
  match x with
  | .lin a b =>
    let i := f.leastUnit fun u => decide (|a| < u * ((2 ^ f.precision : Nat) : ℚ))
    decide (b = 0) && decide (i ≤ f.span) && f.fits a (f.unit i)
  | .nonFinite k => decide (k = .nan)
  | _ => false

theorem twoPow_eq (e : Int) : twoPow e = (2 : ℚ) ^ e := by
  unfold twoPow
  split_ifs with h
  · obtain ⟨n, rfl⟩ := Int.eq_ofNat_of_zero_le h
    simp
  · obtain ⟨n, hn⟩ := Int.eq_ofNat_of_zero_le (show 0 ≤ -e by omega)
    obtain rfl : e = -(n : Int) := by omega
    simp

theorem unit_pos (f : FloatFormat) (i : Nat) : 0 < f.unit i := by
  rw [unit, twoPow_eq]
  positivity

/-- A unit is a power of two times every smaller one. -/
theorem unit_add (f : FloatFormat) (i d : Nat) : f.unit (i + d) = 2 ^ d * f.unit i := by
  simp only [unit, twoPow_eq]
  rw [mul_comm, ← zpow_natCast, ← zpow_add₀ two_ne_zero]
  push_cast
  rw [add_assoc]

/-- What `leastFrom` finds: a number with the property, and none above one that has it. -/
theorem leastFrom_spec (fit : Nat → Bool) (mono : ∀ i j, i ≤ j → fit i = true → fit j = true) (n r j : Nat)
    (hj : fit j = true) (hr : r ≤ j) (hn : j < r + 2 ^ n) :
    fit (leastFrom fit n r) = true ∧ leastFrom fit n r ≤ j := by
  induction n generalizing r j with
  | zero =>
    obtain rfl : j = r := by omega
    exact ⟨hj, le_rfl⟩
  | succ n ih =>
    have hp : 0 < 2 ^ n := by positivity
    rw [pow_succ] at hn
    rw [leastFrom]
    split_ifs with h
    · by_cases hlt : j < r + 2 ^ n
      · exact ih r j hj hr hlt
      · obtain ⟨hf, hl⟩ := ih r (r + 2 ^ n - 1) h (by omega) (by omega)
        exact ⟨hf, by omega⟩
    · refine ih _ j hj ?_ (by omega)
      by_contra hc
      exact h (mono j _ (by omega) hj)

/-- A multiple of a unit with few enough digits is a value of the format. -/
theorem holds_multiple (f : FloatFormat) (k : Int) (j : Nat) (hj : j ≤ f.span) (hk : k.natAbs < 2 ^ f.precision) :
    f.holds (Scalar.rat (k * f.unit j)) = true := by
  have habs : ∀ m : Int, m.natAbs < 2 ^ f.precision ↔ |(m : ℚ)| < ((2 ^ f.precision : Nat) : ℚ) := by
    intro m
    rw [← Nat.cast_lt (α := ℚ), Nat.cast_natAbs, Int.cast_abs]
  have spec := leastFrom_spec
    (fun i => decide (|(k : ℚ) * f.unit j| < f.unit i * ((2 ^ f.precision : Nat) : ℚ)))
    (by
      intro i l hil h
      obtain ⟨d, rfl⟩ := Nat.exists_eq_add_of_le hil
      rw [decide_eq_true_eq] at h ⊢
      refine h.trans_le (mul_le_mul_of_nonneg_right ?_ (Nat.cast_nonneg _))
      rw [f.unit_add]
      exact le_mul_of_one_le_left (f.unit_pos i).le (one_le_pow₀ one_le_two))
    (f.span.log2 + 1) 0 j
    (by
      rw [decide_eq_true_eq, abs_mul, abs_of_pos (f.unit_pos j), mul_comm]
      exact mul_lt_mul_of_pos_left ((habs k).1 hk) (f.unit_pos j))
    (Nat.zero_le _) (by have := Nat.lt_log2_self (n := f.span); omega)
  set i := f.leastUnit fun u => decide (|(k : ℚ) * f.unit j| < u * ((2 ^ f.precision : Nat) : ℚ))
  change (decide _ && decide (i ≤ f.span) && f.fits _ (f.unit i)) = true
  change decide (_ < f.unit i * _) = true ∧ i ≤ j at spec
  obtain ⟨hfit, hle⟩ := spec
  simp only [decide_true, Bool.true_and, Bool.and_eq_true, decide_eq_true_eq]
  refine ⟨by omega, ?_⟩
  clear_value i
  obtain ⟨d, rfl⟩ := Nat.exists_eq_add_of_le hle
  have hq : (k : ℚ) * f.unit (i + d) / f.unit i = ((k * 2 ^ d : Int) : ℚ) := by
    rw [f.unit_add]
    push_cast
    have := (f.unit_pos i).ne'
    field_simp
  rw [decide_eq_true_eq, f.unit_add] at hfit
  simp only [fits, hq, Rat.den_intCast, Rat.num_intCast, decide_true, Bool.true_and, decide_eq_true_eq, habs]
  push_cast at hfit ⊢
  rw [← mul_assoc, abs_mul, abs_of_pos (f.unit_pos i), mul_comm] at hfit
  exact lt_of_mul_lt_mul_left hfit (f.unit_pos i).le

/-- A rounded value is a value of the format. -/
theorem holds_round (f : FloatFormat) (x : Scalar) : f.holds (f.round x) = true := by
  have hto : ∀ i q, f.roundTo x i = some q → f.holds (Scalar.rat q) = true := by
    intro i q h
    simp only [roundTo] at h
    split_ifs at h with hk
    obtain rfl := Option.some.inj h
    exact f.holds_multiple _ _ hk.1 hk.2
  unfold round
  split_ifs
  · dsimp only
    split
    · rename_i q hq
      rcases Option.or_eq_some_iff.1 hq with h | ⟨-, h⟩ <;> exact hto _ _ h
    · rfl
  · rfl

/-- The value a term is read as: itself where it names one, else the value it rounds to. -/
def value (f : FloatFormat) (x : Scalar) : { x : Scalar // f.holds x = true } :=
  if h : f.holds x = true then ⟨x, h⟩ else ⟨f.round x, f.holds_round x⟩

/-- The record of a number format: each operation is the exact one, rounded once to nearest, ties to even
(notes/assumptions/22.md). -/
def numerics (f : FloatFormat) : Numerics :=
  Numerics.correctlyRounded { x : Scalar // f.holds x = true } Subtype.val f.value (fun a => by simp [value, a.2])

end FloatFormat

namespace Numerics

/-- The rational number `q`. -/
def ofRat (N : Numerics) (q : ℚ) : Scalar := N.name (N.ops.ofRat q)

/-- The constant `π` (R7). -/
def pi (N : Numerics) : Scalar := N.name N.ops.pi

/-- Addition (R7). -/
def add (N : Numerics) (x y : Scalar) : Scalar := N.name (N.ops.add (N.value x) (N.value y))

/-- Subtraction (R7). -/
def sub (N : Numerics) (x y : Scalar) : Scalar := N.name (N.ops.sub (N.value x) (N.value y))

/-- Negation (R7). -/
def neg (N : Numerics) (x : Scalar) : Scalar := N.name (N.ops.neg (N.value x))

/-- Multiplication (R7). -/
def mul (N : Numerics) (x y : Scalar) : Scalar := N.name (N.ops.mul (N.value x) (N.value y))

/-- Division (R7). -/
def div (N : Numerics) (x y : Scalar) : Scalar := N.name (N.ops.div (N.value x) (N.value y))

/-- Square root (R7). -/
def sqrt (N : Numerics) (x : Scalar) : Scalar := N.name (N.ops.sqrt (N.value x))

/-- Cosine (R7). -/
def cos (N : Numerics) (x : Scalar) : Scalar := N.name (N.ops.cos (N.value x))

/-- Sine (R7). -/
def sin (N : Numerics) (x : Scalar) : Scalar := N.name (N.ops.sin (N.value x))

/-- Decimal logarithm (R7). -/
def log10 (N : Numerics) (x : Scalar) : Scalar := N.name (N.ops.log10 (N.value x))

/-- `x < y`. -/
def lt (N : Numerics) (x y : Scalar) : Bool := N.ops.lt (N.value x) (N.value y)

/-- `x ≤ y`. -/
def le (N : Numerics) (x y : Scalar) : Bool := N.ops.le (N.value x) (N.value y)

/-- The greatest integer not above a value (R11). -/
def floor (N : Numerics) (x : Scalar) : Int := N.ops.floor (N.value x)

/-- The value is finite (R108, R266). -/
def finite (N : Numerics) (x : Scalar) : Bool := N.ops.finite (N.value x)

/-- The number 0. -/
def zero (N : Numerics) : Scalar := N.ofRat 0

/-- A natural number. -/
def ofNat (N : Numerics) (n : Nat) : Scalar := N.ofRat n

/-- `x > 0`. -/
def isPos (N : Numerics) (x : Scalar) : Bool := N.lt N.zero x

/-- `x ≥ 0`. -/
def isNonneg (N : Numerics) (x : Scalar) : Bool := N.le N.zero x

/-- `x = 0`. -/
def isZero (N : Numerics) (x : Scalar) : Bool := N.le N.zero x && N.le x N.zero

/-- `2π`, the period at which `DM.phi` wraps (R153), formed as `2·π`. -/
def twoPi (N : Numerics) : Scalar := N.mul (N.ofRat 2) N.pi

/-- `CLK_TH = 3π/2` (R5, R151), formed as `(3·π)/2`.  DESIGN CHOICE (notes/assumptions/22.md): the spec does not say in
which order a domain that is not exact forms the constant. -/
def clkTh (N : Numerics) : Scalar := N.div (N.mul (N.ofRat 3) N.pi) (N.ofRat 2)

/-- `EPS = 1e-6` (R5, R156). -/
def eps (N : Numerics) : Scalar := N.ofRat (1 / 1000000)

/-- `LVL_KEEP = 0.99` (R5, R157). -/
def lvlKeep (N : Numerics) : Scalar := N.ofRat (99 / 100)

/-- `LVL_NEW = 0.01` (R5, R157). -/
def lvlNew (N : Numerics) : Scalar := N.ofRat (1 / 100)

/-- `LVL_DIV = 5.2` (R5, R157). -/
def lvlDiv (N : Numerics) : Scalar := N.ofRat (26 / 5)

/-- `PLLG = 3.8e-3` (R5, R164). -/
def pllg (N : Numerics) : Scalar := N.ofRat (38 / 10000)

/-- The least sample rate at the Demodulator, Hz (R6, decision D9); also the divisor of R152. -/
def minRate (N : Numerics) : Scalar := N.ofRat 1200

/-- The frequency of the default matched-filter cosine, Hz (R152). -/
def coefFreq (N : Numerics) : Scalar := N.ofRat 600

/-- Both components are finite. -/
def cFinite (N : Numerics) (z : Cplx) : Bool := N.finite z.re && N.finite z.im

/-- The complex zero `(0, 0)`. -/
def cZero (N : Numerics) : Cplx := ⟨N.zero, N.zero⟩

/-- Component-wise sum (R132). -/
def cAdd (N : Numerics) (z w : Cplx) : Cplx := ⟨N.add z.re w.re, N.add z.im w.im⟩

/-- `(a,b)·(c,d) = (a·c − b·d, a·d + b·c)` (R8). -/
def cMul (N : Numerics) (z w : Cplx) : Cplx :=
  ⟨N.sub (N.mul z.re w.re) (N.mul z.im w.im), N.add (N.mul z.re w.im) (N.mul z.im w.re)⟩

/-- `r·(c,d) = (r·c, r·d)` (R8). -/
def cScale (N : Numerics) (r : Scalar) (z : Cplx) : Cplx := ⟨N.mul r z.re, N.mul r z.im⟩

/-- `(a,b)/r = (a/r, b/r)` (R8). -/
def cDiv (N : Numerics) (z : Cplx) (r : Scalar) : Cplx := ⟨N.div z.re r, N.div z.im r⟩

/-- `|(a,b)| = sqrt(a·a + b·b)` (R8). -/
def cAbs (N : Numerics) (z : Cplx) : Scalar := N.sqrt (N.add (N.mul z.re z.re) (N.mul z.im z.im))

end Numerics

/-- The numeric domain of a configuration (R5, R7). -/
def Params.numerics (p : Params) : Numerics :=
  match p.num with
  | .exact => Numerics.exact
  | .float f => f.numerics
  | .other n => @Config.otherNumerics ⟨Numerics.exact⟩ n

end Sys2Proof
end

