-- ==== Sys2Proof/Machine/Configuration.lean ====
section
/-! DEFINITION. What `SYS.CONFIG` computes from the parameter record: the derived parameters, the admission test and
the two tables (spec/00_scope.md R5, R6; spec/20_memory.md R61, R63; spec/41_demodulator.md R151, R152;
spec/70_reset_and_hazards.md R292). -/

namespace Sys2Proof

namespace Params

/-- `FS_D = FS / DECIM` (R5, R292). -/
def fsD (p : Params) : Scalar := p.numerics.div p.fs (p.numerics.ofNat p.decim)

/-- `W0 = 2π·F0/FS_D` (R151, R292). -/
def w0 (p : Params) : Scalar := p.numerics.div (p.numerics.mul p.numerics.twoPi p.f0) p.fsD

/-- `FLEN = floor(FS_D/1200) + 1` (R152, R292). -/
def flen (p : Params) : Nat := (p.numerics.floor (p.numerics.div p.fsD p.numerics.minRate)).toNat + 1

/-- `θ_c = 2π·(FT[c] − FC)/FS` (R61, R292). -/
def theta (p : Params) (ft : Scalar) : Scalar :=
  p.numerics.div (p.numerics.mul p.numerics.twoPi (p.numerics.sub ft p.fc)) p.fs

/-- `LO[c][n] = ( cos(θ·n), −sin(θ·n) )`, each entry from `θ·n` directly (R61, R292). -/
def loEntry (p : Params) (ft : Scalar) (n : Nat) : Cplx :=
  let a := p.numerics.mul (p.theta ft) (p.numerics.ofNat n)
  ⟨p.numerics.cos a, p.numerics.neg (p.numerics.sin a)⟩

/-- The local-oscillator table of a channel, `LO_LEN` entries (R61). -/
def loTable (p : Params) (ft : Scalar) : List Cplx := (List.range p.loLen).map (p.loEntry ft)

/-- The argument of the cosine of R152: `2π·600·(a − (FLEN−1)/2)/FS_D`. -/
def coefAngle (p : Params) (a : Nat) : Scalar :=
  let N := p.numerics
  N.div (N.mul (N.mul N.twoPi N.coefFreq) (N.sub (N.ofNat a) (N.div (N.ofNat (p.flen - 1)) (N.ofNat 2)))) p.fsD

/-- The default coefficient `C[a] = max(0, cos(2π·600·(a − (FLEN−1)/2)/FS_D))` (R152). -/
def defaultCoef (p : Params) (a : Nat) : Scalar :=
  let x := p.numerics.cos (p.coefAngle a)
  if p.numerics.isNonneg x then x else p.numerics.zero

/-- The coefficient vector `C[0..FLEN-1]` (R152): the configured table, else the default formula. -/
def coefVector (p : Params) : List Scalar :=
  match p.coefTable with
  | some t => t
  | none => (List.range p.flen).map p.defaultCoef

/-- `COEF`, the coefficient vector stored twice (R63, R292). -/
def coefStored (p : Params) : List Scalar := p.coefVector ++ p.coefVector

/-- The record is of the shape of R5: one target frequency per channel, `FLEN` coefficients, and every real parameter
a real number. -/
def shaped (p : Params) : Bool :=
  let real := p.numerics.finite
  decide (p.ft.length = p.nchan) && real p.fs && real p.fc && real p.f0 && p.ft.all real &&
    (match p.coefTable with
     | some t => decide (t.length = p.flen) && t.all real
     | none => true)

/-- `PLLG < W0` and `W0 + PLLG < CLK_TH`: the loop conditions of R6. -/
def loopAdmitted (p : Params) : Bool :=
  p.numerics.lt p.numerics.pllg p.w0 && p.numerics.lt (p.numerics.add p.w0 p.numerics.pllg) p.numerics.clkTh

/-- The configuration is admitted (R6). -/
def admitted (p : Params) : Bool :=
  p.shaped && decide (1 ≤ p.nchan) && p.numerics.isPos p.fs && decide (1 ≤ p.decim) && decide (1 ≤ p.blockLen) &&
    decide (p.blockLen % p.decim = 0) && decide (p.blockLen ≤ p.loLen) && p.numerics.le p.numerics.minRate p.fsD &&
    p.loopAdmitted && decide (1 ≤ p.bqCap) && decide (1 ≤ p.oqCap) && decide (1 ≤ p.seekReload) &&
    decide (p.seekReload ≤ 8) && p.chars.admitted

end Params

end Sys2Proof
end

