-- ==== Sys2Proof/Machine/State.lean ====
section
/-! DEFINITION. The state of the machine, the reasons a step can stop, and the state after reset (spec/10_state.md R20
to R47; spec/44_queues_dispatch.md R251; spec/60_exceptions.md R261; spec/70_reset_and_hazards.md R290, R291).

Beside the elements of R20, R43 and the configuration of R44, the state holds each agent's sequencer position and in-flight
values (R154, R193, R241), the ports of R251, the trace of events (R261), the pending schedule, and the counter of
draws. -/

namespace Sys2Proof.Machine

/-- A byte memory: (address, byte) pairs, addresses strictly rising, no entry equal to what an unlisted address reads
as (`Memory.wf` in Machine/Ops.lean).  `FD.buf` is the one byte store of the hardware (R65). -/
abbrev Memory := List Host.Cell

/-- An event of R261 with its information (R262 to R265, R269), as the trace records it. -/
inductive Event where
  /-- Code 1: the byte `byte` was not the one stage `stage` of channel `c` looks for (R262). -/
  | syncLoss (c : Nat) (stage : Stage) (byte : Byte)
  /-- Code 2: the block of channel `c` was cut at `len` bytes (R263). -/
  | forcedTerm (c : Nat) (len : Nat)
  /-- Code 3: a field of channel `c`'s block was left unset because the block is too short (R264). -/
  | shortBlock (c : Nat)
  /-- Code 4: the matched-filter output of channel `c` has magnitude 0 (R265). -/
  | degenerate (c : Nat)
  /-- Code 5: the feed signalled end-of-stream (R269). -/
  | feedEos
deriving DecidableEq, Repr, Inhabited

/-- AcarsBlock, the parsed block (R100); a field is `none` where its presence bit is 0. -/
structure AcarsBlock where
  raw : List Byte
  mode : Option Byte
  addr : Option (List Byte)
  ack : Option Byte
  label : Option (List Byte)
  bid : Option Byte
  delim : Option Byte
  suffix : Option Byte
  up : Option Bool
  mb : Option Bool
  msn : Option (List Byte)
  flight : Option (List Byte)
  text : Option (List Byte)
  sublabel : Option (List Byte)
deriving DecidableEq, Repr, Inhabited

/-- The block with every presence bit 0 (R211). -/
def AcarsBlock.empty : AcarsBlock :=
  { raw := [], mode := none, addr := none, ack := none, label := none, bid := none, delim := none, suffix := none
    up := none, mb := none, msn := none, flight := none, text := none, sublabel := none }

/-- AcarsFrame, the output record (R99). -/
structure AcarsFrame where
  ts : Time
  freq : Scalar
  lvldb : Scalar
  crc0 : Byte
  crc1 : Byte
  block : AcarsBlock
deriving DecidableEq, Repr, Inhabited

/-- `CH`: the Channelizer state (R22 to R24). -/
structure ChState where
  acc : Cplx
  cnt : Nat
  n : Nat
deriving DecidableEq, Repr, Inhabited

/-- `DM`: the Demodulator state (R25 to R31). -/
structure DmState where
  phi : Scalar
  df : Scalar
  clk : Scalar
  buf : List Cplx
  idx : Nat
  lvl : Scalar
  s : BitVec 2
deriving DecidableEq, Repr, Inhabited

/-- `FD`: the Frame Decoder state (R32 to R40). -/
structure FdState where
  stage : Stage
  sr : Byte
  nb : Nat
  buf : Memory
  len : Nat
  ts : Time
  freq : Scalar
  lvldb : Scalar
  crc0 : Byte
  crc1 : Byte
deriving DecidableEq, Repr, Inhabited

/-- Agent `CD[c]`: its sequencer position and the values its composites hand from one operation to the next: the envelope
sample `y`, the filter output `v`, its magnitude `m` and normalised value `u`, the demapper's `soft` and `err`, the
decision `dec` on its way to `BQ` (R154, R241). -/
structure CdFlight where
  pos : CdPos
  y : Scalar
  v : Cplx
  m : Scalar
  u : Cplx
  soft : Scalar
  err : Scalar
  dec : BitDecision
deriving DecidableEq, Repr, Inhabited

/-- Agent `FDA[c]`: its sequencer position and the values its composites hand on: the popped decision (R242), the level of the
decision that completed the byte (R181), the block being parsed (R211), the frame on its way to `OQ` (R243). -/
structure FdaFlight where
  pos : FdaPos
  dec : BitDecision
  lvl : Scalar
  blk : AcarsBlock
  frame : AcarsFrame
deriving DecidableEq, Repr, Inhabited

/-- One channel: `CH`, `DM`, `FD`, `BQ[c]`, the table `LO[c]`, and its two agents (R20, R44). -/
structure Channel where
  ch : ChState
  dm : DmState
  fd : FdState
  bq : List BitDecision
  lo : List Cplx
  cd : CdFlight
  fda : FdaFlight
deriving DecidableEq, Repr, Inhabited

/-- Where the boot order of R293 stands: `configured` after `SYS.CONFIG`, `ready` after `SYS.RESET`, `running` once a
block was accepted. -/
inductive Phase where
  | configured
  | ready
  | running
deriving DecidableEq, Repr, Inhabited

/-- The state of the machine. -/
structure State where
  /-- The configuration record (R5, R44). -/
  cfg : Params
  /-- The table `COEF` (R63). -/
  coef : List Scalar
  /-- The channels `0..NCHAN-1` (R20); between a configuration with fewer channels and the reset after it, also those beyond
  (notes/assumptions/11.md). -/
  channels : List Channel
  /-- The store `BLK`, the input block being processed (R62). -/
  blk : Block
  /-- The output queue `OQ` (R42). -/
  oq : List AcarsFrame
  /-- The bit `FEED.eos` (R43). -/
  eos : Bool
  /-- Progress of the boot order (R293). -/
  phase : Phase
  /-- Port `SAMPLE_IN`: the blocks the feed has yet to deliver, in order (R10, R251). -/
  sampleIn : List Block
  /-- Port `EOS_IN`: an end-of-stream pulse is waiting (R251). -/
  eosIn : Bool
  /-- Port `CONFIG_IN`: a parameter record is waiting (R251). -/
  configIn : Option Params
  /-- Port `RESET`: a reset pulse is waiting (R251). -/
  resetIn : Bool
  /-- The sink is ready to accept a frame on `FRAME_OUT` (R245, R248). -/
  sinkReady : Bool
  /-- The frames emitted on `FRAME_OUT` so far, the output of a run (R245, R253). -/
  frameOut : List AcarsFrame
  /-- The trace of events (R260, R261). -/
  events : List Event
  /-- The environment's next choices of who moves; where none is listed the choice is free (R9, R10). -/
  sched : List Turn
  /-- The number of moves made, the argument of the free choice of who moves. -/
  tick : Nat
  /-- The number of draws made, the argument of the free values (R12). -/
  draws : Nat
deriving DecidableEq, Repr, Inhabited

/-- Why the machine stops with a fault: an access to an index that does not exist. -/
inductive Fault where
  /-- Raised by every operation of a channel for a channel number outside `0..NCHAN-1` (R20); never by a step, which
  selects from existing channels.  Safe. -/
  | noSuchChannel (c : Nat)
  /-- Raised by `FD.TXT.DATA`, `FD.TXT.END` and `BP.PARSE` for an index of `FD.buf` at or beyond `BLK_MAX`; impossible
  by construction (R66 (b)).  Safe. -/
  | bufferIndex (i : Nat)
  /-- Raised by `CH.SAMPLE` for a sample index beyond the block; impossible by construction (R66 (d)).  Safe. -/
  | blockIndex (i : Nat)
deriving DecidableEq, Repr, Inhabited

/-- Why an input or configuration has no meaning (R12 `refuse`, R261), or no operation is selected. -/
inductive Refusal where
  /-- Raised by `exec` for an instruction without a meaning yet.  Safe. -/
  | notModelled (mnemonic : String)
  /-- Code 16, `CV_NONFINITE`: raised by `CH.SAMPLE` and `DM.SAMPLE` (R266).  Safe. -/
  | cvNonfinite
  /-- Code 17, `CV_LO_INDEX`: raised by `CH.SAMPLE` (R267).  Safe. -/
  | cvLoIndex
  /-- Code 18, `CV_BLOCK_LEN`: raised by `FEED.BLOCK` and `CH.BLOCK` (R246, R268).  Safe. -/
  | cvBlockLen
  /-- Code 19, `CV_CONFIG`: raised by `SYS.CONFIG` (R292).  Safe. -/
  | cvConfig
  /-- Raised by a step whose selector selects nothing, and by `FD.BIT` where the completed byte selects nothing: the
  unreachable keys of R103 and U16.  Safe. -/
  | noOperation (why : DecodeError)
deriving DecidableEq, Repr, Inhabited

/-- What an operation or a step answers. -/
abbrev Result := Host.Outcome State Fault Refusal

/-- `CH` after reset (R290). -/
def ChState.reset (p : Params) : ChState := { acc := p.numerics.cZero, cnt := 0, n := 0 }

/-- `DM` after reset (R290): all zero, `FLEN` zero samples in the buffer. -/
def DmState.reset (p : Params) : DmState :=
  let zero := p.numerics.zero
  { phi := zero, df := zero, clk := zero, buf := List.replicate p.flen p.numerics.cZero, idx := 0
    lvl := zero, s := 0 }

/-- `CD[c]` after reset: between blocks, nothing in flight (R290; the in-flight zeros: notes/assumptions/6.md). -/
def CdFlight.reset (p : Params) : CdFlight :=
  let zero := p.numerics.zero
  let cZero := p.numerics.cZero
  { pos := .idle, y := zero, v := cZero, m := zero, u := cZero, soft := zero
    err := zero, dec := ⟨zero, zero⟩ }

/-- `FDA[c]` after reset: waiting for a decision, nothing in flight (R290; notes/assumptions/6.md). -/
def FdaFlight.reset (p : Params) : FdaFlight :=
  let zero := p.numerics.zero
  { pos := .pop, dec := ⟨zero, zero⟩, lvl := zero, blk := AcarsBlock.empty
    frame := ⟨⟨0⟩, zero, zero, 0#8, 0#8, AcarsBlock.empty⟩ }

/-- `FD` after reset (R290); the frame fields, `FD.buf` and the CRC bytes have no reset value in the spec: zero here
(notes/assumptions/4.md, DESIGN CHOICE). -/
def FdState.reset (p : Params) : FdState :=
  let zero := p.numerics.zero
  { stage := .syn1, sr := 0#8, nb := p.seekReload, buf := [], len := 0, ts := ⟨0⟩, freq := zero
    lvldb := zero, crc0 := 0#8, crc1 := 0#8 }

/-- A channel after configuration and reset (R290, R292). -/
def Channel.reset (p : Params) (ft : Scalar) : Channel :=
  { ch := ChState.reset p, dm := DmState.reset p, fd := FdState.reset p, bq := [], lo := p.loTable ft
    cd := CdFlight.reset p, fda := FdaFlight.reset p }

/-- The machine right after `SYS.CONFIG` with the record `p` and `SYS.RESET` (R293). -/
def State.resetWith (p : Params) : State :=
  { cfg := p, coef := p.coefStored, channels := p.ft.map (Channel.reset p), blk := [], oq := [], eos := false
    phase := .ready, sampleIn := [], eosIn := false, configIn := none, resetIn := false, sinkReady := false
    frameOut := [], events := [], sched := [], tick := 0, draws := 0 }

/-- The machine right after reset (R47, R290), under the configuration of notes/assumptions/5.md. -/
def State.reset : State := State.resetWith Params.default

end Sys2Proof.Machine
end

