-- ==== Sys2Proof/Machine/Ops.lean ====
section
/-! DEFINITION. The named operations that the meanings share: the byte store, the queues, access to a channel, raising
an event, holding and refusing, resynchronisation, and the sequencer moves of the two channel agents. -/

namespace Sys2Proof.Machine

namespace Memory

/-- The byte at address `a`; an unlisted address reads as 0 (notes/assumptions/4.md). -/
def read : Memory → Nat → Byte
  | [], _ => 0#8
  | (k, v) :: t, a => if k = a then v else read t a

/-- Write one byte, keeping the canonical form: writing 0 removes the entry. -/
def write : Memory → Nat → Byte → Memory
  | [], a, b => if b = 0#8 then [] else [(a, b)]
  | (k, v) :: t, a, b =>
    if a < k then if b = 0#8 then (k, v) :: t else (a, b) :: (k, v) :: t
    else if a = k then if b = 0#8 then t else (a, b) :: t
    else (k, v) :: write t a b

/-- The canonical form: addresses strictly rising, no entry equal to what an unlisted address reads as. -/
abbrev wf (m : Memory) : Prop := m.Pairwise (fun x y => x.1 < y.1) ∧ ∀ x ∈ m, x.2 ≠ 0#8

/-- The bytes at `0 .. n-1`, in order (R211: `blk.raw[i] <- MemRead(FD.buf:i, 1)` for `0 ≤ i < L`). -/
def readRange (m : Memory) (n : Nat) : List Byte := (List.range n).map m.read

end Memory

/-- `push(Q, v)`: `none` is the hold of a full queue (R71). -/
def push {α : Type} (cap : Nat) (q : List α) (v : α) : Option (List α) :=
  if q.length < cap then some (q ++ [v]) else none

/-- `pop(Q)`: `none` is the hold of an empty queue (R72). -/
def pop {α : Type} : List α → Option (α × List α)
  | [] => none
  | v :: q => some (v, q)

/-- The state with channel `c` replaced. -/
def State.putChannel (s : State) (c : Nat) (k : Channel) : State := { s with channels := s.channels.set c k }

/-- Run an operation of channel `c`; a channel outside `0..NCHAN-1` does not exist (R20). -/
def onChannel (c : Nat) (s : State) (f : Channel → Result) : Result :=
  match s.channels[c]? with
  | some k => f k
  | none => .fault (.noSuchChannel c)

/-- An operation of channel `c` that touches that channel alone. -/
def updateChannel (c : Nat) (s : State) (f : Channel → Channel) : Result :=
  onChannel c s (fun k => .next (s.putChannel c (f k)))

/-- `hold until P` with `P` false: the operation is not enabled and nothing changes (R12). -/
def hold (s : State) : Result := .next s

/-- The next line of a composite operation: `f` on the state that `r` goes on with, in the same step. -/
def chain (r : Result) (f : State → Result) : Result :=
  match r with
  | .next t => f t
  | .fault x => .fault x
  | .refused q => .refused q

/-- `refuse(reason)` (R12). -/
def refuse (why : Refusal) : Result := .refused why

/-- `raise E(info)`: taking an event records it in the trace and does nothing else: no vector, no saved state, no change
of mode or of control flow (R260, R273). -/
def State.raise (s : State) (e : Event) : State := { s with events := s.events ++ [e] }

/-- Raise an event where its cause holds. -/
def State.raiseIf (s : State) (cause : Bool) (e : Event) : State :=
  { s with events := if cause then s.events ++ [e] else s.events }

/-- `FD.RESYNC`: `stage <- S_SYN1; FD.nb <- SEEK_RELOAD`; it changes nothing else (R194).  It is also the only "return"
of this hardware: after it the decoder restarts scanning (R274). -/
def FdState.resync (p : Params) (fd : FdState) : FdState := { fd with stage := .syn1, nb := p.seekReload }

/-- `stage <- T; FD.nb <- 8`, the control transfer of a stage operation (R12, R195). -/
def FdState.goto (fd : FdState) (t : Stage) : FdState := { fd with stage := t, nb := 8 }

/-- Append a character to the block buffer: `MemWrite(FD.buf:FD.len, 1, ch); FD.len <- FD.len + 1` (R188, R189). -/
def FdState.append (fd : FdState) (ch : Byte) : FdState :=
  { fd with buf := fd.buf.write fd.len ch, len := fd.len + 1 }

/-- `CD[c]` moves to a position. -/
def Channel.cdGoto (k : Channel) (pos : CdPos) : Channel := { k with cd := { k.cd with pos := pos } }

/-- `FDA[c]` moves to a position. -/
def Channel.fdaGoto (k : Channel) (pos : FdaPos) : Channel := { k with fda := { k.fda with pos := pos } }

/-- Where `CD[c]` goes when the operations of one sample are done: to the next iteration of the loop of `CH.BLOCK`, or
between blocks after the last one (R131). -/
def loopPos (p : Params) (n : Nat) : CdPos := if n < p.blockLen then .sample else .idle

/-- Every `CD[c]` is between blocks (R246, R247). -/
def State.feedFree (s : State) : Bool := s.channels.all (fun k => decide (k.cd.pos = .idle))

/-- `FD.buf` after `SYS.RESET`: 243 unspecified 7-bit elements, the draw `k` (R291, U14). -/
def Memory.unspecified (k : Nat) : Memory :=
  (List.range Config.blkMax).filterMap (fun i =>
    let b : Byte := (Config.freeChar k i).setWidth 8
    if b = 0#8 then none else some (i, b))

/-- `FD` after `SYS.RESET` (R290); the elements without a reset value are unspecified (R291, U14), the draw `k`. -/
def FdState.afterReset (p : Params) (k : Nat) : FdState :=
  { FdState.reset p with
    buf := Memory.unspecified k, ts := Config.freeTime k, freq := .drawn (2 * k)
    lvldb := .drawn (2 * k + 1), crc0 := Config.freeByte (2 * k), crc1 := Config.freeByte (2 * k + 1) }

/-- A channel after `SYS.RESET` (R290): `LO[c]` is unchanged (R291). -/
def Channel.afterReset (p : Params) (k : Nat) (ch : Channel) : Channel :=
  { ch := ChState.reset p, dm := DmState.reset p, fd := FdState.afterReset p k, bq := [], lo := ch.lo
    cd := CdFlight.reset p, fda := FdaFlight.reset p }

/-- The channels after `SYS.CONFIG` (R292): one per target frequency, its table `LO[c]` computed.  DESIGN CHOICE
(notes/assumptions/11.md), the spec being silent on the other state of a later `SYS.CONFIG`: a channel number that exists
already keeps it, and a new channel number starts as after reset.  A channel number at or beyond the new `NCHAN` stays as it
is, with its queue, until the `SYS.RESET` that R293 puts next: nothing but a reset discards what is in flight (R73, R290). -/
def configureChannels (p : Params) (old : List Channel) : List Channel :=
  p.ft.mapIdx (fun i ft =>
    match old[i]? with
    | some k => { k with lo := p.loTable ft }
    | none => Channel.reset p ft) ++ old.drop p.ft.length

end Sys2Proof.Machine
end

