-- ==== Sys2Proof/Machine/Operands.lean ====
section
/-! DEFINITION. The operand forms: the hard bit of a decision, elements of the complex stores, and fields of a block
(spec/30_encoding.md R95, R102; spec/20_memory.md R64). -/

namespace Sys2Proof.Machine

/-- `bit(soft) = 1 if soft > 0, else 0` (R95). -/
def hardBit (N : Numerics) (soft : Scalar) : Bool := N.isPos soft

/-- The element of age `a` of the circular buffer, 0 the oldest: `DM.buf[(DM.idx + a) mod FLEN]` (R64). -/
def DmState.byAge (N : Numerics) (dm : DmState) (flen a : Nat) : Cplx := dm.buf.getD ((dm.idx + a) % flen) N.cZero

/-- The coefficient `C[a]`: the first period of `COEF` (R63). -/
def coefAt (N : Numerics) (coef : List Scalar) (a : Nat) : Scalar := coef.getD a N.zero

/-- The bytes `raw[lo] ++ ... ++ raw[hi]` (R102 (c)). -/
def slice (raw : List Byte) (lo hi : Nat) : List Byte := (raw.drop lo).take (hi + 1 - lo)

/-- `if cond then field <- value`: otherwise the field keeps its value (R212 to R216). -/
def setIf {α : Type} (cond : Bool) (value old : Option α) : Option α := if cond then value else old

/-- The literal two-character string "H1" (R105, R216). -/
def labelH1 : List Byte := [0x48#8, 0x31#8]

end Sys2Proof.Machine
end

