-- ==== Sys2Proof/Machine/Flags.lean ====
section
/-! DEFINITION. The only flags of this hardware: the derived flags of a block (spec/10_state.md R45;
spec/43_block_parser.md R213), and the causes of the events that are tests on values (spec/60_exceptions.md R264,
R265). -/

namespace Sys2Proof.Machine

/-- `isUplink = (block-ID ≥ 0x40) OR (block-ID == 0x00)`, on the unsigned value (R105, R213). -/
def isUplink (bid : Byte) : Bool := decide (0x40 ≤ bid.toNat) || decide (bid = 0x00#8)

/-- `isMultiblock = (suffix == end-of-block-character)` (R105, R213). -/
def isMultiblock (cc : ControlChars) (suffix : Byte) : Bool := decide (suffix = cc.etb)

/-- The cause of `EV_SHORT_BLOCK` on a parsed block (R264). -/
def AcarsBlock.isShort (cc : ControlChars) (b : AcarsBlock) : Bool :=
  decide (b.raw.length < 13) ||
    (decide (b.delim = some cc.stx) && decide (b.up = some false) && decide (b.raw.length ≤ 25)) ||
    (decide (b.delim = some cc.stx) && decide (b.up = some true) && decide (b.raw.length ≤ 15)) ||
    (decide (b.label = some labelH1) && decide (b.raw.length < 26))

/-- The cause of `EV_DEGENERATE`: the magnitude is 0 (R265). -/
def isDegenerate (N : Numerics) (m : Scalar) : Bool := N.isZero m

end Sys2Proof.Machine
end

