-- ==== Sys2Proof/Machine/BlockParser.lean ====
section
/-! DEFINITION. The Block Parser: the pure parser of a raw block and its six operations (spec/43_block_parser.md R210
to R216; the layout is spec/30_encoding.md R101). -/

namespace Sys2Proof.Machine

/-- The block with its raw bytes and every presence bit 0 (R211). -/
def AcarsBlock.ofRaw (raw : List Byte) : AcarsBlock := { AcarsBlock.empty with raw := raw }

/-- `BP.FIXED` on a block (R212). -/
def AcarsBlock.fixed (b : AcarsBlock) : AcarsBlock :=
  let L := b.raw.length
  { b with
    mode := setIf (decide (1 ≤ L)) b.raw[0]? b.mode
    addr := setIf (decide (8 ≤ L)) (some (slice b.raw 1 7)) b.addr
    ack := setIf (decide (9 ≤ L)) b.raw[8]? b.ack
    label := setIf (decide (11 ≤ L)) (some (slice b.raw 9 10)) b.label
    bid := setIf (decide (12 ≤ L)) b.raw[11]? b.bid
    delim := setIf (decide (13 ≤ L)) b.raw[12]? b.delim
    suffix := setIf (decide (1 ≤ L)) b.raw[L - 1]? b.suffix }

/-- `BP.FLAGS` on a block: a flag whose source byte is absent keeps its value, unset (R213). -/
def AcarsBlock.flags (cc : ControlChars) (b : AcarsBlock) : AcarsBlock :=
  { b with
    up := setIf b.bid.isSome (b.bid.map isUplink) b.up
    mb := setIf b.suffix.isSome (b.suffix.map (isMultiblock cc)) b.mb }

/-- `BP.DOWN` on a block (R214). -/
def AcarsBlock.down (b : AcarsBlock) : AcarsBlock :=
  let L := b.raw.length
  { b with
    msn := setIf (decide (17 ≤ L)) (some (slice b.raw 13 16)) b.msn
    flight := setIf (decide (23 ≤ L)) (some (slice b.raw 17 22)) b.flight
    text := setIf (decide (25 < L)) (some (slice b.raw 23 (L - 2))) b.text }

/-- `BP.UP` on a block (R215). -/
def AcarsBlock.uplink (b : AcarsBlock) : AcarsBlock :=
  let L := b.raw.length
  { b with text := setIf (decide (15 < L)) (some (slice b.raw 13 (L - 2))) b.text }

/-- `BP.SUBLABEL` on a block (R216). -/
def AcarsBlock.subLabel (b : AcarsBlock) : AcarsBlock :=
  { b with
    sublabel :=
      setIf (decide (b.label = some labelH1) && decide (26 ≤ b.raw.length)) (some (slice b.raw 24 25)) b.sublabel }

/-- Step 3 of `BP.PARSE` on a block (R211). -/
def AcarsBlock.optional (cc : ControlChars) (b : AcarsBlock) : AcarsBlock :=
  if b.delim = some cc.stx then if b.up = some false then b.down else b.uplink else b

/-- The whole parser, a pure function of the raw bytes and their number (R210, R211, R218). -/
def parseBlock (cc : ControlChars) (raw : List Byte) : AcarsBlock :=
  (((AcarsBlock.ofRaw raw).fixed.flags cc).optional cc).subLabel

/-- A parser step on the block in flight; `pos` is the next step. -/
def parserStep (f : AcarsBlock → AcarsBlock) (pos : FdaPos) (k : Channel) : Channel :=
  { k with fda := { k.fda with blk := f k.fda.blk, pos := pos } }

/-- `BP.FIXED` (R212). -/
def execBpFixed (c : Nat) (s : State) : Result := updateChannel c s (parserStep AcarsBlock.fixed .flags)

/-- `BP.FLAGS` (R213). -/
def execBpFlags (c : Nat) (s : State) : Result :=
  updateChannel c s (parserStep (AcarsBlock.flags s.cfg.chars) .opt)

/-- `BP.DOWN` (R214). -/
def execBpDown (c : Nat) (s : State) : Result := updateChannel c s (parserStep AcarsBlock.down .sublabel)

/-- `BP.UP` (R215). -/
def execBpUp (c : Nat) (s : State) : Result := updateChannel c s (parserStep AcarsBlock.uplink .sublabel)

/-- `BP.SUBLABEL` (R216). -/
def execBpSublabel (c : Nat) (s : State) : Result := updateChannel c s (parserStep AcarsBlock.subLabel .build)

/-- Step 3 of `BP.PARSE`: with delimiter `STX` the optional fields of the block's direction (R211). -/
def parseOptional (c : Nat) (s : State) : Result :=
  onChannel c s fun k =>
    if k.fda.blk.delim = some s.cfg.chars.stx then
      if k.fda.blk.up = some false then execBpDown c s else execBpUp c s
    else .next s

/-- `BP.PARSE`: read `FD.buf[0..FD.len-1]` and run the four steps, in one step; `EV_SHORT_BLOCK` where a field stays unset
for want of length (R210, R211, R264).  The domain is `L ≤ 243` (R219). -/
def execBpParse (c : Nat) (s : State) : Result :=
  onChannel c s fun k =>
    if k.fd.len ≤ Config.blkMax then
      chain (execBpFixed c (s.putChannel c
        { k with fda := { k.fda with blk := AcarsBlock.ofRaw (k.fd.buf.readRange k.fd.len), pos := .fixed } })) fun s₁ =>
      chain (execBpFlags c s₁) fun s₂ =>
      chain (parseOptional c s₂) fun s₃ =>
      chain (execBpSublabel c s₃) fun s₄ =>
      onChannel c s₄ fun k₄ => .next (s₄.raiseIf (k₄.fda.blk.isShort s.cfg.chars) (.shortBlock c))
    else .fault (.bufferIndex (k.fd.len - 1))

end Sys2Proof.Machine
end

