-- ==== Sys2Proof/Machine/Queues.lean ====
section
/-! DEFINITION. Queues, frame assembly, dispatch and the feed: `BQ.PUSH`, `FA.BUILD`, `OQ.PUSH`, `DISP.DELIVER`,
`FEED.BLOCK`, `FEED.EOS` (spec/44_queues_dispatch.md R241, R243 to R247); `BQ.POP` stands in Machine/FrameDecoder.lean. -/

namespace Sys2Proof.Machine

/-- `BQ.PUSH`: append the decision in flight and return to `DM.SYMBOL`, or hold while the queue is full (R241). -/
def execBqPush (c : Nat) (s : State) : Result :=
  onChannel c s fun k =>
    match push s.cfg.bqCap k.bq k.cd.dec with
    | some q => .next (s.putChannel c ({ k with bq := q }.cdGoto .tail))
    | none => hold s

/-- The output record from the frame fields and the parsed block (R99, R243). -/
def buildFrame (fd : FdState) (blk : AcarsBlock) : AcarsFrame :=
  { ts := fd.ts, freq := fd.freq, lvldb := fd.lvldb, crc0 := fd.crc0, crc1 := fd.crc1, block := blk }

/-- `FA.BUILD`: frame assembly (R243). -/
def execFaBuild (c : Nat) (s : State) : Result :=
  updateChannel c s fun k => { k with fda := { k.fda with frame := buildFrame k.fd k.fda.blk, pos := .push } }

/-- `OQ.PUSH`: append the frame in flight to the output queue and return to `FD.DONE`, or hold while it is full (R244). -/
def execOqPush (c : Nat) (s : State) : Result :=
  onChannel c s fun k =>
    match push s.cfg.oqCap s.oq k.fda.frame with
    | some q => .next { s.putChannel c (k.fdaGoto .resync) with oq := q }
    | none => hold s

/-- `DISP.DELIVER`: emit the oldest frame on `FRAME_OUT`, or hold while there is none or the sink is not ready (R245). -/
def execDispDeliver (s : State) : Result :=
  match pop s.oq with
  | some (f, q) => if s.sinkReady then .next { s with oq := q, frameOut := s.frameOut ++ [f] } else hold s
  | none => hold s

/-- `FEED.BLOCK`: deliver one block to every channel; held while a `CD[c]` is in a block, not enabled after
end-of-stream (R246); a block of another length is refused (R268). -/
def execFeedBlock (b : Block) (s : State) : Result :=
  if s.eos || !s.feedFree then hold s
  else if b.length ≠ s.cfg.blockLen then refuse .cvBlockLen
  else
    .next
      { s with
        blk := b, channels := s.channels.map (fun k => k.cdGoto .block), sampleIn := s.sampleIn.tail
        phase := .running }

/-- `FEED.EOS`: end-of-stream, between blocks, at most once per run (R247, R269). -/
def execFeedEos (s : State) : Result :=
  if s.eos || !s.feedFree then hold s
  else .next ({ s with eos := true, eosIn := false }.raise .feedEos)

end Sys2Proof.Machine
end

