-- ==== Sys2Proof/Machine/Demodulator.lean ====
section
/-! DEFINITION. The Demodulator: `DM.SAMPLE`, `DM.SYMBOL` and its steps (spec/41_demodulator.md R153 to R164).  A composite
runs the operations it calls in the same step (R154); it can be held at `BQ.PUSH` alone, and resumes there. -/

namespace Sys2Proof.Machine

/-- `v = Σ_{a=0}^{FLEN−1} C[a]·DM.buf[(DM.idx + a) mod FLEN]`, summed in order of `a` from zero (R8, R155). -/
def matchedFilter (N : Numerics) (flen : Nat) (coef : List Scalar) (dm : DmState) : Cplx :=
  (List.range flen).foldl (fun acc a => N.cAdd acc (N.cScale (coefAt N coef a) (dm.byAge N flen a))) N.cZero

/-- `DM.MF`: matched filter (R155). -/
def execDmMf (c : Nat) (s : State) : Result :=
  updateChannel c s fun k =>
    { k with cd := { k.cd with v := matchedFilter s.cfg.numerics s.cfg.flen s.coef k.dm, pos := .norm } }

/-- `u = v / (m + EPS)` (R156). -/
def normalise (N : Numerics) (v : Cplx) (m : Scalar) : Cplx := N.cDiv v (N.add m N.eps)

/-- `DM.NORM`: magnitude and normalisation (R156); a magnitude of 0 is the event `EV_DEGENERATE` (R265). -/
def execDmNorm (c : Nat) (s : State) : Result :=
  let N := s.cfg.numerics
  onChannel c s fun k =>
    .next ((s.putChannel c
      { k with cd := { k.cd with m := N.cAbs k.cd.v, u := normalise N k.cd.v (N.cAbs k.cd.v), pos := .level } }).raiseIf
        (isDegenerate N (N.cAbs k.cd.v)) (.degenerate c))

/-- `LVL_KEEP·lvl + LVL_NEW·(m / LVL_DIV)` (R157). -/
def levelNext (N : Numerics) (lvl m : Scalar) : Scalar :=
  N.add (N.mul N.lvlKeep lvl) (N.mul N.lvlNew (N.div m N.lvlDiv))

/-- `DM.LEVEL`: level estimator (R157). -/
def execDmLevel (c : Nat) (s : State) : Result :=
  updateChannel c s fun k =>
    { k with dm := { k.dm with lvl := levelNext s.cfg.numerics k.dm.lvl k.cd.m } }.cdGoto .demap

/-- The decision component `vo` of a table row (R158). -/
def demapDecision (row : DemapRow) (u : Cplx) : Scalar := if row.useIm then u.im else u.re

/-- The error component of a table row: the other one (R158). -/
def demapOther (row : DemapRow) (u : Cplx) : Scalar := if row.useIm then u.re else u.im

/-- Negate where asked. -/
def negIf (N : Numerics) (b : Bool) (x : Scalar) : Scalar := if b then N.neg x else x

/-- `soft` of a table row: `vo`, negated where the row says so (R158). -/
def demapSoft (N : Numerics) (row : DemapRow) (u : Cplx) : Scalar := negIf N row.negSoft (demapDecision row u)

/-- `err` of a table row: the error component, negated by the sign of `vo` (`vo = 0` counts as non-negative) and by the
row (R158 to R162). -/
def demapErr (N : Numerics) (row : DemapRow) (u : Cplx) : Scalar :=
  if N.isNonneg (demapDecision row u) then negIf N row.negErr (demapOther row u)
  else negIf N (!row.negErr) (demapOther row u)

/-- Demap with one table row; `DM.EMIT` is next (R154, R158). -/
def demapWith (N : Numerics) (row : DemapRow) (k : Channel) : Channel :=
  { k with cd := { k.cd with soft := demapSoft N row k.cd.u, err := demapErr N row k.cd.u, pos := .emit } }

/-- `DM.DEMAP0`: demap at symbol phase 0 (R159). -/
def execDmDemap0 (c : Nat) (s : State) : Result := updateChannel c s (demapWith s.cfg.numerics s.cfg.demap.row0)

/-- `DM.DEMAP1`: demap at symbol phase 1 (R160). -/
def execDmDemap1 (c : Nat) (s : State) : Result := updateChannel c s (demapWith s.cfg.numerics s.cfg.demap.row1)

/-- `DM.DEMAP2`: demap at symbol phase 2 (R161). -/
def execDmDemap2 (c : Nat) (s : State) : Result := updateChannel c s (demapWith s.cfg.numerics s.cfg.demap.row2)

/-- `DM.DEMAP3`: demap at symbol phase 3 (R162). -/
def execDmDemap3 (c : Nat) (s : State) : Result := updateChannel c s (demapWith s.cfg.numerics s.cfg.demap.row3)

/-- `DM.DEMAP<DM.S>`, step 4 of `DM.SYMBOL` (R104, R154). -/
def demapBySymbolPhase (c : Nat) (s : State) : Result :=
  onChannel c s fun k =>
    match k.dm.s.toNat with
    | 0 => execDmDemap0 c s
    | 1 => execDmDemap1 c s
    | 2 => execDmDemap2 c s
    | _ => execDmDemap3 c s

/-- `DM.EMIT`: `BQ.PUSH( (soft, DM.lvl) )`, which may hold (R163). -/
def execDmEmit (c : Nat) (s : State) : Result :=
  onChannel c s fun k =>
    execBqPush c (s.putChannel c { k with cd := { k.cd with dec := ⟨k.cd.soft, k.dm.lvl⟩, pos := .push } })

/-- `DM.PLL`: `DM.df <- PLLG · err`, replacing the old value (R164); the sample is done and the loop of `CH.BLOCK` goes
on. -/
def execDmPll (c : Nat) (s : State) : Result :=
  updateChannel c s fun k =>
    { k with dm := { k.dm with df := s.cfg.numerics.mul s.cfg.numerics.pllg k.cd.err } }.cdGoto (loopPos s.cfg k.ch.n)

/-- The lines of `DM.SYMBOL` after step 5, once the decision is pushed: count the symbol modulo 4, then step 6 (R154,
R168); while the push is held there is nothing to do. -/
def symbolTail (c : Nat) (s : State) : Result :=
  onChannel c s fun k =>
    if k.cd.pos = .tail then execDmPll c (s.putChannel c ({ k with dm := { k.dm with s := k.dm.s + 1 } }.cdGoto .pll))
    else hold s

/-- `DM.SYMBOL`: steps 1 to 6 in order, in one step (R154).  Held at `BQ.PUSH` it resumes there (R163, R241). -/
def execDmSymbol (c : Nat) (s : State) : Result :=
  onChannel c s fun k =>
    match k.cd.pos with
    | .push => chain (execBqPush c s) (symbolTail c)
    | .tail => symbolTail c s
    | _ =>
      chain (execDmMf c s) fun s₁ =>
      chain (execDmNorm c s₁) fun s₂ =>
      chain (execDmLevel c s₂) fun s₃ =>
      chain (demapBySymbolPhase c s₃) fun s₄ =>
      chain (execDmEmit c s₄) (symbolTail c)

/-- The per-sample increment `s = W0 + DM.df` (R153). -/
def increment (p : Params) (dm : DmState) : Scalar := p.numerics.add p.w0 dm.df

/-- Subtract `top` once where `x` has reached it: the wraps of `DM.phi` and `DM.clk` (R153). -/
def wrapOnce (N : Numerics) (top x : Scalar) : Scalar := if N.le top x then N.sub x top else x

/-- The phase after one sample (R153). -/
def phiNext (p : Params) (dm : DmState) : Scalar :=
  wrapOnce p.numerics p.numerics.twoPi (p.numerics.add dm.phi (increment p dm))

/-- The clock after one sample, before its test (R153). -/
def clkSum (p : Params) (dm : DmState) : Scalar := p.numerics.add dm.clk (increment p dm)

/-- The clock reached `CLK_TH`: a symbol falls in this sample (R153). -/
def symbolDue (p : Params) (dm : DmState) : Bool := p.numerics.le p.numerics.clkTh (clkSum p dm)

/-- `z = ( y·cos φ, −( y·sin φ ) )`, the sample mixed down with the new phase (R153). -/
def mixDown (N : Numerics) (y phi : Scalar) : Cplx := ⟨N.mul y (N.cos phi), N.neg (N.mul y (N.sin phi))⟩

/-- The Demodulator state after one sample: advance, mix, store, clock (R153). -/
def sampleStep (p : Params) (dm : DmState) (y : Scalar) : DmState :=
  { dm with
    phi := phiNext p dm
    buf := dm.buf.set dm.idx (mixDown p.numerics y (phiNext p dm))
    idx := (dm.idx + 1) % p.flen
    clk := wrapOnce p.numerics p.numerics.clkTh (clkSum p dm) }

/-- `DM.SAMPLE`: advance the oscillator and the clock by one sample, mix, store, test the clock; a due symbol falls in the
same step (R153, R154). -/
def execDmSample (c : Nat) (s : State) : Result :=
  onChannel c s fun k =>
    if s.cfg.numerics.finite k.cd.y then
      let k' := { k with dm := sampleStep s.cfg k.dm k.cd.y }
      if symbolDue s.cfg k.dm then execDmSymbol c (s.putChannel c (k'.cdGoto .symbol))
      else .next (s.putChannel c (k'.cdGoto (loopPos s.cfg k.ch.n)))
    else refuse .cvNonfinite

end Sys2Proof.Machine
end

