-- ==== Sys2Proof/Machine/Channelizer.lean ====
section
/-! DEFINITION. The Channelizer: `CH.BLOCK`, `CH.SAMPLE`, `CH.DUMP` (spec/40_channelizer.md R131 to R133).  Each
iteration of the loop of `CH.BLOCK` is one step: `CH.SAMPLE` with the `CH.DUMP` and `DM.SAMPLE` it calls (R131, R132). -/

namespace Sys2Proof.Machine

/-- `CH.BLOCK`: accept the block in `BLK` and start the loop over its samples (R131); not enabled once `FEED.eos = 1`
(R43, R131). -/
def execChBlock (c : Nat) (s : State) : Result :=
  onChannel c s fun k =>
    if s.eos then hold s
    else if s.blk.length ≠ s.cfg.blockLen then refuse .cvBlockLen
    else .next (s.putChannel c ({ k with ch := { k.ch with n := 0 } }.cdGoto (loopPos s.cfg 0)))

/-- The envelope sample of a window sum: divide first, then take the magnitude (R133). -/
def envelope (p : Params) (acc : Cplx) : Scalar :=
  p.numerics.cAbs (p.numerics.cDiv acc (p.numerics.ofNat p.decim))

/-- `CH.DUMP`: close a window and hand its envelope sample to `DM.SAMPLE` (R133). -/
def execChDump (c : Nat) (s : State) : Result :=
  onChannel c s fun k =>
    execDmSample c (s.putChannel c
      { k with
        ch := { k.ch with acc := s.cfg.numerics.cZero, cnt := 0 }
        cd := { k.cd with y := envelope s.cfg k.ch.acc, pos := .dmSample } })

/-- The state change of `CH.SAMPLE` with sample `x` and table entry `w`: mix, accumulate, count (R132). -/
def mixSample (N : Numerics) (k : Channel) (x w : Cplx) : Channel :=
  { k with ch := { acc := N.cAdd k.ch.acc (N.cMul x w), cnt := k.ch.cnt + 1, n := k.ch.n + 1 } }

/-- `CH.SAMPLE`: mix one sample to baseband and add it to the window sum; at the window boundary `CH.DUMP` is part of this
operation (R132). -/
def execChSample (c : Nat) (s : State) : Result :=
  onChannel c s fun k =>
    match s.blk[k.ch.n]? with
    | none => .fault (.blockIndex k.ch.n)
    | some x =>
      if s.cfg.numerics.cFinite x then
        match k.lo[k.ch.n]? with
        | none => refuse .cvLoIndex
        | some w =>
          let k' := mixSample s.cfg.numerics k x w
          if k'.ch.cnt = s.cfg.decim then execChDump c (s.putChannel c (k'.cdGoto .dump))
          else .next (s.putChannel c (k'.cdGoto (loopPos s.cfg k'.ch.n)))
      else refuse .cvNonfinite

end Sys2Proof.Machine
end

