-- ==== Sys2Proof/Machine/FrameDecoder.lean ====
section
/-! DEFINITION. The Frame Decoder: `FD.BIT`, the stage operations and `FD.DONE` (spec/42_frame_decoder.md R181 to R194), and
the `BQ.POP` that feeds it (spec/44_queues_dispatch.md R242).  A composite runs the operations it calls in the same step; it
can be held at `OQ.PUSH` alone, and resumes there. -/

namespace Sys2Proof.Machine

/-- A stage operation that only transfers control: `stage <- T; FD.nb <- 8` (R195). -/
def stageTransfer (t : Stage) (k : Channel) : Channel := { k with fd := k.fd.goto t }.fdaGoto .pop

/-- A stage operation that loses or stays out of sync: `FD.RESYNC` (R194). -/
def stageMiss (p : Params) (k : Channel) : Channel := { k with fd := k.fd.resync p }.fdaGoto .pop

/-- `FD.SYN1.HIT` (R182). -/
def execFdSyn1Hit (c : Nat) (s : State) : Result := updateChannel c s (stageTransfer .syn2)

/-- `FD.SYN1.MISS`: no event, staying in `S_SYN1` is the idle condition (R183). -/
def execFdSyn1Miss (c : Nat) (_r : Byte) (s : State) : Result := updateChannel c s (stageMiss s.cfg)

/-- `FD.SYN2.HIT` (R184). -/
def execFdSyn2Hit (c : Nat) (s : State) : Result := updateChannel c s (stageTransfer .soh)

/-- `FD.SYN2.MISS`: `EV_SYNC_LOSS`, then `FD.RESYNC` (R185, R262). -/
def execFdSyn2Miss (c : Nat) (r : Byte) (s : State) : Result :=
  updateChannel c (s.raise (.syncLoss c .syn2 r)) (stageMiss s.cfg)

/-- `10·log10(lvl)` of a positive level (R186). -/
def decibels (N : Numerics) (lvl : Scalar) : Scalar := N.mul (N.ofRat 10) (N.log10 lvl)

/-- `FD.SOH.HIT`: open a frame: record time, frequency and level, clear the length (R186).  A channel that a later
configuration left without a target frequency records any real (notes/assumptions/11.md). -/
def execFdSohHit (c : Nat) (s : State) : Result :=
  let N := s.cfg.numerics
  onChannel c s fun k =>
    .next
      { s.putChannel c
          ({ k with
            fd :=
              { k.fd.goto .txt with
                ts := Config.freeTime s.draws
                freq := s.cfg.ft.getD c (.drawn (2 * s.draws + 1))
                lvldb := if N.isPos k.fda.lvl then decibels N k.fda.lvl else .drawn (2 * s.draws)
                len := 0 } }.fdaGoto .pop) with
        draws := s.draws + 1 }

/-- `FD.SOH.MISS`: `EV_SYNC_LOSS`, then `FD.RESYNC` (R187, R262). -/
def execFdSohMiss (c : Nat) (r : Byte) (s : State) : Result :=
  updateChannel c (s.raise (.syncLoss c .soh r)) (stageMiss s.cfg)

/-- Store one character of the block and go to a stage; the buffer has `BLK_MAX` elements (R65, R188, R189). -/
def storeCharacter (c : Nat) (s : State) (ch : Byte) (t : Stage) : Result :=
  onChannel c s fun k =>
    if k.fd.len < Config.blkMax then
      .next (s.putChannel c ({ k with fd := (k.fd.append ch).goto t }.fdaGoto .pop))
    else .fault (.bufferIndex k.fd.len)

/-- `FD.TXT.DATA`: store one character and continue (R188). -/
def execFdTxtData (c : Nat) (r : Byte) (s : State) : Result := storeCharacter c s (maskParity r) .txt

/-- `FD.TXT.END` on `ETX`, with parity bit `p`: store the delimiter and end the block (R189). -/
def execFdTxtEndEtx (c : Nat) (p : Bool) (s : State) : Result :=
  storeCharacter c s (maskParity (withParity p s.cfg.chars.etx)) .crc1

/-- `FD.TXT.END` on `ETB`, with parity bit `p`: store the delimiter and end the block (R189). -/
def execFdTxtEndEtb (c : Nat) (p : Bool) (s : State) : Result :=
  storeCharacter c s (maskParity (withParity p s.cfg.chars.etb)) .crc1

/-- `FD.TXT.FULL`: store the 243rd character and force the end of the block; `EV_FORCED_TERM` (R190, R263). -/
def execFdTxtFull (c : Nat) (r : Byte) (s : State) : Result :=
  updateChannel c (s.raise (.forcedTerm c Config.blkMax)) fun k =>
    { k with
      fd := { k.fd.goto .crc1 with buf := k.fd.buf.write (Config.blkMax - 1) (maskParity r), len := Config.blkMax }
      }.fdaGoto .pop

/-- `FD.CRC1`: store the first CRC byte, all 8 bits, unchecked (R191). -/
def execFdCrc1 (c : Nat) (r : Byte) (s : State) : Result :=
  updateChannel c s fun k => { k with fd := { k.fd.goto .crc2 with crc0 := r } }.fdaGoto .pop

/-- The last line of `FD.DONE`, once the frame is pushed: `FD.RESYNC` (R193); while the push is held there is nothing to
do. -/
def frameTail (c : Nat) (s : State) : Result :=
  onChannel c s fun k => if k.fda.pos = .resync then .next (s.putChannel c (stageMiss s.cfg k)) else hold s

/-- `FD.DONE`: parse, build, push, return to seeking, in one step (R193).  Held at `OQ.PUSH` it resumes there (R244). -/
def execFdDone (c : Nat) (s : State) : Result :=
  onChannel c s fun k =>
    match k.fda.pos with
    | .push => chain (execOqPush c s) (frameTail c)
    | .resync => frameTail c s
    | _ =>
      chain (execBpParse c s) fun s₁ =>
      chain (execFaBuild c s₁) fun s₂ =>
      chain (execOqPush c s₂) (frameTail c)

/-- `FD.CRC2`: store the second CRC byte, unchecked; `stage <- S_DONE; FD.DONE` in the same step (R192). -/
def execFdCrc2 (c : Nat) (r : Byte) (s : State) : Result :=
  onChannel c s fun k =>
    execFdDone c (s.putChannel c ({ k with fd := { k.fd with crc1 := r, stage := .done } }.fdaGoto .done))

/-- The meaning of a stage operation.  `decodeByte` answers no other operation (R103; Laws/Ops.lean proves it). -/
def execStage (i : Instr) (s : State) : Result :=
  match i with
  | .fdSyn1Hit c => execFdSyn1Hit c s
  | .fdSyn1Miss c r => execFdSyn1Miss c r s
  | .fdSyn2Hit c => execFdSyn2Hit c s
  | .fdSyn2Miss c r => execFdSyn2Miss c r s
  | .fdSohHit c => execFdSohHit c s
  | .fdSohMiss c r => execFdSohMiss c r s
  | .fdTxtEndEtx c p => execFdTxtEndEtx c p s
  | .fdTxtEndEtb c p => execFdTxtEndEtb c p s
  | .fdTxtFull c r => execFdTxtFull c r s
  | .fdTxtData c r => execFdTxtData c r s
  | .fdCrc1 c r => execFdCrc1 c r s
  | .fdCrc2 c r => execFdCrc2 c r s
  | _ => refuse (.noOperation .selectedByKey)

/-- "Run the operation selected by (FD.stage, FD.sr)" (R103, R181). -/
def runStage (c : Nat) (s : State) : Result :=
  onChannel c s fun k =>
    match decodeByte s.cfg.chars c k.fd.stage k.fd.sr k.fd.len with
    | .ok i => execStage i s
    | .error e => refuse (.noOperation e)

/-- `FD.BIT`: shift in the hard bit of the popped decision and count; a complete byte runs its stage operation, which
reloads the count, in the same step (R181, R198). -/
def execFdBit (c : Nat) (s : State) : Result :=
  onChannel c s fun k =>
    let k' : Channel := { k with
      fd := { k.fd with sr := shiftIn k.fd.sr (hardBit s.cfg.numerics k.fda.dec.soft), nb := k.fd.nb - 1 }
      fda := { k.fda with lvl := k.fda.dec.lvl } }
    if k'.fd.nb = 0 then runStage c (s.putChannel c (k'.fdaGoto .stage))
    else .next (s.putChannel c (k'.fdaGoto .pop))

/-- `BQ.POP`: take the oldest decision and run `FD.BIT` on it, or hold while the queue is empty (R242). -/
def execBqPop (c : Nat) (s : State) : Result :=
  onChannel c s fun k =>
    match pop k.bq with
    | some (d, q) =>
      execFdBit c (s.putChannel c { k with bq := q, fda := { k.fda with dec := d, pos := .bit } })
    | none => hold s

end Sys2Proof.Machine
end

