-- ==== Sys2Proof/Machine/System.lean ====
section
/-! DEFINITION. Reset and configuration: `SYS.RESET`, `SYS.CONFIG` (spec/70_reset_and_hazards.md R290 to R293). -/

namespace Sys2Proof.Machine

/-- `SYS.RESET`: every state element to its initial value; configuration and tables are unchanged, the elements without
a reset value are unspecified (R290, R291).  The channels are `0..NCHAN-1` again (R20): one that a configuration left beyond
`NCHAN` ends here, with what it held. -/
def execSysReset (s : State) : Result :=
  .next
    { s with
      channels := (s.channels.take s.cfg.nchan).mapIdx (fun i k => k.afterReset s.cfg (s.draws + i))
      oq := [], eos := false, resetIn := false, phase := .ready, draws := s.draws + s.channels.length }

/-- `SYS.CONFIG`: take an admitted configuration and compute the tables; refuse any other (R292).  DESIGN CHOICE
(notes/assumptions/11.md): the queues keep what they hold, so under a smaller `BQ_CAP` or `OQ_CAP` a queue can be longer
than its new capacity (R70) until it is popped or reset, a push into it holding; and under a larger `OQ_CAP` an `FDA[c]` held
at `OQ.PUSH` can go on without a pop (R71).  No `CD[c]` is held at `BQ.PUSH` when a step takes a configuration (`CdInv`). -/
def execSysConfig (p : Params) (s : State) : Result :=
  if p.admitted then
    .next
      { s with
        cfg := p, coef := p.coefStored, channels := configureChannels p s.channels, configIn := none, phase := .configured }
  else refuse .cvConfig

end Sys2Proof.Machine
end

