-- ==== Sys2Proof/Machine/Dispatch.lean ====
section
/-! DEFINITION. Dispatch: one arm per row of spec/opcode_table.json, each one call of its meaning. -/

namespace Sys2Proof.Machine

def exec (i : Instr) (s : State) : Host.Outcome State Fault Refusal :=
  match i with
  | .chBlock c => Sys2Proof.Machine.execChBlock c s
  | .chSample c => Sys2Proof.Machine.execChSample c s
  | .chDump c => Sys2Proof.Machine.execChDump c s
  | .dmSample c => Sys2Proof.Machine.execDmSample c s
  | .dmSymbol c => Sys2Proof.Machine.execDmSymbol c s
  | .dmMf c => Sys2Proof.Machine.execDmMf c s
  | .dmNorm c => Sys2Proof.Machine.execDmNorm c s
  | .dmLevel c => Sys2Proof.Machine.execDmLevel c s
  | .dmDemap0 c => Sys2Proof.Machine.execDmDemap0 c s
  | .dmDemap1 c => Sys2Proof.Machine.execDmDemap1 c s
  | .dmDemap2 c => Sys2Proof.Machine.execDmDemap2 c s
  | .dmDemap3 c => Sys2Proof.Machine.execDmDemap3 c s
  | .dmEmit c => Sys2Proof.Machine.execDmEmit c s
  | .dmPll c => Sys2Proof.Machine.execDmPll c s
  | .fdBit c => Sys2Proof.Machine.execFdBit c s
  | .fdSyn1Hit c => Sys2Proof.Machine.execFdSyn1Hit c s
  | .fdSyn1Miss c r => Sys2Proof.Machine.execFdSyn1Miss c r s
  | .fdSyn2Hit c => Sys2Proof.Machine.execFdSyn2Hit c s
  | .fdSyn2Miss c r => Sys2Proof.Machine.execFdSyn2Miss c r s
  | .fdSohHit c => Sys2Proof.Machine.execFdSohHit c s
  | .fdSohMiss c r => Sys2Proof.Machine.execFdSohMiss c r s
  | .fdTxtEndEtx c p => Sys2Proof.Machine.execFdTxtEndEtx c p s
  | .fdTxtEndEtb c p => Sys2Proof.Machine.execFdTxtEndEtb c p s
  | .fdTxtFull c r => Sys2Proof.Machine.execFdTxtFull c r s
  | .fdTxtData c r => Sys2Proof.Machine.execFdTxtData c r s
  | .fdCrc1 c r => Sys2Proof.Machine.execFdCrc1 c r s
  | .fdCrc2 c r => Sys2Proof.Machine.execFdCrc2 c r s
  | .fdDone c => Sys2Proof.Machine.execFdDone c s
  | .bpParse c => Sys2Proof.Machine.execBpParse c s
  | .bpFixed c => Sys2Proof.Machine.execBpFixed c s
  | .bpFlags c => Sys2Proof.Machine.execBpFlags c s
  | .bpDown c => Sys2Proof.Machine.execBpDown c s
  | .bpUp c => Sys2Proof.Machine.execBpUp c s
  | .bpSublabel c => Sys2Proof.Machine.execBpSublabel c s
  | .bqPush c => Sys2Proof.Machine.execBqPush c s
  | .bqPop c => Sys2Proof.Machine.execBqPop c s
  | .faBuild c => Sys2Proof.Machine.execFaBuild c s
  | .oqPush c => Sys2Proof.Machine.execOqPush c s
  | .dispDeliver => Sys2Proof.Machine.execDispDeliver s
  | .feedBlock b => Sys2Proof.Machine.execFeedBlock b s
  | .feedEos => Sys2Proof.Machine.execFeedEos s
  | .sysReset => Sys2Proof.Machine.execSysReset s
  | .sysConfig p => Sys2Proof.Machine.execSysConfig p s

end Sys2Proof.Machine
end

