-- ==== Sys2Proof/Machine/Select.lean ====
section
/-! DEFINITION. Who moves next and what selects the next operation (spec/00_scope.md R9; spec/30_encoding.md R90, R103,
R104; spec/70_reset_and_hazards.md R293), and how a word of spec/opcode_table.json is placed to be selected. -/

namespace Sys2Proof.Machine

/-- The agent that moves next: the first choice listed, else a free one (R9, R10; notes/assumptions/7.md). -/
def State.turn (s : State) : Turn :=
  match s.sched with
  | t :: _ => t
  | [] => Config.schedule s.tick

/-- One move of the schedule is used up. -/
def State.advance (s : State) : State := { s with sched := s.sched.tail, tick := s.tick + 1 }

/-- What selects the next operation of `CD[c]` (R90, R104).  Held at `BQ.PUSH`, the `DM.SYMBOL` that pushes resumes
(R241). -/
def Channel.cdSelector (c : Nat) (k : Channel) : Option Selector :=
  match k.cd.pos with
  | .idle => none
  | .demap => some (.demapKey c k.dm.s)
  | .push => some (.cdStep c .tail)
  | pos => some (.cdStep c pos)

/-- What selects the next operation of `FDA[c]` (R90, R103, R105).  Held at `OQ.PUSH`, the `FD.DONE` that pushes resumes
(R193, R244). -/
def Channel.fdaSelector (c : Nat) (k : Channel) : Selector :=
  match k.fda.pos with
  | .push => .fdaStep c .resync
  | .stage => .fdKey c (stageKey k.fd.stage.number k.fd.sr) k.fd.len
  | .opt => .blockByte c k.fda.blk.delim k.fda.blk.up
  | pos => .fdaStep c pos

/-- What selects the next operation of the agent or port whose turn it is; `none` where it has none.  Blocks are taken
only after the reset that follows a configuration (R290, R293), a configuration only before the first block of a run or
after end-of-stream (R5, R292, R293). -/
def select (t : Turn) (s : State) : Option Selector :=
  match t with
  | .cd c => (s.channels[c]?).bind (Channel.cdSelector c)
  | .fda c => (s.channels[c]?).map (Channel.fdaSelector c)
  | .disp => some .deliver
  | .feed =>
    match s.sampleIn with
    | b :: _ => if s.phase = .configured then none else some (.sampleIn b)
    | [] => none
  | .eos => if s.eosIn then some .eosIn else none
  | .config =>
    match s.configIn with
    | some p => if s.phase = .running ∧ s.eos = false then none else some (.configIn p)
    | none => none
  | .reset => if s.resetIn then some .resetIn else none
  | .sink _ => none

/-- The state with agent `t` next to move. -/
def State.withTurn (s : State) (t : Turn) : State := { s with sched := [t] }

/-- Channel 0, or a channel as after reset where there is none. -/
def State.firstChannel (s : State) : Channel := s.channels.headD (Channel.reset s.cfg s.cfg.numerics.zero)

/-- The state with channel 0 replaced. -/
def State.withFirstChannel (s : State) (k : Channel) : State := { s with channels := k :: s.channels.tail }

/-- Place a demapper key: `CD[0]` moves next, at step 4 of `DM.SYMBOL`, with `DM.S` the key (R104). -/
def State.withDemapKey (s : State) (k : BitVec 2) : State :=
  ((s.withFirstChannel
    ({ s.firstChannel with dm := { s.firstChannel.dm with s := k } }.cdGoto .demap)).withTurn (.cd 0))

/-- Place a Frame Decoder key: `FDA[0]` moves next, a byte is complete (`FD.nb = 0`), stage and byte from the key, and
`FD.len` as the key's row wants it when a frame starts (R103).  The unused stage number 7 leaves the stage alone. -/
def State.withFdKey (s : State) (k : BitVec 11) (len : Nat) : State :=
  let ch := s.firstChannel
  ((s.withFirstChannel
    ({ ch with
      fd := { ch.fd with stage := (Stage.ofNumber? (keyStage k)).getD ch.fd.stage, sr := keyByte k, nb := 0, len := len }
      }.fdaGoto .stage)).withTurn (.fda 0))

/-- Place the selector of a table word where the next step looks for its selector. -/
def State.placeSelector (s : State) (sel : Selector) : State :=
  match sel with
  | .demapKey _ k => s.withDemapKey k
  | .fdKey _ k len => s.withFdKey k len
  | _ => s

/-- Place a table word so that the next step selects its operation. -/
def State.placeWord (s : State) (nbits w : Nat) : State :=
  match selectorOfWord nbits w with
  | some sel => s.placeSelector sel
  | none => s

end Sys2Proof.Machine
end

