-- ==== Sys2Proof/Machine/Step.lean ====
section
/-! DEFINITION. One step: the agent whose turn it is runs the operation that is selected for it (spec/00_scope.md R9;
spec/70_reset_and_hazards.md R305: one step is one operation). -/

namespace Sys2Proof.Machine

/-- The outcome of an operation with the schedule moved on. -/
def finish (r : Host.Outcome State Fault Refusal) : Host.Outcome State Fault Refusal :=
  match r with
  | .next s => .next s.advance
  | .fault f => .fault f
  | .refused q => .refused q

/-- One step.  The host agent `SINK` sets its readiness (R248); any other agent runs its selected operation, or makes
no move where it has none. -/
def step (s : State) : Host.Outcome State Fault Refusal :=
  match s.turn with
  | .sink b => .next { s with sinkReady := b }.advance
  | t =>
    match select t s with
    | none => .next s.advance
    | some sel =>
      match decode s.cfg.chars sel with
      | .ok i => finish (exec i s)
      | .error e => .refused (.noOperation e)

/-- The state in which the next step selects and runs the operation of a word of spec/opcode_table.json. -/
def State.withFetchWord (s : State) (nbits w : Nat) : State := s.placeWord nbits w

end Sys2Proof.Machine
end

