-- ==== Sys2Proof/Safety.lean ====
section
/-! DEFINITION. What the statements speak about: sequences of operations, and the invariants of the machine
(spec/10_state.md R22 to R36; spec/40_channelizer.md R131, R136; spec/41_demodulator.md R165; spec/42_frame_decoder.md
R195 to R198; spec/43_block_parser.md R211, R218; spec/20_memory.md R61 to R70). -/

namespace Sys2Proof

/-- A decision in range: `−1 < soft < 1`, level not negative (R94). -/
def BitDecision.inRange (d : BitDecision) : Prop := |d.soft.toReal| < 1 ∧ 0 ≤ d.lvl.toReal

/-- The operations of agent `CD[c]` (R9, R131 to R133, R153 to R164, R241). -/
def Instr.ofCd : Instr → Option Nat
  | .chBlock c => some c
  | .chSample c => some c
  | .chDump c => some c
  | .dmSample c => some c
  | .dmSymbol c => some c
  | .dmMf c => some c
  | .dmNorm c => some c
  | .dmLevel c => some c
  | .dmDemap0 c => some c
  | .dmDemap1 c => some c
  | .dmDemap2 c => some c
  | .dmDemap3 c => some c
  | .dmEmit c => some c
  | .dmPll c => some c
  | .bqPush c => some c
  | _ => none

/-- The operations of agent `FDA[c]`: the channel's other operations (R9, R181 to R193, R211 to R216, R242 to R244). -/
def Instr.ofFda (i : Instr) : Option Nat := if i.ofCd.isSome then none else i.channel?

end Sys2Proof

namespace Sys2Proof.Machine

/-- Run operations one after the other, each on the state the one before it left. -/
def runOps : List Instr → State → Result
  | [], s => .next s
  | i :: rest, s =>
    match exec i s with
    | .next t => runOps rest t
    | .fault f => .fault f
    | .refused q => .refused q

/-- The raw block of a channel: `FD.buf[0 .. FD.len-1]` (R211). -/
def Channel.rawBlock (k : Channel) : List Byte := k.fd.buf.readRange k.fd.len

/-- The Frame Decoder of one channel between two steps (R32, R34 to R36, R65, R193, R195 to R198). -/
structure FdChannelInv (k : Channel) : Prop where
  /-- The store is in canonical form. -/
  buf_wf : k.fd.buf.wf
  /-- Only indices `0..242` are written, and every character has bit 7 clear (R65, R197). -/
  buf_range : ∀ x ∈ k.fd.buf, x.1 < 243 ∧ x.2.toNat < 0x80
  /-- R36. -/
  len_le : k.fd.len ≤ 243
  /-- `FDA[c]` is between operations, or held at `OQ.PUSH` (R242, R244). -/
  position : k.fda.pos = .pop ∨ k.fda.pos = .push
  /-- Between operations 1 to 8 bits are missing (R34) and the stage is not the transient one (R32). -/
  bits : k.fda.pos = .pop → 1 ≤ k.fd.nb ∧ k.fd.nb ≤ 8 ∧ k.fd.stage ≠ .done
  /-- Held at `OQ.PUSH` the stage is the transient one (R193). -/
  held : k.fda.pos = .push → k.fd.stage = .done
  /-- Room is left while a block accumulates (R188, R190). -/
  room : k.fd.stage = .txt → k.fd.len < 243
  /-- A block that is over holds at least its last character (R197). -/
  ended : k.fd.stage = .crc1 ∨ k.fd.stage = .crc2 ∨ k.fd.stage = .done → 1 ≤ k.fd.len

/-- The Frame Decoders of all channels. -/
def FdInv (s : State) : Prop :=
  1 ≤ s.cfg.seekReload ∧ s.cfg.seekReload ≤ 8 ∧ ∀ k ∈ s.channels, FdChannelInv k

/-- The Channelizer and Demodulator of one channel between two steps (R22 to R24, R28, R29, R61, R62, R131, R136). -/
structure CdChannelInv (s : State) (k : Channel) : Prop where
  /-- The circular buffer has `FLEN` elements and the index is inside (R28, R29). -/
  buffer : s.phase ≠ .configured → k.dm.buf.length = s.cfg.flen ∧ k.dm.idx < s.cfg.flen
  /-- An empty window has a zero accumulator (R22). -/
  empty_window : s.phase ≠ .configured → k.ch.cnt = 0 → k.ch.acc = s.cfg.numerics.cZero
  /-- The window counter never holds `DECIM` (R23, R132). -/
  window : k.ch.cnt < s.cfg.decim
  /-- The cursor stays inside the block (R24). -/
  cursor : s.phase ≠ .configured → k.ch.n ≤ s.cfg.blockLen
  /-- `CD[c]` is between blocks, at the start of one, at a sample, or held at `BQ.PUSH` (R131, R154, R241). -/
  position : k.cd.pos = .idle ∨ k.cd.pos = .block ∨ k.cd.pos = .sample ∨ k.cd.pos = .push
  /-- No window is open between blocks (R131). -/
  between : k.cd.pos = .idle ∨ k.cd.pos = .block → k.ch.cnt = 0
  /-- After a block the cursor is at its end (R24, R131). -/
  at_end : s.phase = .running → k.cd.pos = .idle → k.ch.n = s.cfg.blockLen
  /-- Inside a block the block has its length (R62, R131). -/
  block : k.cd.pos ≠ .idle → s.blk.length = s.cfg.blockLen
  /-- The next sample exists, and the window holds the samples since its start (R23, R136). -/
  sampling : k.cd.pos = .sample → k.ch.n < s.cfg.blockLen ∧ k.ch.cnt = k.ch.n % s.cfg.decim
  /-- While a decision is held the window is empty (R133, R150, R241). -/
  held : k.cd.pos = .push → k.ch.n ≤ s.cfg.blockLen ∧ k.ch.n % s.cfg.decim = 0 ∧ k.ch.cnt = 0

/-- The Channelizers and Demodulators of all channels, with the parts of R6 they rest on. -/
structure CdInv (s : State) : Prop where
  decim_pos : 1 ≤ s.cfg.decim
  block_pos : 1 ≤ s.cfg.blockLen
  aligned : s.cfg.blockLen % s.cfg.decim = 0
  covered : s.cfg.blockLen ≤ s.cfg.loLen
  /-- The channels `0..NCHAN-1` are there (R5, R20). -/
  exist : s.cfg.nchan ≤ s.channels.length
  /-- There are no others, once the reset that follows a configuration has happened (R290, R293). -/
  count : s.phase ≠ .configured → s.channels.length = s.cfg.nchan
  /-- Each of them has a table of `LO_LEN` entries (R61). -/
  lo_length : ∀ (c : Nat) (k : Channel), c < s.cfg.nchan → s.channels[c]? = some k → k.lo.length = s.cfg.loLen
  /-- Every `CD[c]` is between blocks before the first block and after end-of-stream (R247, R293). -/
  quiet : s.phase ≠ .running ∨ s.eos = true → ∀ k ∈ s.channels, k.cd.pos = .idle
  channel : ∀ k ∈ s.channels, CdChannelInv s k

/-- The capacity bounds of R70, once the reset that follows a configuration has happened (R293; until then a queue may be
longer than a new, smaller capacity: notes/assumptions/11.md). -/
def QueueInv (s : State) : Prop :=
  s.phase ≠ .configured → s.oq.length ≤ s.cfg.oqCap ∧ ∀ k ∈ s.channels, k.bq.length ≤ s.cfg.bqCap

/-- The tables are those of the configuration, for the channels `0..NCHAN-1` (R61, R63, R78). -/
def TableInv (s : State) : Prop :=
  s.coef = s.cfg.coefStored ∧ (s.channels.take s.cfg.nchan).map Channel.lo = s.cfg.ft.map s.cfg.loTable

/-- The ranges of the real quantities of one channel (R26, R30, R93, R94, R165 (a) and (c)). -/
structure RealChannelInv (k : Channel) : Prop where
  df : |k.dm.df.toReal| < 38 / 10000
  lvl : 0 ≤ k.dm.lvl.toReal
  y : 0 ≤ k.cd.y.toReal
  m : 0 ≤ k.cd.m.toReal
  u : |k.cd.u.re.toReal| < 1 ∧ |k.cd.u.im.toReal| < 1
  soft : |k.cd.soft.toReal| < 1
  err : |k.cd.err.toReal| < 1
  dec : BitDecision.inRange k.cd.dec
  queue : ∀ d ∈ k.bq, BitDecision.inRange d
  popped : BitDecision.inRange k.fda.dec
  level : 0 ≤ k.fda.lvl.toReal

/-- The ranges of the real quantities of all channels, over exact reals, once the reset that follows a configuration has
happened. -/
def RealInv (s : State) : Prop :=
  s.phase ≠ .configured → s.cfg.num = .exact → ∀ k ∈ s.channels, RealChannelInv k

/-- The phase and the clock of one channel are in their ranges (R25, R27, R165 (d)). -/
def LoopRanges (dm : DmState) : Prop :=
  0 ≤ dm.phi.toReal ∧ dm.phi.toReal < 2 * Real.pi ∧ 0 ≤ dm.clk.toReal ∧ dm.clk.toReal < 3 * Real.pi / 2

/-- Over exact reals: the loop conditions of R6, and, once the reset that follows a configuration has happened, the phase
and the clock of every channel in their ranges (R25, R27, R165 (d)). -/
def LoopInv (s : State) : Prop :=
  (s.cfg.num = .exact → 38 / 10000 < s.cfg.w0.toReal ∧ s.cfg.w0.toReal + 38 / 10000 < 3 * Real.pi / 2) ∧
    (s.phase ≠ .configured → s.cfg.num = .exact → ∀ k ∈ s.channels, LoopRanges k.dm)

/-- No non-finite value in a frame. -/
def AcarsFrame.isFinite (f : AcarsFrame) : Prop := f.freq.finite = true ∧ f.lvldb.finite = true

/-- No non-finite value in one channel (R108, R166, R260). -/
structure FiniteChannelInv (k : Channel) : Prop where
  acc : k.ch.acc.finite = true
  phi : k.dm.phi.finite = true
  df : k.dm.df.finite = true
  clk : k.dm.clk.finite = true
  buf : ∀ z ∈ k.dm.buf, z.finite = true
  lvl : k.dm.lvl.finite = true
  y : k.cd.y.finite = true
  v : k.cd.v.finite = true
  m : k.cd.m.finite = true
  u : k.cd.u.finite = true
  soft : k.cd.soft.finite = true
  err : k.cd.err.finite = true
  dec : k.cd.dec.soft.finite = true ∧ k.cd.dec.lvl.finite = true
  queue : ∀ d ∈ k.bq, d.soft.finite = true ∧ d.lvl.finite = true
  lo : ∀ w ∈ k.lo, w.finite = true
  freq : k.fd.freq.finite = true
  lvldb : k.fd.lvldb.finite = true
  popped : k.fda.dec.soft.finite = true ∧ k.fda.dec.lvl.finite = true
  level : k.fda.lvl.finite = true
  frame : k.fda.frame.isFinite

/-- Over exact reals, no non-finite value in the machine, in its tables, in the frames queued and emitted, or in the blocks
the feed has yet to deliver (R250: the feed keeps every component finite). -/
structure FiniteInv (s : State) : Prop where
  exact : s.cfg.num = .exact
  targets : ∀ x ∈ s.cfg.ft, x.finite = true
  queued : ∀ f ∈ s.oq, f.isFinite
  output : ∀ f ∈ s.frameOut, f.isFinite
  increment : s.cfg.w0.finite = true
  divisor : 1 ≤ s.cfg.decim
  coef : ∀ x ∈ s.coef, x.finite = true
  blk : ∀ x ∈ s.blk, x.finite = true
  feed : ∀ b ∈ s.sampleIn, ∀ x ∈ b, x.finite = true
  channel : ∀ k ∈ s.channels, FiniteChannelInv k

/-- A block under construction holds no delimiter, and a finished one none before its last character, which is a
delimiter unless the block was cut at 243 characters (R107, R197). -/
structure BlockContentInv (cc : ControlChars) (k : Channel) : Prop where
  open_block : k.fd.stage = .txt → ∀ i < k.fd.len, cc.isDelimiter (k.fd.buf.read i) = false
  closed_block : k.fd.stage = .crc1 ∨ k.fd.stage = .crc2 ∨ k.fd.stage = .done →
    (∀ i, i + 1 < k.fd.len → cc.isDelimiter (k.fd.buf.read i) = false) ∧
      (cc.isDelimiter (k.fd.buf.read (k.fd.len - 1)) = true ∨ k.fd.len = 243)

/-- The content of the blocks of all channels, once the reset that follows a configuration has happened. -/
def ContentInv (s : State) : Prop :=
  s.phase ≠ .configured → ∀ k ∈ s.channels, BlockContentInv s.cfg.chars k

/-- The parser operations compute the pure parser of the raw block (R210, R211, R218), and the frame held at `OQ.PUSH` is
built from it (R243). -/
structure ParseChannelInv (cc : ControlChars) (k : Channel) : Prop where
  fixed : k.fda.pos = .fixed → k.fda.blk = AcarsBlock.ofRaw k.rawBlock
  flags : k.fda.pos = .flags → k.fda.blk = (AcarsBlock.ofRaw k.rawBlock).fixed
  opt : k.fda.pos = .opt → k.fda.blk = (AcarsBlock.ofRaw k.rawBlock).fixed.flags cc
  sublabel : k.fda.pos = .sublabel → k.fda.blk = ((AcarsBlock.ofRaw k.rawBlock).fixed.flags cc).optional cc
  build : k.fda.pos = .build → k.fda.blk = parseBlock cc k.rawBlock
  push : k.fda.pos = .push → k.fda.frame = buildFrame k.fd (parseBlock cc k.rawBlock)

/-- The parsers of all channels, once the reset that follows a configuration has happened. -/
def ParseInv (s : State) : Prop :=
  s.phase ≠ .configured → ∀ k ∈ s.channels, ParseChannelInv s.cfg.chars k

/-- The control transfers of R195: `S_CRC2` goes to `S_DONE` and on to `S_SYN1`, in one step or, held at `OQ.PUSH`, in
two. -/
def stageTransfers : List (Stage × Stage) :=
  [(.syn1, .syn2), (.syn1, .syn1), (.syn2, .soh), (.syn2, .syn1), (.soh, .txt), (.soh, .syn1)] ++
  [(.txt, .crc1), (.txt, .txt), (.crc1, .crc2), (.crc2, .done), (.crc2, .syn1), (.done, .syn1)]

/-- Which byte of `FD.buf` an operation may store to: the element `FD.len` of its channel for the text operations and for a
bit that completes a character of the text, the last element for the forced end (R65, R181, R188 to R190). -/
def storeIndex (i : Instr) (c : Nat) (k : Channel) : Option Nat :=
  let byBit : Option Nat := if k.fd.stage = .txt ∧ k.fd.nb - 1 = 0 then some k.fd.len else none
  match i with
  | .fdTxtData d _ => if d = c then some k.fd.len else none
  | .fdTxtEndEtx d _ => if d = c then some k.fd.len else none
  | .fdTxtEndEtb d _ => if d = c then some k.fd.len else none
  | .fdTxtFull d _ => if d = c then some 242 else none
  | .fdBit d => if d = c then byBit else none
  | .bqPop d => if d = c then byBit else none
  | _ => none

end Sys2Proof.Machine
end

