-- ==== Sys2Proof/Certificates/Slice0/Obligations.lean ====
section
/-! DEFINITION. The statements for the provers, one `def Obligations.<Name> : Prop` each; OBLIGATIONS.json lists them with
the rules of spec/ they formalise.

Conventions.  `s.channels[c]? = some k` says that channel `c` exists and is `k`.  A conclusion `exec i s = .next t` with
`t` written out as a record update is at once the completion, the result and the frame of the operation: every field not
named is unchanged.  Statements about real values go through `Scalar.toReal` and assume the numeric domain to be the exact
reals (`cfg.num = .exact`); what they say without that premise holds of every `Numerics` record (R7, R8;
notes/assumptions/22.md).  Where a composite goes on with an operation in the same step, the statement gives `exec` of the
composite as `exec` of that operation on the state written out. -/

open Sys2Proof Sys2Proof.Machine

/-! ### Decoding and stepping -/

/-- One step runs the operation that is selected for the agent whose turn it is, whatever that operation answers, and
moves the schedule on (R9, R12, R305).  The model's choices: a turn of the sink only changes its readiness
(notes/assumptions/13.md), and the turn of an agent with nothing to do is used up, the schedule alone moving
(notes/assumptions/7.md). -/
def Obligations.StepRunsTheSelectedOperation : Prop :=
  ∀ s : State,
    (∀ (sel : Selector) (i : Instr), select s.turn s = some sel → decode s.cfg.chars sel = .ok i →
      step s =
        match exec i s with
        | .next t => .next { t with sched := t.sched.tail, tick := t.tick + 1 }
        | .fault f => .fault f
        | .refused q => .refused q) ∧
    (∀ b, s.turn = .sink b → step s = .next { s with sinkReady := b, sched := s.sched.tail, tick := s.tick + 1 }) ∧
    ((∀ b, s.turn ≠ .sink b) → select s.turn s = none →
      step s = .next { s with sched := s.sched.tail, tick := s.tick + 1 })

/-- The operation each agent and port runs: the rows of R90.  For `CD[c]` at each sequencer position, the demapper being
selected by `DM.S` (R104); for `FDA[c]` the stage operation by stage and byte (R103), and step 3 of `BP.PARSE` by the
delimiter and the direction (R105, R211); held at `BQ.PUSH` or `OQ.PUSH` the composite that pushes resumes.  For `DISP` and
the ports the operation of the port, where something waits on it; an agent or port with nothing to run uses up its turn.
No block is taken between a configuration and the reset after it, and no configuration inside a run (R290, R292, R293).
The model's choices: that an idle agent, a channel that does not exist, or a port with nothing to take uses up its turn, the
schedule alone moving (notes/assumptions/7.md); the positions inside a composite (notes/assumptions/3.md); and that such a
block or configuration waits on its port (notes/assumptions/12.md). -/
def Obligations.PositionsSelectTheirOperations : Prop :=
  (∀ (s : State) (c : Nat) (k : Channel), s.turn = .cd c → s.channels[c]? = some k →
    step s =
      match k.cd.pos with
      | .idle => .next s.advance
      | .block => finish (exec (.chBlock c) s)
      | .sample => finish (exec (.chSample c) s)
      | .dump => finish (exec (.chDump c) s)
      | .dmSample => finish (exec (.dmSample c) s)
      | .symbol => finish (exec (.dmSymbol c) s)
      | .mf => finish (exec (.dmMf c) s)
      | .norm => finish (exec (.dmNorm c) s)
      | .level => finish (exec (.dmLevel c) s)
      | .demap =>
        if k.dm.s = 0#2 then finish (exec (.dmDemap0 c) s)
        else if k.dm.s = 1#2 then finish (exec (.dmDemap1 c) s)
        else if k.dm.s = 2#2 then finish (exec (.dmDemap2 c) s)
        else finish (exec (.dmDemap3 c) s)
      | .emit => finish (exec (.dmEmit c) s)
      | .push => finish (exec (.dmSymbol c) s)
      | .tail => finish (exec (.dmSymbol c) s)
      | .pll => finish (exec (.dmPll c) s)) ∧
  (∀ (s : State) (c : Nat) (k : Channel), s.turn = .fda c → s.channels[c]? = some k →
    match k.fda.pos with
    | .pop => step s = finish (exec (.bqPop c) s)
    | .bit => step s = finish (exec (.fdBit c) s)
    | .stage =>
      match k.fd.stage with
      | .syn1 =>
        step s = finish (exec (if k.fd.sr = s.cfg.chars.syn then .fdSyn1Hit c else .fdSyn1Miss c k.fd.sr) s)
      | .syn2 =>
        step s = finish (exec (if k.fd.sr = s.cfg.chars.syn then .fdSyn2Hit c else .fdSyn2Miss c k.fd.sr) s)
      | .soh => step s = finish (exec (if k.fd.sr = s.cfg.chars.soh then .fdSohHit c else .fdSohMiss c k.fd.sr) s)
      | .txt =>
        if maskParity k.fd.sr = s.cfg.chars.etx then step s = finish (exec (.fdTxtEndEtx c (parityBit k.fd.sr)) s)
        else if maskParity k.fd.sr = s.cfg.chars.etb then step s = finish (exec (.fdTxtEndEtb c (parityBit k.fd.sr)) s)
        else if k.fd.len = 242 then step s = finish (exec (.fdTxtFull c k.fd.sr) s)
        else k.fd.len < 242 → step s = finish (exec (.fdTxtData c k.fd.sr) s)
      | .crc1 => step s = finish (exec (.fdCrc1 c k.fd.sr) s)
      | .crc2 => step s = finish (exec (.fdCrc2 c k.fd.sr) s)
      | .done => step s = .refused (.noOperation .stageUnreachable)
    | .done => step s = finish (exec (.fdDone c) s)
    | .parse => step s = finish (exec (.bpParse c) s)
    | .fixed => step s = finish (exec (.bpFixed c) s)
    | .flags => step s = finish (exec (.bpFlags c) s)
    | .opt =>
      if k.fda.blk.delim = some s.cfg.chars.stx then
        (k.fda.blk.up = some false → step s = finish (exec (.bpDown c) s)) ∧
          (k.fda.blk.up = some true → step s = finish (exec (.bpUp c) s))
      else step s = finish (exec (.bpSublabel c) s)
    | .sublabel => step s = finish (exec (.bpSublabel c) s)
    | .build => step s = finish (exec (.faBuild c) s)
    | .push => step s = finish (exec (.fdDone c) s)
    | .resync => step s = finish (exec (.fdDone c) s)) ∧
  (∀ (s : State) (c : Nat), s.turn = .cd c ∨ s.turn = .fda c → s.channels[c]? = none → step s = .next s.advance) ∧
  (∀ s : State, s.turn = .disp → step s = finish (exec .dispDeliver s)) ∧
  (∀ s : State, s.turn = .feed →
    (∀ b rest, s.sampleIn = b :: rest → s.phase ≠ .configured → step s = finish (exec (.feedBlock b) s)) ∧
      (s.sampleIn = [] ∨ s.phase = .configured → step s = .next s.advance)) ∧
  (∀ s : State, s.turn = .eos → step s = if s.eosIn then finish (exec .feedEos s) else .next s.advance) ∧
  (∀ s : State, s.turn = .config →
    (∀ p, s.configIn = some p → ¬(s.phase = .running ∧ s.eos = false) → step s = finish (exec (.sysConfig p) s)) ∧
      (s.configIn = none ∨ (s.phase = .running ∧ s.eos = false) → step s = .next s.advance)) ∧
  (∀ s : State, s.turn = .reset → step s = if s.resetIn then finish (exec .sysReset s) else .next s.advance)

/-- Words written out from the encodings of R103 and R104 decode to the operations they stand for, and the unreachable
stage numbers to none.  The model's choices: a bare word is read as a key of channel 0 with `FD.len = 0`, so that of
`FD.TXT.FULL` reads as `FD.TXT.DATA` (notes/assumptions/21.md); the control characters are the spec's general knowledge
(notes/assumptions/16.md). -/
def Obligations.WordsDecodeToTheirOperations : Prop :=
  decodeTableWord 8 0b00 = some (.dmDemap0 0) ∧
  decodeTableWord 8 0b01 = some (.dmDemap1 0) ∧
  decodeTableWord 8 0b10 = some (.dmDemap2 0) ∧
  decodeTableWord 8 0b11 = some (.dmDemap3 0) ∧
  decodeTableWord 16 0b00000010110 = some (.fdSyn1Hit 0) ∧
  decodeTableWord 16 0b00010010110 = some (.fdSyn1Miss 0 0x96#8) ∧
  decodeTableWord 16 0b00100010110 = some (.fdSyn2Hit 0) ∧
  decodeTableWord 16 0b01000000001 = some (.fdSohHit 0) ∧
  decodeTableWord 16 0b01010000001 = some (.fdSohMiss 0 0x81#8) ∧
  decodeTableWord 16 0b01110000011 = some (.fdTxtEndEtx 0 true) ∧
  decodeTableWord 16 0b01100010111 = some (.fdTxtEndEtb 0 false) ∧
  decodeTableWord 16 0b01110101101 = some (.fdTxtData 0 0xAD#8) ∧
  decodeTableWord 16 0b10010100101 = some (.fdCrc1 0 0xA5#8) ∧
  decodeTableWord 16 0b10100111100 = some (.fdCrc2 0 0x3C#8) ∧
  decodeTableWord 16 0b11000010110 = none ∧
  decodeTableWord 16 0b11100010110 = none

/-- The decoder is the table of R103: for every 11-bit key of a reachable stage and every `FD.len` up to 242 there is a
first row that matches, and the decoder gives an operation of that row, for the given channel and with the key's byte (its
encoding is the key again, so the two rows of `FD.TXT.END` are told apart); the keys of stage numbers 6 and 7 select
nothing. -/
def Obligations.DecoderIsTheSelectorTable : Prop :=
  ∀ (c : Nat) (key : BitVec 11) (len : Nat), len ≤ 242 →
    (keyStage key < 6#3 →
      ∃ row i, selectorRows.find? (fun r => r.hits key len) = some row ∧
        decodeFdKey ControlChars.default c key len = .ok i ∧ i.mnemonic = row.mnemonic ∧ i.channel? = some c ∧
        ∃ len', encode ControlChars.default i = .fdKey c key len') ∧
    (6#3 ≤ keyStage key →
      decodeFdKey ControlChars.default c key len = .error .stageUnreachable ∧
        selectorRows.find? (fun r => r.hits key len) = none)

/-- Decode and encode agree on every operation: under any admitted control characters the selector of a well-formed
operation decodes to that operation, with every operand. -/
def Obligations.DecodeOfEncode : Prop :=
  ∀ (i : Instr) (nchan : Nat) (cc : ControlChars), cc.admitted = true → i.wellFormed nchan cc = true →
    decode cc (encode cc i) = .ok i

/-- The other direction for the Frame Decoder: whatever operation a key selects, that operation is well-formed and its
encoding has the same key, so no bit of a key is lost and no two operations share a key other than `FD.TXT.FULL` and
`FD.TXT.DATA`, which `FD.len` tells apart. -/
def Obligations.EncodeOfDecodedKey : Prop :=
  ∀ (cc : ControlChars) (nchan c : Nat) (key : BitVec 11) (len : Nat) (i : Instr), cc.admitted = true → c < nchan →
    decodeFdKey cc c key len = .ok i →
      i.wellFormed nchan cc = true ∧ ∃ len', encode cc i = .fdKey c key len' ∧ (len' = 242 ↔ i.mnemonic = "FD.TXT.FULL")

/-! ### Channelizer -/

/-- `CH.BLOCK` accepts the block in `BLK`, clears the cursor and starts the loop; a block of another length is refused
(R131, R268); after end-of-stream the operation holds (R43, R131). -/
def Obligations.ChBlockStartsTheLoop : Prop :=
  ∀ (s : State) (c : Nat) (k : Channel), s.channels[c]? = some k →
    (s.eos = false → s.blk.length = s.cfg.blockLen → 1 ≤ s.cfg.blockLen →
      exec (.chBlock c) s =
        .next (s.putChannel c { k with ch := { k.ch with n := 0 }, cd := { k.cd with pos := .sample } })) ∧
    (s.eos = false → s.blk.length ≠ s.cfg.blockLen → exec (.chBlock c) s = .refused .cvBlockLen) ∧
    (s.eos = true → exec (.chBlock c) s = .next s)

/-- `CH.SAMPLE` on a finite sample `x` with table entry `w` adds the complex product `x·w` to the accumulator and counts
(R132, R8).  Where that does not fill the window the operation ends there; where it does, `CH.DUMP` is part of it, in the
same step.  It refuses a sample that is not finite, then an index beyond the oscillator table (R266, R267, R272). -/
def Obligations.ChSampleMixesAndAccumulates : Prop :=
  ∀ (s : State) (c : Nat) (k : Channel) (x : Cplx), s.channels[c]? = some k → s.blk[k.ch.n]? = some x →
    let N := s.cfg.numerics
    (∀ w, N.cFinite x = true → k.lo[k.ch.n]? = some w →
      let acc : Cplx :=
        ⟨N.add k.ch.acc.re (N.sub (N.mul x.re w.re) (N.mul x.im w.im)),
          N.add k.ch.acc.im (N.add (N.mul x.re w.im) (N.mul x.im w.re))⟩
      let mixed := fun (pos : CdPos) =>
        s.putChannel c
          { k with
            ch := { acc := acc, cnt := k.ch.cnt + 1, n := k.ch.n + 1 }
            cd := { k.cd with pos := pos } }
      (s.cfg.num = .exact →
        acc.re.toReal = k.ch.acc.re.toReal + (x.re.toReal * w.re.toReal - x.im.toReal * w.im.toReal) ∧
        acc.im.toReal = k.ch.acc.im.toReal + (x.re.toReal * w.im.toReal + x.im.toReal * w.re.toReal)) ∧
      (k.ch.cnt + 1 ≠ s.cfg.decim →
        exec (.chSample c) s = .next (mixed (if k.ch.n + 1 < s.cfg.blockLen then .sample else .idle))) ∧
      (k.ch.cnt + 1 = s.cfg.decim → exec (.chSample c) s = exec (.chDump c) (mixed .dump))) ∧
    (N.cFinite x = false → exec (.chSample c) s = .refused .cvNonfinite) ∧
    (N.cFinite x = true → k.lo.length ≤ k.ch.n → exec (.chSample c) s = .refused .cvLoIndex)

/-- `CH.DUMP` divides the window sum by `DECIM`, clears the accumulator and the count, and runs `DM.SAMPLE` on the magnitude,
in the same step; the envelope sample is never negative (R133, R93).  Over exact reals it completes on every finite window
sum. -/
def Obligations.ChDumpClosesTheWindow : Prop :=
  ∀ (s : State) (c : Nat) (k : Channel), s.channels[c]? = some k →
    ∃ y zero : Scalar,
      zero = s.cfg.numerics.ofRat 0 ∧ (s.cfg.num = .exact → zero = Scalar.zero) ∧
      (s.cfg.num = .exact →
        y.toReal = Real.sqrt ((k.ch.acc.re.toReal / s.cfg.decim) ^ 2 + (k.ch.acc.im.toReal / s.cfg.decim) ^ 2) ∧
          0 ≤ y.toReal) ∧
      exec (.chDump c) s =
        exec (.dmSample c)
          (s.putChannel c
            { k with
              ch := { k.ch with acc := ⟨zero, zero⟩, cnt := 0 }
              cd := { k.cd with y := y, pos := .dmSample } }) ∧
      (s.cfg.num = .exact → k.ch.acc.finite = true → 1 ≤ s.cfg.decim → ∃ t, exec (.chDump c) s = .next t)

/-! ### Demodulator -/

/-- `DM.SAMPLE` on a finite envelope sample runs to completion, whatever the comparisons of the numeric domain say: the phase,
the clock, one buffer element and the index are written, and then a symbol falls in the same step or the operation ends
there; it is refused exactly on a sample that is not finite (R153, R154, R266). -/
def Obligations.DmSampleCompletes : Prop :=
  ∀ (s : State) (c : Nat) (k : Channel), s.channels[c]? = some k →
    let N := s.cfg.numerics
    (N.finite k.cd.y = true →
      (∃ t, exec (.dmSample c) s = .next t) ∧
      ∃ (phi clk : Scalar) (z : Cplx),
        let after := fun (pos : CdPos) =>
          s.putChannel c
            { k with
              dm := { k.dm with
                phi := phi, clk := clk, buf := k.dm.buf.set k.dm.idx z, idx := (k.dm.idx + 1) % s.cfg.flen }
              cd := { k.cd with pos := pos } }
        exec (.dmSample c) s = exec (.dmSymbol c) (after .symbol) ∨
          exec (.dmSample c) s = .next (after (if k.ch.n < s.cfg.blockLen then .sample else .idle))) ∧
    (N.finite k.cd.y = false → exec (.dmSample c) s = .refused .cvNonfinite)

/-- What `DM.SAMPLE` computes over exact reals: the common increment `W0 + DM.df`, the phase wrapped at `2π`, the sample mixed
with the new phase and stored at the index, the clock wrapped at `3π/2`, and a symbol, in the same step, exactly when the
clock reached it (R153, decisions D11 and D12). -/
def Obligations.DmSampleAdvancesMixesAndClocks : Prop :=
  ∀ (s : State) (c : Nat) (k : Channel), s.channels[c]? = some k → s.cfg.num = .exact → k.cd.y.finite = true →
    k.dm.phi.finite = true → k.dm.clk.finite = true → k.dm.df.finite = true → s.cfg.w0.finite = true →
      let inc := s.cfg.w0.toReal + k.dm.df.toReal
      ∃ (phi clk : Scalar) (z : Cplx),
        (phi.toReal =
          if 2 * Real.pi ≤ k.dm.phi.toReal + inc then k.dm.phi.toReal + inc - 2 * Real.pi else k.dm.phi.toReal + inc) ∧
        (clk.toReal =
          if 3 * Real.pi / 2 ≤ k.dm.clk.toReal + inc then k.dm.clk.toReal + inc - 3 * Real.pi / 2
          else k.dm.clk.toReal + inc) ∧
        z.re.toReal = k.cd.y.toReal * Real.cos phi.toReal ∧ z.im.toReal = -(k.cd.y.toReal * Real.sin phi.toReal) ∧
        let after := fun (pos : CdPos) =>
          s.putChannel c
            { k with
              dm := { k.dm with
                phi := phi, clk := clk, buf := k.dm.buf.set k.dm.idx z, idx := (k.dm.idx + 1) % s.cfg.flen }
              cd := { k.cd with pos := pos } }
        (3 * Real.pi / 2 ≤ k.dm.clk.toReal + inc →
          exec (.dmSample c) s = exec (.dmSymbol c) (after .symbol)) ∧
        (k.dm.clk.toReal + inc < 3 * Real.pi / 2 →
          exec (.dmSample c) s = .next (after (if k.ch.n < s.cfg.blockLen then .sample else .idle)))

/-- The ranges of R165 (d): over exact reals, from a phase in `[0, 2π)` and a clock in `[0, 3π/2)`, with `|DM.df| < PLLG` and
the loop conditions of R6, one `DM.SAMPLE`, with the symbol that may fall in it, restores both ranges, so one subtraction is
enough and at most one symbol falls in a sample. -/
def Obligations.DmSampleRestoresItsRanges : Prop :=
  ∀ (s t : State) (c : Nat) (k k' : Channel), s.channels[c]? = some k → s.cfg.num = .exact →
    k.dm.phi.finite = true → k.dm.clk.finite = true → k.dm.df.finite = true → s.cfg.w0.finite = true →
    |k.dm.df.toReal| < 38 / 10000 → 38 / 10000 < s.cfg.w0.toReal →
    s.cfg.w0.toReal + 38 / 10000 < 3 * Real.pi / 2 →
    0 ≤ k.dm.phi.toReal → k.dm.phi.toReal < 2 * Real.pi → 0 ≤ k.dm.clk.toReal → k.dm.clk.toReal < 3 * Real.pi / 2 →
    exec (.dmSample c) s = .next t → t.channels[c]? = some k' →
      0 ≤ k'.dm.phi.toReal ∧ k'.dm.phi.toReal < 2 * Real.pi ∧ 0 ≤ k'.dm.clk.toReal ∧
        k'.dm.clk.toReal < 3 * Real.pi / 2

/-- `DM.SYMBOL` is its six steps in order, in one step of the machine (R154): `DM.MF`, `DM.NORM`, `DM.LEVEL`, the demapper
operation that `DM.S` selects, and `DM.EMIT`; then, the decision pushed, the symbol is counted modulo 4 and `DM.PLL` runs
(R168).  While `BQ[c]` is full it is held at `BQ.PUSH`, changing nothing, and resumes there. -/
def Obligations.DmSymbolSequences : Prop :=
  ∀ (s : State) (c : Nat) (k : Channel), s.channels[c]? = some k →
    (k.cd.pos ≠ .push → k.cd.pos ≠ .tail →
      ∃ (t : State) (k' : Channel),
        runOps [.dmMf c, .dmNorm c, .dmLevel c, decodeDemap c k.dm.s, .dmEmit c] s = .next t ∧
        t.channels[c]? = some k' ∧
        ((k'.cd.pos = .tail ∧ exec (.dmSymbol c) s = exec (.dmSymbol c) t) ∨
          (k'.cd.pos = .push ∧ exec (.dmSymbol c) s = .next t))) ∧
    (k.cd.pos = .push →
      (k.bq.length < s.cfg.bqCap →
        exec (.dmSymbol c) s =
          exec (.dmSymbol c) (s.putChannel c { k with bq := k.bq ++ [k.cd.dec], cd := { k.cd with pos := .tail } })) ∧
      (s.cfg.bqCap ≤ k.bq.length → exec (.dmSymbol c) s = .next s)) ∧
    (k.cd.pos = .tail →
      ∃ n : BitVec 2, n.toNat = (k.dm.s.toNat + 1) % 4 ∧
        exec (.dmSymbol c) s =
          exec (.dmPll c) (s.putChannel c { k with dm := { k.dm with s := n }, cd := { k.cd with pos := .pll } }))

/-- `DM.MF` is, over exact reals, the sum of coefficient times sample by age (R155, R64); nothing but the in-flight value
changes.  That age 0 is the oldest sample is the reading R155 itself marks as the spec's decision D10
(notes/assumptions/19.md). -/
def Obligations.DmMfIsTheCorrelation : Prop :=
  ∀ (s : State) (c : Nat) (k : Channel), s.channels[c]? = some k →
    ∃ v : Cplx,
      (s.cfg.num = .exact →
        v.re.toReal = ∑ a ∈ Finset.range s.cfg.flen,
          (s.coef.getD a Scalar.zero).toReal * (k.dm.buf.getD ((k.dm.idx + a) % s.cfg.flen) Cplx.zero).re.toReal ∧
        v.im.toReal = ∑ a ∈ Finset.range s.cfg.flen,
          (s.coef.getD a Scalar.zero).toReal * (k.dm.buf.getD ((k.dm.idx + a) % s.cfg.flen) Cplx.zero).im.toReal) ∧
      exec (.dmMf c) s = .next (s.putChannel c { k with cd := { k.cd with v := v, pos := .norm } })

/-- `DM.NORM`: over exact reals, magnitude, and normalisation by magnitude plus `1e-6`, which stays inside the unit disc and
is 0 for a zero input; the event `EV_DEGENERATE` is recorded exactly where the magnitude is 0, and nothing else changes
(R156, R165 (a), R265). -/
def Obligations.DmNormNormalises : Prop :=
  ∀ (s : State) (c : Nat) (k : Channel), s.channels[c]? = some k →
    ∃ (m : Scalar) (u : Cplx) (zero : Bool),
      exec (.dmNorm c) s =
        .next
          { s.putChannel c { k with cd := { k.cd with m := m, u := u, pos := .level } } with
            events := if zero then s.events ++ [.degenerate c] else s.events } ∧
      (s.cfg.num = .exact →
        m.toReal = Real.sqrt (k.cd.v.re.toReal ^ 2 + k.cd.v.im.toReal ^ 2) ∧
        u.re.toReal = k.cd.v.re.toReal / (m.toReal + 1 / 1000000) ∧
        u.im.toReal = k.cd.v.im.toReal / (m.toReal + 1 / 1000000) ∧
        u.re.toReal ^ 2 + u.im.toReal ^ 2 < 1 ∧
        (k.cd.v = Cplx.zero → m = Scalar.zero ∧ u.re.toReal = 0 ∧ u.im.toReal = 0) ∧
        (k.cd.v.finite = true → (zero = true ↔ k.cd.v.re.toReal = 0 ∧ k.cd.v.im.toReal = 0)))

/-- `DM.LEVEL`: over exact reals the moving average `0.99·old + 0.01·(m/5.2)`, which keeps the level non-negative (R157,
R30). -/
def Obligations.DmLevelAverages : Prop :=
  ∀ (s : State) (c : Nat) (k : Channel), s.channels[c]? = some k →
    ∃ lvl : Scalar,
      (s.cfg.num = .exact →
        lvl.toReal = 99 / 100 * k.dm.lvl.toReal + 1 / 100 * (k.cd.m.toReal / (52 / 10)) ∧
        (0 ≤ k.dm.lvl.toReal → 0 ≤ k.cd.m.toReal → 0 ≤ lvl.toReal)) ∧
      exec (.dmLevel c) s =
        .next (s.putChannel c { k with dm := { k.dm with lvl := lvl }, cd := { k.cd with pos := .demap } })

/-- The four demapper operations complete for every table and every value and change nothing but the two in-flight values;
under the default table and over exact reals, soft value and error term are those of R158 to R162, `vo = 0` counting as
non-negative.  The table is the spec's decision D13, a parameter of the model (notes/assumptions/17.md). -/
def Obligations.DemapperFollowsItsTable : Prop :=
  ∀ (s : State) (c : Nat) (k : Channel), s.channels[c]? = some k →
    let ur := k.cd.u.re.toReal
    let ui := k.cd.u.im.toReal
    let known := s.cfg.num = .exact ∧ s.cfg.demap = DemapTable.default ∧ k.cd.u.finite = true
    let done := fun (soft err : Scalar) =>
      s.putChannel c { k with cd := { k.cd with soft := soft, err := err, pos := .emit } }
    (∃ soft err : Scalar, exec (.dmDemap0 c) s = .next (done soft err) ∧
      (known → soft.toReal = ur ∧ err.toReal = if 0 ≤ ur then ui else -ui)) ∧
    (∃ soft err : Scalar, exec (.dmDemap1 c) s = .next (done soft err) ∧
      (known → soft.toReal = ui ∧ err.toReal = if 0 ≤ ui then -ur else ur)) ∧
    (∃ soft err : Scalar, exec (.dmDemap2 c) s = .next (done soft err) ∧
      (known → soft.toReal = -ur ∧ err.toReal = if 0 ≤ ur then ui else -ui)) ∧
    (∃ soft err : Scalar, exec (.dmDemap3 c) s = .next (done soft err) ∧
      (known → soft.toReal = -ui ∧ err.toReal = if 0 ≤ ui then -ur else ur))

/-- Bit polarity: over exact reals and with every row of any demapper table, replacing `u` by `−u` negates the soft value and
leaves the error term unchanged, and so complements the hard bit, where the decision component is not 0 (R300). -/
def Obligations.PolarityNegatesSoftKeepsErr : Prop :=
  ∀ (row : DemapRow) (u : Cplx), (demapDecision row u).finite = true → (demapDecision row u).toReal ≠ 0 →
    let N := Numerics.exact
    let opposite : Cplx := ⟨u.re.neg, u.im.neg⟩
    (demapSoft N row opposite).toReal = -(demapSoft N row u).toReal ∧
      (demapErr N row opposite).toReal = (demapErr N row u).toReal ∧
      hardBit N (demapSoft N row opposite) = !hardBit N (demapSoft N row u)

/-- `DM.PLL` assigns `DM.df <- 3.8e-3 · err`: the new value replaces the old one; over exact reals it is 0 for a zero error,
and smaller than the gain for an error inside `(−1, 1)` (R164); the loop over the block goes on. -/
def Obligations.DmPllAssignsTheCorrection : Prop :=
  ∀ (s : State) (c : Nat) (k : Channel), s.channels[c]? = some k →
    ∃ df : Scalar,
      (s.cfg.num = .exact →
        df.toReal = 38 / 10000 * k.cd.err.toReal ∧
        (k.cd.err.toReal = 0 → df.toReal = 0) ∧
        (|k.cd.err.toReal| < 1 → |df.toReal| < 38 / 10000)) ∧
      exec (.dmPll c) s =
        .next (s.putChannel c
          { k with
            dm := { k.dm with df := df }
            cd := { k.cd with pos := if k.ch.n < s.cfg.blockLen then .sample else .idle } })

/-- One whole symbol decision (R154), in one step.  With room in `BQ[c]`, `DM.SYMBOL` pushes exactly one decision
`(soft, lvl)`, counts the symbol, sets the correction from the same symbol's error term, and returns to the loop.  While
`BQ[c]` is full it is held in the middle (R241): steps 1 to 4 done, the symbol neither counted nor the correction set.  That
the count follows the push is the spec's decision D14 (notes/assumptions/19.md); the position at which a held decision waits
is the model's (notes/assumptions/3.md). -/
def Obligations.SymbolDecisionIsEmitted : Prop :=
  ∀ (s : State) (c : Nat) (k : Channel) (row : DemapRow), s.channels[c]? = some k → k.cd.pos ≠ .push → k.cd.pos ≠ .tail →
    (k.dm.s = 0#2 → row = s.cfg.demap.row0) → (k.dm.s = 1#2 → row = s.cfg.demap.row1) →
    (k.dm.s = 2#2 → row = s.cfg.demap.row2) → (k.dm.s = 3#2 → row = s.cfg.demap.row3) →
      let N := s.cfg.numerics
      let v := matchedFilter N s.cfg.flen s.coef k.dm
      let m := N.cAbs v
      let u := normalise N v m
      let dm := { k.dm with lvl := levelNext N k.dm.lvl m }
      let dec : BitDecision := ⟨demapSoft N row u, levelNext N k.dm.lvl m⟩
      let cd := { k.cd with v := v, m := m, u := u, soft := demapSoft N row u, err := demapErr N row u, dec := dec }
      let events := if isDegenerate N m then s.events ++ [.degenerate c] else s.events
      (k.bq.length < s.cfg.bqCap →
        exec (.dmSymbol c) s =
          .next
            { s.putChannel c
                { k with
                  bq := k.bq ++ [dec]
                  dm := { dm with s := k.dm.s + 1, df := N.mul N.pllg (demapErr N row u) }
                  cd := { cd with pos := if k.ch.n < s.cfg.blockLen then .sample else .idle } } with
              events := events }) ∧
      (s.cfg.bqCap ≤ k.bq.length →
        exec (.dmSymbol c) s =
          .next { s.putChannel c { k with dm := dm, cd := { cd with pos := .push } } with events := events })

/-! ### Frame Decoder -/

/-- `FD.BIT`: logical shift right with the hard bit of the popped decision into bit 7, 1 for a positive soft value and 0 for
any other, count down, and, exactly when the byte is complete, the stage operation that the byte selects, in the same step
(R181, R95, R198); the level of the decision is kept for `FD.SOH.HIT`. -/
def Obligations.FdBitShiftsAndCounts : Prop :=
  ∀ (s : State) (c : Nat) (k : Channel), s.channels[c]? = some k →
    ∃ sr : Byte,
      (∀ j < 7, sr.getLsbD j = k.fd.sr.getLsbD (j + 1)) ∧
      sr.getLsbD 7 = hardBit s.cfg.numerics k.fda.dec.soft ∧
      (s.cfg.num = .exact → k.fda.dec.soft.finite = true → sr.getLsbD 7 = decide (0 < k.fda.dec.soft.toReal)) ∧
      let after := fun (pos : FdaPos) =>
        s.putChannel c
          { k with
            fd := { k.fd with sr := sr, nb := k.fd.nb - 1 }
            fda := { k.fda with lvl := k.fda.dec.lvl, pos := pos } }
      (k.fd.nb - 1 ≠ 0 → exec (.fdBit c) s = .next (after .pop)) ∧
      (k.fd.nb - 1 = 0 →
        (∀ i, decodeByte s.cfg.chars c k.fd.stage sr k.fd.len = .ok i → exec (.fdBit c) s = exec i (after .stage)) ∧
        (∀ e, decodeByte s.cfg.chars c k.fd.stage sr k.fd.len = .error e →
          exec (.fdBit c) s = .refused (.noOperation e)))

/-- A received byte is assembled least significant bit first: eight queued decisions, popped one after the other, run the
stage operation that the byte `Σ bit_k·2^k` selects, whatever the shift register held before (R67, R102 (a), R181). -/
def Obligations.EightDecisionsMakeAByte : Prop :=
  ∀ (s : State) (c : Nat) (k : Channel) (ds rest : List BitDecision) (d : BitDecision), s.channels[c]? = some k →
    k.fd.nb = 8 → ds.length = 8 → ds[7]? = some d → k.bq = ds ++ rest →
      ∃ byte : Byte,
        byte.toNat = ∑ j ∈ Finset.range 8, (if (ds[j]?.any fun d => hardBit s.cfg.numerics d.soft) then 2 ^ j else 0) ∧
        ∀ i, decodeByte s.cfg.chars c k.fd.stage byte k.fd.len = .ok i →
          runOps (List.replicate 8 (.bqPop c)) s =
            exec i
              (s.putChannel c
                { k with
                  fd := { k.fd with sr := byte, nb := 0 }
                  bq := rest
                  fda := { k.fda with dec := d, lvl := d.lvl, pos := .stage } })

/-- The two sync characters: `FD.SYN1.HIT` in `S_SYN1` and `FD.SYN2.HIT` in `S_SYN2` are selected by exactly the byte `SYN`
and go to `S_SYN2` and `S_SOH` with 8 bits to take (R182, R184); a third `SYN` is a miss in `S_SOH` (R184, R187).  That all
8 bits are compared is what R96 marks as the spec's decision D18 (notes/assumptions/19.md). -/
def Obligations.SyncCharactersAdvance : Prop :=
  ∀ (s : State) (c : Nat) (k : Channel), s.channels[c]? = some k →
    (∀ (r : Byte) (len : Nat), decodeByte s.cfg.chars c .syn1 r len = .ok (.fdSyn1Hit c) ↔ r = s.cfg.chars.syn) ∧
    (∀ (r : Byte) (len : Nat), decodeByte s.cfg.chars c .syn2 r len = .ok (.fdSyn2Hit c) ↔ r = s.cfg.chars.syn) ∧
    (s.cfg.chars.admitted = true → ∀ len : Nat,
      decodeByte s.cfg.chars c .soh s.cfg.chars.syn len = .ok (.fdSohMiss c s.cfg.chars.syn)) ∧
    exec (.fdSyn1Hit c) s =
      .next (s.putChannel c
        { k with fd := { k.fd with stage := .syn2, nb := 8 }, fda := { k.fda with pos := .pop } }) ∧
    exec (.fdSyn2Hit c) s =
      .next (s.putChannel c { k with fd := { k.fd with stage := .soh, nb := 8 }, fda := { k.fda with pos := .pop } })

/-- The misses: each returns to `S_SYN1` with `SEEK_RELOAD` bits to take and changes nothing else of the decoder; the two
that lose a synchronisation record `EV_SYNC_LOSS` with stage and byte, the idle one records nothing (R183, R185, R187,
R194, R262). -/
def Obligations.MissesResynchronise : Prop :=
  ∀ (s : State) (c : Nat) (k : Channel) (r : Byte), s.channels[c]? = some k →
    let lost := s.putChannel c
      { k with fd := { k.fd with stage := .syn1, nb := s.cfg.seekReload }, fda := { k.fda with pos := .pop } }
    exec (.fdSyn1Miss c r) s = .next lost ∧
    exec (.fdSyn2Miss c r) s = .next { lost with events := s.events ++ [.syncLoss c .syn2 r] } ∧
    exec (.fdSohMiss c r) s = .next { lost with events := s.events ++ [.syncLoss c .soh r] }

/-- `FD.SOH.HIT` opens a frame: a timestamp is drawn, the frequency is the channel's, the level is, over exact reals, `10·log10`
of the level of the deciding decision where that is positive and any real where it is not, the length is cleared, and the
buffer is left as it is (R186).  That the length is cleared here and that the level is that of the completing decision are
what R186 marks as the spec's decisions D21 and D16 (notes/assumptions/19.md); the counter of draws is the model's
(notes/assumptions/8.md, 9.md), and so is that a channel which a later configuration left without a target frequency still
opens its frame, with a free value as frequency (notes/assumptions/11.md). -/
def Obligations.SohHitOpensAFrame : Prop :=
  ∀ (s : State) (c : Nat) (k : Channel), s.channels[c]? = some k →
    ∃ (ts : Time) (freq lvldb : Scalar),
      (∀ ft, s.cfg.ft[c]? = some ft → freq = ft) ∧
      (s.cfg.num = .exact → k.fda.lvl.finite = true →
        lvldb.finite = true ∧ (0 < k.fda.lvl.toReal → lvldb.toReal = 10 * Real.logb 10 k.fda.lvl.toReal)) ∧
      exec (.fdSohHit c) s =
        .next
          { s.putChannel c
              { k with
                fd := { k.fd with stage := .txt, nb := 8, ts := ts, freq := freq, lvldb := lvldb, len := 0 }
                fda := { k.fda with pos := .pop } } with
            draws := s.draws + 1 }

/-- The operations of `S_TXT` (R188 to R190): the masked character is stored at `FD.len`, the length grows by one, a
delimiter or the 243rd character ends the block, only the latter with an event; every other byte of `FD.buf` reads as
before. -/
def Obligations.TextOperationsStoreOneCharacter : Prop :=
  ∀ (s : State) (c : Nat) (k : Channel) (r : Byte), s.channels[c]? = some k → k.fd.buf.wf → s.cfg.chars.admitted = true →
    let stored := fun (buf : Memory) (ch : Byte) =>
      buf.wf ∧ ∀ a, buf.read a = if a = k.fd.len then ch else k.fd.buf.read a
    let after := fun (buf : Memory) (st : Stage) =>
      s.putChannel c
        { k with
          fd := { k.fd with stage := st, nb := 8, buf := buf, len := k.fd.len + 1 }, fda := { k.fda with pos := .pop } }
    (k.fd.len < 242 →
      ∃ buf, stored buf (r &&& 0x7F#8) ∧ exec (.fdTxtData c r) s = .next (after buf .txt)) ∧
    (∀ p, k.fd.len ≤ 242 →
      (∃ buf, stored buf s.cfg.chars.etx ∧ exec (.fdTxtEndEtx c p) s = .next (after buf .crc1)) ∧
      (∃ buf, stored buf s.cfg.chars.etb ∧ exec (.fdTxtEndEtb c p) s = .next (after buf .crc1))) ∧
    (k.fd.len = 242 →
      ∃ buf, stored buf (r &&& 0x7F#8) ∧
        exec (.fdTxtFull c r) s = .next { after buf .crc1 with events := s.events ++ [.forcedTerm c 243] })

/-- The two CRC bytes are stored whole and unchecked, whatever they are: in `S_CRC1` and `S_CRC2` every byte selects the
storing operation (R103, R191, R192, R270); `FD.CRC2` stores its byte and runs `FD.DONE` in the same step (R192), and so
completes for every length of a block. -/
def Obligations.CrcBytesAreStoredUnchecked : Prop :=
  ∀ (s : State) (c : Nat) (k : Channel) (r : Byte), s.channels[c]? = some k →
    (∀ len : Nat, decodeByte s.cfg.chars c .crc1 r len = .ok (.fdCrc1 c r)) ∧
    (∀ len : Nat, decodeByte s.cfg.chars c .crc2 r len = .ok (.fdCrc2 c r)) ∧
    exec (.fdCrc1 c r) s =
      .next (s.putChannel c
        { k with fd := { k.fd with stage := .crc2, nb := 8, crc0 := r }, fda := { k.fda with pos := .pop } }) ∧
    exec (.fdCrc2 c r) s =
      exec (.fdDone c)
        (s.putChannel c
          { k with fd := { k.fd with stage := .done, crc1 := r }, fda := { k.fda with pos := .done } }) ∧
    (k.fd.len ≤ 243 → ∃ t, exec (.fdCrc2 c r) s = .next t)

/-- `FD.DONE` is its lines in order, in one step of the machine: `BP.PARSE`, `FA.BUILD`, `OQ.PUSH`; then, the frame pushed, it
returns to seeking, leaving the buffer, the length and the frame fields as they are (R193, R194, R302).  While `OQ` is full
it is held at `OQ.PUSH`, changing nothing, and resumes there. -/
def Obligations.FdDoneParsesThenSeeks : Prop :=
  ∀ (s : State) (c : Nat) (k : Channel), s.channels[c]? = some k →
    (k.fda.pos ≠ .push → k.fda.pos ≠ .resync → k.fd.len ≤ 243 →
      ∃ (t : State) (k' : Channel),
        runOps [.bpParse c, .faBuild c, .oqPush c] s = .next t ∧ t.channels[c]? = some k' ∧
        ((k'.fda.pos = .resync ∧ exec (.fdDone c) s = exec (.fdDone c) t) ∨
          (k'.fda.pos = .push ∧ exec (.fdDone c) s = .next t))) ∧
    (k.fda.pos = .push →
      (s.oq.length < s.cfg.oqCap →
        exec (.fdDone c) s =
          exec (.fdDone c)
            { s.putChannel c { k with fda := { k.fda with pos := .resync } } with oq := s.oq ++ [k.fda.frame] }) ∧
      (s.cfg.oqCap ≤ s.oq.length → exec (.fdDone c) s = .next s)) ∧
    (k.fda.pos = .resync →
      exec (.fdDone c) s =
        .next (s.putChannel c
          { k with fd := { k.fd with stage := .syn1, nb := s.cfg.seekReload }, fda := { k.fda with pos := .pop } }))

/-- Every control transfer of the Frame Decoder is one of the table of R195: in a state that meets the decoder's invariant,
a step that is no reset and no configuration moves the stage of a channel only along the table; `S_CRC2` goes through the
transient `S_DONE` to `S_SYN1` in one step, or, held at `OQ.PUSH`, in two (R192, R193). -/
def Obligations.StageTransfersFollowTheTable : Prop :=
  ∀ (s s' : State) (c : Nat) (k k' : Channel), FdInv s → step s = .next s' → s.turn ≠ .reset →
    s.channels[c]? = some k → s'.channels[c]? = some k' →
      k'.fd.stage = k.fd.stage ∨ (k.fd.stage, k'.fd.stage) ∈ stageTransfers

/-- Every byte of every `FD.buf` that an operation other than `SYS.RESET` does not store to reads as before. -/
def Obligations.OperationsKeepOtherBytes : Prop :=
  ∀ (i : Instr) (s t : State) (c : Nat) (k k' : Channel), exec i s = .next t → i ≠ .sysReset →
    s.channels[c]? = some k → t.channels[c]? = some k' → k.fd.buf.wf →
      k'.fd.buf.wf ∧ ∀ a, some a ≠ storeIndex i c k → k'.fd.buf.read a = k.fd.buf.read a

/-! ### Block Parser -/

/-- `BP.PARSE` is, in one step, the four steps of R211 run on a block that holds exactly the bytes below the block length and
has every presence bit 0, for every length of its domain (R210, R219, R220): `BP.FIXED`, `BP.FLAGS`, the optional fields of
the direction where the delimiter is `STX`, `BP.SUBLABEL`.  It records `EV_SHORT_BLOCK` exactly in the four cases of R264. -/
def Obligations.BpParseReadsTheBlock : Prop :=
  ∀ (s : State) (c : Nat) (k : Channel), s.channels[c]? = some k → k.fd.len ≤ 243 →
    ∃ (raw : List Byte) (b : AcarsBlock) (events : List Event),
      raw.length = k.fd.len ∧ (∀ i < k.fd.len, raw[i]? = some (k.fd.buf.read i)) ∧ b.raw = raw ∧
      b = parseBlock s.cfg.chars raw ∧
      let fresh : AcarsBlock :=
        { raw := raw, mode := none, addr := none, ack := none, label := none, bid := none, delim := none
          suffix := none, up := none, mb := none, msn := none, flight := none, text := none, sublabel := none }
      let optional : List Instr :=
        if b.delim = some s.cfg.chars.stx then [if b.up = some false then .bpDown c else .bpUp c] else []
      let short : Prop :=
        k.fd.len < 13 ∨
        (b.delim = some s.cfg.chars.stx ∧ b.up = some false ∧ k.fd.len ≤ 25) ∨
        (b.delim = some s.cfg.chars.stx ∧ b.up = some true ∧ k.fd.len ≤ 15) ∨
        (b.label = some [0x48#8, 0x31#8] ∧ k.fd.len < 26)
      let parsed := s.putChannel c { k with fda := { k.fda with blk := b, pos := .build } }
      runOps ([.bpFixed c, .bpFlags c] ++ optional ++ [.bpSublabel c])
        (s.putChannel c { k with fda := { k.fda with blk := fresh } }) = .next parsed ∧
      (short → events = s.events ++ [.shortBlock c]) ∧ (¬short → events = s.events) ∧
      exec (.bpParse c) s = .next { parsed with events := events }

/-- `BP.FIXED` on a fresh block: each fixed field is present exactly when its last byte lies inside the block, and holds the
bytes of its offsets; the suffix is the last byte (R212, R101).  The length guards are what R212 calls this spec's bound
checks, its decision D23 (notes/assumptions/19.md). -/
def Obligations.BpFixedExtractsTheFixedFields : Prop :=
  ∀ (s : State) (c : Nat) (k : Channel) (raw : List Byte), s.channels[c]? = some k →
    k.fda.blk = { AcarsBlock.empty with raw := raw } →
      ∃ b : AcarsBlock,
        exec (.bpFixed c) s = .next (s.putChannel c { k with fda := { k.fda with pos := .flags, blk := b } }) ∧
        b = { AcarsBlock.empty with
          raw := raw, mode := b.mode, addr := b.addr, ack := b.ack, label := b.label, bid := b.bid, delim := b.delim
          suffix := b.suffix } ∧
        b.mode = raw[0]? ∧ b.ack = raw[8]? ∧ b.bid = raw[11]? ∧ b.delim = raw[12]? ∧ b.suffix = raw.getLast? ∧
        (b.addr.isSome = decide (8 ≤ raw.length)) ∧ (∀ f, b.addr = some f → f.length = 7 ∧ ∀ j < 7, f[j]? = raw[1 + j]?) ∧
        (b.label.isSome = decide (11 ≤ raw.length)) ∧ (∀ f, b.label = some f → f.length = 2 ∧ ∀ j < 2, f[j]? = raw[9 + j]?)

/-- `BP.FLAGS`: uplink means a block-ID of at least 0x40 or equal to 0, multiblock means the suffix is `ETB`; each flag
depends on its own source byte alone and keeps its value, unset on a fresh block, where that byte is absent (R213). -/
def Obligations.BpFlagsDerivesTheFlags : Prop :=
  ∀ (s : State) (c : Nat) (k : Channel), s.channels[c]? = some k →
    ∃ up mb : Option Bool,
      exec (.bpFlags c) s =
        .next (s.putChannel c
          { k with fda := { k.fda with pos := .opt, blk := { k.fda.blk with up := up, mb := mb } } }) ∧
      (∀ b, k.fda.blk.bid = some b → up = some (decide (64 ≤ b.toNat ∨ b.toNat = 0))) ∧
      (k.fda.blk.bid = none → up = k.fda.blk.up) ∧
      (∀ b, k.fda.blk.suffix = some b → mb = some (decide (b = s.cfg.chars.etb))) ∧
      (k.fda.blk.suffix = none → mb = k.fda.blk.mb)

/-- Step 3 of the parser on a block whose optional fields are unset.  `BP.DOWN`: message number, flight and text are present
exactly from lengths 17, 23 and 26, and hold bytes 13..16, 17..22 and 23..L−2 (R214).  `BP.UP`: the text is present
exactly above length 15 and holds bytes 13..L−2; message number and flight stay unset (R215). -/
def Obligations.OptionalFieldsByDirection : Prop :=
  ∀ (s : State) (c : Nat) (k : Channel), s.channels[c]? = some k → k.fda.blk.msn = none → k.fda.blk.flight = none →
    k.fda.blk.text = none →
      let raw := k.fda.blk.raw
      (∃ msn flight text : Option (List Byte),
        exec (.bpDown c) s =
          .next (s.putChannel c
            { k with
              fda := { k.fda with pos := .sublabel, blk := { k.fda.blk with msn := msn, flight := flight, text := text } } }) ∧
        msn.isSome = decide (17 ≤ raw.length) ∧ (∀ f, msn = some f → f.length = 4 ∧ ∀ j < 4, f[j]? = raw[13 + j]?) ∧
        flight.isSome = decide (23 ≤ raw.length) ∧ (∀ f, flight = some f → f.length = 6 ∧ ∀ j < 6, f[j]? = raw[17 + j]?) ∧
        text.isSome = decide (25 < raw.length) ∧
        (∀ f, text = some f → f.length = raw.length - 24 ∧ ∀ j < raw.length - 24, f[j]? = raw[23 + j]?)) ∧
      (∃ text : Option (List Byte),
        exec (.bpUp c) s =
          .next (s.putChannel c
            { k with fda := { k.fda with pos := .sublabel, blk := { k.fda.blk with text := text } } }) ∧
        text.isSome = decide (15 < raw.length) ∧
        (∀ f, text = some f → f.length = raw.length - 14 ∧ ∀ j < raw.length - 14, f[j]? = raw[13 + j]?))

/-- `BP.SUBLABEL` on a block whose sub-label is unset: it is bytes 24 and 25, present exactly when the label is the two
characters "H1" and the length is at least 26, whatever the delimiter and the direction (R216). -/
def Obligations.BpSublabelReadsH1Only : Prop :=
  ∀ (s : State) (c : Nat) (k : Channel), s.channels[c]? = some k → k.fda.blk.sublabel = none →
    let raw := k.fda.blk.raw
    ∃ sub : Option (List Byte),
      exec (.bpSublabel c) s =
        .next (s.putChannel c { k with fda := { k.fda with pos := .build, blk := { k.fda.blk with sublabel := sub } } }) ∧
      sub.isSome = (decide (k.fda.blk.label = some [0x48#8, 0x31#8]) && decide (26 ≤ raw.length)) ∧
      (∀ f, sub = some f → f.length = 2 ∧ ∀ j < 2, f[j]? = raw[24 + j]?)

/-- Purity of the parser: two channels, in any two states under the same control characters, whose buffers agree below the
same length, get the same parsed block from `BP.PARSE`: other bytes of the buffer, the channel and earlier blocks do not
matter (R210, R218). -/
def Obligations.ParserIsPure : Prop :=
  ∀ (s₁ s₂ : State) (c₁ c₂ : Nat) (k₁ k₂ : Channel), s₁.channels[c₁]? = some k₁ → s₂.channels[c₂]? = some k₂ →
    s₁.cfg.chars = s₂.cfg.chars → k₁.fd.len ≤ 243 → k₁.fd.len = k₂.fd.len →
    (∀ i < k₁.fd.len, k₁.fd.buf.read i = k₂.fd.buf.read i) →
      ∃ (t₁ t₂ : State) (j₁ j₂ : Channel), exec (.bpParse c₁) s₁ = .next t₁ ∧ exec (.bpParse c₂) s₂ = .next t₂ ∧
        t₁.channels[c₁]? = some j₁ ∧ t₂.channels[c₂]? = some j₂ ∧ j₁.fda.blk = j₂.fda.blk

/-- Every step keeps: at each position of the parser the block in flight is what the pure parser of the raw block has computed
up to there, and the frame held at `OQ.PUSH` is built from the recorded fields and the whole parse (R210, R211, R243). -/
def Obligations.ParserInvariantIsKept : Prop :=
  ∀ s s' : State, ParseInv s → step s = .next s' → ParseInv s'

/-! ### Queues, dispatch and the feed -/

/-- `DM.EMIT` hands the soft value, with the level of the same symbol, to `BQ.PUSH` (R163); `BQ.PUSH` appends the decision in
flight while there is room, and holds, changing nothing, while the queue is full (R71, R241). -/
def Obligations.EmittedDecisionIsPushedOrHeld : Prop :=
  ∀ (s : State) (c : Nat) (k : Channel), s.channels[c]? = some k →
    let dec : BitDecision := ⟨k.cd.soft, k.dm.lvl⟩
    (k.bq.length < s.cfg.bqCap →
      exec (.dmEmit c) s =
        .next (s.putChannel c { k with bq := k.bq ++ [dec], cd := { k.cd with dec := dec, pos := .tail } }) ∧
      exec (.bqPush c) s =
        .next (s.putChannel c { k with bq := k.bq ++ [k.cd.dec], cd := { k.cd with pos := .tail } })) ∧
    (s.cfg.bqCap ≤ k.bq.length →
      exec (.dmEmit c) s = .next (s.putChannel c { k with cd := { k.cd with dec := dec, pos := .push } }) ∧
      exec (.bqPush c) s = .next s)

/-- `BQ.POP` takes the oldest decision and runs `FD.BIT` on it in the same step, and holds, changing nothing, while the queue
is empty (R72, R242).  Where the decision does not complete a byte the operation ends there. -/
def Obligations.BqPopTakesTheOldestOrHolds : Prop :=
  ∀ (s : State) (c : Nat) (k : Channel), s.channels[c]? = some k →
    (∀ d rest, k.bq = d :: rest →
      exec (.bqPop c) s =
        exec (.fdBit c) (s.putChannel c { k with bq := rest, fda := { k.fda with dec := d, pos := .bit } }) ∧
      (2 ≤ k.fd.nb →
        exec (.bqPop c) s =
          .next
            (s.putChannel c
              { k with
                bq := rest
                fd := { k.fd with sr := shiftIn k.fd.sr (hardBit s.cfg.numerics d.soft), nb := k.fd.nb - 1 }
                fda := { k.fda with dec := d, lvl := d.lvl, pos := .pop } }))) ∧
    (k.bq = [] → exec (.bqPop c) s = .next s)

/-- `FA.BUILD` makes the frame from the recorded time, frequency, level and CRC bytes and the block just parsed (R243, R99);
`OQ.PUSH` appends the frame in flight while there is room, and holds, changing nothing, while the queue is full (R71,
R244). -/
def Obligations.FrameIsBuiltAndPushedOrHeld : Prop :=
  ∀ (s : State) (c : Nat) (k : Channel), s.channels[c]? = some k →
    exec (.faBuild c) s =
      .next (s.putChannel c
        { k with
          fda := { k.fda with
            pos := .push
            frame :=
              { ts := k.fd.ts, freq := k.fd.freq, lvldb := k.fd.lvldb, crc0 := k.fd.crc0, crc1 := k.fd.crc1
                block := k.fda.blk } } }) ∧
    (s.oq.length < s.cfg.oqCap →
      exec (.oqPush c) s =
        .next { s.putChannel c { k with fda := { k.fda with pos := .resync } } with oq := s.oq ++ [k.fda.frame] }) ∧
    (s.cfg.oqCap ≤ s.oq.length → exec (.oqPush c) s = .next s)

/-- `DISP.DELIVER` emits the oldest frame on `FRAME_OUT` when the sink is ready, and holds with the frame at the head while
it is not, or while there is none (R245). -/
def Obligations.DispDeliverEmitsTheOldestFrame : Prop :=
  ∀ s : State,
    (∀ f rest, s.oq = f :: rest → s.sinkReady = true →
      exec .dispDeliver s = .next { s with oq := rest, frameOut := s.frameOut ++ [f] }) ∧
    (s.oq = [] ∨ s.sinkReady = false → exec .dispDeliver s = .next s)

/-- `FEED.BLOCK` delivers one block to every channel at once when every `CD[c]` is between blocks; it holds otherwise and
after end-of-stream; a block of another length is refused (R246, R79, R268).  That the operation is over once every
`CD[c]` has been handed the block is read from R246 by inference (notes/assumptions/23.md), and the phase of the boot order
is the model's (notes/assumptions/12.md). -/
def Obligations.FeedBlockDeliversToEveryChannel : Prop :=
  ∀ (s : State) (b : Block),
    ((∃ k ∈ s.channels, k.cd.pos ≠ .idle) ∨ s.eos = true → exec (.feedBlock b) s = .next s) ∧
    ((∀ k ∈ s.channels, k.cd.pos = .idle) → s.eos = false → b.length ≠ s.cfg.blockLen →
      exec (.feedBlock b) s = .refused .cvBlockLen) ∧
    ((∀ k ∈ s.channels, k.cd.pos = .idle) → s.eos = false → b.length = s.cfg.blockLen →
      exec (.feedBlock b) s =
        .next
          { s with
            blk := b, sampleIn := s.sampleIn.tail, phase := .running
            channels := s.channels.map fun k => { k with cd := { k.cd with pos := .block } } })

/-- `FEED.EOS` sets the bit and records its event between blocks, and holds inside a block (R247, R269); after it no step
accepts a block, and only a reset clears the bit (R43).  That a second pulse in a run waits on its port, R247 saying only
"at most once per run", is the model's choice (notes/assumptions/24.md). -/
def Obligations.EndOfStreamIsFinal : Prop :=
  (∀ s : State, (∀ k ∈ s.channels, k.cd.pos = .idle) → s.eos = false →
    exec .feedEos s = .next { s with eos := true, eosIn := false, events := s.events ++ [.feedEos] }) ∧
  (∀ s : State, (∃ k ∈ s.channels, k.cd.pos ≠ .idle) ∨ s.eos = true → exec .feedEos s = .next s) ∧
  (∀ s s' : State, step s = .next s' → s.eos = true → s.turn ≠ .reset →
    s'.eos = true ∧ s'.blk = s.blk ∧ s'.sampleIn = s.sampleIn)

/-- No step but a reset loses, duplicates or reorders a queued value (R70, R73, R290, R296, R76): no channel goes away, and its
`BQ[c]` is unchanged, gains at its tail the decision `CD[c]` then holds, or loses its head, which is then the decision
`FDA[c]` holds.  What was emitted on `FRAME_OUT` followed by what `OQ` holds is unchanged, or gains at its end the frame a
channel then holds.  The capacity bounds are kept by every step.  The model's choice (notes/assumptions/11.md): between a
configuration and the reset that R293 puts next, the channels beyond the new `NCHAN` stay, and a queue may be longer than a
new, smaller capacity. -/
def Obligations.QueuesConserveTheirValues : Prop :=
  ∀ s s' : State, step s = .next s' →
    (QueueInv s → QueueInv s') ∧
    (s.turn ≠ .reset →
      s.channels.length ≤ s'.channels.length ∧
      (s.turn ≠ .config → s'.channels.length = s.channels.length) ∧
      (∀ (c : Nat) (k : Channel), s.channels[c]? = some k → ∃ k', s'.channels[c]? = some k' ∧
        (k'.bq = k.bq ∨
          (s.turn = .cd c ∧ k.bq.length < s.cfg.bqCap ∧ k'.bq = k.bq ++ [k'.cd.dec]) ∨
          (s.turn = .fda c ∧ k.bq = k'.fda.dec :: k'.bq))) ∧
      (s'.frameOut ++ s'.oq = s.frameOut ++ s.oq ∨
        ∃ (c : Nat) (k' : Channel), s.turn = .fda c ∧ s'.channels[c]? = some k' ∧
          s.oq.length < s.cfg.oqCap ∧ s'.frameOut = s.frameOut ∧ s'.oq = s.oq ++ [k'.fda.frame]))

/-- A completed frame is emitted (R193, R196, R210), in one step: with room in `OQ`, `FD.DONE` queues exactly one frame, built
from the recorded fields and the parse of the block, and returns the decoder to seeking with its other fields unchanged;
while `OQ` is full it is held with that frame in flight; and the pop of the decision that completes the second CRC byte is
already the whole of it (R192).  The position at which a held frame waits is the model's (notes/assumptions/3.md). -/
def Obligations.CompletedFrameIsQueued : Prop :=
  ∀ (s : State) (c : Nat) (k : Channel), s.channels[c]? = some k → k.fd.len ≤ 243 →
    let frame := buildFrame k.fd (parseBlock s.cfg.chars ((List.range k.fd.len).map k.fd.buf.read))
    (k.fda.pos ≠ .push → k.fda.pos ≠ .resync →
      ∃ (t : State) (k' : Channel), exec (.fdDone c) s = .next t ∧ t.channels[c]? = some k' ∧
        k'.fda.frame = frame ∧ k'.bq = k.bq ∧ k'.dm = k.dm ∧ k'.ch = k.ch ∧
        (∀ d, d ≠ c → t.channels[d]? = s.channels[d]?) ∧ t.frameOut = s.frameOut ∧
        (s.oq.length < s.cfg.oqCap →
          t.oq = s.oq ++ [frame] ∧ k'.fda.pos = .pop ∧
            k'.fd = { k.fd with stage := .syn1, nb := s.cfg.seekReload }) ∧
        (s.cfg.oqCap ≤ s.oq.length → t.oq = s.oq ∧ k'.fda.pos = .push ∧ k'.fd = k.fd)) ∧
    (∀ d rest, k.bq = d :: rest → k.fd.stage = .crc2 → k.fd.nb = 1 → s.oq.length < s.cfg.oqCap →
      let byte := shiftIn k.fd.sr (hardBit s.cfg.numerics d.soft)
      ∃ (t : State) (k' : Channel), exec (.bqPop c) s = .next t ∧ t.channels[c]? = some k' ∧
        t.oq = s.oq ++ [{ frame with crc1 := byte }] ∧ k'.bq = rest ∧ k'.fda.pos = .pop ∧
        k'.fd = { k.fd with stage := .syn1, sr := byte, nb := s.cfg.seekReload, crc1 := byte })

/-! ### Reset and configuration -/

/-- `SYS.RESET` puts every element to its value of R290 in each of the channels `0..NCHAN-1`, which are then all the channels
(R20), empties the queues and clears end-of-stream; the configuration and the tables are unchanged (R291).  That the emitted
frames and the trace of events stay as they are is the model's choice (notes/assumptions/15.md), and so is that a channel
which a configuration with fewer channels left over ends here (notes/assumptions/11.md). -/
def Obligations.ResetInitialisesEveryElement : Prop :=
  ∀ s : State, ∃ t : State, exec .sysReset s = .next t ∧
    t.cfg = s.cfg ∧ t.coef = s.coef ∧ t.oq = [] ∧ t.eos = false ∧ t.frameOut = s.frameOut ∧ t.events = s.events ∧
    t.channels.length = min s.cfg.nchan s.channels.length ∧
    ∃ zero : Scalar, zero = s.cfg.numerics.ofRat 0 ∧ (s.cfg.num = .exact → zero = Scalar.zero) ∧
    ∀ (c : Nat) (k : Channel), c < s.cfg.nchan → s.channels[c]? = some k → ∃ k', t.channels[c]? = some k' ∧
      k'.ch = { acc := ⟨zero, zero⟩, cnt := 0, n := 0 } ∧
      k'.dm = { phi := zero, df := zero, clk := zero
                buf := List.replicate s.cfg.flen ⟨zero, zero⟩, idx := 0, lvl := zero, s := 0#2 } ∧
      k'.fd.stage = .syn1 ∧ k'.fd.sr = 0x00#8 ∧ k'.fd.nb = s.cfg.seekReload ∧ k'.fd.len = 0 ∧ k'.bq = [] ∧
      k'.lo = k.lo ∧ k'.cd.pos = .idle ∧ k'.fda.pos = .pop

/-- `SYS.CONFIG` takes exactly the admitted configurations and refuses every other (R292).  Over exact reals a record is
admitted exactly when it has the shape of R5 and meets every condition of R6.  The tables it computes: `COEF` is the
coefficient vector stored twice (R63), and, as real numbers over exact reals, `LO[c][n] = (cos θn, −sin θn)` with
`θ = 2π(FT[c] − FC)/FS` (R61).  The queues keep what they hold.  The model's choice (notes/assumptions/11.md): a channel
beyond a smaller `NCHAN` stays as it is. -/
def Obligations.ConfigComputesTheTables : Prop :=
  ∀ (s : State) (p : Params),
    (p.num = .exact →
      (p.admitted = true ↔
        (p.ft.length = p.nchan ∧ p.fs.finite = true ∧ p.fc.finite = true ∧ p.f0.finite = true ∧
          (∀ x ∈ p.ft, x.finite = true) ∧
          (∀ C, p.coefTable = some C → C.length = p.flen ∧ ∀ x ∈ C, x.finite = true)) ∧
        1 ≤ p.nchan ∧ 0 < p.fs.toReal ∧ 1 ≤ p.decim ∧ 1 ≤ p.blockLen ∧ p.blockLen % p.decim = 0 ∧
        p.blockLen ≤ p.loLen ∧ 1200 ≤ p.fs.toReal / p.decim ∧
        38 / 10000 < 2 * Real.pi * p.f0.toReal / (p.fs.toReal / p.decim) ∧
        2 * Real.pi * p.f0.toReal / (p.fs.toReal / p.decim) + 38 / 10000 < 3 * Real.pi / 2 ∧
        1 ≤ p.bqCap ∧ 1 ≤ p.oqCap ∧ 1 ≤ p.seekReload ∧ p.seekReload ≤ 8 ∧
        (∀ b ∈ [p.chars.syn, p.chars.soh, p.chars.stx, p.chars.etx, p.chars.etb], b.toNat < 0x80) ∧
        [p.chars.syn, p.chars.soh, p.chars.stx, p.chars.etx, p.chars.etb].Nodup)) ∧
    (p.admitted = false → exec (.sysConfig p) s = .refused .cvConfig) ∧
    (p.admitted = true → ∃ t : State, exec (.sysConfig p) s = .next t ∧ t.cfg = p ∧
      t.channels.length = max p.nchan s.channels.length ∧
      (∀ c, p.nchan ≤ c → t.channels[c]? = s.channels[c]?) ∧
      (∀ (c : Nat) (k : Channel), s.channels[c]? = some k → ∃ k', t.channels[c]? = some k' ∧ k' = { k with lo := k'.lo }) ∧
      t.oq = s.oq ∧ t.blk = s.blk ∧ t.eos = s.eos ∧
      t.coef = p.coefVector ++ p.coefVector ∧ p.coefVector.length = p.flen ∧
      (∀ i < p.flen, t.coef[i]? = t.coef[i + p.flen]?) ∧
      ∀ (c : Nat) (k : Channel) (ft : Scalar), t.channels[c]? = some k → p.ft[c]? = some ft →
        k.lo.length = p.loLen ∧
        (p.num = .exact → ∀ n < p.loLen, ∃ w, k.lo[n]? = some w ∧
          w.re.toReal = Real.cos (2 * Real.pi * (ft.toReal - p.fc.toReal) / p.fs.toReal * n) ∧
          w.im.toReal = -Real.sin (2 * Real.pi * (ft.toReal - p.fc.toReal) / p.fs.toReal * n)))

/-- The derived parameters and the default coefficients as real numbers, over exact reals (R5, R151, R152): `FS_D`, `W0`,
`FLEN = floor(FS_D/1200) + 1`, and `C[a] = max(0, cos(2π·600·(a − (FLEN−1)/2)/FS_D))`; a configured table is taken as it
is.  The filter length and the formula are the spec's decisions D9 and D10. -/
def Obligations.DefaultCoefficientsAreTheHalfCosine : Prop :=
  ∀ p : Params, p.num = .exact →
    p.fsD.toReal = p.fs.toReal / p.decim ∧
    p.w0.toReal = 2 * Real.pi * p.f0.toReal / (p.fs.toReal / p.decim) ∧
    p.flen = ⌊p.fs.toReal / p.decim / 1200⌋₊ + 1 ∧
    (∀ C, p.coefTable = some C → p.coefVector = C) ∧
    (p.coefTable = none → p.coefVector.length = p.flen ∧
      (p.fs.finite = true → p.fs.toReal ≠ 0 → 1 ≤ p.decim → ∀ a < p.flen, ∃ C, p.coefVector[a]? = some C ∧
        C.toReal = max 0 (Real.cos (2 * Real.pi * 600 * (a - ((p.flen : ℝ) - 1) / 2) / (p.fs.toReal / p.decim)))))

/-! ### Ownership and isolation -/

/-- Ownership.  An operation of `CD[c]` writes nothing outside its own part: of its channel only `CH`, `DM`, its in-flight
values and the tail of `BQ[c]` can change, of the rest of the machine only the trace.  An operation of `FDA[c]`: only
`FD`, its in-flight values and the head of `BQ[c]`, and the tail of `OQ`, the draws and the trace (R21, R62, R169,
R278). -/
def Obligations.AgentsOwnTheirParts : Prop :=
  ∀ (i : Instr) (c : Nat) (s t : State), exec i s = .next t →
    (i.ofCd = some c →
      t = { s with channels := t.channels, events := t.events } ∧ (∀ d, d ≠ c → t.channels[d]? = s.channels[d]?) ∧
      ∃ k k', s.channels[c]? = some k ∧ t.channels[c]? = some k' ∧
        k' = { k with ch := k'.ch, dm := k'.dm, cd := k'.cd, bq := k'.bq } ∧ k.bq <+: k'.bq) ∧
    (i.ofFda = some c →
      t = { s with channels := t.channels, events := t.events, oq := t.oq, draws := t.draws } ∧
      (∀ d, d ≠ c → t.channels[d]? = s.channels[d]?) ∧ s.oq <+: t.oq ∧
      ∃ k k', s.channels[c]? = some k ∧ t.channels[c]? = some k' ∧
        k' = { k with fd := k'.fd, fda := k'.fda, bq := k'.bq } ∧ k'.bq <:+ k.bq)

/-- What `CD[c]` does depends on its own channel, the configuration, `COEF`, the shared block and `FEED.eos` alone: two
states that agree on those answer alike, and agree afterwards on the channel (R21, R79, R278). -/
def Obligations.CdSeesOnlyItsChannel : Prop :=
  ∀ (i : Instr) (c : Nat) (s₁ s₂ : State), i.ofCd = some c → s₁.cfg = s₂.cfg → s₁.coef = s₂.coef → s₁.blk = s₂.blk →
    s₁.eos = s₂.eos → s₁.channels[c]? = s₂.channels[c]? →
      match exec i s₁, exec i s₂ with
      | .next t₁, .next t₂ => t₁.channels[c]? = t₂.channels[c]?
      | .fault f₁, .fault f₂ => f₁ = f₂
      | .refused q₁, .refused q₂ => q₁ = q₂
      | _, _ => False

/-- The channels may run in any order: two operations of the `CD` agents of different channels, each of which completes,
complete in either order with the same state but for the order of the trace, the two traces being permutations of each
other (R62, R79). -/
def Obligations.CdAgentsCommute : Prop :=
  ∀ (i j : Instr) (a b : Nat) (s s₁ s₂ : State), i.ofCd = some a → j.ofCd = some b → a ≠ b →
    exec i s = .next s₁ → exec j s = .next s₂ →
      ∃ s₁₂ s₂₁, exec j s₁ = .next s₁₂ ∧ exec i s₂ = .next s₂₁ ∧
        { s₁₂ with events := [] } = { s₂₁ with events := [] } ∧ s₁₂.events.Perm s₂₁.events

/-- The configuration and the tables are written by `SYS.CONFIG` alone: they stay those of the record that was taken (R44,
R61, R63, R78). -/
def Obligations.TablesMatchTheConfiguration : Prop :=
  ∀ s s' : State, TableInv s → step s = .next s' →
    TableInv s' ∧ (s.turn ≠ .config → s'.cfg = s.cfg)

/-! ### Invariants and totality -/

/-- The invariants hold at reset (R290, R47).  In part they rest on values the model chose: the reset configuration
(notes/assumptions/5.md); the empty `FD.buf` in `FdInv`, and the zeros of `FD.freq` and `FD.lvldb` in `FiniteInv`
(notes/assumptions/4.md); the in-flight zeros in `RealInv` and `FiniteInv` and the empty `BLK` in `FiniteInv`
(notes/assumptions/6.md); the empty sample port and output in `FiniteInv` (notes/assumptions/14.md, 15.md). -/
def Obligations.InvariantsHoldAtReset : Prop :=
  FdInv State.reset ∧ CdInv State.reset ∧ QueueInv State.reset ∧ TableInv State.reset ∧ RealInv State.reset ∧
    LoopInv State.reset ∧ FiniteInv State.reset ∧ ContentInv State.reset ∧ ParseInv State.reset ∧
    State.reset.cfg.admitted = true

/-- Every step keeps the Frame Decoder's invariant: canonical 7-bit buffer inside 243 elements, 1 to 8 bits missing and no
transient stage between operations, `S_DONE` exactly while held at `OQ.PUSH`, room while a block accumulates (R32 to R36,
R65, R193, R195 to R198). -/
def Obligations.FrameDecoderInvariantIsKept : Prop :=
  ∀ s s' : State, FdInv s → step s = .next s' → FdInv s'

/-- Every step keeps the Channelizer's invariant: the window count below `DECIM` and in step with the cursor, no window open
between blocks, indices inside the block, the table and the buffer, the channels of the configuration and, once the reset
that follows one has happened, no others (R22 to R24, R61, R131 to R133, R136). -/
def Obligations.ChannelizerInvariantIsKept : Prop :=
  ∀ s s' : State, CdInv s → step s = .next s' → CdInv s'

/-- Every step keeps the ranges of the real quantities over exact reals: `|DM.df| < PLLG`, soft and error terms inside
`(−1, 1)`, levels and magnitudes not negative, for every input, in range or not (R26, R30, R94, R165 (a) and (c)). -/
def Obligations.RealRangesAreKept : Prop :=
  ∀ s s' : State, RealInv s → step s = .next s' → RealInv s'

/-- A finished block holds no delimiter before its last character, which is one unless the block was cut (R107, R197): every
step keeps it. -/
def Obligations.BlockContentIsKept : Prop :=
  ∀ s s' : State, FdInv s → ContentInv s → step s = .next s' → ContentInv s'

/-- No NaN or infinity arises inside: over exact reals and from finite samples a step never answers `CV_NONFINITE` and keeps
every value finite, the values in flight, in the queues, in the frame fields and in the frames queued and emitted among
them (R108, R166, R260, R266), unless it takes a configuration with another numeric domain. -/
def Obligations.FiniteFeedStaysFinite : Prop :=
  ∀ s : State, FiniteInv s →
    step s ≠ .refused .cvNonfinite ∧ ∀ s', step s = .next s' → s'.cfg.num = .exact → FiniteInv s'

/-- Nothing traps: from a state that meets the invariants a step never faults, always finds an operation, and refuses only a
non-finite sample, a block of a wrong length on the sample port, or a configuration that is not admitted (R66, R103,
R260, R261). -/
def Obligations.NoStepTraps : Prop :=
  ∀ s : State, FdInv s → CdInv s →
    (∃ s', step s = .next s') ∨
    (step s = .refused .cvNonfinite ∧ ∃ c, s.turn = .cd c) ∨
    (step s = .refused .cvBlockLen ∧ s.turn = .feed) ∨
    (step s = .refused .cvConfig ∧ s.turn = .config)

/-- Every step keeps the loop's ranges over exact reals: the phase in `[0, 2π)` and the clock in `[0, 3π/2)` of every channel,
and the conditions of R6 on the configuration that make one subtraction enough (R25, R27, R153, R165 (d)). -/
def Obligations.LoopRangesAreKept : Prop :=
  ∀ s s' : State, FiniteInv s → RealInv s → LoopInv s → step s = .next s' → LoopInv s'
end

