-- ==== Sys2Proof/Laws/State.lean ====
section
/-! SUPPORT. One lemma per field per update of the state records, true by rfl, so that no later proof unfolds an update. -/

namespace Sys2Proof.Machine

@[simp] theorem State.putChannel_cfg (s : State) (c : Nat) (k : Channel) : (s.putChannel c k).cfg = s.cfg := rfl
@[simp] theorem State.putChannel_coef (s : State) (c : Nat) (k : Channel) : (s.putChannel c k).coef = s.coef := rfl
@[simp] theorem State.putChannel_channels (s : State) (c : Nat) (k : Channel) : (s.putChannel c k).channels = s.channels.set c k := rfl
@[simp] theorem State.putChannel_blk (s : State) (c : Nat) (k : Channel) : (s.putChannel c k).blk = s.blk := rfl
@[simp] theorem State.putChannel_oq (s : State) (c : Nat) (k : Channel) : (s.putChannel c k).oq = s.oq := rfl
@[simp] theorem State.putChannel_eos (s : State) (c : Nat) (k : Channel) : (s.putChannel c k).eos = s.eos := rfl
@[simp] theorem State.putChannel_phase (s : State) (c : Nat) (k : Channel) : (s.putChannel c k).phase = s.phase := rfl
@[simp] theorem State.putChannel_sampleIn (s : State) (c : Nat) (k : Channel) : (s.putChannel c k).sampleIn = s.sampleIn := rfl
@[simp] theorem State.putChannel_eosIn (s : State) (c : Nat) (k : Channel) : (s.putChannel c k).eosIn = s.eosIn := rfl
@[simp] theorem State.putChannel_configIn (s : State) (c : Nat) (k : Channel) : (s.putChannel c k).configIn = s.configIn := rfl
@[simp] theorem State.putChannel_resetIn (s : State) (c : Nat) (k : Channel) : (s.putChannel c k).resetIn = s.resetIn := rfl
@[simp] theorem State.putChannel_sinkReady (s : State) (c : Nat) (k : Channel) : (s.putChannel c k).sinkReady = s.sinkReady := rfl
@[simp] theorem State.putChannel_frameOut (s : State) (c : Nat) (k : Channel) : (s.putChannel c k).frameOut = s.frameOut := rfl
@[simp] theorem State.putChannel_events (s : State) (c : Nat) (k : Channel) : (s.putChannel c k).events = s.events := rfl
@[simp] theorem State.putChannel_sched (s : State) (c : Nat) (k : Channel) : (s.putChannel c k).sched = s.sched := rfl
@[simp] theorem State.putChannel_tick (s : State) (c : Nat) (k : Channel) : (s.putChannel c k).tick = s.tick := rfl
@[simp] theorem State.putChannel_draws (s : State) (c : Nat) (k : Channel) : (s.putChannel c k).draws = s.draws := rfl

@[simp] theorem State.raise_cfg (s : State) (e : Event) : (s.raise e).cfg = s.cfg := rfl
@[simp] theorem State.raise_coef (s : State) (e : Event) : (s.raise e).coef = s.coef := rfl
@[simp] theorem State.raise_channels (s : State) (e : Event) : (s.raise e).channels = s.channels := rfl
@[simp] theorem State.raise_blk (s : State) (e : Event) : (s.raise e).blk = s.blk := rfl
@[simp] theorem State.raise_oq (s : State) (e : Event) : (s.raise e).oq = s.oq := rfl
@[simp] theorem State.raise_eos (s : State) (e : Event) : (s.raise e).eos = s.eos := rfl
@[simp] theorem State.raise_phase (s : State) (e : Event) : (s.raise e).phase = s.phase := rfl
@[simp] theorem State.raise_sampleIn (s : State) (e : Event) : (s.raise e).sampleIn = s.sampleIn := rfl
@[simp] theorem State.raise_eosIn (s : State) (e : Event) : (s.raise e).eosIn = s.eosIn := rfl
@[simp] theorem State.raise_configIn (s : State) (e : Event) : (s.raise e).configIn = s.configIn := rfl
@[simp] theorem State.raise_resetIn (s : State) (e : Event) : (s.raise e).resetIn = s.resetIn := rfl
@[simp] theorem State.raise_sinkReady (s : State) (e : Event) : (s.raise e).sinkReady = s.sinkReady := rfl
@[simp] theorem State.raise_frameOut (s : State) (e : Event) : (s.raise e).frameOut = s.frameOut := rfl
@[simp] theorem State.raise_events (s : State) (e : Event) : (s.raise e).events = s.events ++ [e] := rfl
@[simp] theorem State.raise_sched (s : State) (e : Event) : (s.raise e).sched = s.sched := rfl
@[simp] theorem State.raise_tick (s : State) (e : Event) : (s.raise e).tick = s.tick := rfl
@[simp] theorem State.raise_draws (s : State) (e : Event) : (s.raise e).draws = s.draws := rfl

@[simp] theorem State.raiseIf_cfg (s : State) (b : Bool) (e : Event) : (s.raiseIf b e).cfg = s.cfg := rfl
@[simp] theorem State.raiseIf_coef (s : State) (b : Bool) (e : Event) : (s.raiseIf b e).coef = s.coef := rfl
@[simp] theorem State.raiseIf_channels (s : State) (b : Bool) (e : Event) : (s.raiseIf b e).channels = s.channels := rfl
@[simp] theorem State.raiseIf_blk (s : State) (b : Bool) (e : Event) : (s.raiseIf b e).blk = s.blk := rfl
@[simp] theorem State.raiseIf_oq (s : State) (b : Bool) (e : Event) : (s.raiseIf b e).oq = s.oq := rfl
@[simp] theorem State.raiseIf_eos (s : State) (b : Bool) (e : Event) : (s.raiseIf b e).eos = s.eos := rfl
@[simp] theorem State.raiseIf_phase (s : State) (b : Bool) (e : Event) : (s.raiseIf b e).phase = s.phase := rfl
@[simp] theorem State.raiseIf_sampleIn (s : State) (b : Bool) (e : Event) : (s.raiseIf b e).sampleIn = s.sampleIn := rfl
@[simp] theorem State.raiseIf_eosIn (s : State) (b : Bool) (e : Event) : (s.raiseIf b e).eosIn = s.eosIn := rfl
@[simp] theorem State.raiseIf_configIn (s : State) (b : Bool) (e : Event) : (s.raiseIf b e).configIn = s.configIn := rfl
@[simp] theorem State.raiseIf_resetIn (s : State) (b : Bool) (e : Event) : (s.raiseIf b e).resetIn = s.resetIn := rfl
@[simp] theorem State.raiseIf_sinkReady (s : State) (b : Bool) (e : Event) : (s.raiseIf b e).sinkReady = s.sinkReady := rfl
@[simp] theorem State.raiseIf_frameOut (s : State) (b : Bool) (e : Event) : (s.raiseIf b e).frameOut = s.frameOut := rfl
@[simp] theorem State.raiseIf_events (s : State) (b : Bool) (e : Event) : (s.raiseIf b e).events = if b then s.events ++ [e] else s.events := rfl
@[simp] theorem State.raiseIf_sched (s : State) (b : Bool) (e : Event) : (s.raiseIf b e).sched = s.sched := rfl
@[simp] theorem State.raiseIf_tick (s : State) (b : Bool) (e : Event) : (s.raiseIf b e).tick = s.tick := rfl
@[simp] theorem State.raiseIf_draws (s : State) (b : Bool) (e : Event) : (s.raiseIf b e).draws = s.draws := rfl

@[simp] theorem State.advance_cfg (s : State) : (s.advance).cfg = s.cfg := rfl
@[simp] theorem State.advance_coef (s : State) : (s.advance).coef = s.coef := rfl
@[simp] theorem State.advance_channels (s : State) : (s.advance).channels = s.channels := rfl
@[simp] theorem State.advance_blk (s : State) : (s.advance).blk = s.blk := rfl
@[simp] theorem State.advance_oq (s : State) : (s.advance).oq = s.oq := rfl
@[simp] theorem State.advance_eos (s : State) : (s.advance).eos = s.eos := rfl
@[simp] theorem State.advance_phase (s : State) : (s.advance).phase = s.phase := rfl
@[simp] theorem State.advance_sampleIn (s : State) : (s.advance).sampleIn = s.sampleIn := rfl
@[simp] theorem State.advance_eosIn (s : State) : (s.advance).eosIn = s.eosIn := rfl
@[simp] theorem State.advance_configIn (s : State) : (s.advance).configIn = s.configIn := rfl
@[simp] theorem State.advance_resetIn (s : State) : (s.advance).resetIn = s.resetIn := rfl
@[simp] theorem State.advance_sinkReady (s : State) : (s.advance).sinkReady = s.sinkReady := rfl
@[simp] theorem State.advance_frameOut (s : State) : (s.advance).frameOut = s.frameOut := rfl
@[simp] theorem State.advance_events (s : State) : (s.advance).events = s.events := rfl
@[simp] theorem State.advance_sched (s : State) : (s.advance).sched = s.sched.tail := rfl
@[simp] theorem State.advance_tick (s : State) : (s.advance).tick = s.tick + 1 := rfl
@[simp] theorem State.advance_draws (s : State) : (s.advance).draws = s.draws := rfl

@[simp] theorem State.withTurn_cfg (s : State) (t : Turn) : (s.withTurn t).cfg = s.cfg := rfl
@[simp] theorem State.withTurn_coef (s : State) (t : Turn) : (s.withTurn t).coef = s.coef := rfl
@[simp] theorem State.withTurn_channels (s : State) (t : Turn) : (s.withTurn t).channels = s.channels := rfl
@[simp] theorem State.withTurn_blk (s : State) (t : Turn) : (s.withTurn t).blk = s.blk := rfl
@[simp] theorem State.withTurn_oq (s : State) (t : Turn) : (s.withTurn t).oq = s.oq := rfl
@[simp] theorem State.withTurn_eos (s : State) (t : Turn) : (s.withTurn t).eos = s.eos := rfl
@[simp] theorem State.withTurn_phase (s : State) (t : Turn) : (s.withTurn t).phase = s.phase := rfl
@[simp] theorem State.withTurn_sampleIn (s : State) (t : Turn) : (s.withTurn t).sampleIn = s.sampleIn := rfl
@[simp] theorem State.withTurn_eosIn (s : State) (t : Turn) : (s.withTurn t).eosIn = s.eosIn := rfl
@[simp] theorem State.withTurn_configIn (s : State) (t : Turn) : (s.withTurn t).configIn = s.configIn := rfl
@[simp] theorem State.withTurn_resetIn (s : State) (t : Turn) : (s.withTurn t).resetIn = s.resetIn := rfl
@[simp] theorem State.withTurn_sinkReady (s : State) (t : Turn) : (s.withTurn t).sinkReady = s.sinkReady := rfl
@[simp] theorem State.withTurn_frameOut (s : State) (t : Turn) : (s.withTurn t).frameOut = s.frameOut := rfl
@[simp] theorem State.withTurn_events (s : State) (t : Turn) : (s.withTurn t).events = s.events := rfl
@[simp] theorem State.withTurn_sched (s : State) (t : Turn) : (s.withTurn t).sched = [t] := rfl
@[simp] theorem State.withTurn_tick (s : State) (t : Turn) : (s.withTurn t).tick = s.tick := rfl
@[simp] theorem State.withTurn_draws (s : State) (t : Turn) : (s.withTurn t).draws = s.draws := rfl

@[simp] theorem Channel.cdGoto_ch (k : Channel) (pos : CdPos) : (k.cdGoto pos).ch = k.ch := rfl
@[simp] theorem Channel.cdGoto_dm (k : Channel) (pos : CdPos) : (k.cdGoto pos).dm = k.dm := rfl
@[simp] theorem Channel.cdGoto_fd (k : Channel) (pos : CdPos) : (k.cdGoto pos).fd = k.fd := rfl
@[simp] theorem Channel.cdGoto_bq (k : Channel) (pos : CdPos) : (k.cdGoto pos).bq = k.bq := rfl
@[simp] theorem Channel.cdGoto_lo (k : Channel) (pos : CdPos) : (k.cdGoto pos).lo = k.lo := rfl
@[simp] theorem Channel.cdGoto_cd (k : Channel) (pos : CdPos) : (k.cdGoto pos).cd = { k.cd with pos := pos } := rfl
@[simp] theorem Channel.cdGoto_fda (k : Channel) (pos : CdPos) : (k.cdGoto pos).fda = k.fda := rfl

@[simp] theorem Channel.fdaGoto_ch (k : Channel) (pos : FdaPos) : (k.fdaGoto pos).ch = k.ch := rfl
@[simp] theorem Channel.fdaGoto_dm (k : Channel) (pos : FdaPos) : (k.fdaGoto pos).dm = k.dm := rfl
@[simp] theorem Channel.fdaGoto_fd (k : Channel) (pos : FdaPos) : (k.fdaGoto pos).fd = k.fd := rfl
@[simp] theorem Channel.fdaGoto_bq (k : Channel) (pos : FdaPos) : (k.fdaGoto pos).bq = k.bq := rfl
@[simp] theorem Channel.fdaGoto_lo (k : Channel) (pos : FdaPos) : (k.fdaGoto pos).lo = k.lo := rfl
@[simp] theorem Channel.fdaGoto_cd (k : Channel) (pos : FdaPos) : (k.fdaGoto pos).cd = k.cd := rfl
@[simp] theorem Channel.fdaGoto_fda (k : Channel) (pos : FdaPos) : (k.fdaGoto pos).fda = { k.fda with pos := pos } := rfl

@[simp] theorem FdState.resync_stage (p : Params) (fd : FdState) : (fd.resync p).stage = .syn1 := rfl
@[simp] theorem FdState.resync_sr (p : Params) (fd : FdState) : (fd.resync p).sr = fd.sr := rfl
@[simp] theorem FdState.resync_nb (p : Params) (fd : FdState) : (fd.resync p).nb = p.seekReload := rfl
@[simp] theorem FdState.resync_buf (p : Params) (fd : FdState) : (fd.resync p).buf = fd.buf := rfl
@[simp] theorem FdState.resync_len (p : Params) (fd : FdState) : (fd.resync p).len = fd.len := rfl
@[simp] theorem FdState.resync_ts (p : Params) (fd : FdState) : (fd.resync p).ts = fd.ts := rfl
@[simp] theorem FdState.resync_freq (p : Params) (fd : FdState) : (fd.resync p).freq = fd.freq := rfl
@[simp] theorem FdState.resync_lvldb (p : Params) (fd : FdState) : (fd.resync p).lvldb = fd.lvldb := rfl
@[simp] theorem FdState.resync_crc0 (p : Params) (fd : FdState) : (fd.resync p).crc0 = fd.crc0 := rfl
@[simp] theorem FdState.resync_crc1 (p : Params) (fd : FdState) : (fd.resync p).crc1 = fd.crc1 := rfl

@[simp] theorem FdState.goto_stage (fd : FdState) (t : Stage) : (fd.goto t).stage = t := rfl
@[simp] theorem FdState.goto_sr (fd : FdState) (t : Stage) : (fd.goto t).sr = fd.sr := rfl
@[simp] theorem FdState.goto_nb (fd : FdState) (t : Stage) : (fd.goto t).nb = 8 := rfl
@[simp] theorem FdState.goto_buf (fd : FdState) (t : Stage) : (fd.goto t).buf = fd.buf := rfl
@[simp] theorem FdState.goto_len (fd : FdState) (t : Stage) : (fd.goto t).len = fd.len := rfl
@[simp] theorem FdState.goto_ts (fd : FdState) (t : Stage) : (fd.goto t).ts = fd.ts := rfl
@[simp] theorem FdState.goto_freq (fd : FdState) (t : Stage) : (fd.goto t).freq = fd.freq := rfl
@[simp] theorem FdState.goto_lvldb (fd : FdState) (t : Stage) : (fd.goto t).lvldb = fd.lvldb := rfl
@[simp] theorem FdState.goto_crc0 (fd : FdState) (t : Stage) : (fd.goto t).crc0 = fd.crc0 := rfl
@[simp] theorem FdState.goto_crc1 (fd : FdState) (t : Stage) : (fd.goto t).crc1 = fd.crc1 := rfl

@[simp] theorem FdState.append_stage (fd : FdState) (ch : Byte) : (fd.append ch).stage = fd.stage := rfl
@[simp] theorem FdState.append_sr (fd : FdState) (ch : Byte) : (fd.append ch).sr = fd.sr := rfl
@[simp] theorem FdState.append_nb (fd : FdState) (ch : Byte) : (fd.append ch).nb = fd.nb := rfl
@[simp] theorem FdState.append_buf (fd : FdState) (ch : Byte) : (fd.append ch).buf = fd.buf.write fd.len ch := rfl
@[simp] theorem FdState.append_len (fd : FdState) (ch : Byte) : (fd.append ch).len = fd.len + 1 := rfl
@[simp] theorem FdState.append_ts (fd : FdState) (ch : Byte) : (fd.append ch).ts = fd.ts := rfl
@[simp] theorem FdState.append_freq (fd : FdState) (ch : Byte) : (fd.append ch).freq = fd.freq := rfl
@[simp] theorem FdState.append_lvldb (fd : FdState) (ch : Byte) : (fd.append ch).lvldb = fd.lvldb := rfl
@[simp] theorem FdState.append_crc0 (fd : FdState) (ch : Byte) : (fd.append ch).crc0 = fd.crc0 := rfl
@[simp] theorem FdState.append_crc1 (fd : FdState) (ch : Byte) : (fd.append ch).crc1 = fd.crc1 := rfl

/-- Reading back the channel that was put. -/
theorem State.getElem?_putChannel_self (s : State) (c : Nat) (k k' : Channel) (h : s.channels[c]? = some k') :
    (s.putChannel c k).channels[c]? = some k := by
  obtain ⟨hc, _⟩ := List.getElem?_eq_some_iff.1 h
  simp [List.getElem?_set_self hc]

/-- Putting one channel leaves the others. -/
theorem State.getElem?_putChannel_ne (s : State) (c d : Nat) (k : Channel) (h : c ≠ d) :
    (s.putChannel c k).channels[d]? = s.channels[d]? := by
  simp [List.getElem?_set_ne h]

end Sys2Proof.Machine
end

