-- ==== Sys2Proof/Laws/Ops.lean ====
section
/-! SUPPORT. One lemma for each shared operation, saying everything it can do. -/

namespace Sys2Proof.Machine

/-- An operation of an existing channel runs on that channel. -/
theorem onChannel_some (c : Nat) (s : State) (f : Channel → Result) (k : Channel) (h : s.channels[c]? = some k) :
    onChannel c s f = f k := by simp [onChannel, h]

/-- An operation of a channel that does not exist stops. -/
theorem onChannel_none (c : Nat) (s : State) (f : Channel → Result) (h : s.channels[c]? = none) :
    onChannel c s f = .fault (.noSuchChannel c) := by simp [onChannel, h]

/-- What `onChannel` can do: if it answers next, the channel exists and the operation answered so. -/
theorem onChannel_next (c : Nat) (s t : State) (f : Channel → Result) (h : onChannel c s f = .next t) :
    ∃ k, s.channels[c]? = some k ∧ f k = .next t := by
  unfold onChannel at h
  split at h
  · rename_i k hk
    exact ⟨k, hk, h⟩
  · exact absurd h (by simp)

/-- An operation that touches one channel answers next with that channel replaced. -/
theorem updateChannel_some (c : Nat) (s : State) (f : Channel → Channel) (k : Channel) (h : s.channels[c]? = some k) :
    updateChannel c s f = .next (s.putChannel c (f k)) := by simp [updateChannel, onChannel, h]

/-- What `updateChannel` can do. -/
theorem updateChannel_next (c : Nat) (s t : State) (f : Channel → Channel) (h : updateChannel c s f = .next t) :
    ∃ k, s.channels[c]? = some k ∧ t = s.putChannel c (f k) := by
  obtain ⟨k, hk, hf⟩ := onChannel_next c s t _ h
  refine ⟨k, hk, ?_⟩
  simp only [Host.Outcome.next.injEq] at hf
  exact hf.symm

/-- What `storeCharacter` can do. -/
theorem storeCharacter_next (c : Nat) (s t : State) (ch : Byte) (st : Stage) (h : storeCharacter c s ch st = .next t) :
    ∃ k, s.channels[c]? = some k ∧ k.fd.len < Config.blkMax ∧
      t = s.putChannel c ({ k with fd := (k.fd.append ch).goto st }.fdaGoto .pop) := by
  obtain ⟨k, hk, hf⟩ := onChannel_next c s t _ h
  split_ifs at hf with hl
  simp only [Host.Outcome.next.injEq] at hf
  exact ⟨k, hk, hl, hf.symm⟩

/-- A composite goes on where its first line goes on. -/
@[simp] theorem chain_of_next (t : State) (f : State → Result) : chain (.next t) f = f t := rfl
@[simp] theorem chain_of_fault (x : Fault) (f : State → Result) : chain (.fault x) f = .fault x := rfl
@[simp] theorem chain_of_refused (q : Refusal) (f : State → Result) : chain (.refused q) f = .refused q := rfl

/-- What `chain` can do. -/
theorem chain_next (r : Result) (f : State → Result) (t : State) (h : chain r f = .next t) :
    ∃ u, r = .next u ∧ f u = .next t := by
  cases r with
  | next u => exact ⟨u, rfl, h⟩
  | fault x => simp at h
  | refused q => simp at h

/-- Replacing a channel twice is replacing it once. -/
@[simp] theorem putChannel_putChannel (s : State) (c : Nat) (k k' : Channel) :
    (s.putChannel c k).putChannel c k' = s.putChannel c k' := by simp [State.putChannel, List.set_set]

/-- Raising an event and replacing a channel, in the one order the laws use. -/
@[simp] theorem raiseIf_putChannel (s : State) (b : Bool) (e : Event) (c : Nat) (k : Channel) :
    (s.raiseIf b e).putChannel c k = (s.putChannel c k).raiseIf b e := rfl

/-- The operation that `decodeByte` answers is the stage operation that `FD.BIT` runs. -/
theorem execStage_of_decode (cc : ControlChars) (c : Nat) (st : Stage) (r : Byte) (len : Nat) (i : Instr) (s : State)
    (h : decodeByte cc c st r len = .ok i) : execStage i s = exec i s := by
  unfold decodeByte at h
  cases st <;> simp only [Except.ok.injEq, reduceCtorEq] at h
  case txt =>
    split_ifs at h <;> simp only [Except.ok.injEq] at h <;> subst h <;> rfl
  all_goals first | (split_ifs at h <;> subst h <;> rfl) | (subst h; rfl)

/-- A push succeeds exactly where there is room, and appends. -/
theorem push_eq_some {α : Type} (cap : Nat) (q q' : List α) (v : α) :
    push cap q v = some q' ↔ q.length < cap ∧ q' = q ++ [v] := by
  unfold push
  split_ifs with h
  · simp [h, eq_comm]
  · simp [h]

/-- A push holds exactly where the queue is full. -/
theorem push_eq_none {α : Type} (cap : Nat) (q : List α) (v : α) : push cap q v = none ↔ cap ≤ q.length := by
  unfold push
  split_ifs with h
  · simp [h]
  · simp only [true_iff]
    omega

/-- A push keeps the capacity bound. -/
theorem length_push {α : Type} (cap : Nat) (q q' : List α) (v : α) (h : push cap q v = some q') : q'.length ≤ cap := by
  obtain ⟨hl, rfl⟩ := (push_eq_some cap q q' v).1 h
  simp only [List.length_append, List.length_singleton]
  omega

/-- A pop takes the head. -/
theorem pop_eq_some {α : Type} (q q' : List α) (v : α) : pop q = some (v, q') ↔ q = v :: q' := by
  cases q with
  | nil => simp [pop]
  | cons a t => simp [pop]

/-- A pop holds exactly where the queue is empty. -/
theorem pop_eq_none {α : Type} (q : List α) : pop q = none ↔ q = [] := by
  cases q with
  | nil => simp [pop]
  | cons a t => simp [pop]

/-- Every `CD[c]` between blocks, as a statement about the channels. -/
theorem feedFree_iff (s : State) : s.feedFree = true ↔ ∀ k ∈ s.channels, k.cd.pos = .idle := by
  simp [State.feedFree]

/-- The length of the channel list is kept by putting a channel. -/
@[simp] theorem length_putChannel (s : State) (c : Nat) (k : Channel) :
    (s.putChannel c k).channels.length = s.channels.length := by simp

/-- The number of channels after `SYS.CONFIG`: one per target frequency, and those beyond that still hold something. -/
@[simp] theorem length_configureChannels (p : Params) (old : List Channel) :
    (configureChannels p old).length = max p.ft.length old.length := by
  simp only [configureChannels, List.length_append, List.length_mapIdx, List.length_drop]
  omega

/-- A channel number of the configuration keeps its channel, or starts one, with the new table. -/
theorem configureChannels_of_freq (p : Params) (old : List Channel) (c : Nat) (ft : Scalar) (h : p.ft[c]? = some ft) :
    (configureChannels p old)[c]? =
      some (match old[c]? with
        | some k => { k with lo := p.loTable ft }
        | none => Channel.reset p ft) := by
  obtain ⟨hc, rfl⟩ := List.getElem?_eq_some_iff.1 h
  rw [configureChannels, List.getElem?_append_left (by rw [List.length_mapIdx]; exact hc), List.getElem?_mapIdx, h]
  rfl

/-- A channel number beyond the configuration keeps its channel as it is. -/
theorem configureChannels_beyond (p : Params) (old : List Channel) (c : Nat) (h : p.ft.length ≤ c) :
    (configureChannels p old)[c]? = old[c]? := by
  rw [configureChannels, List.getElem?_append_right (by simpa using h)]
  simp [h]

/-- What a channel after `SYS.CONFIG` can be: one started, one kept with a new table, or one beyond the configuration. -/
theorem mem_configureChannels (p : Params) (old : List Channel) (x : Channel) (h : x ∈ configureChannels p old) :
    (∃ ft ∈ p.ft, x = Channel.reset p ft) ∨ (∃ k ∈ old, ∃ ft ∈ p.ft, x = { k with lo := p.loTable ft }) ∨ x ∈ old := by
  rcases List.mem_append.1 h with h | h
  · obtain ⟨i, hi, rfl⟩ := List.mem_mapIdx.1 h
    split
    · rename_i k hk
      exact .inr (.inl ⟨k, List.mem_of_getElem? hk, _, List.getElem_mem hi, rfl⟩)
    · exact .inl ⟨_, List.getElem_mem hi, rfl⟩
  · exact .inr (.inr (List.mem_of_mem_drop h))

/-- What a channel after `SYS.RESET` can be: the reset of one that was there. -/
theorem mem_resetChannels (s : State) (x : Channel)
    (h : x ∈ (s.channels.take s.cfg.nchan).mapIdx (fun i k => k.afterReset s.cfg (s.draws + i))) :
    ∃ k ∈ s.channels, ∃ d, x = k.afterReset s.cfg d := by
  obtain ⟨i, hi, rfl⟩ := List.mem_mapIdx.1 h
  exact ⟨_, List.mem_of_mem_take (List.getElem_mem hi), _, rfl⟩

/-- An existing channel has a number below the number of channels. -/
theorem lt_of_channel (s : State) (c : Nat) (k : Channel) (h : s.channels[c]? = some k) : c < s.channels.length :=
  (List.getElem?_eq_some_iff.1 h).1

/-- The replaced channel. -/
theorem putChannel_self (s : State) (c : Nat) (k k' : Channel) (h : s.channels[c]? = some k) :
    (s.putChannel c k').channels[c]? = some k' := by
  simp [lt_of_channel s c k h]

/-- The other channels. -/
theorem putChannel_ne (s : State) (c d : Nat) (k : Channel) (h : d ≠ c) :
    (s.putChannel c k).channels[d]? = s.channels[d]? := by
  simp [h.symm]

/-- A channel of the state with channel `c` replaced is the new one or one that was there. -/
theorem mem_putChannel (s : State) (c : Nat) (k x : Channel) (h : x ∈ (s.putChannel c k).channels) :
    x = k ∨ x ∈ s.channels := by
  rcases List.mem_or_eq_of_mem_set h with h | h
  · exact Or.inr h
  · exact Or.inl h

end Sys2Proof.Machine
end

