-- ==== Sys2Proof/Laws/Composite.lean ====
section
/-! SUPPORT. What each composite operation does, said once in closed form: `BP.PARSE`, `DM.EMIT`, `DM.SYMBOL`, `DM.SAMPLE`,
`CH.DUMP`, `CH.SAMPLE`, `FD.DONE`, `FD.CRC2`, `FD.BIT` and `BQ.POP`. -/

namespace Sys2Proof.Machine

/-- The row of the demapper table for a symbol phase (R158). -/
def tableRow (t : DemapTable) (s : BitVec 2) : DemapRow :=
  match s.toNat with
  | 0 => t.row0
  | 1 => t.row1
  | 2 => t.row2
  | _ => t.row3

/-- A channel after steps 1 to 4 of `DM.SYMBOL`, its decision in flight (R154 to R163). -/
def decided (p : Params) (coef : List Scalar) (k : Channel) : Channel :=
  let N := p.numerics
  let v := matchedFilter N p.flen coef k.dm
  let m := N.cAbs v
  let u := normalise N v m
  let lvl := levelNext N k.dm.lvl m
  let row := tableRow p.demap k.dm.s
  { k with
    dm := { k.dm with lvl := lvl }
    cd := { k.cd with
      v := v, m := m, u := u, soft := demapSoft N row u, err := demapErr N row u, dec := ⟨demapSoft N row u, lvl⟩
      pos := .push } }

/-- A channel after the push and the rest of `DM.SYMBOL` (R154, R164, R241). -/
def emitted (p : Params) (k : Channel) : Channel :=
  { k with
    dm := { k.dm with s := k.dm.s + 1, df := p.numerics.mul p.numerics.pllg k.cd.err }
    bq := k.bq ++ [k.cd.dec]
    cd := { k.cd with pos := loopPos p k.ch.n } }

/-- A channel that pushes its decision where there is room, or is held at the push. -/
def pushed (p : Params) (k : Channel) : Channel := if k.bq.length < p.bqCap then emitted p k else k

/-- `BQ.PUSH`. -/
theorem execBqPush_some (c : Nat) (s : State) (k : Channel) (h : s.channels[c]? = some k) :
    execBqPush c s =
      if k.bq.length < s.cfg.bqCap then .next (s.putChannel c ({ k with bq := k.bq ++ [k.cd.dec] }.cdGoto .tail))
      else .next s := by
  simp only [execBqPush, onChannel_some c s _ k h, push]
  split_ifs <;> rfl

/-- `DM.SYMBOL` resumed after its push. -/
theorem symbolTail_tail (c : Nat) (s : State) (k : Channel) (h : s.channels[c]? = some k) (hp : k.cd.pos = .tail) :
    symbolTail c s =
      .next (s.putChannel c
        { k with
          dm := { k.dm with s := k.dm.s + 1, df := s.cfg.numerics.mul s.cfg.numerics.pllg k.cd.err }
          cd := { k.cd with pos := loopPos s.cfg k.ch.n } }) := by
  simp only [symbolTail, onChannel_some c s _ k h, hp, if_true, execDmPll]
  rw [updateChannel_some c _ _ _ (putChannel_self s c k _ h)]
  simp [Channel.cdGoto]

/-- Nothing is left to do while the push is held. -/
theorem symbolTail_held (c : Nat) (s : State) (k : Channel) (h : s.channels[c]? = some k) (hp : k.cd.pos ≠ .tail) :
    symbolTail c s = .next s := by simp [symbolTail, onChannel_some c s _ k h, hp, hold]

/-- The push of a decision and the rest of `DM.SYMBOL`. -/
theorem push_then_tail (c : Nat) (s : State) (k : Channel) (h : s.channels[c]? = some k) (hp : k.cd.pos = .push) :
    chain (execBqPush c s) (symbolTail c) = .next (s.putChannel c (pushed s.cfg k)) := by
  rw [execBqPush_some c s k h]
  unfold pushed
  split_ifs with hr
  · rw [chain_of_next, symbolTail_tail c _ _ (putChannel_self s c k _ h) rfl]
    simp [emitted, Channel.cdGoto]
  · rw [chain_of_next, symbolTail_held c s k h (by simp [hp])]
    congr 1
    obtain ⟨hc, hk⟩ := List.getElem?_eq_some_iff.1 h
    simp [State.putChannel, ← hk, List.set_getElem_self]

/-- `DM.SYMBOL`, held at its push. -/
theorem execDmSymbol_held (c : Nat) (s : State) (k : Channel) (h : s.channels[c]? = some k) (hp : k.cd.pos = .push) :
    execDmSymbol c s = .next (s.putChannel c (pushed s.cfg k)) := by
  rw [← push_then_tail c s k h hp]
  simp [execDmSymbol, onChannel_some c s _ k h, hp]

/-- The demapper operation of the symbol phase. -/
theorem demapBySymbolPhase_some (c : Nat) (s : State) (k : Channel) (h : s.channels[c]? = some k) :
    demapBySymbolPhase c s =
      .next (s.putChannel c (demapWith s.cfg.numerics (tableRow s.cfg.demap k.dm.s) k)) := by
  simp only [demapBySymbolPhase, onChannel_some c s _ k h, tableRow, execDmDemap0, execDmDemap1, execDmDemap2,
    execDmDemap3, updateChannel_some c s _ k h]
  generalize k.dm.s.toNat = n
  match n with
  | 0 => rfl
  | 1 => rfl
  | 2 => rfl
  | n + 3 => rfl

/-- `DM.SYMBOL`, whole: it always completes, with the decision pushed or held. -/
theorem execDmSymbol_some (c : Nat) (s : State) (k : Channel) (h : s.channels[c]? = some k) (hp : k.cd.pos ≠ .push)
    (ht : k.cd.pos ≠ .tail) :
    execDmSymbol c s =
      .next ((s.putChannel c (pushed s.cfg (decided s.cfg s.coef k))).raiseIf
        (isDegenerate s.cfg.numerics (decided s.cfg s.coef k).cd.m) (.degenerate c)) := by
  have self := fun (s' : State) (k₀ k' : Channel) (h' : s'.channels[c]? = some k₀) => putChannel_self s' c k₀ k' h'
  have hs : execDmSymbol c s =
      chain (execDmMf c s) fun s₁ => chain (execDmNorm c s₁) fun s₂ => chain (execDmLevel c s₂) fun s₃ =>
      chain (demapBySymbolPhase c s₃) fun s₄ => chain (execDmEmit c s₄) (symbolTail c) := by
    rw [execDmSymbol, onChannel_some c s _ k h]
    split
    · rename_i hx; exact absurd hx hp
    · rename_i hx; exact absurd hx ht
    · rfl
  rw [hs, execDmMf, updateChannel_some c s _ k h, chain_of_next, execDmNorm, onChannel_some c _ _ _ (self s k _ h),
    chain_of_next, putChannel_putChannel, execDmLevel, updateChannel_some c _ _ _ (by exact self s k _ h), chain_of_next,
    raiseIf_putChannel, putChannel_putChannel, demapBySymbolPhase_some c _ _ (by exact self s k _ h), chain_of_next,
    raiseIf_putChannel, putChannel_putChannel, execDmEmit, onChannel_some c _ _ _ (by exact self s k _ h),
    raiseIf_putChannel, putChannel_putChannel, push_then_tail c _ _ (by exact self s k _ h) rfl,
    raiseIf_putChannel, putChannel_putChannel]
  rfl

/-- `DM.SAMPLE` on a finite sample always completes. -/
theorem execDmSample_some (c : Nat) (s : State) (k : Channel) (h : s.channels[c]? = some k)
    (hf : s.cfg.numerics.finite k.cd.y = true) :
    execDmSample c s =
      let k' := { k with dm := sampleStep s.cfg k.dm k.cd.y }
      if symbolDue s.cfg k.dm then execDmSymbol c (s.putChannel c (k'.cdGoto .symbol))
      else .next (s.putChannel c (k'.cdGoto (loopPos s.cfg k.ch.n))) := by
  simp [execDmSample, onChannel_some c s _ k h, hf]

/-- A channel after `DM.SAMPLE`, with the symbol that may fall in it (R153, R154). -/
def sampled (p : Params) (coef : List Scalar) (k : Channel) : Channel :=
  let k' := { k with dm := sampleStep p k.dm k.cd.y }
  if symbolDue p k.dm then pushed p (decided p coef k') else k'.cdGoto (loopPos p k.ch.n)

/-- A channel whose window is closed, its envelope sample in flight (R133). -/
def dumped (p : Params) (k : Channel) : Channel :=
  { k with
    ch := { k.ch with acc := p.numerics.cZero, cnt := 0 }
    cd := { k.cd with y := envelope p k.ch.acc, pos := .dmSample } }

/-- What `DM.SAMPLE` can do: if it answers next, the sample is finite, and of the state the channel and the trace change. -/
theorem execDmSample_next (c : Nat) (s t : State) (k : Channel) (hk : s.channels[c]? = some k)
    (h : execDmSample c s = .next t) :
    s.cfg.numerics.finite k.cd.y = true ∧
      ∃ ev, t = { s.putChannel c (sampled s.cfg s.coef k) with events := ev } := by
  cases hf : s.cfg.numerics.finite k.cd.y
  · simp [execDmSample, onChannel_some c s _ k hk, hf, refuse] at h
  refine ⟨rfl, ?_⟩
  rw [execDmSample_some c s k hk hf] at h
  simp only at h
  unfold sampled
  simp only
  split_ifs at h ⊢
  · rw [execDmSymbol_some c _ _ (putChannel_self s c k _ hk) (by simp [Channel.cdGoto]) (by simp [Channel.cdGoto])] at h
    cases h
    exact ⟨_, by simp only [putChannel_putChannel]; rfl⟩
  · cases h
    exact ⟨_, rfl⟩

/-- What `CH.DUMP` can do. -/
theorem execChDump_next (c : Nat) (s t : State) (k : Channel) (hk : s.channels[c]? = some k)
    (h : execChDump c s = .next t) :
    s.cfg.numerics.finite (envelope s.cfg k.ch.acc) = true ∧
      ∃ ev, t = { s.putChannel c (sampled s.cfg s.coef (dumped s.cfg k)) with events := ev } := by
  rw [execChDump, onChannel_some c s _ k hk] at h
  obtain ⟨hf, ev, rfl⟩ := execDmSample_next c _ t _ (putChannel_self s c k _ hk) h
  exact ⟨hf, ev, by simp only [putChannel_putChannel]; rfl⟩

/-- What `CH.SAMPLE` can do: if it answers next, the sample and the table entry exist and the sample is finite, and the window
goes on or is closed with everything that follows. -/
theorem execChSample_next (c : Nat) (s t : State) (k : Channel) (hk : s.channels[c]? = some k)
    (h : execChSample c s = .next t) :
    ∃ x w, s.blk[k.ch.n]? = some x ∧ s.cfg.numerics.cFinite x = true ∧ k.lo[k.ch.n]? = some w ∧
      let k₁ := mixSample s.cfg.numerics k x w
      (k₁.ch.cnt ≠ s.cfg.decim ∧ t = s.putChannel c (k₁.cdGoto (loopPos s.cfg k₁.ch.n)) ∨
        k₁.ch.cnt = s.cfg.decim ∧
          ∃ ev, t = { s.putChannel c (sampled s.cfg s.coef (dumped s.cfg k₁)) with events := ev }) := by
  rw [execChSample, onChannel_some c s _ k hk] at h
  split at h
  · cases h
  rename_i x hx
  split_ifs at h with hf
  · split at h
    · cases h
    rename_i w hw
    refine ⟨x, w, hx, hf, hw, ?_⟩
    simp only at h ⊢
    split_ifs at h with hc
    · obtain ⟨-, ev, e⟩ := execChDump_next c _ _ _ (putChannel_self s c k _ hk) h
      refine Or.inr ⟨hc, ev, ?_⟩
      rw [e]
      simp only [putChannel_putChannel]
      rfl
    · cases h
      exact Or.inl ⟨hc, rfl⟩
  · cases h

/-- The block parser in one step. -/
theorem execBpParse_some (c : Nat) (s : State) (k : Channel) (h : s.channels[c]? = some k) (hl : k.fd.len ≤ Config.blkMax) :
    execBpParse c s =
      .next ((s.putChannel c
        { k with
          fda := { k.fda with
            blk := parseBlock s.cfg.chars (k.fd.buf.readRange k.fd.len), pos := .build } }).raiseIf
          ((parseBlock s.cfg.chars (k.fd.buf.readRange k.fd.len)).isShort s.cfg.chars) (.shortBlock c)) := by
  have self := fun (k' : Channel) => putChannel_self s c k k' h
  have opt : ∀ k' : Channel, ∃ pos,
      parseOptional c (s.putChannel c k') =
        .next (s.putChannel c
          { k' with fda := { k'.fda with blk := k'.fda.blk.optional s.cfg.chars, pos := pos } }) := by
    intro k'
    simp only [parseOptional, onChannel_some c _ _ _ (self k'), State.putChannel_cfg, AcarsBlock.optional, execBpDown,
      execBpUp, updateChannel_some c _ _ _ (self k'), putChannel_putChannel, parserStep]
    by_cases h1 : k'.fda.blk.delim = some s.cfg.chars.stx
    · simp only [h1, if_true]
      by_cases h2 : k'.fda.blk.up = some false
      · exact ⟨.sublabel, by simp only [h2, if_true]⟩
      · exact ⟨.sublabel, by simp only [h2, if_false]⟩
    · exact ⟨k'.fda.pos, by simp only [h1, if_false]⟩
  rw [execBpParse, onChannel_some c s _ k h, if_pos hl, execBpFixed, updateChannel_some c _ _ _ (self _), chain_of_next,
    execBpFlags, putChannel_putChannel, updateChannel_some c _ _ _ (self _), chain_of_next, putChannel_putChannel]
  simp only [State.putChannel_cfg]
  obtain ⟨pos, ho⟩ := opt (parserStep (AcarsBlock.flags s.cfg.chars) .opt (parserStep AcarsBlock.fixed .flags
    { k with fda := { k.fda with blk := AcarsBlock.ofRaw (k.fd.buf.readRange k.fd.len), pos := .fixed } }))
  rw [ho, chain_of_next, execBpSublabel, updateChannel_some c _ _ _ (self _), chain_of_next, putChannel_putChannel,
    onChannel_some c _ _ _ (self _)]
  rfl

/-- A channel whose frame is parsed and built, at the push (R193, R243). -/
def built (cc : ControlChars) (k : Channel) : Channel :=
  let blk := parseBlock cc (k.fd.buf.readRange k.fd.len)
  { k with fda := { k.fda with blk := blk, frame := buildFrame k.fd blk, pos := .push } }

/-- The push of a frame and the rest of `FD.DONE`, or the hold. -/
def dispatched (c : Nat) (s : State) (k : Channel) : State :=
  if s.oq.length < s.cfg.oqCap then
    { s.putChannel c (stageMiss s.cfg k) with oq := s.oq ++ [k.fda.frame] }
  else s.putChannel c k

/-- `OQ.PUSH`, then the rest of `FD.DONE`. -/
theorem push_then_resync (c : Nat) (s : State) (k : Channel) (h : s.channels[c]? = some k) (hp : k.fda.pos = .push) :
    chain (execOqPush c s) (frameTail c) = .next (dispatched c s k) := by
  have hput : s.putChannel c k = s := by
    obtain ⟨hc, hk⟩ := List.getElem?_eq_some_iff.1 h
    simp [State.putChannel, ← hk, List.set_getElem_self]
  simp only [execOqPush, onChannel_some c s _ k h, push, dispatched]
  by_cases hr : s.oq.length < s.cfg.oqCap
  · simp only [hr, if_true, chain_of_next]
    rw [frameTail, onChannel_some c _ _ (k.fdaGoto .resync) (by exact putChannel_self s c k _ h)]
    simp [State.putChannel, stageMiss, Channel.fdaGoto, List.set_set]
  · simp only [hr, if_false, hold, chain_of_next]
    rw [frameTail, onChannel_some c s _ k h, if_neg (by simp [hp]), hput]
    rfl

/-- `FD.DONE`, held at its push. -/
theorem execFdDone_held (c : Nat) (s : State) (k : Channel) (h : s.channels[c]? = some k) (hp : k.fda.pos = .push) :
    execFdDone c s = .next (dispatched c s k) := by
  rw [← push_then_resync c s k h hp]
  simp [execFdDone, onChannel_some c s _ k h, hp]

/-- `FD.DONE`, whole: it completes for every length of the parser's domain, with the frame queued or held. -/
theorem execFdDone_some (c : Nat) (s : State) (k : Channel) (h : s.channels[c]? = some k) (hp : k.fda.pos ≠ .push)
    (hr : k.fda.pos ≠ .resync) (hl : k.fd.len ≤ Config.blkMax) :
    execFdDone c s =
      .next ((dispatched c s (built s.cfg.chars k)).raiseIf
        ((built s.cfg.chars k).fda.blk.isShort s.cfg.chars) (.shortBlock c)) := by
  have hs : execFdDone c s =
      chain (execBpParse c s) fun s₁ => chain (execFaBuild c s₁) fun s₂ => chain (execOqPush c s₂) (frameTail c) := by
    rw [execFdDone, onChannel_some c s _ k h]
    split
    · rename_i hx; exact absurd hx hp
    · rename_i hx; exact absurd hx hr
    · rfl
  rw [hs, execBpParse_some c s k h hl, chain_of_next, execFaBuild,
    updateChannel_some c _ _ _ (by exact putChannel_self s c k _ h), chain_of_next, raiseIf_putChannel,
    putChannel_putChannel, push_then_resync c _ _ (by exact putChannel_self s c k _ h) rfl]
  simp only [dispatched, raiseIf_putChannel, putChannel_putChannel, State.raiseIf_oq, State.raiseIf_cfg,
    State.putChannel_oq, State.putChannel_cfg]
  split_ifs <;> rfl

/-- `FD.CRC2` is `FD.DONE` on the channel with the byte stored. -/
theorem execFdCrc2_some (c : Nat) (r : Byte) (s : State) (k : Channel) (h : s.channels[c]? = some k) :
    execFdCrc2 c r s =
      execFdDone c (s.putChannel c ({ k with fd := { k.fd with crc1 := r, stage := .done } }.fdaGoto .done)) := by
  simp [execFdCrc2, onChannel_some c s _ k h]

/-- A channel with one decision shifted in (R181). -/
def shifted (N : Numerics) (k : Channel) : Channel :=
  { k with
    fd := { k.fd with sr := shiftIn k.fd.sr (hardBit N k.fda.dec.soft), nb := k.fd.nb - 1 }
    fda := { k.fda with lvl := k.fda.dec.lvl } }

/-- `FD.BIT`: the byte goes on, or the stage operation that the completed byte selects runs. -/
theorem execFdBit_some (c : Nat) (s : State) (k : Channel) (h : s.channels[c]? = some k) :
    execFdBit c s =
      if (shifted s.cfg.numerics k).fd.nb = 0 then
        match decodeByte s.cfg.chars c k.fd.stage (shifted s.cfg.numerics k).fd.sr k.fd.len with
        | .ok i => exec i (s.putChannel c ((shifted s.cfg.numerics k).fdaGoto .stage))
        | .error e => .refused (.noOperation e)
      else .next (s.putChannel c ((shifted s.cfg.numerics k).fdaGoto .pop)) := by
  simp only [execFdBit, onChannel_some c s _ k h, shifted]
  by_cases hn : k.fd.nb - 1 = 0
  · simp only [hn, if_true, runStage, onChannel_some c _ _ _ (putChannel_self s c k _ h), State.putChannel_cfg,
      Channel.fdaGoto_fd]
    cases hd : decodeByte s.cfg.chars c k.fd.stage (shiftIn k.fd.sr (hardBit s.cfg.numerics k.fda.dec.soft)) k.fd.len with
    | ok i => exact execStage_of_decode _ _ _ _ _ _ _ hd
    | error e => rfl
  · simp only [hn, if_false]

/-- `BQ.POP` on a queue that holds a decision is `FD.BIT` on it. -/
theorem execBqPop_some (c : Nat) (s : State) (k : Channel) (d : BitDecision) (q : List BitDecision)
    (h : s.channels[c]? = some k) (hq : k.bq = d :: q) :
    execBqPop c s =
      execFdBit c (s.putChannel c { k with bq := q, fda := { k.fda with dec := d, pos := .bit } }) := by
  simp [execBqPop, onChannel_some c s _ k h, hq, pop]

end Sys2Proof.Machine
end

