-- ==== Sys2Proof/Laws/Exact.lean ====
section
/-! SUPPORT. The numeric operations are exact: each answers a term that stands for the real result, and is finite where
its operands are. -/

namespace Sys2Proof

namespace Scalar

@[simp] theorem toReal_lin (a b : ℚ) : (Scalar.lin a b).toReal = (a : ℝ) + (b : ℝ) * Real.pi := rfl
@[simp] theorem toReal_input (i : Nat) : (Scalar.input i).toReal = Config.inputReal i := rfl
@[simp] theorem toReal_drawn (k : Nat) : (Scalar.drawn k).toReal = Config.drawnReal k := rfl
@[simp] theorem toReal_nonFinite (k : NonFinite) : (Scalar.nonFinite k).toReal = 0 := rfl
@[simp] theorem toReal_opp (x : Scalar) : (Scalar.opp x).toReal = -x.toReal := rfl
@[simp] theorem toReal_sum (x y : Scalar) : (Scalar.sum x y).toReal = x.toReal + y.toReal := rfl
@[simp] theorem toReal_prod (x y : Scalar) : (Scalar.prod x y).toReal = x.toReal * y.toReal := rfl
@[simp] theorem toReal_quot (x y : Scalar) : (Scalar.quot x y).toReal = x.toReal / y.toReal := rfl
@[simp] theorem toReal_root (x : Scalar) : (Scalar.root x).toReal = Real.sqrt x.toReal := rfl
@[simp] theorem toReal_cosine (x : Scalar) : (Scalar.cosine x).toReal = Real.cos x.toReal := rfl
@[simp] theorem toReal_sine (x : Scalar) : (Scalar.sine x).toReal = Real.sin x.toReal := rfl
@[simp] theorem toReal_logTen (x : Scalar) : (Scalar.logTen x).toReal = Real.logb 10 x.toReal := rfl

@[simp] theorem finite_lin (a b : ℚ) : (Scalar.lin a b).finite = true := rfl
@[simp] theorem finite_input (i : Nat) : (Scalar.input i).finite = true := rfl
@[simp] theorem finite_drawn (k : Nat) : (Scalar.drawn k).finite = true := rfl
@[simp] theorem finite_nonFinite (k : NonFinite) : (Scalar.nonFinite k).finite = false := rfl
@[simp] theorem finite_opp (x : Scalar) : (Scalar.opp x).finite = x.finite := rfl
@[simp] theorem finite_sum (x y : Scalar) : (Scalar.sum x y).finite = (x.finite && y.finite) := rfl
@[simp] theorem finite_prod (x y : Scalar) : (Scalar.prod x y).finite = (x.finite && y.finite) := rfl
@[simp] theorem finite_quot (x y : Scalar) : (Scalar.quot x y).finite = (x.finite && y.finite) := rfl
@[simp] theorem finite_root (x : Scalar) : (Scalar.root x).finite = x.finite := rfl
@[simp] theorem finite_cosine (x : Scalar) : (Scalar.cosine x).finite = x.finite := rfl
@[simp] theorem finite_sine (x : Scalar) : (Scalar.sine x).finite = x.finite := rfl
@[simp] theorem finite_logTen (x : Scalar) : (Scalar.logTen x).finite = x.finite := rfl

/-- The constant `π` of the model is `π`. -/
@[simp] theorem toReal_pi : Scalar.pi.toReal = Real.pi := by simp [Scalar.pi]

/-- A rational stands for itself. -/
@[simp] theorem toReal_rat (q : ℚ) : (Scalar.rat q).toReal = q := by simp [Scalar.rat]

@[simp] theorem finite_rat (q : ℚ) : (Scalar.rat q).finite = true := rfl

/-- Addition is exact. -/
@[simp] theorem toReal_add (x y : Scalar) : (add x y).toReal = x.toReal + y.toReal := by
  unfold add
  split
  · simp only [toReal_lin, Rat.cast_add]
    ring
  · split_ifs with h₁ h₂
    · simp [h₁, Scalar.zero]
    · simp [h₂, Scalar.zero]
    · simp

@[simp] theorem finite_add (x y : Scalar) : (add x y).finite = (x.finite && y.finite) := by
  unfold add
  split
  · simp
  · split_ifs with h₁ h₂
    · simp [h₁, Scalar.zero]
    · simp [h₂, Scalar.zero]
    · simp

/-- Negation is exact. -/
@[simp] theorem toReal_neg (x : Scalar) : (neg x).toReal = -x.toReal := by
  unfold neg
  split
  · simp only [toReal_lin, Rat.cast_neg]
    ring
  · simp
  · simp

@[simp] theorem finite_neg (x : Scalar) : (neg x).finite = x.finite := by
  unfold neg
  split <;> simp

/-- Subtraction is exact. -/
@[simp] theorem toReal_sub (x y : Scalar) : (sub x y).toReal = x.toReal - y.toReal := by
  simp [sub, sub_eq_add_neg]

@[simp] theorem finite_sub (x y : Scalar) : (sub x y).finite = (x.finite && y.finite) := by simp [sub]

/-- Multiplication is exact. -/
@[simp] theorem toReal_mul (x y : Scalar) : (mul x y).toReal = x.toReal * y.toReal := by
  unfold mul
  split
  · split_ifs with h₁ h₂
    · simp only [toReal_lin, Rat.cast_mul, h₁, Rat.cast_zero]
      ring
    · simp only [toReal_lin, Rat.cast_mul, h₂, Rat.cast_zero]
      ring
    · simp
  · split_ifs with h₁ h₂ h₃ h₄ h₅ h₆ <;> simp [*, Scalar.zero, Scalar.one, Scalar.nan]

@[simp] theorem finite_mul (x y : Scalar) : (mul x y).finite = (x.finite && y.finite) := by
  unfold mul
  split
  · split_ifs <;> simp
  · split_ifs with h₁ h₂ h₃ h₄ h₅ h₆ <;> simp_all [Scalar.zero, Scalar.one, Scalar.nan]

/-- Division is exact (a division by the number 0 stands for 0, as real division does in Lean). -/
@[simp] theorem toReal_div (x y : Scalar) : (div x y).toReal = x.toReal / y.toReal := by
  unfold div
  split
  · rename_i c d
    split_ifs with hd hc
    · simp [hd, hc, Scalar.nan]
    · simp [hd, div_eq_inv_mul]
    · split
      · split_ifs with h
        · obtain ⟨rfl, rfl⟩ := h
          have hd' : (d : ℝ) ≠ 0 := by exact_mod_cast hd
          simp only [toReal_lin, Rat.cast_div, Rat.cast_zero, zero_mul, add_zero, zero_add]
          field_simp
        · simp
      · simp
  · simp

/-- A quotient is finite where its operands are and the divisor is not the term 0. -/
theorem finite_div (x y : Scalar) (hx : x.finite) (hy : y.finite) (h : y ≠ Scalar.zero) :
    (div x y).finite = true := by
  unfold div
  split
  · split_ifs with hd hc
    · subst hd; subst hc; exact absurd rfl h
    · simp [hx]
    · split
      · split_ifs <;> simp
      · simp [hx]
  · simp [hx, hy]

/-- What a quotient that is finite says about its operands. -/
theorem finite_of_finite_div (x y : Scalar) (h : (div x y).finite = true) : x.finite = true ∧ y.finite = true := by
  unfold div at h
  split at h
  · split_ifs at h with hd hc
    · simp at h
    · simpa using h
    · split at h
      · simp
      · simpa using h
  · simpa using h

/-- The rational root, where there is one, is the root. -/
theorem ratRoot_exact (q r : ℚ) (h : ratRoot? q = some r) : (r : ℝ) = Real.sqrt q := by
  unfold ratRoot? at h
  simp only at h
  split_ifs at h with hr
  simp only [Option.some.injEq] at h
  subst h
  conv_rhs => rw [← hr, Rat.cast_mul]
  exact (Real.sqrt_mul_self (by positivity)).symm

/-- The square root is exact. -/
@[simp] theorem toReal_sqrt (x : Scalar) : (sqrt x).toReal = Real.sqrt x.toReal := by
  unfold sqrt
  split
  · split_ifs with hb
    · split
      · rename_i h
        simp [Scalar.rat, ratRoot_exact _ _ h, hb]
      · simp
    · simp
  · simp

@[simp] theorem finite_sqrt (x : Scalar) : (sqrt x).finite = x.finite := by
  unfold sqrt
  split
  · split_ifs
    · split <;> simp [Scalar.rat]
    · simp
  · simp

/-- An angle reduced to one turn has the cosine of the angle. -/
theorem cos_turn (b : ℚ) : Real.cos ((turn b : ℚ) * Real.pi) = Real.cos (b * Real.pi) := by
  have h : ((turn b : ℚ) : ℝ) * Real.pi = b * Real.pi - (⌊b / 2⌋ : ℤ) * (2 * Real.pi) := by
    unfold turn
    push_cast
    ring
  rw [h, Real.cos_sub_int_mul_two_pi]

/-- The table holds cosines. -/
theorem cosTable_exact (t r : ℚ) (h : cosTable t = some r) : (r : ℝ) = Real.cos (t * Real.pi) := by
  unfold cosTable at h
  split_ifs at h with h0 h1 h2 h3 h4 h5 h6 h7 <;> simp only [Option.some.injEq] at h <;> subst h <;> subst t
  · simp
  · rw [show ((1 / 3 : ℚ) : ℝ) * Real.pi = Real.pi / 3 by push_cast; ring, Real.cos_pi_div_three]; norm_num
  · rw [show ((1 / 2 : ℚ) : ℝ) * Real.pi = Real.pi / 2 by push_cast; ring, Real.cos_pi_div_two]; norm_num
  · rw [show ((2 / 3 : ℚ) : ℝ) * Real.pi = Real.pi - Real.pi / 3 by push_cast; ring, Real.cos_pi_sub,
      Real.cos_pi_div_three]; norm_num
  · simp
  · rw [show ((4 / 3 : ℚ) : ℝ) * Real.pi = Real.pi / 3 + Real.pi by push_cast; ring, Real.cos_add_pi,
      Real.cos_pi_div_three]; norm_num
  · rw [show ((3 / 2 : ℚ) : ℝ) * Real.pi = Real.pi / 2 + Real.pi by push_cast; ring, Real.cos_add_pi,
      Real.cos_pi_div_two]; norm_num
  · rw [show ((5 / 3 : ℚ) : ℝ) * Real.pi = 2 * Real.pi - Real.pi / 3 by push_cast; ring, Real.cos_two_pi_sub,
      Real.cos_pi_div_three]; norm_num

/-- The cosine is exact. -/
@[simp] theorem toReal_cos (x : Scalar) : (cos x).toReal = Real.cos x.toReal := by
  unfold cos
  split
  · split_ifs with ha
    · split
      · rename_i h
        simp [Scalar.rat, cosTable_exact _ _ h, cos_turn, ha]
      · simp
    · simp
  · simp

@[simp] theorem finite_cos (x : Scalar) : (cos x).finite = x.finite := by
  unfold cos
  split
  · split_ifs
    · split <;> simp [Scalar.rat]
    · simp
  · simp

/-- The sine table holds sines. -/
theorem sinTable_exact (b r : ℚ) (h : sinTable b = some r) : (r : ℝ) = Real.sin (b * Real.pi) := by
  rw [cosTable_exact _ _ h, cos_turn, ← Real.cos_sub_pi_div_two]
  congr 1
  push_cast
  ring

/-- The sine is exact. -/
@[simp] theorem toReal_sin (x : Scalar) : (sin x).toReal = Real.sin x.toReal := by
  unfold sin
  split
  · split_ifs with ha
    · split
      · rename_i h
        simp [Scalar.rat, sinTable_exact _ _ h, ha]
      · simp
    · simp
  · simp

@[simp] theorem finite_sin (x : Scalar) : (sin x).finite = x.finite := by
  unfold sin
  split
  · split_ifs
    · split <;> simp [Scalar.rat]
    · simp
  · simp

/-- The exponent found is the decimal logarithm. -/
theorem powerOfTen_exact (q : ℚ) (k : Int) (h : powerOfTen? q = some k) : ((k : ℚ) : ℝ) = Real.logb 10 q := by
  unfold powerOfTen? at h
  split at h
  · rename_i n hn
    have hq : q = (10 : ℚ) ^ n := by simpa using List.find?_some hn
    simp only [Option.some.injEq] at h
    subst h
    rw [hq]
    push_cast
    rw [Real.logb_pow, Real.logb_self_eq_one (by norm_num)]
    ring
  · split at h
    · rename_i n hn
      have hq : q * (10 : ℚ) ^ n = 1 := by simpa using List.find?_some hn
      simp only [Option.some.injEq] at h
      subst h
      have hq' : (q : ℝ) = ((10 : ℝ) ^ n)⁻¹ := by
        have : (q : ℝ) * (10 : ℝ) ^ n = 1 := by exact_mod_cast hq
        exact eq_inv_of_mul_eq_one_left this
      rw [hq', Real.logb_inv, Real.logb_pow, Real.logb_self_eq_one (by norm_num)]
      push_cast
      ring
    · simp at h

/-- The decimal logarithm is exact. -/
@[simp] theorem toReal_log10 (x : Scalar) : (log10 x).toReal = Real.logb 10 x.toReal := by
  unfold log10
  split
  · split_ifs with hb
    · split
      · rename_i h
        have := powerOfTen_exact _ _ h
        simp_all [Scalar.rat]
      · simp
    · simp
  · simp

@[simp] theorem finite_log10 (x : Scalar) : (log10 x).finite = x.finite := by
  unfold log10
  split
  · split_ifs
    · split <;> simp [Scalar.rat]
    · simp
  · simp

end Scalar

/-- The numeric domain of a configuration that asks for the exact reals. -/
theorem Params.numerics_exact (p : Params) (h : p.num = .exact) : p.numerics = Numerics.exact := by
  simp [Params.numerics, h]

namespace Numerics

@[simp] theorem exact_ofRat (q : ℚ) : exact.ofRat q = Scalar.rat q := rfl
@[simp] theorem exact_pi : exact.pi = Scalar.pi := rfl
@[simp] theorem exact_add (x y : Scalar) : exact.add x y = Scalar.add x y := rfl
@[simp] theorem exact_sub (x y : Scalar) : exact.sub x y = Scalar.sub x y := rfl
@[simp] theorem exact_neg (x : Scalar) : exact.neg x = Scalar.neg x := rfl
@[simp] theorem exact_mul (x y : Scalar) : exact.mul x y = Scalar.mul x y := rfl
@[simp] theorem exact_div (x y : Scalar) : exact.div x y = Scalar.div x y := rfl
@[simp] theorem exact_sqrt (x : Scalar) : exact.sqrt x = Scalar.sqrt x := rfl
@[simp] theorem exact_cos (x : Scalar) : exact.cos x = Scalar.cos x := rfl
@[simp] theorem exact_sin (x : Scalar) : exact.sin x = Scalar.sin x := rfl
@[simp] theorem exact_log10 (x : Scalar) : exact.log10 x = Scalar.log10 x := rfl
@[simp] theorem exact_lt (x y : Scalar) : exact.lt x y = Scalar.lt x y := rfl
@[simp] theorem exact_le (x y : Scalar) : exact.le x y = Scalar.le x y := rfl
@[simp] theorem exact_floor (x : Scalar) : exact.floor x = Scalar.floor x := rfl
@[simp] theorem exact_finite (x : Scalar) : exact.finite x = x.finite := rfl
@[simp] theorem exact_zero : exact.zero = Scalar.zero := rfl
@[simp] theorem exact_cZero : exact.cZero = Cplx.zero := rfl
@[simp] theorem exact_cFinite (z : Cplx) : exact.cFinite z = z.finite := rfl

@[simp] theorem toReal_ofNat (n : Nat) : (exact.ofNat n).toReal = n := by simp [ofNat]
@[simp] theorem finite_ofNat (n : Nat) : (exact.ofNat n).finite = true := rfl
@[simp] theorem toReal_twoPi : exact.twoPi.toReal = 2 * Real.pi := by simp [twoPi]
@[simp] theorem finite_twoPi : exact.twoPi.finite = true := by simp [twoPi]
@[simp] theorem toReal_clkTh : exact.clkTh.toReal = 3 * Real.pi / 2 := by
  simp only [clkTh, exact_mul, exact_div, exact_ofRat, exact_pi, Scalar.toReal_mul, Scalar.toReal_div, Scalar.toReal_rat,
    Scalar.toReal_pi]
  push_cast
  ring
@[simp] theorem finite_clkTh : exact.clkTh.finite = true := by decide +kernel
@[simp] theorem toReal_eps : exact.eps.toReal = 1 / 1000000 := by simp [eps]
@[simp] theorem finite_eps : exact.eps.finite = true := rfl
@[simp] theorem toReal_lvlKeep : exact.lvlKeep.toReal = 99 / 100 := by simp [lvlKeep]
@[simp] theorem toReal_lvlNew : exact.lvlNew.toReal = 1 / 100 := by simp [lvlNew]
@[simp] theorem toReal_lvlDiv : exact.lvlDiv.toReal = 26 / 5 := by simp [lvlDiv]
@[simp] theorem toReal_pllg : exact.pllg.toReal = 38 / 10000 := by simp [pllg]
@[simp] theorem finite_pllg : exact.pllg.finite = true := rfl
@[simp] theorem toReal_minRate : exact.minRate.toReal = 1200 := by simp [minRate]
@[simp] theorem finite_minRate : exact.minRate.finite = true := rfl
@[simp] theorem toReal_coefFreq : exact.coefFreq.toReal = 600 := by simp [coefFreq]

/-- The complex operations are exact in each component (R8). -/
theorem toReal_cAdd (z w : Cplx) : (exact.cAdd z w).re.toReal = z.re.toReal + w.re.toReal ∧
    (exact.cAdd z w).im.toReal = z.im.toReal + w.im.toReal := by simp [cAdd]
theorem toReal_cMul (z w : Cplx) :
    (exact.cMul z w).re.toReal = z.re.toReal * w.re.toReal - z.im.toReal * w.im.toReal ∧
    (exact.cMul z w).im.toReal = z.re.toReal * w.im.toReal + z.im.toReal * w.re.toReal := by simp [cMul]
theorem toReal_cScale (r : Scalar) (z : Cplx) : (exact.cScale r z).re.toReal = r.toReal * z.re.toReal ∧
    (exact.cScale r z).im.toReal = r.toReal * z.im.toReal := by simp [cScale]
theorem toReal_cDiv (z : Cplx) (r : Scalar) : (exact.cDiv z r).re.toReal = z.re.toReal / r.toReal ∧
    (exact.cDiv z r).im.toReal = z.im.toReal / r.toReal := by simp [cDiv]
@[simp] theorem toReal_cAbs (z : Cplx) :
    (exact.cAbs z).toReal = Real.sqrt (z.re.toReal ^ 2 + z.im.toReal ^ 2) := by simp [cAbs, sq]
@[simp] theorem finite_cAbs (z : Cplx) : (exact.cAbs z).finite = z.finite := by simp [cAbs, Cplx.finite]

end Numerics

end Sys2Proof
end

