-- ==== Sys2Proof/Laws/Enclosure.lean ====
section
/-! SUPPORT. The enclosures are sound: the real a term stands for lies in the enclosure of the term; so every comparison and
every floor of terms is that of the reals. -/

namespace Sys2Proof

namespace Encl

/-- The real `r` lies in the enclosure. -/
def contains (e : Encl) (r : ℝ) : Prop := (e.lo : ℝ) ≤ r ∧ r ≤ (e.hi : ℝ)

theorem grid_pos : (0 : ℚ) < grid := by unfold grid; positivity

theorem down_le (q : ℚ) : down q ≤ q := by
  unfold down
  rw [div_le_iff₀ grid_pos]
  exact Int.floor_le _

theorem le_up (q : ℚ) : q ≤ up q := by
  unfold up
  rw [le_div_iff₀ grid_pos]
  exact Int.le_ceil _

theorem contains_outward {e : Encl} {r : ℝ} (h : e.contains r) : e.outward.contains r :=
  ⟨le_trans (by exact_mod_cast down_le e.lo) h.1, le_trans h.2 (by exact_mod_cast le_up e.hi)⟩

theorem contains_add {e f : Encl} {r t : ℝ} (h : e.contains r) (g : f.contains t) : (add e f).contains (r + t) := by
  apply contains_outward
  constructor <;> push_cast
  · linarith [h.1, g.1]
  · linarith [h.2, g.2]

theorem contains_neg {e : Encl} {r : ℝ} (h : e.contains r) : (neg e).contains (-r) := by
  constructor <;> simp only [neg] <;> push_cast
  · linarith [h.2]
  · linarith [h.1]

/-- A product of reals from two intervals lies between the least and the greatest product of ends. -/
theorem mul_bounds {a b c d x y : ℝ} (hx : a ≤ x ∧ x ≤ b) (hy : c ≤ y ∧ y ≤ d) :
    min (min (a * c) (a * d)) (min (b * c) (b * d)) ≤ x * y ∧
      x * y ≤ max (max (a * c) (a * d)) (max (b * c) (b * d)) := by
  have key : ∀ p q : ℝ, p ≤ x → x ≤ q → ∀ m M : ℝ,
      (m ≤ p * y) → (m ≤ q * y) → (p * y ≤ M) → (q * y ≤ M) → m ≤ x * y ∧ x * y ≤ M := by
    intro p q hp hq m M h1 h2 h3 h4
    rcases le_total 0 y with h | h
    · exact ⟨by nlinarith, by nlinarith⟩
    · exact ⟨by nlinarith, by nlinarith⟩
  have edge : ∀ p m M : ℝ, m ≤ p * c → m ≤ p * d → p * c ≤ M → p * d ≤ M → m ≤ p * y ∧ p * y ≤ M := by
    intro p m M h1 h2 h3 h4
    rcases le_total 0 p with h | h
    · exact ⟨by nlinarith [hy.1, hy.2], by nlinarith [hy.1, hy.2]⟩
    · exact ⟨by nlinarith [hy.1, hy.2], by nlinarith [hy.1, hy.2]⟩
  set m := min (min (a * c) (a * d)) (min (b * c) (b * d)) with hm
  set M := max (max (a * c) (a * d)) (max (b * c) (b * d)) with hM
  have ha := edge a m M ((min_le_left _ _).trans (min_le_left _ _)) ((min_le_left _ _).trans (min_le_right _ _))
    ((le_max_left _ _).trans (le_max_left _ _)) ((le_max_right _ _).trans (le_max_left _ _))
  have hb := edge b m M ((min_le_right _ _).trans (min_le_left _ _)) ((min_le_right _ _).trans (min_le_right _ _))
    ((le_max_left _ _).trans (le_max_right _ _)) ((le_max_right _ _).trans (le_max_right _ _))
  exact key a b hx.1 hx.2 m M ha.1 hb.1 ha.2 hb.2

theorem contains_mul {e f : Encl} {r t : ℝ} (h : e.contains r) (g : f.contains t) : (mul e f).contains (r * t) := by
  apply contains_outward
  have := mul_bounds h g
  constructor <;> push_cast
  · exact this.1
  · exact this.2

theorem contains_inv {e f : Encl} {r : ℝ} (h : e.contains r) (hf : e.inv = some f) : f.contains r⁻¹ := by
  unfold inv at hf
  split_ifs at hf with hs
  simp only [Option.some.injEq] at hf
  subst hf
  apply contains_outward
  obtain ⟨h1, h2⟩ := h
  rcases hs with hs | hs
  · have hl : (0 : ℝ) < e.lo := by exact_mod_cast hs
    constructor <;> push_cast
    · exact inv_anti₀ (by linarith) h2
    · exact inv_anti₀ hl h1
  · have hh : (e.hi : ℝ) < 0 := by exact_mod_cast hs
    have hr : r < 0 := by linarith
    constructor <;> push_cast
    · exact (inv_le_inv_of_neg hh hr).2 h2
    · exact (inv_le_inv_of_neg hr (by linarith)).2 h1

theorem rootDown_le (q : ℚ) : ((rootDown q : ℚ) : ℝ) ≤ Real.sqrt q := by
  unfold rootDown
  simp only
  split_ifs with h
  · apply Real.le_sqrt_of_sq_le
    rw [sq]
    exact_mod_cast h
  · simp [Real.sqrt_nonneg]

theorem le_rootUp (q : ℚ) : Real.sqrt q ≤ ((rootUp q : ℚ) : ℝ) := by
  unfold rootUp
  simp only
  split_ifs with h
  · have hg : (0 : ℚ) < grid := grid_pos
    have : (0 : ℚ) ≤ ((Scalar.isqrt ⌈q * grid * grid⌉.toNat : ℚ) + 1) / grid := by positivity
    apply Real.sqrt_le_iff.2
    constructor
    · exact_mod_cast this
    · rw [sq]
      exact_mod_cast h
  · apply Real.sqrt_le_iff.2
    have h1 : (q : ℝ) ≤ ((max q 1 : ℚ) : ℝ) := by exact_mod_cast le_max_left q 1
    have h2 : (1 : ℝ) ≤ ((max q 1 : ℚ) : ℝ) := by exact_mod_cast le_max_right q 1
    constructor
    · linarith
    · nlinarith

theorem contains_root {e : Encl} {r : ℝ} (h : e.contains r) : (root e).contains (Real.sqrt r) := by
  constructor
  · refine (rootDown_le _).trans ?_
    push_cast
    rcases le_total (e.lo : ℝ) 0 with hl | hl
    · rw [max_eq_right hl]
      simp [Real.sqrt_nonneg]
    · rw [max_eq_left hl]
      exact Real.sqrt_le_sqrt h.1
  · refine le_trans ?_ (le_rootUp _)
    push_cast
    exact Real.sqrt_le_sqrt (h.2.trans (le_max_left _ _))

theorem contains_doubleCos (k : Nat) : ∀ (e : Encl) (x : ℝ), e.contains (Real.cos x) →
    (doubleCos k e).contains (Real.cos (2 ^ k * x)) := by
  induction k with
  | zero => intro e x h; simpa [doubleCos] using h
  | succ k ih =>
    intro e x h
    have hd : (add (mul ⟨2, 2⟩ (mul e e)) ⟨-1, -1⟩).contains (Real.cos (2 * x)) := by
      have h2 : (⟨2, 2⟩ : Encl).contains 2 := by constructor <;> norm_num
      have h1 : (⟨-1, -1⟩ : Encl).contains (-1) := by constructor <;> norm_num
      have := contains_add (contains_mul h2 (contains_mul h h)) h1
      rw [Real.cos_two_mul, sq]
      simpa [sub_eq_add_neg] using this
    have := ih _ _ hd
    rw [doubleCos, pow_succ, mul_assoc]
    exact this

theorem contains_cosRat {q : ℚ} {e : Encl} (h : cosRat q = some e) : e.contains (Real.cos q) := by
  unfold cosRat at h
  simp only at h
  split_ifs at h with ht
  simp only [Option.some.injEq] at h
  subst h
  set k := (⌈|q|⌉.toNat).log2 + 41
  set t := q / 2 ^ k with htd
  have hq : (q : ℝ) = 2 ^ k * (t : ℝ) := by
    rw [htd]
    push_cast
    field_simp
  rw [hq]
  apply contains_doubleCos
  apply contains_outward
  have hb := Real.cos_bound (x := (t : ℝ)) (by exact_mod_cast ht)
  rw [abs_le] at hb
  constructor <;> push_cast
  · linarith [hb.1]
  · linarith [hb.2]

theorem contains_cos {x e : Encl} {r : ℝ} (h : x.contains r) (he : x.cos = some e) : e.contains (Real.cos r) := by
  unfold cos at he
  split at he
  · rename_i f hf
    simp only [Option.some.injEq] at he
    subst he
    have hm := contains_cosRat hf
    have hd : |Real.cos r - Real.cos (((x.lo + x.hi) / 2 : ℚ) : ℝ)| ≤ |r - (((x.lo + x.hi) / 2 : ℚ) : ℝ)| :=
      Real.abs_cos_sub_cos_le _ _
    have hr : |r - (((x.lo + x.hi) / 2 : ℚ) : ℝ)| ≤ ((x.hi : ℝ) - x.lo) / 2 := by
      rw [abs_le]
      push_cast
      constructor <;> linarith [h.1, h.2]
    have := hd.trans hr
    rw [abs_le] at this
    constructor <;> push_cast
    · linarith [hm.1, this.1]
    · linarith [hm.2, this.2]
  · simp at he

theorem contains_pi : pi.contains Real.pi := by
  constructor <;> simp only [pi] <;> push_cast
  · linarith [Real.pi_gt_d20]
  · linarith [Real.pi_lt_d20]

theorem contains_rat (q : ℚ) : (⟨q, q⟩ : Encl).contains q := ⟨le_refl _, le_refl _⟩

end Encl

namespace Scalar

/-- The enclosure of a term contains the real it stands for. -/
theorem encl_sound (x : Scalar) : ∀ e : Encl, x.encl = some e → e.contains x.toReal := by
  induction x with
  | lin a b =>
    intro e h
    simp only [encl, Option.some.injEq] at h
    subst h
    exact Encl.contains_add (Encl.contains_rat a) (Encl.contains_mul (Encl.contains_rat b) Encl.contains_pi)
  | input i => intro e h; simp [encl] at h
  | drawn k => intro e h; simp [encl] at h
  | nonFinite k => intro e h; simp [encl] at h
  | opp x ih =>
    intro e h
    simp only [encl, Option.map_eq_some_iff] at h
    obtain ⟨f, hf, rfl⟩ := h
    exact Encl.contains_neg (ih f hf)
  | sum x y ihx ihy =>
    intro e h
    simp only [encl] at h
    split at h
    · rename_i f g hf hg
      simp only [Option.some.injEq] at h
      subst h
      exact Encl.contains_add (ihx f hf) (ihy g hg)
    · simp at h
  | prod x y ihx ihy =>
    intro e h
    simp only [encl] at h
    split at h
    · rename_i f g hf hg
      simp only [Option.some.injEq] at h
      subst h
      exact Encl.contains_mul (ihx f hf) (ihy g hg)
    · simp at h
  | quot x y ihx ihy =>
    intro e h
    simp only [encl] at h
    split at h
    · rename_i f g hf hg
      simp only [Option.some.injEq] at h
      subst h
      obtain ⟨g', hg', hi⟩ := Option.bind_eq_some_iff.1 hg
      rw [toReal_quot, div_eq_mul_inv]
      exact Encl.contains_mul (ihx f hf) (Encl.contains_inv (ihy g' hg') hi)
    · simp at h
  | root x ih =>
    intro e h
    simp only [encl, Option.map_eq_some_iff] at h
    obtain ⟨f, hf, rfl⟩ := h
    exact Encl.contains_root (ih f hf)
  | cosine x ih =>
    intro e h
    simp only [encl] at h
    obtain ⟨f, hf, hc⟩ := Option.bind_eq_some_iff.1 h
    exact Encl.contains_cos (ih f hf) hc
  | sine x ih =>
    intro e h
    simp only [encl] at h
    obtain ⟨f, hf, hc⟩ := Option.bind_eq_some_iff.1 h
    have hs : (Encl.add f (Encl.mul ⟨-1 / 2, -1 / 2⟩ Encl.pi)).contains (x.toReal + (-1 / 2) * Real.pi) := by
      have := Encl.contains_mul (Encl.contains_rat (-1 / 2)) Encl.contains_pi
      push_cast at this
      exact Encl.contains_add (ih f hf) this
    have := Encl.contains_cos hs hc
    rw [toReal_sine, ← Real.cos_sub_pi_div_two]
    convert this using 2
    ring
  | logTen x _ => intro e h; simp [encl] at h

/-- The sign by enclosure is the sign of the real, whether or not the enclosure settles it. -/
theorem enclSign_exact (x : Scalar) : x.enclSign = SignType.sign x.toReal := by
  unfold enclSign
  split
  · rename_i e he
    have hc := encl_sound x e he
    split_ifs with h1 h2
    · have : (0 : ℝ) < e.lo := by exact_mod_cast h1
      rw [sign_pos (lt_of_lt_of_le this hc.1)]
    · have : (e.hi : ℝ) < 0 := by exact_mod_cast h2
      rw [sign_neg (lt_of_le_of_lt hc.2 this)]
    · exact (exactSign x).2
  · exact (exactSign x).2

/-- The sign of a term is the sign of the real it stands for. -/
theorem sign_exact (x : Scalar) : x.sign = SignType.sign x.toReal := by
  unfold sign
  split
  · rename_i a b
    split_ifs with hb ha
    · subst hb
      rcases lt_trichotomy a 0 with h1 | h1 | h1
      · have : ((a : ℚ) : ℝ) < 0 := by exact_mod_cast h1
        rw [sign_neg h1, sign_neg (by simpa using this)]
      · simp [h1]
      · have : (0 : ℝ) < (a : ℚ) := by exact_mod_cast h1
        rw [sign_pos h1, sign_pos (by simpa using this)]
    · subst ha
      have hp := Real.pi_pos
      rcases lt_trichotomy b 0 with h1 | h1 | h1
      · have : ((b : ℚ) : ℝ) < 0 := by exact_mod_cast h1
        rw [sign_neg h1, sign_neg (by simpa using mul_neg_of_neg_of_pos this hp)]
      · simp [h1]
      · have : (0 : ℝ) < (b : ℚ) := by exact_mod_cast h1
        rw [sign_pos h1, sign_pos (by simpa using mul_pos this hp)]
    · exact enclSign_exact _
  · exact enclSign_exact x

/-- `x > 0` is the real comparison. -/
theorem isPos_exact (x : Scalar) (hf : x.finite = true) : x.isPos = true ↔ 0 < x.toReal := by
  simp [isPos, hf, sign_exact x, sign_eq_one_iff]

/-- `x ≥ 0` is the real comparison. -/
theorem isNonneg_exact (x : Scalar) (hf : x.finite = true) : x.isNonneg = true ↔ 0 ≤ x.toReal := by
  simp [isNonneg, hf, sign_exact x, sign_eq_neg_one_iff]

/-- `x ≤ y` is the real comparison; a non-finite value compares false. -/
theorem le_exact (x y : Scalar) (hx : x.finite = true) (hy : y.finite = true) :
    x.le y = true ↔ x.toReal ≤ y.toReal := by
  rw [le, isNonneg_exact _ (by simp [hx, hy]), toReal_sub, sub_nonneg]

/-- `x < y` is the real comparison; a non-finite value compares false. -/
theorem lt_exact (x y : Scalar) (hx : x.finite = true) (hy : y.finite = true) :
    x.lt y = true ↔ x.toReal < y.toReal := by
  rw [lt, isPos_exact _ (by simp [hx, hy]), toReal_sub, sub_pos]

/-- What a comparison that holds says about finiteness. -/
theorem finite_of_lt (x y : Scalar) (h : x.lt y = true) : x.finite = true ∧ y.finite = true := by
  simp only [lt, isPos, finite_sub, Bool.and_eq_true] at h
  exact ⟨h.1.2, h.1.1⟩

/-- What a comparison that holds says about finiteness. -/
theorem finite_of_le (x y : Scalar) (h : x.le y = true) : x.finite = true ∧ y.finite = true := by
  simp only [le, isNonneg, finite_sub, Bool.and_eq_true] at h
  exact ⟨h.1.2, h.1.1⟩

/-- The floor by enclosure is the floor of the real, whether or not the enclosure settles it. -/
theorem enclFloor_exact (x : Scalar) : x.enclFloor = ⌊x.toReal⌋ := by
  unfold enclFloor
  split
  · rename_i e he
    have hc := encl_sound x e he
    split_ifs with h
    · symm
      rw [Int.floor_eq_iff]
      constructor
      · exact le_trans (by exact_mod_cast Int.floor_le e.lo) hc.1
      · refine lt_of_le_of_lt hc.2 ?_
        rw [h]
        exact_mod_cast Int.lt_floor_add_one e.hi
    · exact (exactFloor x).2
  · exact (exactFloor x).2

/-- The floor of a term is the floor of the real it stands for. -/
theorem floor_exact (x : Scalar) : x.floor = ⌊x.toReal⌋ := by
  unfold floor
  split
  · split_ifs with h
    · subst h
      simp [Rat.floor_cast]
    · exact enclFloor_exact _
  · exact enclFloor_exact x

end Scalar

namespace Numerics

/-- `x > 0` over exact reals. -/
theorem isPos_exact (x : Scalar) (hf : x.finite = true) : exact.isPos x = true ↔ 0 < x.toReal := by
  rw [isPos, exact_lt, Scalar.lt_exact _ _ rfl hf]
  simp

/-- `x ≥ 0` over exact reals. -/
theorem isNonneg_exact (x : Scalar) (hf : x.finite = true) : exact.isNonneg x = true ↔ 0 ≤ x.toReal := by
  rw [isNonneg, exact_le, Scalar.le_exact _ _ rfl hf]
  simp

/-- `x = 0` over exact reals. -/
theorem isZero_exact (x : Scalar) (hf : x.finite = true) : exact.isZero x = true ↔ x.toReal = 0 := by
  rw [isZero, Bool.and_eq_true, exact_le, exact_le, Scalar.le_exact _ _ rfl hf, Scalar.le_exact _ _ hf rfl]
  simp only [exact_zero, Scalar.zero, Scalar.toReal_lin, Rat.cast_zero, zero_mul, add_zero]
  exact ⟨fun h => le_antisymm h.2 h.1, fun h => by simp [h]⟩

end Numerics

end Sys2Proof
end

