-- ==== Sys2Proof/Laws/Memory.lean ====
section
/-! SUPPORT. The byte store: reading back what was written, and the canonical form that every operation keeps. -/

namespace Sys2Proof.Machine

namespace Memory

@[simp] theorem read_nil (a : Nat) : read [] a = 0#8 := rfl

@[simp] theorem read_cons (k : Nat) (v : Byte) (t : Memory) (a : Nat) :
    read ((k, v) :: t) a = if k = a then v else read t a := rfl

/-- An address below every listed one reads as an unlisted address. -/
theorem read_of_lt (m : Memory) (a : Nat) (h : ∀ x ∈ m, a < x.1) : read m a = 0#8 := by
  induction m with
  | nil => rfl
  | cons x t ih =>
    obtain ⟨k, v⟩ := x
    have hk : a < k := h (k, v) (by simp)
    rw [read_cons, if_neg (by omega)]
    exact ih (fun y hy => h y (by simp [hy]))

/-- The keys of a store after a write: those before it, and the address written. -/
theorem mem_write (m : Memory) (a : Nat) (b : Byte) (x : Host.Cell) (h : x ∈ write m a b) :
    x ∈ m ∨ (x = (a, b) ∧ b ≠ 0#8) := by
  induction m with
  | nil =>
    simp only [write] at h
    split_ifs at h with hb
    · simp at h
    · exact Or.inr ⟨by simpa using h, hb⟩
  | cons y t ih =>
    obtain ⟨k, v⟩ := y
    simp only [write] at h
    split_ifs at h with h1 h2 h3 h4
    · exact Or.inl h
    · rcases List.mem_cons.1 h with h | h
      · exact Or.inr ⟨h, h2⟩
      · exact Or.inl h
    · exact Or.inl (by simp [h])
    · rcases List.mem_cons.1 h with h | h
      · exact Or.inr ⟨h, h4⟩
      · exact Or.inl (by simp [h])
    · rcases List.mem_cons.1 h with h | h
      · exact Or.inl (by simp [h])
      · rcases ih h with h | h
        · exact Or.inl (by simp [h])
        · exact Or.inr h

/-- A write keeps the canonical form. -/
theorem wf_write (m : Memory) (a : Nat) (b : Byte) (h : m.wf) : (write m a b).wf := by
  refine ⟨?_, ?_⟩
  · induction m with
    | nil => simp only [write]; split_ifs <;> simp
    | cons y t ih =>
      obtain ⟨k, v⟩ := y
      obtain ⟨hp, hz⟩ := h
      rw [List.pairwise_cons] at hp
      have iht := ih ⟨hp.2, fun x hx => hz x (by simp [hx])⟩
      simp only [write]
      split_ifs with h1 h2 h3 h4
      · exact List.pairwise_cons.2 hp
      · refine List.pairwise_cons.2 ⟨?_, List.pairwise_cons.2 hp⟩
        intro x hx
        rcases List.mem_cons.1 hx with rfl | hx
        · exact h1
        · exact lt_trans h1 (hp.1 x hx)
      · exact hp.2
      · refine List.pairwise_cons.2 ⟨?_, hp.2⟩
        intro x hx
        subst h3
        exact hp.1 x hx
      · refine List.pairwise_cons.2 ⟨?_, iht⟩
        intro x hx
        rcases mem_write t a b x hx with hx | ⟨rfl, _⟩
        · exact hp.1 x hx
        · show k < a
          omega
  · intro x hx
    rcases mem_write m a b x hx with hx | ⟨rfl, hb⟩
    · exact h.2 x hx
    · exact hb

/-- A read after a write: the byte written at its address, every other address as before. -/
theorem read_write (m : Memory) (a : Nat) (b : Byte) (h : m.wf) (a' : Nat) :
    read (write m a b) a' = if a' = a then b else read m a' := by
  induction m with
  | nil =>
    simp only [write]
    by_cases hb : b = 0#8
    · simp [hb]
    · rw [if_neg hb, read_cons]
      by_cases e : a' = a
      · rw [if_pos e.symm, if_pos e]
      · rw [if_neg (Ne.symm e), if_neg e]
  | cons y t ih =>
    obtain ⟨k, v⟩ := y
    obtain ⟨hp, hz⟩ := h
    rw [List.pairwise_cons] at hp
    have iht := ih ⟨hp.2, fun x hx => hz x (by simp [hx])⟩
    have below : ∀ a, a < k → read ((k, v) :: t) a = 0#8 := by
      intro a ha
      apply read_of_lt
      intro x hx
      rcases List.mem_cons.1 hx with rfl | hx
      · exact ha
      · exact lt_trans ha (hp.1 x hx)
    have atk : read t k = 0#8 := read_of_lt t k (fun x hx => hp.1 x hx)
    simp only [write]
    by_cases h1 : a < k
    · rw [if_pos h1]
      by_cases h2 : b = 0#8
      · rw [if_pos h2]
        by_cases e : a' = a
        · rw [if_pos e, e, below a h1, h2]
        · rw [if_neg e]
      · rw [if_neg h2, read_cons]
        by_cases e : a' = a
        · rw [if_pos e.symm, if_pos e]
        · rw [if_neg (Ne.symm e), if_neg e]
    · rw [if_neg h1]
      by_cases h3 : a = k
      · rw [if_pos h3]
        subst h3
        by_cases h4 : b = 0#8
        · rw [if_pos h4]
          by_cases e : a' = a
          · rw [if_pos e, e, atk, h4]
          · rw [if_neg e, read_cons, if_neg (Ne.symm e)]
        · rw [if_neg h4, read_cons, read_cons]
          by_cases e : a' = a
          · rw [if_pos e.symm, if_pos e]
          · rw [if_neg (Ne.symm e), if_neg e, if_neg (Ne.symm e)]
      · rw [if_neg h3, read_cons, read_cons, iht]
        by_cases e : a' = a
        · rw [if_pos e, if_pos e, if_neg (by omega)]
        · rw [if_neg e, if_neg e]

/-- The empty store is canonical. -/
theorem wf_nil : wf [] := by simp [wf]

/-- The unspecified buffer after a reset is canonical. -/
theorem wf_unspecified (k : Nat) : (unspecified k).wf := by
  constructor
  · unfold unspecified
    rw [List.pairwise_filterMap]
    refine List.pairwise_lt_range.imp ?_
    intro i j hij x hx y hy
    simp only at hx hy
    split_ifs at hx hy
    simp only [Option.some.injEq] at hx hy
    subst hx
    subst hy
    exact hij
  · intro x hx
    simp only [unspecified, List.mem_filterMap] at hx
    obtain ⟨i, _, hx⟩ := hx
    split_ifs at hx with h
    simp only [Option.some.injEq] at hx
    subst hx
    exact h

/-- The unspecified buffer holds 7-bit characters at indices below `BLK_MAX`. -/
theorem unspecified_range (k : Nat) (x : Host.Cell) (hx : x ∈ unspecified k) :
    x.1 < Config.blkMax ∧ x.2.toNat < 0x80 := by
  simp only [unspecified, List.mem_filterMap, List.mem_range] at hx
  obtain ⟨i, hi, hx⟩ := hx
  split_ifs at hx
  simp only [Option.some.injEq] at hx
  subst hx
  refine ⟨hi, ?_⟩
  show ((Config.freeChar k i).setWidth 8).toNat < 0x80
  rw [BitVec.toNat_setWidth]
  have := (Config.freeChar k i).isLt
  omega

@[simp] theorem length_readRange (m : Memory) (n : Nat) : (m.readRange n).length = n := by simp [readRange]

end Memory

end Sys2Proof.Machine
end

