-- ==== Sys2Proof/Laws/PerInstr.lean ====
section
/-! SUPPORT. The round trip, one lemma per constructor: decoding the selector of a well-formed operation gives the
operation back. -/

namespace Sys2Proof.Laws.RoundTrip

/-- The statement: under admitted control characters a well-formed operation is decoded from its selector. -/
def Statement (i : Instr) : Prop :=
  ∀ (n : Nat) (cc : ControlChars), cc.admitted = true → i.wellFormed n cc = true → decode cc (encode cc i) = .ok i

/-- The stage field of a key. -/
theorem keyStage_stageKey (st : BitVec 3) (r : Byte) : keyStage (stageKey st r) = st := by
  unfold keyStage stageKey
  ext i hi
  simp only [BitVec.getElem_extractLsb']
  rw [BitVec.getLsbD_append]
  simp [show ¬(8 + i < 8) by omega, BitVec.getLsbD_eq_getElem hi]

/-- The byte field of a key. -/
theorem keyByte_stageKey (st : BitVec 3) (r : Byte) : keyByte (stageKey st r) = r := by
  unfold keyByte stageKey
  ext i hi
  simp only [BitVec.getElem_extractLsb', Nat.zero_add]
  rw [BitVec.getLsbD_append]
  simp [hi]

/-- The number of a stage names it. -/
theorem ofNumber_number (st : Stage) : Stage.ofNumber? st.number = some st := by cases st <;> rfl

/-- A Frame Decoder selector decodes by stage and byte. -/
theorem decode_encodeByte (cc : ControlChars) (c : Nat) (st : Stage) (r : Byte) (len : Nat) :
    decode cc (encodeByte c st r len) = decodeByte cc c st r len := by
  simp [decode, encodeByte, decodeFdKey, keyStage_stageKey, keyByte_stageKey, ofNumber_number]


/-- Masking undoes the parity bit of a 7-bit character. -/
theorem maskParity_withParity (p : Bool) (ch : Byte) (h : ch.toNat < 0x80) : maskParity (withParity p ch) = ch := by
  have all : ∀ (q : Bool) (n : Fin 128), maskParity (withParity q (BitVec.ofNat 8 n.val)) = BitVec.ofNat 8 n.val := by
    decide
  have e : BitVec.ofNat 8 ch.toNat = ch := by simp
  simpa only [e] using all p ⟨ch.toNat, h⟩

/-- The parity bit of a 7-bit character with parity bit `p` is `p`. -/
theorem parityBit_withParity (p : Bool) (ch : Byte) (h : ch.toNat < 0x80) : parityBit (withParity p ch) = p := by
  have all : ∀ (q : Bool) (n : Fin 128), parityBit (withParity q (BitVec.ofNat 8 n.val)) = q := by decide
  have e : BitVec.ofNat 8 ch.toNat = ch := by simp
  simpa only [e] using all p ⟨ch.toNat, h⟩

/-- What admission says of the two delimiters. -/
theorem delimiters_admitted (cc : ControlChars) (h : cc.admitted = true) :
    cc.etx.toNat < 0x80 ∧ cc.etb.toNat < 0x80 ∧ cc.etx ≠ cc.etb := by
  simp only [ControlChars.admitted, Bool.and_eq_true, List.all_cons, List.all_nil, decide_eq_true_eq, List.nodup_cons,
    List.mem_cons, List.not_mem_nil, or_false, not_or] at h
  obtain ⟨⟨_, _, _, h1, h2, _⟩, h3⟩ := h
  exact ⟨h1, h2, h3.2.2.2.1⟩

/-- The byte operand of a well-formed operation is one its row matches. -/
theorem byteOk_of_wellFormed (i : Instr) (n : Nat) (cc : ControlChars) (h : i.wellFormed n cc = true) :
    i.byteOk cc = true := by
  simp only [Instr.wellFormed, Bool.and_eq_true] at h
  exact h.2

/-- A byte that is no delimiter. -/
theorem not_delimiter (cc : ControlChars) (r : Byte) (h : (!cc.isDelimiter r) = true) :
    maskParity r ≠ cc.etx ∧ maskParity r ≠ cc.etb := by
  simpa [ControlChars.isDelimiter] using h

theorem chBlock (c : Nat) : Statement (.chBlock c) := by
  intro n cc _ _
  rfl

theorem chSample (c : Nat) : Statement (.chSample c) := by
  intro n cc _ _
  rfl

theorem chDump (c : Nat) : Statement (.chDump c) := by
  intro n cc _ _
  rfl

theorem dmSample (c : Nat) : Statement (.dmSample c) := by
  intro n cc _ _
  rfl

theorem dmSymbol (c : Nat) : Statement (.dmSymbol c) := by
  intro n cc _ _
  rfl

theorem dmMf (c : Nat) : Statement (.dmMf c) := by
  intro n cc _ _
  rfl

theorem dmNorm (c : Nat) : Statement (.dmNorm c) := by
  intro n cc _ _
  rfl

theorem dmLevel (c : Nat) : Statement (.dmLevel c) := by
  intro n cc _ _
  rfl

theorem dmDemap0 (c : Nat) : Statement (.dmDemap0 c) := by
  intro n cc _ _
  rfl

theorem dmDemap1 (c : Nat) : Statement (.dmDemap1 c) := by
  intro n cc _ _
  rfl

theorem dmDemap2 (c : Nat) : Statement (.dmDemap2 c) := by
  intro n cc _ _
  rfl

theorem dmDemap3 (c : Nat) : Statement (.dmDemap3 c) := by
  intro n cc _ _
  rfl

theorem dmEmit (c : Nat) : Statement (.dmEmit c) := by
  intro n cc _ _
  rfl

theorem dmPll (c : Nat) : Statement (.dmPll c) := by
  intro n cc _ _
  rfl

theorem fdBit (c : Nat) : Statement (.fdBit c) := by
  intro n cc _ _
  rfl

theorem fdSyn1Hit (c : Nat) : Statement (.fdSyn1Hit c) := by
  intro n cc _ _
  simp only [encode, decode_encodeByte, decodeByte, if_true]

theorem fdSyn1Miss (c : Nat) (r : Byte) : Statement (.fdSyn1Miss c r) := by
  intro n cc _ h
  have hb : r ≠ cc.syn := by simpa [Instr.byteOk] using byteOk_of_wellFormed _ n cc h
  simp only [encode, decode_encodeByte, decodeByte, if_neg hb]

theorem fdSyn2Hit (c : Nat) : Statement (.fdSyn2Hit c) := by
  intro n cc _ _
  simp only [encode, decode_encodeByte, decodeByte, if_true]

theorem fdSyn2Miss (c : Nat) (r : Byte) : Statement (.fdSyn2Miss c r) := by
  intro n cc _ h
  have hb : r ≠ cc.syn := by simpa [Instr.byteOk] using byteOk_of_wellFormed _ n cc h
  simp only [encode, decode_encodeByte, decodeByte, if_neg hb]

theorem fdSohHit (c : Nat) : Statement (.fdSohHit c) := by
  intro n cc _ _
  simp only [encode, decode_encodeByte, decodeByte, if_true]

theorem fdSohMiss (c : Nat) (r : Byte) : Statement (.fdSohMiss c r) := by
  intro n cc _ h
  have hb : r ≠ cc.soh := by simpa [Instr.byteOk] using byteOk_of_wellFormed _ n cc h
  simp only [encode, decode_encodeByte, decodeByte, if_neg hb]

theorem fdTxtEndEtx (c : Nat) (p : Bool) : Statement (.fdTxtEndEtx c p) := by
  intro n cc h _
  obtain ⟨hx, _, _⟩ := delimiters_admitted cc h
  simp only [encode, decode_encodeByte, decodeByte, maskParity_withParity p _ hx, parityBit_withParity p _ hx, if_true]

theorem fdTxtEndEtb (c : Nat) (p : Bool) : Statement (.fdTxtEndEtb c p) := by
  intro n cc h _
  obtain ⟨_, hb, hne⟩ := delimiters_admitted cc h
  simp only [encode, decode_encodeByte, decodeByte, maskParity_withParity p _ hb, parityBit_withParity p _ hb,
    if_neg (Ne.symm hne), if_true]

theorem fdTxtFull (c : Nat) (r : Byte) : Statement (.fdTxtFull c r) := by
  intro n cc _ h
  obtain ⟨hx, hb⟩ := not_delimiter cc r (byteOk_of_wellFormed _ n cc h)
  simp only [encode, decode_encodeByte, decodeByte, if_neg hx, if_neg hb, if_true]

theorem fdTxtData (c : Nat) (r : Byte) : Statement (.fdTxtData c r) := by
  intro n cc _ h
  obtain ⟨hx, hb⟩ := not_delimiter cc r (byteOk_of_wellFormed _ n cc h)
  simp only [encode, decode_encodeByte, decodeByte, if_neg hx, if_neg hb]
  rfl

theorem fdCrc1 (c : Nat) (r : Byte) : Statement (.fdCrc1 c r) := by
  intro n cc _ _
  simp only [encode, decode_encodeByte, decodeByte]

theorem fdCrc2 (c : Nat) (r : Byte) : Statement (.fdCrc2 c r) := by
  intro n cc _ _
  simp only [encode, decode_encodeByte, decodeByte]

theorem fdDone (c : Nat) : Statement (.fdDone c) := by
  intro n cc _ _
  rfl

theorem bpParse (c : Nat) : Statement (.bpParse c) := by
  intro n cc _ _
  rfl

theorem bpFixed (c : Nat) : Statement (.bpFixed c) := by
  intro n cc _ _
  rfl

theorem bpFlags (c : Nat) : Statement (.bpFlags c) := by
  intro n cc _ _
  rfl

theorem bpDown (c : Nat) : Statement (.bpDown c) := by
  intro n cc _ _
  simp [encode, decode, decodeBlockByte]

theorem bpUp (c : Nat) : Statement (.bpUp c) := by
  intro n cc _ _
  simp [encode, decode, decodeBlockByte]

theorem bpSublabel (c : Nat) : Statement (.bpSublabel c) := by
  intro n cc _ _
  rfl

theorem bqPush (c : Nat) : Statement (.bqPush c) := by
  intro n cc _ _
  rfl

theorem bqPop (c : Nat) : Statement (.bqPop c) := by
  intro n cc _ _
  rfl

theorem faBuild (c : Nat) : Statement (.faBuild c) := by
  intro n cc _ _
  rfl

theorem oqPush (c : Nat) : Statement (.oqPush c) := by
  intro n cc _ _
  rfl

theorem dispDeliver : Statement (.dispDeliver) := by
  intro n cc _ _
  rfl

theorem feedBlock (b : Block) : Statement (.feedBlock b) := by
  intro n cc _ _
  rfl

theorem feedEos : Statement (.feedEos) := by
  intro n cc _ _
  rfl

theorem sysReset : Statement (.sysReset) := by
  intro n cc _ _
  rfl

theorem sysConfig (p : Params) : Statement (.sysConfig p) := by
  intro n cc _ _
  rfl

end Sys2Proof.Laws.RoundTrip
end

