-- ==== Sys2Proof/Laws/Step.lean ====
section
/-! SUPPORT. What a step can do, said once: which operation can run in which state, and what a step answers. -/

namespace Sys2Proof.Machine

/-- The operations a step can run in a state, each with what its selection says about the state (R90, R103 to R105). -/
inductive Runs (s : State) : Instr → Prop where
  | chBlock (c : Nat) (k : Channel) (hk : s.channels[c]? = some k) (hp : k.cd.pos = .block) : Runs s (.chBlock c)
  | chSample (c : Nat) (k : Channel) (hk : s.channels[c]? = some k) (hp : k.cd.pos = .sample) : Runs s (.chSample c)
  | chDump (c : Nat) (k : Channel) (hk : s.channels[c]? = some k) (hp : k.cd.pos = .dump) : Runs s (.chDump c)
  | dmSample (c : Nat) (k : Channel) (hk : s.channels[c]? = some k) (hp : k.cd.pos = .dmSample) : Runs s (.dmSample c)
  | dmMf (c : Nat) (k : Channel) (hk : s.channels[c]? = some k) (hp : k.cd.pos = .mf) : Runs s (.dmMf c)
  | dmNorm (c : Nat) (k : Channel) (hk : s.channels[c]? = some k) (hp : k.cd.pos = .norm) : Runs s (.dmNorm c)
  | dmLevel (c : Nat) (k : Channel) (hk : s.channels[c]? = some k) (hp : k.cd.pos = .level) : Runs s (.dmLevel c)
  | dmEmit (c : Nat) (k : Channel) (hk : s.channels[c]? = some k) (hp : k.cd.pos = .emit) : Runs s (.dmEmit c)
  | dmPll (c : Nat) (k : Channel) (hk : s.channels[c]? = some k) (hp : k.cd.pos = .pll) : Runs s (.dmPll c)
  | dmSymbol (c : Nat) (k : Channel) (hk : s.channels[c]? = some k)
      (hp : k.cd.pos = .symbol ∨ k.cd.pos = .push ∨ k.cd.pos = .tail) : Runs s (.dmSymbol c)
  | dmDemap0 (c : Nat) (k : Channel) (hk : s.channels[c]? = some k) (hp : k.cd.pos = .demap)
      (hs : k.dm.s = 0#2) : Runs s (.dmDemap0 c)
  | dmDemap1 (c : Nat) (k : Channel) (hk : s.channels[c]? = some k) (hp : k.cd.pos = .demap)
      (hs : k.dm.s = 1#2) : Runs s (.dmDemap1 c)
  | dmDemap2 (c : Nat) (k : Channel) (hk : s.channels[c]? = some k) (hp : k.cd.pos = .demap)
      (hs : k.dm.s = 2#2) : Runs s (.dmDemap2 c)
  | dmDemap3 (c : Nat) (k : Channel) (hk : s.channels[c]? = some k) (hp : k.cd.pos = .demap)
      (hs : k.dm.s = 3#2) : Runs s (.dmDemap3 c)
  | bqPop (c : Nat) (k : Channel) (hk : s.channels[c]? = some k) (hp : k.fda.pos = .pop) : Runs s (.bqPop c)
  | fdBit (c : Nat) (k : Channel) (hk : s.channels[c]? = some k) (hp : k.fda.pos = .bit) : Runs s (.fdBit c)
  | bpParse (c : Nat) (k : Channel) (hk : s.channels[c]? = some k) (hp : k.fda.pos = .parse) : Runs s (.bpParse c)
  | bpFixed (c : Nat) (k : Channel) (hk : s.channels[c]? = some k) (hp : k.fda.pos = .fixed) : Runs s (.bpFixed c)
  | bpFlags (c : Nat) (k : Channel) (hk : s.channels[c]? = some k) (hp : k.fda.pos = .flags) : Runs s (.bpFlags c)
  | faBuild (c : Nat) (k : Channel) (hk : s.channels[c]? = some k) (hp : k.fda.pos = .build) : Runs s (.faBuild c)
  | fdDone (c : Nat) (k : Channel) (hk : s.channels[c]? = some k)
      (hp : k.fda.pos = .done ∨ k.fda.pos = .push ∨ k.fda.pos = .resync) : Runs s (.fdDone c)
  | fdSyn1Hit (c : Nat) (k : Channel) (hk : s.channels[c]? = some k) (hp : k.fda.pos = .stage)
      (hs : k.fd.stage = .syn1) (hr : k.fd.sr = s.cfg.chars.syn) : Runs s (.fdSyn1Hit c)
  | fdSyn1Miss (c : Nat) (k : Channel) (hk : s.channels[c]? = some k) (hp : k.fda.pos = .stage)
      (hs : k.fd.stage = .syn1) (hr : k.fd.sr ≠ s.cfg.chars.syn) : Runs s (.fdSyn1Miss c k.fd.sr)
  | fdSyn2Hit (c : Nat) (k : Channel) (hk : s.channels[c]? = some k) (hp : k.fda.pos = .stage)
      (hs : k.fd.stage = .syn2) (hr : k.fd.sr = s.cfg.chars.syn) : Runs s (.fdSyn2Hit c)
  | fdSyn2Miss (c : Nat) (k : Channel) (hk : s.channels[c]? = some k) (hp : k.fda.pos = .stage)
      (hs : k.fd.stage = .syn2) (hr : k.fd.sr ≠ s.cfg.chars.syn) : Runs s (.fdSyn2Miss c k.fd.sr)
  | fdSohHit (c : Nat) (k : Channel) (hk : s.channels[c]? = some k) (hp : k.fda.pos = .stage)
      (hs : k.fd.stage = .soh) (hr : k.fd.sr = s.cfg.chars.soh) : Runs s (.fdSohHit c)
  | fdSohMiss (c : Nat) (k : Channel) (hk : s.channels[c]? = some k) (hp : k.fda.pos = .stage)
      (hs : k.fd.stage = .soh) (hr : k.fd.sr ≠ s.cfg.chars.soh) : Runs s (.fdSohMiss c k.fd.sr)
  | fdTxtEndEtx (c : Nat) (k : Channel) (hk : s.channels[c]? = some k) (hp : k.fda.pos = .stage)
      (hs : k.fd.stage = .txt)
      (hr : maskParity k.fd.sr = s.cfg.chars.etx) : Runs s (.fdTxtEndEtx c (parityBit k.fd.sr))
  | fdTxtEndEtb (c : Nat) (k : Channel) (hk : s.channels[c]? = some k) (hp : k.fda.pos = .stage)
      (hs : k.fd.stage = .txt)
      (hr : maskParity k.fd.sr = s.cfg.chars.etb) : Runs s (.fdTxtEndEtb c (parityBit k.fd.sr))
  | fdTxtFull (c : Nat) (k : Channel) (hk : s.channels[c]? = some k) (hp : k.fda.pos = .stage)
      (hs : k.fd.stage = .txt) (hx : maskParity k.fd.sr ≠ s.cfg.chars.etx)
      (hb : maskParity k.fd.sr ≠ s.cfg.chars.etb) (hl : k.fd.len = 242) : Runs s (.fdTxtFull c k.fd.sr)
  | fdTxtData (c : Nat) (k : Channel) (hk : s.channels[c]? = some k) (hp : k.fda.pos = .stage)
      (hs : k.fd.stage = .txt) (hx : maskParity k.fd.sr ≠ s.cfg.chars.etx)
      (hb : maskParity k.fd.sr ≠ s.cfg.chars.etb) (hl : k.fd.len < 242) : Runs s (.fdTxtData c k.fd.sr)
  | fdCrc1 (c : Nat) (k : Channel) (hk : s.channels[c]? = some k) (hp : k.fda.pos = .stage)
      (hs : k.fd.stage = .crc1) : Runs s (.fdCrc1 c k.fd.sr)
  | fdCrc2 (c : Nat) (k : Channel) (hk : s.channels[c]? = some k) (hp : k.fda.pos = .stage)
      (hs : k.fd.stage = .crc2) : Runs s (.fdCrc2 c k.fd.sr)
  | bpDown (c : Nat) (k : Channel) (hk : s.channels[c]? = some k) (hp : k.fda.pos = .opt)
      (hd : k.fda.blk.delim = some s.cfg.chars.stx) (hu : k.fda.blk.up = some false) : Runs s (.bpDown c)
  | bpUp (c : Nat) (k : Channel) (hk : s.channels[c]? = some k) (hp : k.fda.pos = .opt)
      (hd : k.fda.blk.delim = some s.cfg.chars.stx) (hu : k.fda.blk.up = some true) : Runs s (.bpUp c)
  | bpSublabel (c : Nat) (k : Channel) (hk : s.channels[c]? = some k) (hp : k.fda.pos = .sublabel ∨
      (k.fda.pos = .opt ∧ k.fda.blk.delim ≠ some s.cfg.chars.stx)) : Runs s (.bpSublabel c)
  | dispDeliver : Runs s .dispDeliver
  | feedBlock (b : Block) (rest : List Block) (hi : s.sampleIn = b :: rest) (hp : s.phase ≠ .configured)
      : Runs s (.feedBlock b)
  | feedEos (hi : s.eosIn = true) : Runs s .feedEos
  | sysReset (hi : s.resetIn = true) : Runs s .sysReset
  | sysConfig (p : Params) (hi : s.configIn = some p) (hp : ¬(s.phase = .running ∧ s.eos = false))
      : Runs s (.sysConfig p)

/-- A number below 4 as two bits. -/
theorem two_bits (b : BitVec 2) : b = 0#2 ∨ b = 1#2 ∨ b = 2#2 ∨ b = 3#2 := by
  revert b
  decide

/-- A selected operation of `CD[c]` is one that can run. -/
theorem runs_cd (s : State) (c : Nat) (k : Channel) (sel : Selector) (i : Instr) (hk : s.channels[c]? = some k)
    (hs : Channel.cdSelector c k = some sel) (hd : decode s.cfg.chars sel = .ok i) : Runs s i := by
  unfold Channel.cdSelector at hs
  cases hp : k.cd.pos <;> simp only [hp, reduceCtorEq, Option.some.injEq] at hs <;> subst hs <;>
    simp only [decode, decodeCd, Except.ok.injEq] at hd
  case demap =>
    rcases two_bits k.dm.s with h | h | h | h <;> simp [h, decodeDemap] at hd <;> subst hd
    · exact .dmDemap0 c k hk hp h
    · exact .dmDemap1 c k hk hp h
    · exact .dmDemap2 c k hk hp h
    · exact .dmDemap3 c k hk hp h
  all_goals subst hd
  · exact .chBlock c k hk hp
  · exact .chSample c k hk hp
  · exact .chDump c k hk hp
  · exact .dmSample c k hk hp
  · exact .dmSymbol c k hk (Or.inl hp)
  · exact .dmMf c k hk hp
  · exact .dmNorm c k hk hp
  · exact .dmLevel c k hk hp
  · exact .dmEmit c k hk hp
  · exact .dmSymbol c k hk (Or.inr (Or.inl hp))
  · exact .dmSymbol c k hk (Or.inr (Or.inr hp))
  · exact .dmPll c k hk hp

/-- A stage operation selected by key is one that can run. -/
theorem runs_byte (s : State) (c : Nat) (k : Channel) (i : Instr) (hk : s.channels[c]? = some k)
    (hp : k.fda.pos = .stage) (hd : decodeByte s.cfg.chars c k.fd.stage k.fd.sr k.fd.len = .ok i) : Runs s i := by
  unfold decodeByte at hd
  cases hs : k.fd.stage <;> simp only [hs, Except.ok.injEq, reduceCtorEq] at hd
  · split_ifs at hd with h <;> subst hd
    · exact .fdSyn1Hit c k hk hp hs h
    · exact .fdSyn1Miss c k hk hp hs h
  · split_ifs at hd with h <;> subst hd
    · exact .fdSyn2Hit c k hk hp hs h
    · exact .fdSyn2Miss c k hk hp hs h
  · split_ifs at hd with h <;> subst hd
    · exact .fdSohHit c k hk hp hs h
    · exact .fdSohMiss c k hk hp hs h
  · split_ifs at hd with hx hb hf hl <;> simp only [Except.ok.injEq] at hd <;> subst hd
    · exact .fdTxtEndEtx c k hk hp hs hx
    · exact .fdTxtEndEtb c k hk hp hs hb
    · exact .fdTxtFull c k hk hp hs hx hb hf
    · exact .fdTxtData c k hk hp hs hx hb hl
  · subst hd
    exact .fdCrc1 c k hk hp hs
  · subst hd
    exact .fdCrc2 c k hk hp hs

/-- A selected operation of `FDA[c]` is one that can run. -/
theorem runs_fda (s : State) (c : Nat) (k : Channel) (i : Instr) (hk : s.channels[c]? = some k)
    (hd : decode s.cfg.chars (Channel.fdaSelector c k) = .ok i) : Runs s i := by
  unfold Channel.fdaSelector at hd
  cases hp : k.fda.pos <;> simp only [hp, decode, decodeFda, Except.ok.injEq] at hd
  case stage =>
    have h := Laws.RoundTrip.decode_encodeByte s.cfg.chars c k.fd.stage k.fd.sr k.fd.len
    simp only [encodeByte, decode] at h
    rw [h] at hd
    exact runs_byte s c k i hk hp hd
  case opt =>
    unfold decodeBlockByte at hd
    split_ifs at hd with h
    · cases hu : k.fda.blk.up with
      | none => simp [hu] at hd
      | some u =>
        cases u <;> simp only [hu, Except.ok.injEq] at hd <;> subst hd
        · exact .bpDown c k hk hp h hu
        · exact .bpUp c k hk hp h hu
    · simp only [Except.ok.injEq] at hd
      subst hd
      exact .bpSublabel c k hk (Or.inr ⟨hp, h⟩)
  all_goals subst hd
  · exact .bqPop c k hk hp
  · exact .fdBit c k hk hp
  · exact .fdDone c k hk (Or.inl hp)
  · exact .bpParse c k hk hp
  · exact .bpFixed c k hk hp
  · exact .bpFlags c k hk hp
  · exact .bpSublabel c k hk (Or.inl hp)
  · exact .faBuild c k hk hp
  · exact .fdDone c k hk (Or.inr (Or.inl hp))
  · exact .fdDone c k hk (Or.inr (Or.inr hp))

/-- Whatever the schedule selects is an operation that can run. -/
theorem runs_of_select (s : State) (t : Turn) (sel : Selector) (i : Instr) (hs : select t s = some sel)
    (hd : decode s.cfg.chars sel = .ok i) : Runs s i := by
  cases t with
  | cd c =>
    simp only [select, Option.bind_eq_some_iff] at hs
    obtain ⟨k, hk, hs⟩ := hs
    exact runs_cd s c k sel i hk hs hd
  | fda c =>
    simp only [select, Option.map_eq_some_iff] at hs
    obtain ⟨k, hk, rfl⟩ := hs
    exact runs_fda s c k i hk hd
  | disp =>
    simp only [select, Option.some.injEq] at hs
    subst hs
    simp only [decode, Except.ok.injEq] at hd
    subst hd
    exact .dispDeliver
  | feed =>
    simp only [select] at hs
    split at hs
    · rename_i b rest hi
      split_ifs at hs with hp
      simp only [Option.some.injEq] at hs
      subst hs
      simp only [decode, Except.ok.injEq] at hd
      subst hd
      exact .feedBlock b rest hi hp
    · exact absurd hs (by simp)
  | eos =>
    simp only [select] at hs
    split_ifs at hs with hi
    simp only [Option.some.injEq] at hs
    subst hs
    simp only [decode, Except.ok.injEq] at hd
    subst hd
    exact .feedEos hi
  | config =>
    simp only [select] at hs
    split at hs
    · rename_i p hi
      split_ifs at hs with hp
      simp only [Option.some.injEq] at hs
      subst hs
      simp only [decode, Except.ok.injEq] at hd
      subst hd
      exact .sysConfig p hi hp
    · exact absurd hs (by simp)
  | reset =>
    simp only [select] at hs
    split_ifs at hs with hi
    simp only [Option.some.injEq] at hs
    subst hs
    simp only [decode, Except.ok.injEq] at hd
    subst hd
    exact .sysReset hi
  | sink b => simp [select] at hs

/-- A step whose turn belongs to an agent other than the sink. -/
theorem step_of_select (s : State) (sel : Selector) (hs : select s.turn s = some sel) :
    step s =
      match decode s.cfg.chars sel with
      | .ok i => finish (exec i s)
      | .error e => .refused (.noOperation e) := by
  unfold step
  cases ht : s.turn
  case sink b =>
    rw [ht] at hs
    simp [select] at hs
  all_goals
    rw [ht] at hs
    simp only [hs] <;> rfl

/-- What a step that answers a next state did: the sink changed its readiness, nothing was selected, or one operation
ran; and the schedule moved on. -/
theorem step_next (s s' : State) (h : step s = .next s') :
    (∃ b, s.turn = .sink b ∧ s' = { s with sinkReady := b }.advance) ∨
      (select s.turn s = none ∧ s' = s.advance) ∨
      ∃ i t, Runs s i ∧ exec i s = .next t ∧ s' = t.advance := by
  cases hs : select s.turn s with
  | none =>
    unfold step at h
    cases ht : s.turn <;> simp only [ht, Host.Outcome.next.injEq] at h hs
    case sink b => exact Or.inl ⟨b, rfl, h.symm⟩
    all_goals
      rw [hs] at h
      simp only [Host.Outcome.next.injEq] at h
      exact Or.inr (Or.inl ⟨rfl, h.symm⟩)
  | some sel =>
    rw [step_of_select s sel hs] at h
    cases hd : decode s.cfg.chars sel with
    | error e => simp [hd] at h
    | ok i =>
      simp only [hd] at h
      cases he : exec i s with
      | next t =>
        simp only [he, finish, Host.Outcome.next.injEq] at h
        exact Or.inr (Or.inr ⟨i, t, runs_of_select s s.turn sel i hs hd, he, h.symm⟩)
      | fault f => simp [he, finish] at h
      | refused q => simp [he, finish] at h

/-- The first choice listed moves next. -/
theorem turn_of_sched (s : State) (t : Turn) (rest : List Turn) (h : s.sched = t :: rest) : s.turn = t := by
  simp [State.turn, h]

/-- A step of `CD[c]`, from the operation it runs. -/
theorem step_cd (s t : State) (c : Nat) (k : Channel) (sel : Selector) (i : Instr) (ht : s.turn = .cd c)
    (hk : s.channels[c]? = some k) (hs : Channel.cdSelector c k = some sel) (hd : decode s.cfg.chars sel = .ok i)
    (he : exec i s = .next t) : step s = .next t.advance := by
  rw [step_of_select s sel (by rw [ht]; simp [select, hk, hs]), hd]
  simp [he, finish]

/-- A step of `FDA[c]`, from the operation it runs. -/
theorem step_fda (s t : State) (c : Nat) (k : Channel) (i : Instr) (ht : s.turn = .fda c)
    (hk : s.channels[c]? = some k) (hd : decode s.cfg.chars (Channel.fdaSelector c k) = .ok i)
    (he : exec i s = .next t) : step s = .next t.advance := by
  rw [step_of_select s (Channel.fdaSelector c k) (by rw [ht]; simp [select, hk]), hd]
  simp [he, finish]

end Sys2Proof.Machine
end

