-- ==== Sys2Proof/Laws/Run.lean ====
section
/-! SUPPORT. Sequences of operations. -/

namespace Sys2Proof.Machine

@[simp] theorem runOps_nil (s : State) : runOps [] s = .next s := rfl

/-- The first operation of a sequence. -/
theorem runOps_cons (i : Instr) (rest : List Instr) (s t : State) (h : exec i s = .next t) :
    runOps (i :: rest) s = runOps rest t := by simp [runOps, h]

/-- An operation that runs in a sequence of two parts. -/
theorem runOps_append (l l' : List Instr) (s t : State) (h : runOps l s = .next t) :
    runOps (l ++ l') s = runOps l' t := by
  induction l generalizing s with
  | nil =>
    simp only [runOps_nil, Host.Outcome.next.injEq] at h
    rw [h, List.nil_append]
  | cons i rest ih =>
    simp only [runOps, List.cons_append] at h ⊢
    cases he : exec i s with
    | next u =>
      simp only [he] at h ⊢
      exact ih u h
    | fault f => simp [he] at h
    | refused q => simp [he] at h

end Sys2Proof.Machine
end

