-- ==== Sys2Proof/Tests/Slice0.lean ====
section
/-! SUPPORT. Tests: ill-formed terms, words and selectors written out from the spec's tables, the spec's worked vectors one
operation at a time (spec/95_test_vectors.md, the examples of each rule), and a witness for the hypotheses of every
statement.  Expected values come from the spec; each test names its source. -/

set_option Elab.async false

namespace Sys2Proof.Tests

open Sys2Proof.Machine

/-! ### Helpers -/

/-- The default channel after reset. -/
def ch0 : Channel := Channel.reset Params.default (.lin 131550000 0)

/-- The reset state with channel 0 replaced. -/
def stateOf (k : Channel) : State := { State.reset with channels := [k] }

/-- The state an answer goes on with. -/
def after (r : Result) : Option State :=
  match r with
  | .next t => some t
  | _ => none

/-- Channel 0 of the state an answer goes on with. -/
def chan (r : Result) : Option Channel := (after r).bind fun t => t.channels[0]?

/-- Why an answer refuses. -/
def refusalOf (r : Result) : Option Refusal :=
  match r with
  | .refused q => some q
  | _ => none

/-- Run one operation on channel 0. -/
def run (i : Instr) (k : Channel) : Option Channel := chan (exec i (stateOf k))

/-- The default channel with other Frame Decoder values. -/
def fdChannel (stage : Stage) (len : Nat) (nb : Nat) : Channel :=
  { ch0 with fd := { ch0.fd with stage := stage, len := len, nb := nb } }

/-- The zeros of the default configuration are those of the exact reals. -/
@[simp] theorem default_zero : Params.default.numerics.zero = Scalar.zero := rfl
@[simp] theorem default_cZero : Params.default.numerics.cZero = Cplx.zero := rfl

/-- Stage, length and bit count of a channel: the columns of the Frame Decoder vectors. -/
def fdView (k : Option Channel) : Option (Stage × Nat × Nat) := k.map fun k => (k.fd.stage, k.fd.len, k.fd.nb)

/-! ### Well-formedness: one ill-formed term for each check -/

theorem test_channel_out_of_range : (Instr.chDump 1).wellFormed 1 ControlChars.default = false := by decide
theorem test_syn1Miss_of_syn : (Instr.fdSyn1Miss 0 0x16#8).wellFormed 1 ControlChars.default = false := by decide
theorem test_syn2Miss_of_syn : (Instr.fdSyn2Miss 0 0x16#8).wellFormed 1 ControlChars.default = false := by decide
theorem test_sohMiss_of_soh : (Instr.fdSohMiss 0 0x01#8).wellFormed 1 ControlChars.default = false := by decide
theorem test_txtData_of_delimiter : (Instr.fdTxtData 0 0x83#8).wellFormed 1 ControlChars.default = false := by decide
theorem test_txtFull_of_delimiter : (Instr.fdTxtFull 0 0x17#8).wellFormed 1 ControlChars.default = false := by decide
theorem test_wellFormed_accepts : (Instr.fdTxtData 0 0xAD#8).wellFormed 1 ControlChars.default = true := by decide

/-! ### Words of R103 and R104, bit by bit -/

theorem test_word_demap : decodeTableWord 8 0b00 = some (.dmDemap0 0) ∧ decodeTableWord 8 0b01 = some (.dmDemap1 0) ∧
    decodeTableWord 8 0b10 = some (.dmDemap2 0) ∧ decodeTableWord 8 0b11 = some (.dmDemap3 0) := by decide
theorem test_word_syn1Hit : decodeTableWord 16 0b00000010110 = some (.fdSyn1Hit 0) := by decide
theorem test_word_syn1Miss : decodeTableWord 16 0b00001010101 = some (.fdSyn1Miss 0 0x55#8) := by decide
theorem test_word_syn2Hit : decodeTableWord 16 0b00100010110 = some (.fdSyn2Hit 0) := by decide
theorem test_word_syn2Miss : decodeTableWord 16 0b00101010101 = some (.fdSyn2Miss 0 0x55#8) := by decide
theorem test_word_sohHit : decodeTableWord 16 0b01000000001 = some (.fdSohHit 0) := by decide
theorem test_word_sohMiss : decodeTableWord 16 0b01001111111 = some (.fdSohMiss 0 0x7F#8) := by decide
theorem test_word_txtEndEtx : decodeTableWord 16 0b01110000011 = some (.fdTxtEndEtx 0 true) := by decide
theorem test_word_txtEndEtb : decodeTableWord 16 0b01100010111 = some (.fdTxtEndEtb 0 false) := by decide
theorem test_word_txtData : decodeTableWord 16 0b01110101101 = some (.fdTxtData 0 0xAD#8) := by decide
theorem test_word_crc1 : decodeTableWord 16 0b10010100101 = some (.fdCrc1 0 0xA5#8) := by decide
theorem test_word_crc2 : decodeTableWord 16 0b10100111100 = some (.fdCrc2 0 0x3C#8) := by decide
theorem test_word_unreachable : decodeTableWord 16 0b11000000000 = none ∧ decodeTableWord 16 0b11111111111 = none := by
  decide

/-- `FD.TXT.FULL` has the word of `FD.TXT.DATA` and differs in `FD.len = 242` (R103, V-FD-14); a delimiter at the limit is
an end (R272, V-FD-15). -/
theorem test_key_txtFull :
    (decodeFdKey ControlChars.default 0 0b01111000001#11 242).toOption = some (.fdTxtFull 0 0xC1#8) ∧
    (decodeFdKey ControlChars.default 0 0b01111000001#11 241).toOption = some (.fdTxtData 0 0xC1#8) ∧
    (decodeFdKey ControlChars.default 0 0b01110000011#11 242).toOption = some (.fdTxtEndEtx 0 true) := by decide

/-! ### The operations without a word: their selectors (R90, R105) -/

/-- What a selector selects. -/
def sel (x : Selector) : Option Instr := (decode ControlChars.default x).toOption

theorem test_select_channelizer : sel (.cdStep 2 .block) = some (.chBlock 2) ∧
    sel (.cdStep 2 .sample) = some (.chSample 2) ∧ sel (.cdStep 2 .dump) = some (.chDump 2) := by decide
theorem test_select_demodulator : sel (.cdStep 0 .dmSample) = some (.dmSample 0) ∧
    sel (.cdStep 0 .symbol) = some (.dmSymbol 0) ∧ sel (.cdStep 0 .mf) = some (.dmMf 0) ∧
    sel (.cdStep 0 .norm) = some (.dmNorm 0) ∧ sel (.cdStep 0 .level) = some (.dmLevel 0) ∧
    sel (.cdStep 0 .emit) = some (.dmEmit 0) ∧ sel (.cdStep 0 .push) = some (.bqPush 0) ∧
    sel (.cdStep 0 .pll) = some (.dmPll 0) := by decide
theorem test_select_frame_decoder : sel (.fdaStep 0 .pop) = some (.bqPop 0) ∧ sel (.fdaStep 0 .bit) = some (.fdBit 0) ∧
    sel (.fdaStep 0 .done) = some (.fdDone 0) ∧ sel (.fdaStep 0 .build) = some (.faBuild 0) ∧
    sel (.fdaStep 0 .push) = some (.oqPush 0) := by decide
theorem test_select_parser : sel (.fdaStep 0 .parse) = some (.bpParse 0) ∧
    sel (.fdaStep 0 .fixed) = some (.bpFixed 0) ∧ sel (.fdaStep 0 .flags) = some (.bpFlags 0) ∧
    sel (.fdaStep 0 .sublabel) = some (.bpSublabel 0) := by decide
theorem test_select_optional : sel (.blockByte 0 (some 0x02#8) (some false)) = some (.bpDown 0) ∧
    sel (.blockByte 0 (some 0x02#8) (some true)) = some (.bpUp 0) ∧
    sel (.blockByte 0 (some 0x2F#8) (some true)) = some (.bpSublabel 0) ∧
    sel (.blockByte 0 none none) = some (.bpSublabel 0) := by decide
theorem test_select_ports : sel .deliver = some .dispDeliver ∧ sel (.sampleIn []) = some (.feedBlock []) ∧
    sel .eosIn = some .feedEos ∧ sel .resetIn = some .sysReset ∧
    sel (.configIn Params.default) = some (.sysConfig Params.default) := by decide

/-! ### The host's fetch: a placed word is the next operation, run from reset -/

theorem test_fetch_crc1 :
    (chan (step (State.reset.withFetchWord 16 0b10010100101))).map (fun k => (k.fd.crc0, k.fd.stage)) =
      some (0xA5#8, .crc2) := by decide +kernel
theorem test_fetch_demap2 :
    (chan (step (State.reset.withFetchWord 8 0b10))).map (fun k => k.cd.pos) = some .emit := by decide +kernel

/-! ### Numerics -/

/-- `LO = (1,0), (0,−1), (−1,0), (0,1), …` at a quarter of the rate (R292, example; V-CH-1). -/
theorem test_lo_table :
    (Params.default.loTable (.lin 131550000 0)).take 5 =
      [⟨.lin 1 0, .lin 0 0⟩, ⟨.lin 0 0, .lin (-1) 0⟩, ⟨.lin (-1) 0, .lin 0 0⟩, ⟨.lin 0 0, .lin 1 0⟩,
        ⟨.lin 1 0, .lin 0 0⟩] := by decide +kernel
/-- `FS_D = 7200`: `W0 = π/2`, `FLEN = 7` (V-DM-1, V-DM-3). -/
theorem test_derived_parameters :
    Params.default.fsD = .lin 7200 0 ∧ Params.default.w0 = .lin 0 (1 / 2) ∧ Params.default.flen = 7 := by decide +kernel
/-- `FLEN` at 9600, 12500 and 48000 Hz (V-DM-3). -/
theorem test_filter_length :
    { Params.default with fs := .lin 38400 0 }.flen = 9 ∧ { Params.default with fs := .lin 50000 0 }.flen = 11 ∧
      { Params.default with fs := .lin 192000 0 }.flen = 41 := by decide +kernel
/-- `C = (0, 1/2, √3/2, 1, √3/2, 1/2, 0)`, at the places where it is rational (R152, example). -/
theorem test_coefficients :
    [0, 1, 3, 5, 6].map (fun i => State.reset.coef[i]?) =
      [some (.lin 0 0), some (.lin (1 / 2) 0), some (.lin 1 0), some (.lin (1 / 2) 0), some (.lin 0 0)] := by
  decide +kernel
/-- The stored table is doubled (S2, V-DM-4). -/
theorem test_coefficients_doubled :
    State.reset.coef.length = 14 ∧ State.reset.coef.take 7 = State.reset.coef.drop 7 := by decide +kernel
theorem test_default_admitted : Params.default.admitted = true := by decide +kernel

/-- IEEE binary32, without signed zero and infinities. -/
def binary32 : FloatFormat := ⟨24, -149, 104⟩

/-- Values of IEEE binary32: `1/10` is 0x3DCCCCCD, `π` is 0x40490FDB, `1 + 2^-24` is a tie that goes to the even 1, and
`2^128` is beyond the greatest value (IEEE 754). -/
theorem test_binary32 :
    binary32.round (.lin (1 / 10) 0) = .lin (13421773 / 134217728) 0 ∧
    binary32.numerics.pi = .lin (13176795 / 4194304) 0 ∧
    binary32.numerics.add (.lin 1 0) (.lin (1 / 16777216) 0) = .lin 1 0 ∧
    binary32.round (.lin (2 ^ 128) 0) = Scalar.nan := by decide +kernel
/-- `CLK_TH = (3·π)/2` in binary32, by hand: `3·13176795 = 39530385` keeps 24 bits as `4·9882596`; halved, `9882596/2^21`. -/
theorem test_binary32_clkTh : binary32.numerics.clkTh = .lin (9882596 / 2097152) 0 := by decide +kernel
/-- R7, R164: `DM.PLL` on the binary32 record, by hand: `0.0038` is `16320876/2^32`, and times `1/4` is exact. -/
theorem test_binary32_dmPll :
    let k := { ch0 with cd := { ch0.cd with pos := .pll, err := .lin (1 / 4) 0 } }
    (chan (exec (.dmPll 0) { stateOf k with cfg := { Params.default with num := .float binary32 } })).map
      (fun k => k.dm.df) = some (.lin (16320876 / 17179869184) 0) := by decide +kernel

/-! ### Channelizer (V-CH-1 to V-CH-6, examples of R132 and R133) -/

/-- A channel inside a block, `n` samples in, `cnt` of them in the window, with sum `acc`. -/
def chChannel (acc : Cplx) (cnt n : Nat) (pos : CdPos) : Channel :=
  { ch0 with ch := { acc := acc, cnt := cnt, n := n }, cd := { ch0.cd with pos := pos } }

/-- The block of V-CH-1 followed by the window of V-CH-2. -/
def toneBlock : Block :=
  [⟨.lin (1 / 2) 0, .lin 0 0⟩, ⟨.lin 0 0, .lin (1 / 2) 0⟩, ⟨.lin (-1 / 2) 0, .lin 0 0⟩, ⟨.lin 0 0, .lin (-1 / 2) 0⟩,
   ⟨.lin 0 0, .lin 1 0⟩, ⟨.lin 1 0, .lin 0 0⟩, ⟨.lin 0 0, .lin (-1) 0⟩, ⟨.lin (-1) 0, .lin 0 0⟩]

/-- The reset state with a channel and a block. -/
def blockState (k : Channel) (b : Block) : State := { stateOf k with blk := b }

theorem test_chBlock : (chan (exec (.chBlock 0) (blockState (chChannel Cplx.zero 0 8 .block) toneBlock))).map
    (fun k => (k.ch.n, k.cd.pos)) = some (0, .sample) := by decide +kernel
/-- V-CH-6: a block of 7 samples. -/
theorem test_chBlock_length :
    refusalOf (exec (.chBlock 0) (blockState (chChannel Cplx.zero 0 8 .block) toneBlock.tail)) = some .cvBlockLen := by
  decide +kernel
/-- V-CH-1, second sample: `(0, 1/2)·(0, −1) = (1/2, 0)` is added to `(1/2, 0)`. -/
theorem test_chSample_tone :
    (chan (exec (.chSample 0) (blockState (chChannel ⟨.lin (1 / 2) 0, .lin 0 0⟩ 1 1 .sample) toneBlock))).map
      (fun k => (k.ch.acc, k.ch.cnt, k.ch.n, k.cd.pos)) = some (⟨.lin 1 0, .lin 0 0⟩, 2, 2, .sample) := by decide +kernel
/-- V-CH-2, last sample of the second window: `(−1, 0)·(0, 1) = (0, −1)` brings the sum `(0, 1)` to 0; the window is full,
so `CH.DUMP` runs in the same step, and the block is over (R132; after V-CH-5: `CH.cnt = 0`, `CH.n = BLOCK_LEN`). -/
theorem test_chSample_mirror :
    (chan (exec (.chSample 0) (blockState (chChannel ⟨.lin 0 0, .lin 1 0⟩ 3 7 .sample) toneBlock))).map
      (fun k => (k.ch, k.cd.y, k.cd.pos)) = some (⟨Cplx.zero, 0, 8⟩, .lin 0 0, .idle) := by decide +kernel

/-- R133, example: `CH.acc = (2, 0)`, `DECIM = 4`: `y = 1/2`; then V-DM-1, `n = 1`, scaled: `(0, −1/2)` is stored. -/
theorem test_chDump : (run (.chDump 0) (chChannel ⟨.lin 2 0, .lin 0 0⟩ 4 4 .dump)).map
    (fun k => (k.cd.y, k.ch.acc, k.ch.cnt, k.dm.buf[0]?, k.cd.pos)) =
      some (.lin (1 / 2) 0, Cplx.zero, 0, some ⟨.lin 0 0, .lin (-1 / 2) 0⟩, .sample) := by decide +kernel

/-- V-CH-5: `CH.acc = (1.2, 1.6)`: `m = (0.3, 0.4)`, `y = 0.5`. -/
theorem test_chDump_pythagoras : (run (.chDump 0) (chChannel ⟨.lin (6 / 5) 0, .lin (8 / 5) 0⟩ 4 4 .dump)).map
    (fun k => k.cd.y) = some (.lin (1 / 2) 0) := by decide +kernel

/-! ### Demodulator (V-DM-1, V-DM-2, V-DM-5, V-DM-6, examples of R153 to R164) -/

/-- A channel with an envelope sample waiting. -/
def dmChannel (y phi clk : Scalar) : Channel :=
  { ch0 with dm := { ch0.dm with phi := phi, clk := clk }, cd := { ch0.cd with pos := .dmSample, y := y } }

/-- V-DM-1, `n = 1`. -/
theorem test_dmSample_first : (run (.dmSample 0) (dmChannel (.lin 1 0) Scalar.zero Scalar.zero)).map
    (fun k => (k.dm.phi, k.dm.clk, k.dm.buf[0]?, k.dm.idx, k.cd.pos)) =
      some (.lin 0 (1 / 2), .lin 0 (1 / 2), some ⟨.lin 0 0, .lin (-1) 0⟩, 1, .sample) := by decide +kernel
/-- V-DM-1, `n = 3`, from the state after `n = 2`. -/
def thirdSample : Channel :=
  { ch0 with
    dm := { ch0.dm with
      phi := .lin 0 1, clk := .lin 0 1, idx := 2
      buf := [⟨.lin 0 0, .lin (-1) 0⟩, ⟨.lin (-1) 0, .lin 0 0⟩] ++ List.replicate 5 Cplx.zero }
    cd := { ch0.cd with pos := .dmSample, y := .lin 1 0 } }

/-- V-DM-1, `n = 3`: the clock reaches `3π/2` exactly, wraps to 0, and a symbol falls, in the same step (R154). -/
theorem test_dmSample_symbol : (run (.dmSample 0) thirdSample).map
    (fun k => (k.dm.phi, k.dm.clk, k.dm.buf[2]?, k.dm.idx, k.cd.pos)) =
      some (.lin 0 (3 / 2), .lin 0 0, some ⟨.lin 0 0, .lin 1 0⟩, 3, .sample) := by decide +kernel
/-- V-DM-1, first row of the symbol decisions: the filter output's real part is `−1/2`; one decision, counted. -/
theorem test_dmSample_decides : (run (.dmSample 0) thirdSample).map
    (fun k => (k.cd.v.re, k.bq.length, k.dm.s)) = some (.lin (-1 / 2) 0, 1, 1#2) := by decide +kernel

/-- A channel in the middle of a symbol. -/
def symChannel (pos : CdPos) (s : BitVec 2) (v u : Cplx) (m : Scalar) : Channel :=
  { ch0 with dm := { ch0.dm with s := s }, cd := { ch0.cd with pos := pos, v := v, u := u, m := m } }

/-- R168: `3 → 0`. -/
theorem test_dmSymbol_wraps : (run (.dmSymbol 0) (symChannel .tail 3#2 Cplx.zero Cplx.zero Scalar.zero)).map
    (fun k => (k.dm.s, k.cd.pos)) = some (0#2, .sample) := by decide +kernel
/-- R154 from a zero buffer at symbol phase 3: the decision `(0, 0)` is pushed, the symbol counted, the loop goes on. -/
theorem test_dmSymbol_whole : (run (.dmSymbol 0) (symChannel .symbol 3#2 Cplx.zero Cplx.zero Scalar.zero)).map
    (fun k => (k.bq, k.dm.s, k.dm.df, k.cd.pos)) =
      some ([⟨Scalar.zero, Scalar.zero⟩], 0#2, Scalar.zero, .sample) := by decide +kernel

/-- R155, example: the real part is `1/2·(−1) = −1/2`. -/
theorem test_dmMf : (run (.dmMf 0)
    { ch0 with
      dm := { ch0.dm with
        idx := 3
        buf := [⟨.lin 0 0, .lin (-1) 0⟩, ⟨.lin (-1) 0, .lin 0 0⟩, ⟨.lin 0 0, .lin 1 0⟩, Cplx.zero, Cplx.zero, Cplx.zero,
          Cplx.zero] } }).map (fun k => k.cd.v.re) = some (.lin (-1 / 2) 0) := by decide +kernel
/-- R156 by hand: `v = (3, 4)`: `m = 5`, `u.re = 3/(5 + 1e-6)`. -/
theorem test_dmNorm : (run (.dmNorm 0) (symChannel .norm 0#2 ⟨.lin 3 0, .lin 4 0⟩ Cplx.zero Scalar.zero)).map
    (fun k => (k.cd.m, k.cd.u.re)) = some (.lin 5 0, .lin (3000000 / 5000001) 0) := by decide +kernel
/-- R156 and R265: `v = (0,0)`: `m = 0`, `u = (0,0)`, `EV_DEGENERATE`. -/
theorem test_dmNorm_degenerate : (after (exec (.dmNorm 0) (stateOf (symChannel .norm 0#2 Cplx.zero Cplx.zero Scalar.zero)))).map
    (fun t => (t.events, t.channels.map fun k => (k.cd.m, k.cd.u))) =
      some ([.degenerate 0], [(Scalar.zero, Cplx.zero)]) := by decide +kernel
/-- V-DM-6: `0` and `m = 5.2` give `0.01`. -/
theorem test_dmLevel_first : (run (.dmLevel 0) (symChannel .level 0#2 Cplx.zero Cplx.zero (.lin (26 / 5) 0))).map
    (fun k => k.dm.lvl) = some (.lin (1 / 100) 0) := by decide +kernel
/-- V-DM-6: then `0.0199`. -/
theorem test_dmLevel_second : (run (.dmLevel 0)
    { ch0 with dm := { ch0.dm with lvl := .lin (1 / 100) 0 }, cd := { ch0.cd with m := .lin (26 / 5) 0 } }).map
    (fun k => k.dm.lvl) = some (.lin (199 / 10000) 0) := by decide +kernel

/-- `soft` and `err` of a demapper operation on `u = (re, im)`. -/
def demapped (i : Instr) (re im : ℚ) : Option (Scalar × Scalar) :=
  (run i (symChannel .demap 0#2 Cplx.zero ⟨.lin re 0, .lin im 0⟩ Scalar.zero)).map fun k => (k.cd.soft, k.cd.err)

/-- V-DM-5, rows of phase 0. -/
theorem test_demap0 : demapped (.dmDemap0 0) (-3 / 5) (3 / 10) = some (.lin (-3 / 5) 0, .lin (-3 / 10) 0) ∧
    demapped (.dmDemap0 0) 0 (1 / 2) = some (.lin 0 0, .lin (1 / 2) 0) := by decide +kernel
/-- V-DM-5, rows of phase 1. -/
theorem test_demap1 : demapped (.dmDemap1 0) (3 / 10) (3 / 5) = some (.lin (3 / 5) 0, .lin (-3 / 10) 0) ∧
    demapped (.dmDemap1 0) (3 / 10) (-3 / 5) = some (.lin (-3 / 5) 0, .lin (3 / 10) 0) := by decide +kernel
/-- V-DM-5, rows of phase 2. -/
theorem test_demap2 : demapped (.dmDemap2 0) (3 / 5) (3 / 10) = some (.lin (-3 / 5) 0, .lin (3 / 10) 0) ∧
    demapped (.dmDemap2 0) (-3 / 5) (3 / 10) = some (.lin (3 / 5) 0, .lin (-3 / 10) 0) := by decide +kernel
/-- V-DM-5, rows of phase 3. -/
theorem test_demap3 : demapped (.dmDemap3 0) (3 / 10) (3 / 5) = some (.lin (-3 / 5) 0, .lin (-3 / 10) 0) ∧
    demapped (.dmDemap3 0) (3 / 10) (-3 / 5) = some (.lin (3 / 5) 0, .lin (3 / 10) 0) := by decide +kernel

/-- R163: the soft value and the level of the same symbol travel together, into the queue (R241). -/
theorem test_dmEmit : (run (.dmEmit 0)
    { ch0 with dm := { ch0.dm with lvl := .lin (1 / 100) 0 }, cd := { ch0.cd with soft := .lin (-1 / 2) 0 } }).map
    (fun k => (k.bq, k.cd.pos)) = some ([⟨.lin (-1 / 2) 0, .lin (1 / 100) 0⟩], .tail) := by decide +kernel

/-- R164 by hand: `err = 1/2` replaces the old correction by `3.8e-3/2`. -/
theorem test_dmPll : (run (.dmPll 0)
    { ch0 with dm := { ch0.dm with df := .lin 1 0 }, cd := { ch0.cd with err := .lin (1 / 2) 0 } }).map
    (fun k => (k.dm.df, k.cd.pos)) = some (.lin (19 / 10000) 0, .sample) := by decide +kernel

/-! ### Frame Decoder (V-FD-1 to V-FD-19, example of R181) -/

/-- A channel with a popped decision. -/
def bitChannel (sr : Byte) (nb : Nat) (soft : Scalar) : Channel :=
  { ch0 with fd := { ch0.fd with sr := sr, nb := nb }, fda := { ch0.fda with pos := .bit, dec := ⟨soft, .lin (1 / 10) 0⟩ } }

/-- R181, example, the eighth bit of `0,1,1,0,1,0,0,0`: the register shows 0x16, the byte is complete, and V-FD-1 follows in
the same step. -/
theorem test_fdBit_completes : (run (.fdBit 0) (bitChannel 0x2C#8 1 (.lin (-1) 0))).map
    (fun k => (k.fd.sr, k.fd.stage, k.fd.nb, k.fda.pos, k.fda.lvl)) =
      some (0x16#8, .syn2, 8, .pop, .lin (1 / 10) 0) := by decide +kernel

/-- A one goes into bit 7; `soft = 0` is a zero (R95). -/
theorem test_fdBit_polarity :
    (run (.fdBit 0) (bitChannel 0x01#8 8 (.lin 1 0))).map (fun k => (k.fd.sr, k.fd.nb, k.fda.pos)) = some (0x80#8, 7, .pop) ∧
    (run (.fdBit 0) (bitChannel 0x01#8 8 (.lin 0 0))).map (fun k => k.fd.sr) = some 0x00#8 := by decide +kernel
/-- V-FD-1. -/
theorem test_syn1Hit : fdView (run (.fdSyn1Hit 0) (fdChannel .syn1 5 0)) = some (.syn2, 5, 8) := by decide +kernel
/-- V-FD-2. -/
theorem test_syn1Miss : (after (exec (.fdSyn1Miss 0 0x96#8) (stateOf (fdChannel .syn1 5 0)))).map
    (fun t => (t.events, fdView t.channels[0]?)) = some ([], some (.syn1, 5, 8)) := by decide +kernel
/-- V-FD-3. -/
theorem test_syn2Hit : fdView (run (.fdSyn2Hit 0) (fdChannel .syn2 5 0)) = some (.soh, 5, 8) := by decide +kernel
/-- V-FD-4. -/
theorem test_syn2Miss : (after (exec (.fdSyn2Miss 0 0x55#8) (stateOf (fdChannel .syn2 5 0)))).map
    (fun t => (t.events, fdView t.channels[0]?)) = some ([.syncLoss 0 .syn2 0x55#8], some (.syn1, 5, 8)) := by
  decide +kernel
/-- V-FD-5: level 0.1 is −10 dB, the frequency is the channel's. -/
theorem test_sohHit : (run (.fdSohHit 0)
    { fdChannel .soh 7 0 with fda := { ch0.fda with lvl := .lin (1 / 10) 0 } }).map
    (fun k => (k.fd.stage, k.fd.len, k.fd.nb, k.fd.lvldb, k.fd.freq)) =
      some (.txt, 0, 8, .lin (-10) 0, .lin 131550000 0) := by decide +kernel
/-- V-FD-18 and V-FD-19: level 1 is 0 dB; level 0 goes on as well. -/
theorem test_sohHit_levels :
    (run (.fdSohHit 0) { fdChannel .soh 7 0 with fda := { ch0.fda with lvl := .lin 1 0 } }).map (fun k => k.fd.lvldb) =
      some (.lin 0 0) ∧
    fdView (run (.fdSohHit 0) { fdChannel .soh 7 0 with fda := { ch0.fda with lvl := .lin 0 0 } }) = some (.txt, 0, 8) := by
  decide +kernel
/-- V-FD-6. -/
theorem test_sohMiss : (after (exec (.fdSohMiss 0 0x16#8) (stateOf (fdChannel .soh 5 0)))).map
    (fun t => (t.events, fdView t.channels[0]?)) = some ([.syncLoss 0 .soh 0x16#8], some (.syn1, 5, 8)) := by
  decide +kernel
/-- V-FD-8 and V-FD-13. -/
theorem test_txtData :
    (run (.fdTxtData 0 0xAD#8) (fdChannel .txt 2 0)).map (fun k => (k.fd.stage, k.fd.len, k.fd.nb, k.fd.buf)) =
      some (.txt, 3, 8, [(2, 0x2D#8)]) ∧
    fdView (run (.fdTxtData 0 0xC1#8) (fdChannel .txt 241 0)) = some (.txt, 242, 8) := by decide +kernel
/-- V-FD-10 and V-FD-11: the parity bit of the delimiter does not matter. -/
theorem test_txtEndEtx :
    (run (.fdTxtEndEtx 0 true) (fdChannel .txt 12 0)).map (fun k => (k.fd.stage, k.fd.len, k.fd.nb, k.fd.buf)) =
      some (.crc1, 13, 8, [(12, 0x03#8)]) ∧
    run (.fdTxtEndEtx 0 false) (fdChannel .txt 12 0) = run (.fdTxtEndEtx 0 true) (fdChannel .txt 12 0) := by decide +kernel
/-- V-FD-12, and V-FD-15 for the other delimiter: no event at the limit. -/
theorem test_txtEndEtb :
    (run (.fdTxtEndEtb 0 true) (fdChannel .txt 0 0)).map (fun k => (k.fd.stage, k.fd.len, k.fd.nb, k.fd.buf)) =
      some (.crc1, 1, 8, [(0, 0x17#8)]) := by decide +kernel
theorem test_txtEndEtb_limit :
    (after (exec (.fdTxtEndEtb 0 false) (stateOf (fdChannel .txt 242 0)))).map
      (fun t => (t.events, fdView t.channels[0]?)) = some ([], some (.crc1, 243, 8)) := by decide +kernel
/-- V-FD-14. -/
theorem test_txtFull :
    (after (exec (.fdTxtFull 0 0xC1#8) (stateOf (fdChannel .txt 242 0)))).map (fun t => t.events) =
      some [.forcedTerm 0 243] := by decide +kernel
theorem test_txtFull_stores :
    (run (.fdTxtFull 0 0xC1#8) (fdChannel .txt 242 0)).map (fun k => (k.fd.stage, k.fd.len, k.fd.nb, k.fd.buf)) =
      some (.crc1, 243, 8, [(242, 0x41#8)]) := by decide +kernel
/-- V-FD-16. -/
theorem test_crc1 : (run (.fdCrc1 0 0xA5#8) (fdChannel .crc1 13 0)).map (fun k => (k.fd.crc0, k.fd.stage, k.fd.nb)) =
    some (0xA5#8, .crc2, 8) := by decide +kernel
/-- V-FD-17: the byte is stored, `FD.DONE` runs in the same step, the decoder seeks again. -/
theorem test_crc2 : (run (.fdCrc2 0 0x3C#8) (fdChannel .crc2 13 0)).map (fun k => (k.fd.crc1, k.fd.stage, k.fda.pos)) =
    some (0x3C#8, .syn1, .pop) := by decide +kernel
/-- V-FD-17: length and bit count after it, and one frame pushed, with the byte. -/
theorem test_crc2_pushes : (after (exec (.fdCrc2 0 0x3C#8) (stateOf (fdChannel .crc2 13 0)))).map
    (fun t => (fdView t.channels[0]?, t.oq.map fun f => f.crc1)) = some (some (.syn1, 13, 8), [0x3C#8]) := by
  decide +kernel

/-- R193, R244: the frame is pushed and the decoder seeks again; with `OQ` full it is held in the transient stage. -/
theorem test_fdDone :
    (run (.fdDone 0) { fdChannel .done 13 0 with fda := { ch0.fda with pos := .done } }).map
      (fun k => (k.fda.pos, k.fd.stage, k.fd.nb)) = some (.pop, .syn1, 8) ∧
    (chan (exec (.fdDone 0) { stateOf (fdChannel .done 13 0) with cfg := { Params.default with oqCap := 0 } })).map
      (fun k => (k.fda.pos, k.fd.stage)) = some (.push, .done) := by decide +kernel
/-- R302: resumed after the push, the length is kept. -/
theorem test_fdDone_resumes :
    (run (.fdDone 0) { fdChannel .done 13 0 with fda := { ch0.fda with pos := .resync } }).map
      (fun k => (k.fda.pos, k.fd.stage, k.fd.len, k.fd.nb)) = some (.pop, .syn1, 13, 8) := by decide +kernel

/-! ### Block Parser (V-BP-1 to V-BP-5) -/

/-- The base bytes of V-BP-1. -/
def downBase : List Byte :=
  [0x32#8, 0x2E#8, 0x4E#8, 0x31#8, 0x32#8, 0x33#8, 0x41#8, 0x42#8, 0x15#8, 0x48#8, 0x31#8, 0x37#8, 0x02#8, 0x4D#8] ++
  [0x30#8, 0x31#8, 0x41#8, 0x58#8, 0x58#8, 0x30#8, 0x31#8, 0x32#8, 0x33#8, 0x41#8, 0x42#8, 0x43#8, 0x44#8, 0x45#8]

/-- A channel with a block in flight: raw bytes, label, suffix, block-ID. -/
def bpChannel (b : AcarsBlock) : Channel := { ch0 with fda := { ch0.fda with blk := b } }

/-- The block in flight after an operation. -/
def blockAfter (i : Instr) (b : AcarsBlock) : Option AcarsBlock := (run i (bpChannel b)).map fun k => k.fda.blk

/-- R211: the bytes below the length, nothing else; V-BP-1, `L = 2`, with another last byte; a short block is an event
(R264). -/
theorem test_bpParse : (after (exec (.bpParse 0) (stateOf
    { ch0 with fd := { ch0.fd with len := 2, buf := [(0, 0x32#8), (1, 0x03#8), (2, 0x7F#8)] } }))).map
    (fun t => (t.events, t.channels.map fun k => (k.fda.blk, k.fda.pos))) =
      some ([.shortBlock 0], [({ AcarsBlock.empty with
        raw := [0x32#8, 0x03#8], mode := some 0x32#8, suffix := some 0x03#8, mb := some false }, .build)]) := by
  decide +kernel

/-- V-BP-1, `L = 10`: the label is unset though byte 9 exists. -/
theorem test_bpFixed_10 : blockAfter (.bpFixed 0) (AcarsBlock.ofRaw (downBase.take 10)) =
    some { AcarsBlock.ofRaw (downBase.take 10) with
      mode := some 0x32#8, addr := some [0x2E#8, 0x4E#8, 0x31#8, 0x32#8, 0x33#8, 0x41#8, 0x42#8], ack := some 0x15#8
      suffix := some 0x48#8 } := by decide +kernel
/-- V-BP-1, `L = 13`: every fixed field, the delimiter being the suffix as well. -/
theorem test_bpFixed_13 : (blockAfter (.bpFixed 0) (AcarsBlock.ofRaw (downBase.take 13))).map
    (fun b => (b.label, b.bid, b.delim, b.suffix)) =
      some (some [0x48#8, 0x31#8], some 0x37#8, some 0x02#8, some 0x02#8) := by decide +kernel

/-- Flags of a block with a given block-ID and suffix. -/
def flagsOf (bid suffix : Option Byte) : Option (Option Bool × Option Bool) :=
  (blockAfter (.bpFlags 0) { AcarsBlock.empty with bid := bid, suffix := suffix }).map fun b => (b.up, b.mb)

/-- V-BP-3 and V-BP-4. -/
theorem test_bpFlags :
    flagsOf (some 0x00#8) (some 0x17#8) = some (some true, some true) ∧
    flagsOf (some 0x01#8) (some 0x03#8) = some (some false, some false) ∧
    flagsOf (some 0x3F#8) (some 0x16#8) = some (some false, some false) ∧
    flagsOf (some 0x40#8) (some 0x17#8) = some (some true, some true) ∧
    flagsOf (some 0x7F#8) none = some (some true, none) ∧ flagsOf none (some 0x17#8) = some (none, some true) := by
  decide +kernel

/-- Message number, flight and text after `BP.DOWN` on the first `L` base bytes. -/
def downAfter (L : Nat) : Option (Option (List Byte) × Option (List Byte) × Option (List Byte)) :=
  (blockAfter (.bpDown 0) (AcarsBlock.ofRaw (downBase.take L))).map fun b => (b.msn, b.flight, b.text)

/-- V-BP-1, `L = 16, 17, 25, 26`. -/
theorem test_bpDown : downAfter 16 = some (none, none, none) ∧
    downAfter 17 = some (some [0x4D#8, 0x30#8, 0x31#8, 0x41#8], none, none) := by decide +kernel
theorem test_bpDown_text : downAfter 25 =
      some (some [0x4D#8, 0x30#8, 0x31#8, 0x41#8], some [0x58#8, 0x58#8, 0x30#8, 0x31#8, 0x32#8, 0x33#8], none) ∧
    (downAfter 26).map (fun x => x.2.2) = some (some [0x41#8, 0x42#8]) := by decide +kernel
/-- V-BP-2, `L = 15, 16`: the text starts at byte 13. -/
theorem test_bpUp :
    (blockAfter (.bpUp 0) (AcarsBlock.ofRaw (downBase.take 15))).map (fun b => b.text) = some none ∧
    (blockAfter (.bpUp 0) (AcarsBlock.ofRaw (downBase.take 16))).map (fun b => (b.text, b.msn, b.flight)) =
      some (some [0x4D#8, 0x30#8], none, none) := by decide +kernel

/-- The sub-label after `BP.SUBLABEL` on the first `L` base bytes with a given label. -/
def subAfter (L : Nat) (label : List Byte) : Option (Option (List Byte)) :=
  (blockAfter (.bpSublabel 0) { AcarsBlock.ofRaw (downBase.take L) with label := some label }).map fun b => b.sublabel

/-- V-BP-1, `L = 25, 26`, and V-BP-5. -/
theorem test_bpSublabel :
    subAfter 25 [0x48#8, 0x31#8] = some none ∧ subAfter 26 [0x48#8, 0x31#8] = some (some [0x42#8, 0x43#8]) ∧
    subAfter 28 [0x68#8, 0x31#8] = some none ∧ subAfter 28 [0x31#8, 0x48#8] = some none := by decide +kernel
/-- V-BP-5: with byte 12 = 2F the sub-label is still set, and no optional field is. -/
theorem test_parse_without_stx :
    (fun b => (b.sublabel, b.msn, b.flight, b.text, b.up))
      (parseBlock ControlChars.default (downBase.set 12 0x2F#8)) =
      (some [0x42#8, 0x43#8], none, none, none, some false) := by decide +kernel
/-- V-BP-1: rows 13 to 25 are short, rows 26 to 28 are not (R264). -/
theorem test_short_blocks :
    ((List.range 29).filter fun L => (parseBlock ControlChars.default (downBase.take L)).isShort ControlChars.default) =
      List.range 26 := by decide +kernel

/-! ### Queues, dispatch, feed (V-Q-1 to V-Q-3) -/

/-- A decision. -/
def dec (soft : ℚ) : BitDecision := ⟨.lin soft 0, .lin (1 / 10) 0⟩

/-- A frame told by its CRC byte. -/
def frame (b : Byte) : AcarsFrame := { ts := ⟨0⟩, freq := Scalar.zero, lvldb := Scalar.zero, crc0 := b, crc1 := 0#8, block := AcarsBlock.empty }

/-- A state with queue capacities of 2. -/
def smallQueues (k : Channel) : State := { stateOf k with cfg := { Params.default with bqCap := 2, oqCap := 2 } }

/-- V-Q-1: the second push goes on, the third holds and changes nothing. -/
theorem test_bqPush :
    (chan (exec (.bqPush 0) (smallQueues { ch0 with bq := [dec 1], cd := { ch0.cd with dec := dec (-1) } }))).map
      (fun k => (k.bq, k.cd.pos)) = some ([dec 1, dec (-1)], .tail) ∧
    after (exec (.bqPush 0) (smallQueues { ch0 with bq := [dec 1, dec 1], cd := { ch0.cd with dec := dec (-1) } })) =
      some (smallQueues { ch0 with bq := [dec 1, dec 1], cd := { ch0.cd with dec := dec (-1) } }) := by decide +kernel
/-- R242, example, with `FD.BIT` on the popped decision in the same step; and the hold of an empty queue. -/
theorem test_bqPop :
    (run (.bqPop 0) { ch0 with bq := [dec (-1), dec 1] }).map (fun k => (k.bq, k.fda.dec, k.fd.nb, k.fda.pos)) =
      some ([dec 1], dec (-1), 7, .pop) ∧
    run (.bqPop 0) ch0 = some ch0 := by decide +kernel

theorem test_faBuild : (run (.faBuild 0)
    { ch0 with fd := { ch0.fd with crc0 := 0xA5#8, crc1 := 0x3C#8, freq := .lin 7 0 } }).map
    (fun k => (k.fda.frame.crc0, k.fda.frame.crc1, k.fda.frame.freq, k.fda.pos)) =
      some (0xA5#8, 0x3C#8, .lin 7 0, .push) := by decide +kernel
/-- R244: a frame is appended; at capacity it is held. -/
theorem test_oqPush :
    (after (exec (.oqPush 0) { smallQueues { ch0 with fda := { ch0.fda with frame := frame 2 } } with oq := [frame 1] })).map
      (fun t => t.oq) = some [frame 1, frame 2] ∧
    (after (exec (.oqPush 0) { smallQueues ch0 with oq := [frame 1, frame 2] })).map (fun t => t.oq) =
      some [frame 1, frame 2] := by decide +kernel
/-- R245, example, and the sink that is not ready. -/
theorem test_dispDeliver :
    (after (exec .dispDeliver { stateOf ch0 with oq := [frame 1, frame 2], sinkReady := true })).map
      (fun t => (t.oq, t.frameOut)) = some ([frame 2], [frame 1]) ∧
    (after (exec .dispDeliver { stateOf ch0 with oq := [frame 1] })).map (fun t => (t.oq, t.frameOut)) =
      some ([frame 1], []) := by decide +kernel
/-- R246, example: one block, one `CH.BLOCK` on each of two channels; a busy channel holds it. -/
theorem test_feedBlock :
    (after (exec (.feedBlock toneBlock) { State.reset with channels := [ch0, ch0] })).map
      (fun t => (t.blk, t.channels.map fun k => k.cd.pos)) = some (toneBlock, [.block, .block]) ∧
    after (exec (.feedBlock toneBlock) (stateOf (chChannel Cplx.zero 0 3 .sample))) =
      some (stateOf (chChannel Cplx.zero 0 3 .sample)) := by decide +kernel
/-- V-CH-6: a block of 7 samples; and no block after end-of-stream. -/
theorem test_feedBlock_stops :
    refusalOf (exec (.feedBlock toneBlock.tail) (stateOf ch0)) = some .cvBlockLen ∧
    (after (exec (.feedBlock toneBlock) { stateOf ch0 with eos := true })).map (fun t => t.blk) = some [] := by
  decide +kernel
/-- V-Q-3: the bit is set, the event recorded, nothing cleared. -/
theorem test_feedEos : (after (exec .feedEos (stateOf (fdChannel .txt 4 8)))).map (fun t => (t.eos, t.events)) =
    some (true, [.feedEos]) := by decide +kernel
theorem test_feedEos_keeps : (run .feedEos { fdChannel .txt 4 8 with bq := [dec 1] }).map
    (fun k => (k.bq, k.fd.stage, k.fd.len)) = some ([dec 1], .txt, 4) := by decide +kernel

/-! ### Reset and configuration -/

/-- R290: a held, half-way channel is put back; the frame fields are not looked at (R291). -/
theorem test_sysReset : (run .sysReset
    { chChannel ⟨.lin 1 0, .lin 1 0⟩ 3 3 .push with bq := [dec 1], fd := { ch0.fd with stage := .txt, len := 9 } }).map
    (fun k => (k.ch, k.bq, k.cd.pos, k.fd.stage, k.fd.len, k.fd.nb)) =
      some (ChState.reset Params.default, [], .idle, .syn1, 0, 8) := by decide +kernel
/-- An `FDA[c]` held at `OQ.PUSH` goes on under a larger `OQ_CAP`, and holds under the same one (R71; log 11). -/
theorem test_sysConfig_larger_capacity :
    let p := { Params.default with oqCap := 1 }
    let held := { fdChannel .done 13 8 with fda := { ch0.fda with pos := .push } }
    let s := { stateOf held with cfg := p, oq := [frame 1] }
    let queued := fun (q : Params) => (after (chain (exec (.sysConfig q) s) (exec (.fdDone 0)))).map (fun t => t.oq.length)
    queued { p with oqCap := 2 } = some 2 ∧ queued p = some 1 := by decide +kernel
/-- A configuration with fewer channels keeps the second channel and its queue (R73); the reset after it leaves the channels
`0..NCHAN-1` (R20, R290). -/
theorem test_sysConfig_fewer_channels :
    let s := { State.reset with channels := [ch0, { ch0 with bq := [dec 1] }] }
    let t := exec (.sysConfig Params.default) s
    (after t).map (fun t => t.channels.map fun k => k.bq) = some [[], [dec 1]] ∧
      (after (chain t (exec .sysReset))).map (fun t => t.channels.map fun k => k.bq) = some [[]] := by decide +kernel
theorem test_sysReset_queues : (after (exec .sysReset { stateOf ch0 with oq := [frame 1], eos := true })).map
    (fun t => (t.oq, t.eos)) = some ([], false) := by decide +kernel
/-- V-CH-6: `BLOCK_LEN = 8`, `DECIM = 3`; and `LO_LEN = 4`, `BLOCK_LEN = 8`. -/
theorem test_sysConfig_refuses :
    refusalOf (exec (.sysConfig { Params.default with decim := 3 }) State.reset) = some .cvConfig ∧
    refusalOf (exec (.sysConfig { Params.default with loLen := 4 }) State.reset) = some .cvConfig := by decide +kernel
/-- The rate bounds of R6 with `F0 = 1800`: 2400 Hz is too slow, 2404 Hz is admitted. -/
theorem test_sysConfig_rates :
    refusalOf (exec (.sysConfig { Params.default with fs := .lin 9600 0 }) State.reset) = some .cvConfig ∧
    (after (exec (.sysConfig { Params.default with fs := .lin 9616 0 }) State.reset)).map (fun t => t.cfg.flen) =
      some 3 := by decide +kernel

/-! ### Witnesses: for every statement with hypotheses, a state and operands that meet all of them

Clauses with a range get a witness at each end of it. -/

/-- An answer whose channel 0 exists is a next state with that channel. -/
theorem next_of_chan {r : Result} (h : (chan r).isSome = true) : ∃ t k, r = .next t ∧ t.channels[0]? = some k := by
  cases r with
  | next t =>
    cases hk : t.channels[0]? with
    | none => simp [chan, after, hk] at h
    | some k => exact ⟨t, k, rfl, hk⟩
  | fault f => cases h
  | refused q => cases h

/-- A state with one channel and one turn listed. -/
def turnOf (t : Turn) (k : Channel) : State := { stateOf k with sched := [t] }

/-- Channel 0 with `CD[0]` at a position. -/
def cdAt (pos : CdPos) : Channel := { ch0 with cd := { ch0.cd with pos := pos } }

/-- Channel 0 with `FDA[0]` at a position, a stage and a length. -/
def fdaAt (pos : FdaPos) (stage : Stage) (len : Nat) : Channel :=
  { ch0 with fd := { ch0.fd with stage := stage, len := len }, fda := { ch0.fda with pos := pos } }

theorem witness_StepRunsTheSelectedOperation :
    (∃ sel i, select (turnOf (.cd 0) (cdAt .mf)).turn (turnOf (.cd 0) (cdAt .mf)) = some sel ∧
      decode (turnOf (.cd 0) (cdAt .mf)).cfg.chars sel = .ok i) ∧
    (turnOf (.sink true) ch0).turn = .sink true ∧
    (turnOf (.cd 0) ch0).turn ≠ .sink true ∧ select (turnOf (.cd 0) ch0).turn (turnOf (.cd 0) ch0) = none :=
  ⟨⟨_, _, rfl, rfl⟩, rfl, by decide, rfl⟩

/-- Every position of both agents; the two ends of the text's length; a block with its direction known; a turn of a channel
that does not exist; and each port with and without something on it. -/
theorem witness_PositionsSelectTheirOperations :
    (∀ pos, (turnOf (.cd 0) (cdAt pos)).turn = .cd 0 ∧ (turnOf (.cd 0) (cdAt pos)).channels[0]? = some (cdAt pos)) ∧
    (∀ pos stage len, (turnOf (.fda 0) (fdaAt pos stage len)).turn = .fda 0 ∧
      (turnOf (.fda 0) (fdaAt pos stage len)).channels[0]? = some (fdaAt pos stage len)) ∧
    (fdaAt .stage .txt 241).fd.len < 242 ∧ (fdaAt .stage .txt 242).fd.len = 242 ∧
    (∀ up, (bpChannel { AcarsBlock.empty with up := some up }).fda.blk.up = some up) ∧
    ((turnOf (.cd 1) ch0).turn = .cd 1 ∧ (turnOf (.cd 1) ch0).channels[1]? = none) :=
  ⟨fun _ => ⟨rfl, rfl⟩, fun _ _ _ => ⟨rfl, rfl⟩, by decide, rfl, fun _ => rfl, rfl, rfl⟩

theorem witness_PositionsSelectTheirOperations_ports :
    (turnOf .disp ch0).turn = .disp ∧
    (let s := { turnOf .feed ch0 with sampleIn := [toneBlock] };
      s.turn = .feed ∧ s.sampleIn = toneBlock :: [] ∧ s.phase ≠ .configured) ∧
    ((turnOf .feed ch0).sampleIn = [] ∧ (turnOf .feed ch0).turn = .feed) ∧ (turnOf .eos ch0).turn = .eos ∧
    (let s := { turnOf .config ch0 with configIn := some Params.default };
      s.turn = .config ∧ s.configIn = some Params.default ∧ ¬(s.phase = .running ∧ s.eos = false)) ∧
    ((turnOf .config ch0).configIn = none ∧ (turnOf .config ch0).turn = .config) ∧ (turnOf .reset ch0).turn = .reset := by
  refine ⟨rfl, ⟨rfl, rfl, ?_⟩, ⟨rfl, rfl⟩, rfl, ⟨rfl, rfl, ?_⟩, ⟨rfl, rfl⟩, rfl⟩
  · intro h
    cases h
  · intro h
    cases h.1

/-- A block that waits for the reset after a configuration, and a configuration that waits inside a run. -/
theorem witness_PositionsSelectTheirOperations_waiting :
    (let s := { turnOf .feed ch0 with sampleIn := [toneBlock], phase := .configured };
      s.turn = .feed ∧ s.sampleIn = toneBlock :: [] ∧ s.phase = .configured) ∧
    (let s := { turnOf .config ch0 with configIn := some Params.default, phase := .running };
      s.turn = .config ∧ s.configIn = some Params.default ∧ s.phase = .running ∧ s.eos = false) :=
  ⟨⟨rfl, rfl, rfl⟩, rfl, rfl, rfl, rfl⟩

theorem witness_DecoderIsTheSelectorTable :
    (242 ≤ 242 ∧ keyStage 0b10111111111#11 < 6#3) ∧ (242 ≤ 242 ∧ 6#3 ≤ keyStage 0b11000000000#11) := by decide

theorem witness_DecodeOfEncode :
    ControlChars.default.admitted = true ∧ (Instr.fdTxtData 0 0xAD#8).wellFormed 1 ControlChars.default = true ∧
      (Instr.fdTxtFull 0 0xAD#8).wellFormed 1 ControlChars.default = true := by decide

theorem witness_EncodeOfDecodedKey :
    ControlChars.default.admitted = true ∧ 0 < 1 ∧
      decodeFdKey ControlChars.default 0 0b01111000001#11 242 = .ok (.fdTxtFull 0 0xC1#8) ∧
      decodeFdKey ControlChars.default 0 0b01111000001#11 241 = .ok (.fdTxtData 0 0xC1#8) := ⟨by decide, by decide, rfl, rfl⟩

theorem witness_ChBlockStartsTheLoop :
    (blockState (cdAt .block) toneBlock).channels[0]? = some (cdAt .block) ∧
    ((blockState (cdAt .block) toneBlock).eos = false ∧
      toneBlock.length = (blockState (cdAt .block) toneBlock).cfg.blockLen ∧
      1 ≤ (blockState (cdAt .block) toneBlock).cfg.blockLen) ∧
    toneBlock.tail.length ≠ (blockState (cdAt .block) toneBlock.tail).cfg.blockLen ∧
    ({ stateOf (cdAt .block) with eos := true }).eos = true := by
  refine ⟨rfl, ⟨rfl, rfl, ?_⟩, ?_, rfl⟩ <;> decide

/-- A sample inside a window, the last one of a window, the infinite sample of R108 (b), and a table that is one entry short
(V-CH-6). -/
theorem witness_ChSampleMixesAndAccumulates :
    (∃ x w, toneBlock[1]? = some x ∧ Numerics.exact.cFinite x = true ∧
      (chChannel Cplx.zero 1 1 .sample).lo[1]? = some w ∧
      (chChannel Cplx.zero 1 1 .sample).ch.cnt + 1 ≠ Params.default.decim) ∧
    (∃ x w, toneBlock[7]? = some x ∧ Numerics.exact.cFinite x = true ∧
      (chChannel Cplx.zero 3 7 .sample).lo[7]? = some w ∧
      (chChannel Cplx.zero 3 7 .sample).ch.cnt + 1 = Params.default.decim) ∧
    (∃ x : Cplx, [(⟨.nonFinite .posInf, .lin 0 0⟩ : Cplx)][0]? = some x ∧ Numerics.exact.cFinite x = false) ∧
    (∃ x, toneBlock[7]? = some x ∧ Numerics.exact.cFinite x = true ∧ (ch0.lo.take 7).length ≤ 7) := by
  refine ⟨⟨_, _, rfl, by decide, rfl, by decide⟩, ⟨_, _, rfl, by decide, rfl, by decide⟩, ⟨_, rfl, by decide⟩,
    ⟨_, rfl, by decide, ?_⟩⟩
  decide +kernel

theorem witness_ChDumpClosesTheWindow :
    let k := chChannel ⟨.lin 2 0, .lin 0 0⟩ 4 4 .dump
    (stateOf k).channels[0]? = some k ∧ (stateOf k).cfg.num = .exact ∧ k.ch.acc.finite = true ∧
      1 ≤ (stateOf k).cfg.decim := ⟨rfl, rfl, by decide, by decide⟩

theorem witness_DmSampleCompletes :
    (stateOf (dmChannel (.lin 1 0) Scalar.zero Scalar.zero)).cfg.numerics.finite (.lin 1 0) = true ∧
      (stateOf ch0).cfg.numerics.finite (.nonFinite .nan) = false := by decide

/-- The increment of the default configuration is `π/2`: phase 0 and clock 0 wrap nothing, phase `3π/2` and clock `π` reach
`2π` and `3π/2` exactly. -/
theorem witness_DmSampleAdvancesMixesAndClocks (phi clk : Scalar)
    (h : (phi = .lin 0 0 ∧ clk = .lin 0 0) ∨ (phi = .lin 0 (3 / 2) ∧ clk = .lin 0 1)) :
    let k := dmChannel (.lin 1 0) phi clk
    let s := stateOf k
    let inc := s.cfg.w0.toReal + k.dm.df.toReal
    s.channels[0]? = some k ∧ s.cfg.num = .exact ∧ k.cd.y.finite = true ∧ k.dm.phi.finite = true ∧
      k.dm.clk.finite = true ∧ k.dm.df.finite = true ∧ s.cfg.w0.finite = true ∧
      (clk = .lin 0 0 → k.dm.clk.toReal + inc < 3 * Real.pi / 2) ∧
      (clk = .lin 0 1 → 3 * Real.pi / 2 ≤ k.dm.clk.toReal + inc) := by
  have hw : (stateOf (dmChannel (.lin 1 0) phi clk)).cfg.w0 = .lin 0 (1 / 2) := test_derived_parameters.2.1
  have hp := Real.pi_gt_three
  obtain ⟨rfl, rfl⟩ | ⟨rfl, rfl⟩ := h
  all_goals
    intro k s inc
    simp only [inc, show s.cfg.w0 = .lin 0 (1 / 2) from hw, show k.dm.df = Scalar.zero from rfl]
    refine ⟨rfl, rfl, rfl, rfl, rfl, rfl, rfl, ?_, ?_⟩
    all_goals
      intro h
      simp [k, dmChannel] at h ⊢
      try linarith

theorem witness_DmSampleRestoresItsRanges (phi clk : Scalar)
    (h : (phi = .lin 0 0 ∧ clk = .lin 0 0) ∨ (phi = .lin 0 (3 / 2) ∧ clk = .lin 0 1)) :
    let k := dmChannel (.lin 1 0) phi clk
    let s := stateOf k
    (|k.dm.df.toReal| < 38 / 10000 ∧ 38 / 10000 < s.cfg.w0.toReal ∧ s.cfg.w0.toReal + 38 / 10000 < 3 * Real.pi / 2 ∧
      0 ≤ k.dm.phi.toReal ∧ k.dm.phi.toReal < 2 * Real.pi ∧ 0 ≤ k.dm.clk.toReal ∧
      k.dm.clk.toReal < 3 * Real.pi / 2) ∧
    ∃ t k', exec (.dmSample 0) s = .next t ∧ t.channels[0]? = some k' := by
  have hw : (stateOf (dmChannel (.lin 1 0) phi clk)).cfg.w0 = .lin 0 (1 / 2) := test_derived_parameters.2.1
  have hp := Real.pi_gt_three
  intro k s
  refine ⟨?_, ?_⟩
  · simp only [show s.cfg.w0 = .lin 0 (1 / 2) from hw, show k.dm.phi = phi from rfl, show k.dm.clk = clk from rfl,
      show k.dm.df = Scalar.zero from rfl, Scalar.toReal_lin]
    obtain ⟨rfl, rfl⟩ | ⟨rfl, rfl⟩ := h
    all_goals
      simp only [Scalar.toReal_lin]
      norm_num
      repeat' apply And.intro
      all_goals linarith
  · obtain ⟨rfl, rfl⟩ | ⟨rfl, rfl⟩ := h
    all_goals exact next_of_chan (by decide +kernel)

/-- The three places `DM.SYMBOL` is at: its first line, held at `BQ.PUSH` with room and without, and after the push. -/
theorem witness_DmSymbolSequences :
    ((cdAt .symbol).cd.pos ≠ .push ∧ (cdAt .symbol).cd.pos ≠ .tail) ∧
    (let k := { cdAt .push with bq := [dec 1] };
      (smallQueues k).channels[0]? = some k ∧ k.cd.pos = .push ∧ k.bq.length < (smallQueues k).cfg.bqCap) ∧
    (let k := { cdAt .push with bq := [dec 1, dec 1] };
      k.cd.pos = .push ∧ (smallQueues k).cfg.bqCap ≤ k.bq.length) ∧
    (cdAt .tail).cd.pos = .tail :=
  ⟨⟨by decide, by decide⟩, ⟨rfl, rfl, by decide⟩, ⟨rfl, by decide⟩, rfl⟩

theorem witness_DmMfIsTheCorrelation : (stateOf (cdAt .mf)).channels[0]? = some (cdAt .mf) := rfl

/-- `v = (0,0)`, and `v = (3, 4)`. -/
theorem witness_DmNormNormalises :
    (stateOf (cdAt .norm)).channels[0]? = some (cdAt .norm) ∧ (stateOf (cdAt .norm)).cfg.num = .exact ∧
      (cdAt .norm).cd.v = Cplx.zero ∧ (⟨.lin 3 0, .lin 4 0⟩ : Cplx).finite = true := ⟨rfl, rfl, rfl, by decide⟩

theorem witness_DmLevelAverages :
    (stateOf (cdAt .level)).channels[0]? = some (cdAt .level) ∧ 0 ≤ (cdAt .level).dm.lvl.toReal ∧
      0 ≤ (cdAt .level).cd.m.toReal := by
  refine ⟨rfl, ?_, ?_⟩ <;> simp [cdAt, ch0, Channel.reset, DmState.reset, CdFlight.reset]

/-- `ur = 0`, the tie of `vo`. -/
theorem witness_DemapperFollowsItsTable :
    let k := symChannel .demap 0#2 Cplx.zero ⟨.lin 0 0, .lin (1 / 2) 0⟩ Scalar.zero
    (stateOf k).channels[0]? = some k ∧ (stateOf k).cfg.num = .exact ∧ (stateOf k).cfg.demap = DemapTable.default ∧
      k.cd.u.finite = true := ⟨rfl, rfl, rfl, by decide⟩

theorem witness_PolarityNegatesSoftKeepsErr :
    let u : Cplx := ⟨.lin (1 / 2) 0, .lin (1 / 4) 0⟩
    (demapDecision DemapTable.default.row0 u).finite = true ∧ (demapDecision DemapTable.default.row0 u).toReal ≠ 0 := by
  refine ⟨by decide +kernel, ?_⟩
  simp [demapDecision, DemapTable.default]

theorem witness_DmPllAssignsTheCorrection :
    (stateOf (cdAt .pll)).channels[0]? = some (cdAt .pll) ∧ (cdAt .pll).cd.err.toReal = 0 ∧
      |(cdAt .pll).cd.err.toReal| < 1 := by
  refine ⟨rfl, ?_, ?_⟩ <;> simp [cdAt, ch0, Channel.reset, CdFlight.reset]

/-- Room for exactly one decision, and for none. -/
theorem witness_SymbolDecisionIsEmitted :
    let k := { cdAt .symbol with bq := [dec 1] }
    (smallQueues k).channels[0]? = some k ∧ k.cd.pos ≠ .push ∧ k.cd.pos ≠ .tail ∧
      k.bq.length < (smallQueues k).cfg.bqCap ∧ k.dm.s = 0#2 ∧
      (smallQueues { cdAt .symbol with bq := [dec 1, dec 1] }).cfg.bqCap ≤ [dec 1, dec 1].length :=
  ⟨rfl, by decide, by decide, by decide, rfl, by decide⟩

/-- A byte that stays incomplete, one that selects an operation, and one that selects none. -/
theorem witness_FdBitShiftsAndCounts :
    let k := bitChannel 0x2C#8 1 (.lin (-1) 0)
    ((stateOf k).channels[0]? = some k ∧ (stateOf k).cfg.num = .exact ∧ k.fda.dec.soft.finite = true) ∧
      (bitChannel 0x2C#8 2 (.lin (-1) 0)).fd.nb - 1 ≠ 0 ∧ k.fd.nb - 1 = 0 ∧
      decodeByte ControlChars.default 0 .syn1 0x16#8 0 = .ok (.fdSyn1Hit 0) ∧
      decodeByte ControlChars.default 0 .done 0x16#8 0 = .error .stageUnreachable :=
  ⟨⟨rfl, rfl, rfl⟩, by decide, rfl, rfl, rfl⟩

theorem witness_EightDecisionsMakeAByte :
    let ds := [dec (-1), dec 1, dec 1, dec (-1), dec 1, dec (-1), dec (-1), dec (-1)]
    let k := { ch0 with bq := ds ++ [] }
    (stateOf k).channels[0]? = some k ∧ k.fd.nb = 8 ∧ ds.length = 8 ∧ ds[7]? = some (dec (-1)) ∧ k.bq = ds ++ [] ∧
      decodeByte ControlChars.default 0 k.fd.stage 0x16#8 k.fd.len = .ok (.fdSyn1Hit 0) :=
  ⟨rfl, rfl, rfl, rfl, rfl, rfl⟩

theorem witness_SyncCharactersAdvance :
    (stateOf ch0).channels[0]? = some ch0 ∧ (stateOf ch0).cfg.chars.admitted = true := ⟨rfl, by decide⟩

theorem witness_MissesResynchronise :
    (stateOf (fdaAt .stage .syn2 0)).channels[0]? = some (fdaAt .stage .syn2 0) := rfl

theorem witness_SohHitOpensAFrame :
    let k := { fdChannel .soh 7 0 with fda := { ch0.fda with lvl := .lin (1 / 10) 0 } }
    (stateOf k).channels[0]? = some k ∧ (stateOf k).cfg.ft[0]? = some (.lin 131550000 0) ∧
      (stateOf k).cfg.num = .exact ∧ k.fda.lvl.finite = true ∧ 0 < k.fda.lvl.toReal := by
  refine ⟨rfl, rfl, rfl, rfl, ?_⟩
  simp

theorem witness_TextOperationsStoreOneCharacter (len : Nat) (h : len = 0 ∨ len = 241 ∨ len = 242) :
    let k := fdaAt .stage .txt len
    (stateOf k).channels[0]? = some k ∧ k.fd.buf.wf ∧ (stateOf k).cfg.chars.admitted = true ∧ k.fd.len ≤ 242 ∧
      (len ≠ 242 → k.fd.len < 242) ∧ (len = 242 → k.fd.len = 242) := by
  refine ⟨rfl, Memory.wf_nil, (by decide : ControlChars.default.admitted = true), ?_, ?_, ?_⟩
  all_goals simp only [fdaAt]
  all_goals omega

theorem witness_CrcBytesAreStoredUnchecked :
    (stateOf (fdaAt .stage .crc2 243)).channels[0]? = some (fdaAt .stage .crc2 243) ∧
      (fdaAt .stage .crc2 243).fd.len ≤ 243 := ⟨rfl, by decide⟩

/-- The three places `FD.DONE` is at: its first line, held at `OQ.PUSH` with room and without, and after the push. -/
theorem witness_FdDoneParsesThenSeeks :
    ((fdaAt .done .done 243).fda.pos ≠ .push ∧ (fdaAt .done .done 243).fda.pos ≠ .resync ∧
      (fdaAt .done .done 243).fd.len ≤ 243) ∧
    (let s := { smallQueues (fdaAt .push .done 13) with oq := [frame 1] };
      s.channels[0]? = some (fdaAt .push .done 13) ∧ (fdaAt .push .done 13).fda.pos = .push ∧
        s.oq.length < s.cfg.oqCap) ∧
    (let s := { smallQueues (fdaAt .push .done 13) with oq := [frame 1, frame 2] };
      s.cfg.oqCap ≤ s.oq.length) ∧
    (fdaAt .resync .done 13).fda.pos = .resync :=
  ⟨⟨by decide, by decide, by decide⟩, ⟨rfl, rfl, by decide⟩, by decide, rfl⟩

/-- The decision that completes the 243rd character of a block waits in the queue. -/
def fullState : State :=
  turnOf (.fda 0) { ch0 with fd := { ch0.fd with stage := .txt, len := 242, nb := 1, sr := 0x82#8 }, bq := [dec 1] }

theorem fullState_FdInv : FdInv fullState := by
  refine ⟨by decide, by decide, ?_⟩
  intro k hk
  obtain rfl : k = _ := List.mem_singleton.mp hk
  constructor <;> simp [ch0, Channel.reset, FdState.reset, FdaFlight.reset, Memory.wf]

theorem fullState_steps : ∃ t k, step fullState = .next t ∧ t.channels[0]? = some k := next_of_chan (by decide +kernel)

theorem witness_StageTransfersFollowTheTable :
    FdInv fullState ∧ (∃ s' k', step fullState = .next s' ∧ s'.channels[0]? = some k') ∧ fullState.turn ≠ .reset ∧
      ∃ k, fullState.channels[0]? = some k := ⟨fullState_FdInv, fullState_steps, by decide, ⟨_, rfl⟩⟩

/-- A stored character, and a decision that completes one. -/
theorem witness_OperationsKeepOtherBytes :
    (let k := fdaAt .stage .txt 241;
      (∃ t k', exec (.fdTxtData 0 0xC1#8) (stateOf k) = .next t ∧ t.channels[0]? = some k') ∧
        Instr.fdTxtData 0 0xC1#8 ≠ .sysReset ∧ (stateOf k).channels[0]? = some k ∧ k.fd.buf.wf) ∧
    ((∃ t k', exec (.bqPop 0) fullState = .next t ∧ t.channels[0]? = some k') ∧ Instr.bqPop 0 ≠ .sysReset) :=
  ⟨⟨next_of_chan (by decide +kernel), by decide, rfl, Memory.wf_nil⟩, next_of_chan (by decide +kernel), by decide⟩

/-- The length bounds of the four causes of R264, from both sides, and the ends of the domain. -/
theorem witness_BpParseReadsTheBlock (len : Nat)
    (h : len = 1 ∨ len = 12 ∨ len = 13 ∨ len = 15 ∨ len = 16 ∨ len = 25 ∨ len = 26 ∨ len = 243) :
    let k := fdaAt .parse .done len
    (stateOf k).channels[0]? = some k ∧ k.fd.len ≤ 243 := by
  refine ⟨rfl, ?_⟩
  simp only [fdaAt]
  omega

/-- V-BP-1 and V-BP-2 give a parse to each direction and to the label H1. -/
theorem witness_BpParseReadsTheBlock_causes :
    (let b := parseBlock ControlChars.default (downBase.take 25);
      b.delim = some 0x02#8 ∧ b.up = some false ∧ b.label = some [0x48#8, 0x31#8] ∧ b.raw.length = 25) ∧
    (let b := parseBlock ControlChars.default ((downBase.set 11 0x41#8).take 15);
      b.delim = some 0x02#8 ∧ b.up = some true ∧ b.raw.length = 15) := by decide +kernel

theorem witness_BpFixedExtractsTheFixedFields :
    let k := bpChannel { AcarsBlock.empty with raw := downBase.take 13 }
    (stateOf k).channels[0]? = some k ∧ k.fda.blk = { AcarsBlock.empty with raw := downBase.take 13 } := ⟨rfl, rfl⟩

theorem witness_BpFlagsDerivesTheFlags :
    let k := bpChannel { AcarsBlock.empty with bid := some 0x40#8, suffix := some 0x17#8 }
    (stateOf k).channels[0]? = some k ∧ k.fda.blk.bid = some 0x40#8 ∧ k.fda.blk.suffix = some 0x17#8 ∧
      (bpChannel AcarsBlock.empty).fda.blk.bid = none ∧ (bpChannel AcarsBlock.empty).fda.blk.suffix = none :=
  ⟨rfl, rfl, rfl, rfl, rfl⟩

theorem witness_OptionalFieldsByDirection (L : Nat) :
    let k := bpChannel (AcarsBlock.ofRaw (downBase.take L))
    (stateOf k).channels[0]? = some k ∧ k.fda.blk.msn = none ∧ k.fda.blk.flight = none ∧ k.fda.blk.text = none :=
  ⟨rfl, rfl, rfl, rfl⟩

theorem witness_BpSublabelReadsH1Only :
    let k := bpChannel { AcarsBlock.ofRaw downBase with label := some [0x48#8, 0x31#8] }
    (stateOf k).channels[0]? = some k ∧ k.fda.blk.sublabel = none := ⟨rfl, rfl⟩

/-- Two states that differ in everything but the bytes below the length. -/
theorem witness_ParserIsPure :
    let k₁ := fdaAt .parse .done 2
    let k₂ := { k₁ with fd := { k₁.fd with buf := [(2, 0x41#8)] }, bq := [dec 1] }
    let s₁ := stateOf k₁
    let s₂ := { stateOf k₂ with eos := true }
    s₁.channels[0]? = some k₁ ∧ s₂.channels[0]? = some k₂ ∧ s₁.cfg.chars = s₂.cfg.chars ∧ k₁.fd.len ≤ 243 ∧
      k₁.fd.len = k₂.fd.len ∧ (∀ i < k₁.fd.len, k₁.fd.buf.read i = k₂.fd.buf.read i) := by
  refine ⟨rfl, rfl, rfl, by decide, rfl, ?_⟩
  decide

/-- The parser between its first two steps, on a block of 13 bytes. -/
def parsingState : State :=
  turnOf (.fda 0)
    { fdaAt .fixed .done 13 with fda := { ch0.fda with pos := .fixed, blk := AcarsBlock.ofRaw (List.replicate 13 0#8) } }

theorem witness_ParserInvariantIsKept :
    ParseInv parsingState ∧ ∃ s' k', step parsingState = .next s' ∧ s'.channels[0]? = some k' := by
  refine ⟨?_, next_of_chan (by decide +kernel)⟩
  intro _ k hk
  obtain rfl : k = _ := List.mem_singleton.mp hk
  refine ⟨fun _ => by decide +kernel, ?_, ?_, ?_, ?_, ?_⟩
  all_goals
    intro h
    cases h

theorem witness_EmittedDecisionIsPushedOrHeld :
    (smallQueues { ch0 with bq := [dec 1] }).channels[0]? = some { ch0 with bq := [dec 1] } ∧
    [dec 1].length < (smallQueues { ch0 with bq := [dec 1] }).cfg.bqCap ∧
    (smallQueues { ch0 with bq := [dec 1, dec 1] }).cfg.bqCap ≤ [dec 1, dec 1].length := ⟨rfl, by decide, by decide⟩

/-- A decision that does not complete a byte, at both ends of the range, and an empty queue. -/
theorem witness_BqPopTakesTheOldestOrHolds (nb : Nat) (h : nb = 2 ∨ nb = 8) :
    let k := { fdChannel .syn1 0 nb with bq := [dec 1] }
    (stateOf k).channels[0]? = some k ∧ k.bq = dec 1 :: [] ∧ 2 ≤ k.fd.nb ∧ ch0.bq = [] := by
  refine ⟨rfl, rfl, ?_, rfl⟩
  simp only [fdChannel]
  omega

theorem witness_FrameIsBuiltAndPushedOrHeld :
    ({ smallQueues ch0 with oq := [frame 1] }).channels[0]? = some ch0 ∧
    [frame 1].length < ({ smallQueues ch0 with oq := [frame 1] }).cfg.oqCap ∧
    ({ smallQueues ch0 with oq := [frame 1, frame 2] }).cfg.oqCap ≤ [frame 1, frame 2].length := ⟨rfl, by decide, by decide⟩

theorem witness_DispDeliverEmitsTheOldestFrame :
    ({ stateOf ch0 with oq := [frame 1], sinkReady := true }).oq = frame 1 :: [] ∧
    ({ stateOf ch0 with oq := [frame 1], sinkReady := true }).sinkReady = true ∧ (stateOf ch0).oq = [] :=
  ⟨rfl, rfl, rfl⟩

theorem witness_FeedBlockDeliversToEveryChannel :
    ((∀ k ∈ (stateOf ch0).channels, k.cd.pos = .idle) ∧ (stateOf ch0).eos = false ∧
      toneBlock.length = (stateOf ch0).cfg.blockLen ∧ toneBlock.tail.length ≠ (stateOf ch0).cfg.blockLen) ∧
    (∃ k ∈ (stateOf (cdAt .sample)).channels, k.cd.pos ≠ .idle) := by
  refine ⟨⟨?_, rfl, rfl, by decide⟩, cdAt .sample, List.mem_singleton.mpr rfl, by decide⟩
  intro k hk
  obtain rfl : k = _ := List.mem_singleton.mp hk
  rfl

theorem witness_EndOfStreamIsFinal :
    let s := { turnOf (.fda 0) ch0 with eos := true }
    ((∀ k ∈ (stateOf ch0).channels, k.cd.pos = .idle) ∧ (stateOf ch0).eos = false) ∧
    (∃ k ∈ (stateOf (cdAt .sample)).channels, k.cd.pos ≠ .idle) ∧
    ((∃ s' k, step s = .next s' ∧ s'.channels[0]? = some k) ∧ s.eos = true ∧ s.turn ≠ .reset) := by
  refine ⟨⟨?_, rfl⟩, ⟨cdAt .sample, List.mem_singleton.mpr rfl, by decide⟩, next_of_chan (by decide +kernel), rfl,
    by decide⟩
  intro k hk
  obtain rfl : k = _ := List.mem_singleton.mp hk
  rfl

/-- A full queue that is popped. -/
def poppingState : State := { smallQueues { ch0 with bq := [dec (1 / 2), dec (-1 / 2)] } with sched := [.fda 0] }

theorem poppingState_steps : ∃ t k, step poppingState = .next t ∧ t.channels[0]? = some k :=
  next_of_chan (by decide +kernel)

theorem witness_QueuesConserveTheirValues :
    (∃ t k, step poppingState = .next t ∧ t.channels[0]? = some k) ∧ QueueInv poppingState ∧
      poppingState.turn ≠ .reset := by
  refine ⟨poppingState_steps, fun _ => ⟨by decide, ?_⟩, by decide⟩
  intro k hk
  obtain rfl : k = _ := List.mem_singleton.mp hk
  decide

/-- A block of the greatest length with room for one frame, the same with none, and the decision that completes the second
CRC byte. -/
theorem witness_CompletedFrameIsQueued :
    (let k := fdaAt .done .done 243;
      let s := { smallQueues k with oq := [frame 1] };
      s.channels[0]? = some k ∧ k.fd.len ≤ 243 ∧ k.fda.pos ≠ .push ∧ k.fda.pos ≠ .resync ∧
        s.oq.length < s.cfg.oqCap ∧ s.cfg.oqCap ≤ [frame 1, frame 2].length) ∧
    (let k := { fdChannel .crc2 243 1 with bq := dec 1 :: [dec (-1)] };
      let s := { smallQueues k with oq := [frame 1] };
      s.channels[0]? = some k ∧ k.fd.len ≤ 243 ∧ k.bq = dec 1 :: [dec (-1)] ∧ k.fd.stage = .crc2 ∧ k.fd.nb = 1 ∧
        s.oq.length < s.cfg.oqCap) := by
  refine ⟨⟨rfl, ?_, ?_, ?_, ?_, ?_⟩, rfl, ?_, rfl, rfl, rfl, ?_⟩ <;> decide

theorem witness_ResetInitialisesEveryElement :
    0 < (stateOf (cdAt .push)).cfg.nchan ∧ (stateOf (cdAt .push)).channels[0]? = some (cdAt .push) := ⟨by decide, rfl⟩

theorem witness_ConfigComputesTheTables :
    Params.default.num = .exact ∧ Params.default.admitted = true ∧ { Params.default with decim := 3 }.admitted = false ∧
      Params.default.ft[0]? = some (.lin 131550000 0) ∧ Params.default.nchan ≤ 1 ∧
      (stateOf ch0).channels[0]? = some ch0 := ⟨rfl, by decide +kernel, by decide +kernel, rfl, by decide, rfl⟩

/-- The first and the last coefficient of the default formula, and a table that is given. -/
theorem witness_DefaultCoefficientsAreTheHalfCosine (a : Nat) (h : a = 0 ∨ a = 6) :
    let p := Params.default
    p.num = .exact ∧ p.coefTable = none ∧ p.fs.finite = true ∧ p.fs.toReal ≠ 0 ∧ 1 ≤ p.decim ∧ a < p.flen ∧
      { p with coefTable := some [Scalar.one] }.coefTable = some [Scalar.one] := by
  refine ⟨rfl, rfl, rfl, ?_, by decide, ?_, rfl⟩
  · simp [Params.default]
  · have h7 : Params.default.flen = 7 := test_derived_parameters.2.2
    omega

/-- `CH.DUMP` with the decision it leads to, and a pop that completes a frame. -/
theorem witness_AgentsOwnTheirParts :
    (∃ t k, exec (.chDump 0) (stateOf (cdAt .dump)) = .next t ∧ t.channels[0]? = some k) ∧
      (Instr.chDump 0).ofCd = some 0 ∧
    (∃ t k, exec (.bqPop 0) (stateOf { fdChannel .crc2 13 1 with bq := [dec 1] }) = .next t ∧
      t.channels[0]? = some k) ∧
      (Instr.bqPop 0).ofFda = some 0 := ⟨next_of_chan (by decide +kernel), rfl, next_of_chan (by decide +kernel), rfl⟩

/-- Two states that differ in the other agents' parts. -/
theorem witness_CdSeesOnlyItsChannel :
    let s₁ := stateOf (cdAt .dump)
    let s₂ := { stateOf (cdAt .dump) with oq := [frame 1], sinkReady := true, channels := [cdAt .dump, ch0] }
    (Instr.chDump 0).ofCd = some 0 ∧ s₁.cfg = s₂.cfg ∧ s₁.coef = s₂.coef ∧ s₁.blk = s₂.blk ∧
      s₁.eos = s₂.eos ∧ s₁.channels[0]? = s₂.channels[0]? := ⟨rfl, rfl, rfl, rfl, rfl, rfl⟩

theorem witness_CdAgentsCommute :
    let s := { stateOf ch0 with channels := [cdAt .dump, cdAt .dump] }
    (Instr.chDump 0).ofCd = some 0 ∧ (Instr.chDump 1).ofCd = some 1 ∧ (0 : Nat) ≠ 1 ∧
      (∃ s₁ k, exec (.chDump 0) s = .next s₁ ∧ s₁.channels[0]? = some k) ∧
      ∃ s₂ k, exec (.chDump 1) s = .next s₂ ∧ s₂.channels[0]? = some k :=
  ⟨rfl, rfl, by decide, next_of_chan (by decide +kernel), next_of_chan (by decide +kernel)⟩

theorem witness_TablesMatchTheConfiguration :
    TableInv fullState ∧ (∃ s' k', step fullState = .next s' ∧ s'.channels[0]? = some k') ∧ fullState.turn ≠ .config :=
  ⟨⟨rfl, rfl⟩, fullState_steps, by decide⟩

theorem witness_FrameDecoderInvariantIsKept :
    FdInv fullState ∧ ∃ s' k', step fullState = .next s' ∧ s'.channels[0]? = some k' := ⟨fullState_FdInv, fullState_steps⟩

theorem witness_BlockContentIsKept :
    FdInv fullState ∧ ContentInv fullState ∧ ∃ s' k', step fullState = .next s' ∧ s'.channels[0]? = some k' := by
  refine ⟨fullState_FdInv, ?_, fullState_steps⟩
  intro _ k hk
  obtain rfl : k = _ := List.mem_singleton.mp hk
  refine ⟨fun _ i _ => (by decide : ControlChars.default.isDelimiter 0#8 = false), ?_⟩
  intro h
  simp at h

/-- Inside a block, one sample before the end of a window. -/
def samplingState : State :=
  { turnOf (.cd 0) (chChannel ⟨.lin 1 0, .lin 0 0⟩ 3 3 .sample) with blk := toneBlock, phase := .running }

theorem samplingState_steps : ∃ t k, step samplingState = .next t ∧ t.channels[0]? = some k :=
  next_of_chan (by decide +kernel)

/-- The table clause of `CdInv` in a state with one channel. -/
theorem lo_length_of_one {s : State} {j : Channel} (hs : s.channels = [j]) (hl : j.lo.length = 8) (h8 : s.cfg.loLen = 8)
    (c : Nat) (k : Channel) (_ : c < s.cfg.nchan) (hk : s.channels[c]? = some k) : k.lo.length = s.cfg.loLen := by
  have hm := List.mem_of_getElem? hk
  rw [hs] at hm
  rw [List.mem_singleton.mp hm, hl, h8]

theorem samplingState_CdInv : CdInv samplingState := by
  refine ⟨by decide, by decide, by decide, by decide, by decide, fun _ => rfl, lo_length_of_one rfl (by decide) rfl, ?_, ?_⟩
  · rintro (h | h)
    · exact absurd rfl h
    · cases h
  intro k hk
  obtain rfl : k = _ := List.mem_singleton.mp hk
  refine ⟨fun _ => by decide +kernel, ?_, by decide, fun _ => by decide, by decide, ?_, ?_,
    fun _ => by decide, fun _ => by decide, ?_⟩
  · intro _ h
    cases h
  · rintro (h | h) <;> cases h
  · intro _ h
    cases h
  · intro h
    cases h

theorem witness_ChannelizerInvariantIsKept :
    CdInv samplingState ∧ ∃ s' k', step samplingState = .next s' ∧ s'.channels[0]? = some k' :=
  ⟨samplingState_CdInv, samplingState_steps⟩

theorem samplingState_FiniteInv : FiniteInv samplingState := by
  refine ⟨rfl, by decide, List.forall_mem_nil _, List.forall_mem_nil _, by decide +kernel, by decide, by decide +kernel,
    by decide, by decide, ?_⟩
  intro k hk
  obtain rfl : k = _ := List.mem_singleton.mp hk
  constructor <;> first | decide +kernel | exact ⟨rfl, rfl⟩

theorem witness_FiniteFeedStaysFinite :
    FiniteInv samplingState ∧ ∃ s' k', step samplingState = .next s' ∧ s'.channels[0]? = some k' ∧
      s'.cfg.num = .exact := by
  obtain ⟨t, k, h, hk⟩ := samplingState_steps
  refine ⟨samplingState_FiniteInv, t, k, h, hk, ?_⟩
  have hn : (after (step samplingState)).map (fun t => t.cfg.num) = some .exact := by decide +kernel
  simpa [h, after] using hn

theorem samplingState_RealInv : RealInv samplingState := by
  intro _ _ k hk
  obtain rfl : k = _ := List.mem_singleton.mp hk
  constructor <;>
    norm_num [chChannel, ch0, Channel.reset, DmState.reset, CdFlight.reset, FdaFlight.reset, BitDecision.inRange]

theorem witness_LoopRangesAreKept :
    FiniteInv samplingState ∧ RealInv samplingState ∧ LoopInv samplingState ∧
      ∃ s' k', step samplingState = .next s' ∧ s'.channels[0]? = some k' := by
  refine ⟨samplingState_FiniteInv, samplingState_RealInv, ⟨fun _ => ?_, fun _ _ k hk => ?_⟩, samplingState_steps⟩
  · have hw : samplingState.cfg.w0 = .lin 0 (1 / 2) := test_derived_parameters.2.1
    have hp := Real.pi_gt_three
    rw [hw, Scalar.toReal_lin]
    norm_num
    constructor <;> linarith
  · obtain rfl : k = _ := List.mem_singleton.mp hk
    norm_num [LoopRanges, chChannel, ch0, Channel.reset, DmState.reset]
    exact Real.pi_pos

theorem witness_RealRangesAreKept :
    RealInv poppingState ∧ ∃ s' k', step poppingState = .next s' ∧ s'.channels[0]? = some k' := by
  refine ⟨?_, poppingState_steps⟩
  intro _ _ k hk
  obtain rfl : k = _ := List.mem_singleton.mp hk
  constructor <;>
    norm_num [ch0, Channel.reset, DmState.reset, CdFlight.reset, FdaFlight.reset, BitDecision.inRange, dec, abs_of_pos]

/-- The state before the 243rd character of a block meets both invariants. -/
theorem witness_NoStepTraps : FdInv fullState ∧ CdInv fullState := by
  refine ⟨fullState_FdInv, by decide, by decide, by decide, by decide, by decide, fun _ => rfl,
    lo_length_of_one rfl (by decide) rfl, ?_, ?_⟩
  all_goals
    intros
    rename_i k hk
    obtain rfl : k = _ := List.mem_singleton.mp hk
  · rfl
  refine ⟨fun _ => by decide +kernel, fun _ _ => rfl, by decide, fun _ => by decide, .inl rfl,
    fun _ => rfl, ?_, fun h => absurd rfl h, ?_, ?_⟩
  all_goals
    intro h
    cases h

end Sys2Proof.Tests
end

section
/-! The statements of spec/00_scope.md: one step runs the operation that is selected (R9, R12, R305), and the derived
parameters and default coefficients as real numbers (R5, R151, R152). -/

namespace Sys2Proof.Machine

/-! ### One step -/

/-- A turn of the sink. -/
theorem step_sink (s : State) (b : Bool) (ht : s.turn = .sink b) : step s = .next { s with sinkReady := b }.advance := by
  simp [step, ht]

/-- A turn of an agent other than the sink, for which nothing is selected. -/
theorem step_of_select_none (s : State) (ht : ∀ b, s.turn ≠ .sink b) (hs : select s.turn s = none) :
    step s = .next s.advance := by
  unfold step
  split
  · exact absurd ‹_› (ht _)
  · rw [hs]

/-- Settles O1: a selected operation runs by `step_of_select`, and the sink and an idle agent by their own lemmas; `finish`
and `advance` are the schedule moved on. -/
theorem stepRunsTheSelectedOperation : Obligations.StepRunsTheSelectedOperation := by
  intro s
  refine ⟨fun sel i hs hd => ?_, step_sink s, step_of_select_none s⟩
  rw [step_of_select s sel hs, hd]
  cases he : exec i s <;> simp only [he, finish, State.advance]

end Sys2Proof.Machine

namespace Sys2Proof.Params

section

variable {p : Params}

/-! ### Derived parameters over exact reals -/

/-- `FS_D` is the real quotient. -/
theorem toReal_fsD (h : p.num = .exact) : p.fsD.toReal = p.fs.toReal / p.decim := by
  simp [fsD, numerics_exact p h]

/-- `FS_D` is a real number where `FS` is one and `DECIM` is not 0. -/
theorem finite_fsD (h : p.num = .exact) (hfs : p.fs.finite = true) (hd : 1 ≤ p.decim) : p.fsD.finite = true := by
  have hne : Numerics.exact.ofNat p.decim ≠ Scalar.zero := by
    intro h0
    have hcast : (p.decim : ℝ) = 0 := by simpa using congrArg Scalar.toReal h0
    exact absurd (Nat.cast_eq_zero.mp hcast) (by omega)
  simp only [fsD, numerics_exact p h]
  exact Scalar.finite_div _ _ hfs rfl hne

/-- `W0` is the real quotient. -/
theorem toReal_w0 (h : p.num = .exact) : p.w0.toReal = 2 * Real.pi * p.f0.toReal / p.fsD.toReal := by
  simp [w0, numerics_exact p h]

/-- `FLEN` is one more than the natural floor of the real `FS_D/1200`. -/
theorem flen_eq_floor (h : p.num = .exact) : p.flen = ⌊p.fsD.toReal / 1200⌋₊ + 1 := by
  simp [flen, numerics_exact p h, Scalar.floor_exact, Int.floor_toNat]

/-! ### The coefficients -/

/-- A configured table is the coefficient vector. -/
theorem coefVector_of_some {C : List Scalar} (h : p.coefTable = some C) : p.coefVector = C := by
  simp [coefVector, h]

/-- Without a table the coefficient vector is the default formula. -/
theorem coefVector_of_none (h : p.coefTable = none) : p.coefVector = (List.range p.flen).map p.defaultCoef := by
  simp [coefVector, h]

/-- The angle of R152 as a real number. -/
theorem toReal_coefAngle (h : p.num = .exact) (a : Nat) :
    (p.coefAngle a).toReal = 2 * Real.pi * 600 * (a - ((p.flen : ℝ) - 1) / 2) / p.fsD.toReal := by
  have hlen : ((p.flen - 1 : Nat) : ℝ) = (p.flen : ℝ) - 1 := Nat.cast_pred (Nat.succ_pos _)
  simp [coefAngle, numerics_exact p h, hlen]

/-- The angle of R152 is a real number where `FS_D` is one and is not 0. -/
theorem finite_coefAngle (h : p.num = .exact) (hf : p.fsD.finite = true) (h0 : p.fsD.toReal ≠ 0) (a : Nat) :
    (p.coefAngle a).finite = true := by
  have hne : p.fsD ≠ Scalar.zero := fun hz => h0 (by simp [hz])
  have hhalf : (Scalar.div (Numerics.exact.ofNat (p.flen - 1)) (Numerics.exact.ofNat 2)).finite = true :=
    Scalar.finite_div _ _ rfl rfl (by decide)
  simp only [coefAngle, numerics_exact p h, Numerics.exact_div, Numerics.exact_mul, Numerics.exact_sub]
  exact Scalar.finite_div _ _ (by simp [hhalf, Numerics.coefFreq]) hf hne

/-- A default coefficient is the positive part of the cosine: the sign test of R152 is that of the reals, because the cosine
is a real number. -/
theorem toReal_defaultCoef (h : p.num = .exact) (a : Nat) (hf : (p.coefAngle a).finite = true) :
    (p.defaultCoef a).toReal = max 0 (Real.cos (p.coefAngle a).toReal) := by
  have hcos : (Scalar.cos (p.coefAngle a)).finite = true := by simp [hf]
  simp only [defaultCoef, numerics_exact p h, Numerics.exact_cos, Numerics.isNonneg_exact _ hcos, Scalar.toReal_cos]
  split_ifs with hpos
  · rw [Scalar.toReal_cos, max_eq_right hpos]
  · simp [max_eq_left (le_of_not_ge hpos)]

end

/-- Settles O48: the derived parameters are exact operation by operation, and a default coefficient is the positive part of
the cosine of an angle that is a real number, `FS_D` being finite and not 0. -/
theorem defaultCoefficientsAreTheHalfCosine : Obligations.DefaultCoefficientsAreTheHalfCosine := by
  intro p h
  have hD := toReal_fsD h
  refine ⟨hD, hD ▸ toReal_w0 h, hD ▸ flen_eq_floor h, fun _ => coefVector_of_some, fun hnone => ?_⟩
  rw [coefVector_of_none hnone]
  refine ⟨by simp, fun hfs h0 hdec a ha => ⟨p.defaultCoef a, by simp [ha], ?_⟩⟩
  have hD0 : p.fsD.toReal ≠ 0 := by
    rw [hD]
    exact div_ne_zero h0 (Nat.cast_ne_zero.mpr (by omega))
  have hangle := finite_coefAngle h (finite_fsD h hfs hdec) hD0 a
  rw [toReal_defaultCoef h a hangle, toReal_coefAngle h, hD]

end Sys2Proof.Params
end

section
/-! What the two channel agents change (spec/10_state.md R21): each operation of `CD[c]` as a sequence of elementary
changes of its channel around at most one `DM.SAMPLE`, each operation of `FDA[c]` as a change of the parts that agent
owns.  The invariants of spec/10_state.md rest on these two laws. -/

namespace Sys2Proof.Machine

/-- Putting back the channel that is there changes nothing. -/
theorem putChannel_of_channel {s : State} {c : Nat} {k : Channel} (h : s.channels[c]? = some k) : s.putChannel c k = s := by
  obtain ⟨hc, hk⟩ := List.getElem?_eq_some_iff.1 h
  simp [State.putChannel, ← hk, List.set_getElem_self]

/-! ### Agent `CD[c]` -/

/-- The Demodulator's part of `DM.SAMPLE`: the oscillator, the buffer and the clock move on by one sample (R153). -/
def Channel.advanced (p : Params) (k : Channel) : Channel := { k with dm := sampleStep p k.dm k.cd.y }

/-- One elementary change that `CD[c]` makes to its channel: a line of R131 to R133, R154 to R164 or R241, other than the
lines of R153 that move the oscillator on. -/
inductive CdChange (p : Params) (coef : List Scalar) (k : Channel) : Channel → Prop where
  | goto (pos : CdPos) : CdChange p coef k (k.cdGoto pos)
  | restart : CdChange p coef k { k with ch := { k.ch with n := 0 } }
  | mix (x w : Cplx) : CdChange p coef k (mixSample p.numerics k x w)
  | dump : CdChange p coef k (dumped p k)
  | filter : CdChange p coef k { k with cd := { k.cd with v := matchedFilter p.numerics p.flen coef k.dm } }
  | norm : CdChange p coef k
      { k with
        cd := { k.cd with m := p.numerics.cAbs k.cd.v, u := normalise p.numerics k.cd.v (p.numerics.cAbs k.cd.v) } }
  | level : CdChange p coef k { k with dm := { k.dm with lvl := levelNext p.numerics k.dm.lvl k.cd.m } }
  | demap (row : DemapRow) : CdChange p coef k (demapWith p.numerics row k)
  | decide : CdChange p coef k { k with cd := { k.cd with dec := ⟨k.cd.soft, k.dm.lvl⟩ } }
  | push : CdChange p coef k { k with bq := k.bq ++ [k.cd.dec] }
  | count : CdChange p coef k { k with dm := { k.dm with s := k.dm.s + 1 } }
  | pll : CdChange p coef k { k with dm := { k.dm with df := p.numerics.mul p.numerics.pllg k.cd.err } }

/-- A sequence of elementary changes. -/
abbrev CdChanges (p : Params) (coef : List Scalar) : Channel → Channel → Prop := Relation.ReflTransGen (CdChange p coef)

/-- What one operation of `CD[c]` makes of its channel: elementary changes, and between them at most one `DM.SAMPLE`, which
meets the Demodulator's state that the operation found. -/
inductive CdWork (p : Params) (coef : List Scalar) (k k' : Channel) : Prop where
  | plain (h : CdChanges p coef k k') : CdWork p coef k k'
  | sample (k₀ : Channel) (before : CdChanges p coef k k₀) (hdm : k₀.dm = k.dm)
      (after : CdChanges p coef (k₀.advanced p) k') : CdWork p coef k k'

/-- What every elementary change and `DM.SAMPLE` keep, an operation of `CD[c]` keeps. -/
theorem CdWork.keeps {p : Params} {coef : List Scalar} {P : Channel → Prop} {k k' : Channel}
    (h : CdWork p coef k k') (hchange : ∀ a b, CdChange p coef a b → P a → P b)
    (hadvance : ∀ a, P a → P (a.advanced p)) (hk : P k) : P k' := by
  have run : ∀ {a b}, CdChanges p coef a b → P a → P b := fun hab ha => by
    induction hab with
    | refl => exact ha
    | tail _ hstep ih => exact hchange _ _ hstep ih
  cases h with
  | plain h => exact run h hk
  | sample k₀ before _ after => exact run after (hadvance _ (run before hk))

/-- The symbol decision is a sequence of elementary changes (R154). -/
theorem changes_decided (p : Params) (coef : List Scalar) (k : Channel) : CdChanges p coef k (decided p coef k) :=
  (((((Relation.ReflTransGen.refl.tail .filter).tail .norm).tail .level).tail (.demap (tableRow p.demap k.dm.s))).tail
    .decide).tail (.goto .push)

/-- So is its push, or the hold, with the lines after it (R154, R164, R241). -/
theorem changes_pushed (p : Params) (coef : List Scalar) (k : Channel) : CdChanges p coef k (pushed p k) := by
  unfold pushed
  split_ifs
  · exact (((Relation.ReflTransGen.refl.tail .push).tail .count).tail .pll).tail (.goto (loopPos p k.ch.n))
  · exact .refl

/-- What follows the advance of `DM.SAMPLE` is a sequence of elementary changes (R153, R154). -/
theorem changes_sampled (p : Params) (coef : List Scalar) (k : Channel) :
    CdChanges p coef (k.advanced p) (sampled p coef k) := by
  simp only [sampled]
  split_ifs
  · exact (changes_decided p coef (k.advanced p)).trans (changes_pushed p coef _)
  · exact .single (.goto _)

/-- `t` is `s` after some operation of `CD[c]`: one channel is worked on and the trace may grow, nothing else changes. -/
def CdRan (c : Nat) (s t : State) : Prop :=
  ∃ k k' ev, s.channels[c]? = some k ∧ CdWork s.cfg s.coef k k' ∧ t = { s.putChannel c k' with events := ev }

/-- An operation of `CD[c]` that is held. -/
theorem CdRan.held {c : Nat} {s : State} {k : Channel} (hk : s.channels[c]? = some k) : CdRan c s s :=
  ⟨k, k, s.events, hk, .plain .refl, by rw [putChannel_of_channel hk]⟩

/-- An operation that makes elementary changes alone. -/
theorem CdRan.of_changes {c : Nat} {s : State} {k k' : Channel} (hk : s.channels[c]? = some k)
    (h : CdChanges s.cfg s.coef k k') : CdRan c s (s.putChannel c k') := ⟨k, k', s.events, hk, .plain h, rfl⟩

/-- An operation that ends with `DM.SAMPLE`. -/
theorem CdRan.of_sampled {c : Nat} {s : State} {k k₀ : Channel} {ev : List Event} (hk : s.channels[c]? = some k)
    (h : CdChanges s.cfg s.coef k k₀) (hdm : k₀.dm = k.dm) :
    CdRan c s { s.putChannel c (sampled s.cfg s.coef k₀) with events := ev } :=
  ⟨k, _, ev, hk, .sample k₀ h hdm (changes_sampled s.cfg s.coef k₀), rfl⟩

/-- `CH.BLOCK`. -/
theorem execChBlock_ran {c : Nat} {s t : State} (h : execChBlock c s = .next t) : CdRan c s t := by
  obtain ⟨k, hk, h⟩ := onChannel_next c s t _ h
  split_ifs at h <;> cases h
  · exact .held hk
  · exact .of_changes hk ((Relation.ReflTransGen.single .restart).tail (.goto _))

/-- `CH.SAMPLE`. -/
theorem execChSample_ran {c : Nat} {s t : State} (h : execChSample c s = .next t) : CdRan c s t := by
  obtain ⟨k, hk, -⟩ := onChannel_next c s t _ h
  obtain ⟨x, w, -, -, -, ⟨-, rfl⟩ | ⟨-, ev, rfl⟩⟩ := execChSample_next c s t k hk h
  · exact .of_changes hk ((Relation.ReflTransGen.single (.mix x w)).tail (.goto _))
  · exact .of_sampled hk ((Relation.ReflTransGen.single (.mix x w)).tail .dump) rfl

/-- `CH.DUMP`. -/
theorem execChDump_ran {c : Nat} {s t : State} (h : execChDump c s = .next t) : CdRan c s t := by
  obtain ⟨k, hk, -⟩ := onChannel_next c s t _ h
  obtain ⟨-, ev, rfl⟩ := execChDump_next c s t k hk h
  exact .of_sampled hk (.single .dump) rfl

/-- `DM.SAMPLE`. -/
theorem execDmSample_ran {c : Nat} {s t : State} (h : execDmSample c s = .next t) : CdRan c s t := by
  obtain ⟨k, hk, -⟩ := onChannel_next c s t _ h
  obtain ⟨-, ev, rfl⟩ := execDmSample_next c s t k hk h
  exact .of_sampled hk .refl rfl

/-- `DM.SYMBOL`: resumed at its push, resumed after it, or whole. -/
theorem execDmSymbol_ran {c : Nat} {s t : State} (h : execDmSymbol c s = .next t) : CdRan c s t := by
  obtain ⟨k, hk, -⟩ := onChannel_next c s t _ h
  by_cases hp : k.cd.pos = .push
  · rw [execDmSymbol_held c s k hk hp] at h
    cases h
    exact .of_changes hk (changes_pushed s.cfg s.coef k)
  by_cases ht : k.cd.pos = .tail
  · have htail : execDmSymbol c s = symbolTail c s := by simp [execDmSymbol, onChannel_some c s _ k hk, ht]
    rw [htail, symbolTail_tail c s k hk ht] at h
    cases h
    exact .of_changes hk (((Relation.ReflTransGen.single .count).tail .pll).tail (.goto _))
  · rw [execDmSymbol_some c s k hk hp ht] at h
    cases h
    exact ⟨k, _, _, hk, .plain ((changes_decided s.cfg s.coef k).trans (changes_pushed s.cfg s.coef _)), rfl⟩

/-- `BQ.PUSH`. -/
theorem execBqPush_ran {c : Nat} {s t : State} (h : execBqPush c s = .next t) : CdRan c s t := by
  obtain ⟨k, hk, -⟩ := onChannel_next c s t _ h
  rw [execBqPush_some c s k hk] at h
  split_ifs at h <;> cases h
  · exact .of_changes hk ((Relation.ReflTransGen.single .push).tail (.goto .tail))
  · exact .held hk

/-- `DM.EMIT`. -/
theorem execDmEmit_ran {c : Nat} {s t : State} (h : execDmEmit c s = .next t) : CdRan c s t := by
  obtain ⟨k, hk, h⟩ := onChannel_next c s t _ h
  have emit : CdChanges s.cfg s.coef k { k with cd := { k.cd with dec := ⟨k.cd.soft, k.dm.lvl⟩, pos := .push } } :=
    (Relation.ReflTransGen.single .decide).tail (.goto .push)
  rw [execBqPush_some c _ _ (putChannel_self s c k _ hk)] at h
  split_ifs at h <;> cases h
  · rw [putChannel_putChannel]
    exact .of_changes hk ((emit.tail .push).tail (.goto .tail))
  · exact .of_changes hk emit

/-- An operation that replaces its channel by elementary changes of it. -/
theorem updateChannel_ran {c : Nat} {s t : State} {f : Channel → Channel} (hf : ∀ k, CdChanges s.cfg s.coef k (f k))
    (h : updateChannel c s f = .next t) : CdRan c s t := by
  obtain ⟨k, hk, rfl⟩ := updateChannel_next c s t f h
  exact .of_changes hk (hf k)

/-- What an operation of `CD[c]` can do (R21, R62, R278). -/
theorem exec_ofCd {i : Instr} {c : Nat} {s t : State} (hi : i.ofCd = some c) (h : exec i s = .next t) : CdRan c s t := by
  cases i <;> simp only [Instr.ofCd, Option.some.injEq, reduceCtorEq] at hi <;> subst hi
  case chBlock => exact execChBlock_ran h
  case chSample => exact execChSample_ran h
  case chDump => exact execChDump_ran h
  case dmSample => exact execDmSample_ran h
  case dmSymbol => exact execDmSymbol_ran h
  case dmMf =>
    refine updateChannel_ran (fun k => ?_) h
    exact (Relation.ReflTransGen.single .filter).tail (.goto .norm)
  case dmNorm =>
    obtain ⟨k, hk, h⟩ := onChannel_next _ s t _ h
    cases h
    exact ⟨k, _, _, hk, .plain ((Relation.ReflTransGen.single .norm).tail (.goto .level)), rfl⟩
  case dmLevel => exact updateChannel_ran (fun k => (Relation.ReflTransGen.single .level).tail (.goto .demap)) h
  case dmDemap0 => exact updateChannel_ran (fun k => .single (.demap _)) h
  case dmDemap1 => exact updateChannel_ran (fun k => .single (.demap _)) h
  case dmDemap2 => exact updateChannel_ran (fun k => .single (.demap _)) h
  case dmDemap3 => exact updateChannel_ran (fun k => .single (.demap _)) h
  case dmEmit => exact execDmEmit_ran h
  case dmPll => exact updateChannel_ran (fun k => (Relation.ReflTransGen.single .pll).tail (.goto _)) h
  case bqPush => exact execBqPush_ran h

/-- The part of a channel that `CD[c]` leaves alone, and the order of its queue (R21). -/
structure CdOwned (k k' : Channel) : Prop where
  fd : k'.fd = k.fd
  fda : k'.fda = k.fda
  lo : k'.lo = k.lo
  bq : k.bq <+: k'.bq

/-- An operation of `CD[c]` writes its own part and the tail of `BQ[c]`. -/
theorem CdWork.owned {p : Params} {coef : List Scalar} {k k' : Channel} (h : CdWork p coef k k') : CdOwned k k' := by
  refine h.keeps (P := CdOwned k) ?_ (fun a ha => ⟨ha.fd, ha.fda, ha.lo, ha.bq⟩) ⟨rfl, rfl, rfl, List.prefix_rfl⟩
  rintro a b hab ⟨hfd, hfda, hlo, hbq⟩
  cases hab
  case push => exact ⟨hfd, hfda, hlo, hbq.trans (List.prefix_append _ _)⟩
  all_goals exact ⟨hfd, hfda, hlo, hbq⟩

/-! ### Agent `FDA[c]` -/

/-- The part of a channel that `FDA[c]` leaves alone, the order of its queue, and where the decision and the level in its
flight come from: the ones it had, or a decision that was queued (R21, R181, R242). -/
structure FdaOwned (k k' : Channel) : Prop where
  ch : k'.ch = k.ch
  dm : k'.dm = k.dm
  lo : k'.lo = k.lo
  cd : k'.cd = k.cd
  bq : k'.bq <:+ k.bq
  dec : k'.fda.dec ∈ k.fda.dec :: k.bq
  lvl : k'.fda.lvl = k.fda.lvl ∨ ∃ d ∈ k.fda.dec :: k.bq, k'.fda.lvl = d.lvl

/-- A change of `FD` and of the flight that leaves the decision and the level in flight. -/
theorem FdaOwned.of_eq {k k' : Channel}
    (h : k' = { k with fd := k'.fd, fda := { k'.fda with dec := k.fda.dec, lvl := k.fda.lvl } }) : FdaOwned k k' := by
  rw [h]
  exact ⟨rfl, rfl, rfl, rfl, List.suffix_rfl, List.mem_cons_self, .inl rfl⟩

theorem FdaOwned.trans {k₁ k₂ k₃ : Channel} (h : FdaOwned k₁ k₂) (g : FdaOwned k₂ k₃) : FdaOwned k₁ k₃ := by
  have hsub : ∀ d ∈ k₂.fda.dec :: k₂.bq, d ∈ k₁.fda.dec :: k₁.bq := fun d hd => by
    rcases List.mem_cons.1 hd with rfl | hd
    · exact h.dec
    · exact List.mem_cons_of_mem _ (h.bq.subset hd)
  refine ⟨g.ch.trans h.ch, g.dm.trans h.dm, g.lo.trans h.lo, g.cd.trans h.cd, g.bq.trans h.bq, hsub _ g.dec, ?_⟩
  rcases g.lvl with e | ⟨d, hd, e⟩
  · rw [e]
    exact h.lvl
  · exact .inr ⟨d, hsub d hd, e⟩

/-- `t` is `s` after some operation of `FDA[c]`: one channel, the trace, the tail of `OQ` and the draws may change. -/
def FdaRan (c : Nat) (s t : State) : Prop :=
  ∃ k k' ev oq n, s.channels[c]? = some k ∧ FdaOwned k k' ∧ s.oq <+: oq ∧
    t = { s.putChannel c k' with events := ev, oq := oq, draws := n }

theorem FdaRan.trans {c : Nat} {s t u : State} (h : FdaRan c s t) (g : FdaRan c t u) : FdaRan c s u := by
  obtain ⟨k, k₁, ev, oq, n, hk, hown, hoq, rfl⟩ := h
  obtain ⟨k', k₂, ev', oq', n', hk', hown', hoq', rfl⟩ := g
  obtain rfl : k₁ = k' := Option.some.inj ((putChannel_self s c k k₁ hk).symm.trans hk')
  exact ⟨k, k₂, ev', oq', n', hk, hown.trans hown', hoq.trans hoq', by simp [State.putChannel, List.set_set]⟩

/-- An operation that replaces its channel. -/
theorem FdaRan.put {c : Nat} {s : State} {k k' : Channel} (hk : s.channels[c]? = some k) (h : FdaOwned k k') :
    FdaRan c s (s.putChannel c k') := ⟨k, k', s.events, s.oq, s.draws, hk, h, List.prefix_rfl, rfl⟩

/-- An operation of `FDA[c]` that is held. -/
theorem FdaRan.held {c : Nat} {s : State} {k : Channel} (hk : s.channels[c]? = some k) : FdaRan c s s := by
  have h := FdaRan.put hk (.of_eq rfl : FdaOwned k k)
  rwa [putChannel_of_channel hk] at h

/-- An operation that replaces its channel, whatever it adds to the trace. -/
theorem updateChannel_fdaRan {c : Nat} {s t : State} {ev : List Event} {f : Channel → Channel}
    (hf : ∀ k, FdaOwned k (f k)) (h : updateChannel c { s with events := ev } f = .next t) : FdaRan c s t := by
  obtain ⟨k, hk, rfl⟩ := updateChannel_next c _ t f h
  exact ⟨k, f k, ev, s.oq, s.draws, hk, hf k, List.prefix_rfl, rfl⟩

/-- `FD.SOH.HIT`. -/
theorem execFdSohHit_ran {c : Nat} {s t : State} (h : execFdSohHit c s = .next t) : FdaRan c s t := by
  obtain ⟨k, hk, h⟩ := onChannel_next c s t _ h
  cases h
  exact ⟨k, _, s.events, s.oq, s.draws + 1, hk, .of_eq rfl, List.prefix_rfl, rfl⟩

/-- The stores of the text operations. -/
theorem storeCharacter_ran {c : Nat} {s t : State} {ch : Byte} {st : Stage} (h : storeCharacter c s ch st = .next t) :
    FdaRan c s t := by
  obtain ⟨k, hk, -, rfl⟩ := storeCharacter_next c s t ch st h
  exact .put hk (.of_eq rfl)

/-- A parser step. -/
theorem parserStep_ran {c : Nat} {s t : State} {f : AcarsBlock → AcarsBlock} {pos : FdaPos}
    (h : updateChannel c s (parserStep f pos) = .next t) : FdaRan c s t :=
  updateChannel_fdaRan (ev := s.events) (fun _ => .of_eq rfl) h

/-- `BP.PARSE`: the lengths that parse, and its closed form. -/
theorem execBpParse_ran {c : Nat} {s t : State} (h : execBpParse c s = .next t) : FdaRan c s t := by
  obtain ⟨k, hk, hp⟩ := onChannel_next c s t _ h
  split_ifs at hp with hl
  rw [execBpParse_some c s k hk hl] at h
  cases h
  exact ⟨k, _, _, s.oq, s.draws, hk, .of_eq rfl, List.prefix_rfl, rfl⟩

/-- `FA.BUILD`. -/
theorem execFaBuild_ran {c : Nat} {s t : State} (h : execFaBuild c s = .next t) : FdaRan c s t :=
  updateChannel_fdaRan (ev := s.events) (fun _ => .of_eq rfl) h

/-- `OQ.PUSH`. -/
theorem execOqPush_ran {c : Nat} {s t : State} (h : execOqPush c s = .next t) : FdaRan c s t := by
  obtain ⟨k, hk, h⟩ := onChannel_next c s t _ h
  split at h <;> cases h
  · obtain ⟨-, rfl⟩ := (push_eq_some _ _ _ _).1 ‹_›
    exact ⟨k, _, s.events, _, s.draws, hk, .of_eq rfl, List.prefix_append _ _, rfl⟩
  · exact .held hk

/-- The last line of `FD.DONE`. -/
theorem frameTail_ran {c : Nat} {s t : State} (h : frameTail c s = .next t) : FdaRan c s t := by
  obtain ⟨k, hk, h⟩ := onChannel_next c s t _ h
  split_ifs at h <;> cases h
  · exact .put hk (.of_eq rfl)
  · exact .held hk

/-- `FD.DONE`: resumed at its push, resumed after it, or whole. -/
theorem execFdDone_ran {c : Nat} {s t : State} (h : execFdDone c s = .next t) : FdaRan c s t := by
  have push : ∀ {s t : State}, chain (execOqPush c s) (frameTail c) = .next t → FdaRan c s t := fun h => by
    obtain ⟨u, hu, ht⟩ := chain_next _ _ _ h
    exact (execOqPush_ran hu).trans (frameTail_ran ht)
  obtain ⟨k, hk, h⟩ := onChannel_next c s t _ h
  split at h
  · exact push h
  · exact frameTail_ran h
  · obtain ⟨s₁, h₁, h⟩ := chain_next _ _ _ h
    obtain ⟨s₂, h₂, h⟩ := chain_next _ _ _ h
    exact ((execBpParse_ran h₁).trans (execFaBuild_ran h₂)).trans (push h)

/-- `FD.CRC2`. -/
theorem execFdCrc2_ran {c : Nat} {r : Byte} {s t : State} (h : execFdCrc2 c r s = .next t) : FdaRan c s t := by
  obtain ⟨k, hk, h⟩ := onChannel_next c s t _ h
  exact (FdaRan.put hk (.of_eq rfl)).trans (execFdDone_ran h)

/-- A completed byte selects an operation of its own agent, and neither of the two that lead to it (R103). -/
theorem ofFda_of_decodeByte {cc : ControlChars} {c : Nat} {st : Stage} {r : Byte} {len : Nat} {i : Instr}
    (h : decodeByte cc c st r len = .ok i) : i.ofFda = some c ∧ i ≠ .fdBit c ∧ i ≠ .bqPop c := by
  unfold decodeByte at h
  cases st <;> simp only [Except.ok.injEq, reduceCtorEq] at h
  case txt => split_ifs at h <;> cases h <;> simp [Instr.ofFda, Instr.ofCd, Instr.channel?]
  case crc1 | crc2 => subst h; simp [Instr.ofFda, Instr.ofCd, Instr.channel?]
  all_goals split_ifs at h <;> subst h <;> simp [Instr.ofFda, Instr.ofCd, Instr.channel?]

/-- The operations of `FDA[c]` below `BQ.POP` and `FD.BIT`. -/
theorem exec_ofFda_below {i : Instr} {c : Nat} {s t : State} (hi : i.ofFda = some c) (hbit : i ≠ .fdBit c)
    (hpop : i ≠ .bqPop c) (h : exec i s = .next t) : FdaRan c s t := by
  cases i <;> simp only [Instr.ofFda, Instr.ofCd, Instr.channel?, Option.isSome_some, Option.isSome_none, Bool.false_eq_true,
    if_true, if_false, Option.some.injEq, reduceCtorEq] at hi <;>
    subst hi
  case fdBit => exact absurd rfl hbit
  case bqPop => exact absurd rfl hpop
  case fdSohHit => exact execFdSohHit_ran h
  case fdTxtEndEtx => exact storeCharacter_ran h
  case fdTxtEndEtb => exact storeCharacter_ran h
  case fdTxtData => exact storeCharacter_ran h
  case fdCrc2 => exact execFdCrc2_ran h
  case fdDone => exact execFdDone_ran h
  case bpParse => exact execBpParse_ran h
  case oqPush => exact execOqPush_ran h
  case fdSyn2Miss => exact updateChannel_fdaRan (fun _ => .of_eq rfl) h
  case fdSohMiss => exact updateChannel_fdaRan (fun _ => .of_eq rfl) h
  case fdTxtFull => exact updateChannel_fdaRan (fun _ => .of_eq rfl) h
  all_goals exact updateChannel_fdaRan (ev := s.events) (fun _ => .of_eq rfl) h

/-- `FD.BIT`: the level in flight becomes that of the decision in flight, then the selected stage operation may run. -/
theorem execFdBit_ran {c : Nat} {s t : State} (h : execFdBit c s = .next t) : FdaRan c s t := by
  obtain ⟨k, hk, -⟩ := onChannel_next c s t _ h
  have shift : ∀ pos, FdaOwned k ((shifted s.cfg.numerics k).fdaGoto pos) := fun pos =>
    ⟨rfl, rfl, rfl, rfl, List.suffix_rfl, List.mem_cons_self, .inr ⟨_, List.mem_cons_self, rfl⟩⟩
  rw [execFdBit_some c s k hk] at h
  split_ifs at h
  · split at h
    · obtain ⟨hi, hbit, hpop⟩ := ofFda_of_decodeByte ‹_›
      exact (FdaRan.put hk (shift .stage)).trans (exec_ofFda_below hi hbit hpop h)
    · cases h
  · cases h
    exact .put hk (shift .pop)

/-- `BQ.POP`: the oldest decision goes into flight, then `FD.BIT` runs. -/
theorem execBqPop_ran {c : Nat} {s t : State} (h : execBqPop c s = .next t) : FdaRan c s t := by
  obtain ⟨k, hk, hp⟩ := onChannel_next c s t _ h
  cases hq : k.bq with
  | nil =>
    simp only [hq, pop, hold, Host.Outcome.next.injEq] at hp
    exact hp ▸ .held hk
  | cons d q =>
    rw [execBqPop_some c s k d q hk hq] at h
    have hsuf : q <:+ k.bq := hq ▸ List.suffix_cons d q
    have hmem : d ∈ k.bq := hq ▸ List.mem_cons_self
    have hown : FdaOwned k { k with bq := q, fda := { k.fda with dec := d, pos := .bit } } :=
      ⟨rfl, rfl, rfl, rfl, hsuf, List.mem_cons_of_mem _ hmem, .inl rfl⟩
    exact (FdaRan.put hk hown).trans (execFdBit_ran h)

/-- What an operation of `FDA[c]` can do (R21, R278). -/
theorem exec_ofFda {i : Instr} {c : Nat} {s t : State} (hi : i.ofFda = some c) (h : exec i s = .next t) :
    FdaRan c s t := by
  by_cases hbit : i = .fdBit c
  · subst hbit
    exact execFdBit_ran h
  by_cases hpop : i = .bqPop c
  · subst hpop
    exact execBqPop_ran h
  · exact exec_ofFda_below hi hbit hpop h

/-! ### Ownership -/

/-- A channel of which only parts were replaced, from the equality of the others. -/
theorem CdOwned.eq_with {k k' : Channel} (h : CdOwned k k') :
    k' = { k with ch := k'.ch, dm := k'.dm, cd := k'.cd, bq := k'.bq } := by
  rw [← h.fd, ← h.fda, ← h.lo]

theorem FdaOwned.eq_with {k k' : Channel} (h : FdaOwned k k') :
    k' = { k with fd := k'.fd, fda := k'.fda, bq := k'.bq } := by
  rw [← h.ch, ← h.dm, ← h.lo, ← h.cd]

/-- Settles O49: from what each agent's operations can do, `CdRan` and `FdaRan`. -/
theorem agentsOwnTheirParts : Obligations.AgentsOwnTheirParts := by
  intro i c s t h
  refine ⟨fun hi => ?_, fun hi => ?_⟩
  · obtain ⟨k, k', ev, hk, hwork, rfl⟩ := exec_ofCd hi h
    exact ⟨rfl, fun d hd => putChannel_ne s c d k' hd, k, k', hk, putChannel_self s c k k' hk, hwork.owned.eq_with,
      hwork.owned.bq⟩
  · obtain ⟨k, k', ev, oq, n, hk, hown, hoq, rfl⟩ := exec_ofFda hi h
    exact ⟨rfl, fun d hd => putChannel_ne s c d k' hd, hoq, k, k', hk, putChannel_self s c k k' hk, hown.eq_with,
      hown.bq⟩

end Sys2Proof.Machine
end

section
/-! What a step does, said once for the invariants: an operation of one of the two channel agents, or one of the five
operations of the other agents with its conditions and its state change (spec/44_queues_dispatch.md R245 to R247;
spec/70_reset_and_hazards.md R290 to R293). -/

namespace Sys2Proof.Machine

/-- What an operation that a step runs does to the state. -/
inductive Effect (s : State) : Instr → State → Prop where
  /-- The operation is held. -/
  | held (i : Instr) : Effect s i s
  /-- An operation of `CD[c]` (R21). -/
  | cd (i : Instr) (c : Nat) (t : State) (hi : i.ofCd = some c) (hr : Runs s i) (he : exec i s = .next t) : Effect s i t
  /-- An operation of `FDA[c]` (R21). -/
  | fda (i : Instr) (c : Nat) (t : State) (hi : i.ofFda = some c) (hr : Runs s i) (he : exec i s = .next t) :
      Effect s i t
  /-- `DISP.DELIVER` emits a frame (R245). -/
  | deliver (f : AcarsFrame) (q : List AcarsFrame) (hq : s.oq = f :: q) :
      Effect s .dispDeliver { s with oq := q, frameOut := s.frameOut ++ [f] }
  /-- `FEED.BLOCK` delivers a block to every channel (R246). -/
  | feedBlock (b : Block) (hp : s.phase ≠ .configured) (he : s.eos = false) (hidle : ∀ k ∈ s.channels, k.cd.pos = .idle)
      (hb : b.length = s.cfg.blockLen) :
      Effect s (.feedBlock b)
        { s with
          blk := b, channels := s.channels.map (fun k => k.cdGoto .block), sampleIn := s.sampleIn.tail
          phase := .running }
  /-- `FEED.EOS` ends the run (R247). -/
  | feedEos (he : s.eos = false) (hidle : ∀ k ∈ s.channels, k.cd.pos = .idle) :
      Effect s .feedEos ({ s with eos := true, eosIn := false }.raise .feedEos)
  /-- `SYS.RESET` (R290). -/
  | sysReset :
      Effect s .sysReset
        { s with
          channels := (s.channels.take s.cfg.nchan).mapIdx (fun i k => k.afterReset s.cfg (s.draws + i))
          oq := [], eos := false, resetIn := false, phase := .ready, draws := s.draws + s.channels.length }
  /-- `SYS.CONFIG` takes an admitted record (R292). -/
  | sysConfig (p : Params) (ha : p.admitted = true) (hp : ¬(s.phase = .running ∧ s.eos = false)) :
      Effect s (.sysConfig p)
        { s with
          cfg := p, coef := p.coefStored, channels := configureChannels p s.channels, configIn := none
          phase := .configured }

/-- What `DISP.DELIVER` can do. -/
theorem execDispDeliver_effect {s t : State} (h : execDispDeliver s = .next t) : Effect s .dispDeliver t := by
  unfold execDispDeliver at h
  split at h
  · split_ifs at h <;> cases h
    · exact .deliver _ _ ((pop_eq_some _ _ _).1 ‹_›)
    · exact .held _
  · cases h
    exact .held _

/-- The guard of the two operations of the feed (R246, R247). -/
theorem feedFree_of_guard {s : State} (h : ¬(s.eos || !s.feedFree) = true) :
    s.eos = false ∧ ∀ k ∈ s.channels, k.cd.pos = .idle := by
  simp only [Bool.or_eq_true, Bool.not_eq_true', not_or, Bool.not_eq_true, Bool.not_eq_false] at h
  exact ⟨h.1, (feedFree_iff s).1 h.2⟩

/-- What `FEED.BLOCK` can do. -/
theorem execFeedBlock_effect {b : Block} {s t : State} (hp : s.phase ≠ .configured) (h : execFeedBlock b s = .next t) :
    Effect s (.feedBlock b) t := by
  unfold execFeedBlock at h
  split_ifs at h with hg hb <;> cases h
  · exact .held _
  · obtain ⟨he, hidle⟩ := feedFree_of_guard hg
    exact .feedBlock b hp he hidle (not_not.1 hb)

/-- What `FEED.EOS` can do. -/
theorem execFeedEos_effect {s t : State} (h : execFeedEos s = .next t) : Effect s .feedEos t := by
  unfold execFeedEos at h
  split_ifs at h with hg <;> cases h
  · exact .held _
  · obtain ⟨he, hidle⟩ := feedFree_of_guard hg
    exact .feedEos he hidle

/-- What `SYS.CONFIG` can do. -/
theorem execSysConfig_effect {p : Params} {s t : State} (hp : ¬(s.phase = .running ∧ s.eos = false))
    (h : execSysConfig p s = .next t) : Effect s (.sysConfig p) t := by
  unfold execSysConfig at h
  split_ifs at h with ha <;> cases h
  exact .sysConfig p ha hp

/-- Every operation belongs to a channel agent, or is one of the five that name no channel (R9). -/
theorem channel_eq_none_of_unowned {i : Instr} (hcd : i.ofCd = none) (hfda : i.ofFda = none) : i.channel? = none := by
  simpa [Instr.ofFda, hcd] using hfda

/-- What an operation that a step runs can do. -/
theorem effect_of_exec {i : Instr} {s t : State} (hr : Runs s i) (he : exec i s = .next t) : Effect s i t := by
  cases hcd : i.ofCd with
  | some c => exact .cd i c t hcd hr he
  | none =>
    cases hfda : i.ofFda with
    | some c => exact .fda i c t hfda hr he
    | none =>
      have hnone := channel_eq_none_of_unowned hcd hfda
      cases hr <;> simp only [Instr.channel?, reduceCtorEq] at hnone
      case dispDeliver => exact execDispDeliver_effect he
      case feedBlock hp => exact execFeedBlock_effect hp he
      case feedEos => exact execFeedEos_effect he
      case sysReset => cases he; exact .sysReset
      case sysConfig hp => exact execSysConfig_effect hp he

/-- A property that does not read the schedule or the sink is kept by a step where every effect of an operation keeps it. -/
theorem step_keeps {P : State → Prop} {s s' : State}
    (hsched : ∀ (t : State) b l n, P t → P { t with sinkReady := b, sched := l, tick := n })
    (heffect : ∀ i t, Effect s i t → P t) (h : step s = .next s') : P s' := by
  rcases step_next s s' h with ⟨b, -, rfl⟩ | ⟨-, rfl⟩ | ⟨i, t, hr, he, rfl⟩
  · exact hsched s b s.sched.tail (s.tick + 1) (heffect .feedEos s (.held _))
  · exact hsched s s.sinkReady s.sched.tail (s.tick + 1) (heffect .feedEos s (.held _))
  · exact hsched t t.sinkReady t.sched.tail (t.tick + 1) (heffect i t (effect_of_exec hr he))

end Sys2Proof.Machine
end

section
/-! The Frame Decoder's invariant (spec/10_state.md R32 to R36; spec/42_frame_decoder.md R195 to R198). -/

namespace Sys2Proof.Machine

/-- The clauses of `FdChannelInv` that do not read the position of `FDA[c]`: they hold between the lines of an operation
too. -/
structure FdStoreInv (fd : FdState) : Prop where
  buf_wf : fd.buf.wf
  buf_range : ∀ x ∈ fd.buf, x.1 < 243 ∧ x.2.toNat < 0x80
  len_le : fd.len ≤ 243
  room : fd.stage = .txt → fd.len < 243
  ended : fd.stage = .crc1 ∨ fd.stage = .crc2 ∨ fd.stage = .done → 1 ≤ fd.len

theorem FdChannelInv.store {k : Channel} (h : FdChannelInv k) : FdStoreInv k.fd :=
  ⟨h.buf_wf, h.buf_range, h.len_le, h.room, h.ended⟩

/-- A channel between operations. -/
theorem FdChannelInv.of_pop {k : Channel} (h : FdStoreInv k.fd) (hp : k.fda.pos = .pop)
    (hbits : 1 ≤ k.fd.nb ∧ k.fd.nb ≤ 8) (hstage : k.fd.stage ≠ .done) : FdChannelInv k :=
  ⟨h.buf_wf, h.buf_range, h.len_le, .inl hp, fun _ => ⟨hbits.1, hbits.2, hstage⟩, fun h => by simp [hp] at h, h.room,
    h.ended⟩

/-- A channel held at `OQ.PUSH`. -/
theorem FdChannelInv.of_push {k : Channel} (h : FdStoreInv k.fd) (hp : k.fda.pos = .push) (hstage : k.fd.stage = .done) :
    FdChannelInv k :=
  ⟨h.buf_wf, h.buf_range, h.len_le, .inr hp, fun h => by simp [hp] at h, fun _ => hstage, h.room, h.ended⟩

/-- The invariant reads `FD` and the flight of `FDA[c]` alone. -/
theorem FdChannelInv.congr {k k' : Channel} (h : FdChannelInv k) (hfd : k'.fd = k.fd) (hfda : k'.fda = k.fda) :
    FdChannelInv k' := by
  have hpos : k'.fda.pos = k.fda.pos := by rw [hfda]
  rcases h.position with hp | hp
  · exact .of_pop (hfd ▸ h.store) (hpos.trans hp) (by rw [hfd]; exact ⟨(h.bits hp).1, (h.bits hp).2.1⟩)
      (by rw [hfd]; exact (h.bits hp).2.2)
  · exact .of_push (hfd ▸ h.store) (hpos.trans hp) (by rw [hfd]; exact h.held hp)

/-! ### The elements of `FD` -/

/-- A seeking stage asks nothing of the length. -/
theorem FdStoreInv.seek {fd fd' : FdState} (h : FdStoreInv fd) (hbuf : fd'.buf = fd.buf) (hlen : fd'.len ≤ 243)
    (hstage : fd'.stage = .syn1 ∨ fd'.stage = .syn2 ∨ fd'.stage = .soh) : FdStoreInv fd' := by
  refine ⟨hbuf ▸ h.buf_wf, hbuf ▸ h.buf_range, hlen, fun hs => ?_, fun hs => ?_⟩
  · simp [hs] at hstage
  · rcases hs with hs | hs | hs <;> simp [hs] at hstage

/-- A character with its parity bit masked off has bit 7 clear (R96). -/
theorem maskParity_lt (r : Byte) : (maskParity r).toNat < 0x80 := by
  rw [maskParity, BitVec.toNat_and]
  exact Nat.lt_of_le_of_lt Nat.and_le_right (by decide)

/-- A masked character stored inside the buffer, with a length that counts it. -/
theorem FdStoreInv.write {fd fd' : FdState} {a : Nat} {r : Byte} (h : FdStoreInv fd) (ha : a < 243)
    (hbuf : fd'.buf = fd.buf.write a (maskParity r)) (hone : 1 ≤ fd'.len) (hlen : fd'.len ≤ 243)
    (hroom : fd'.stage = .txt → fd'.len < 243) : FdStoreInv fd' := by
  refine ⟨hbuf ▸ Memory.wf_write _ _ _ h.buf_wf, fun x hx => ?_, hlen, hroom, fun _ => hone⟩
  rw [hbuf] at hx
  rcases Memory.mem_write _ _ _ _ hx with hx | ⟨rfl, -⟩
  · exact h.buf_range x hx
  · exact ⟨ha, maskParity_lt r⟩

/-! ### The stage operations -/

/-- `FD.RESYNC` and back to `BQ.POP` (R194). -/
theorem stageMiss_inv {p : Params} {k : Channel} (h : FdStoreInv k.fd) (hseek : 1 ≤ p.seekReload ∧ p.seekReload ≤ 8) :
    FdChannelInv (stageMiss p k) :=
  .of_pop (h.seek (by rfl) h.len_le (.inl rfl)) rfl hseek (by simp [stageMiss])

/-- A hit while seeking (R182, R184). -/
theorem stageTransfer_inv {t : Stage} {k : Channel} (h : FdStoreInv k.fd) (ht : t = .syn2 ∨ t = .soh) :
    FdChannelInv (stageTransfer t k) := by
  refine .of_pop (h.seek (by rfl) h.len_le (.inr ht)) rfl ⟨by simp [stageTransfer], by simp [stageTransfer]⟩ ?_
  rcases ht with rfl | rfl <;> simp [stageTransfer]

/-- The channel that an operation of `FDA[c]` leaves meets the invariant; no other channel changes. -/
def FdKept (c : Nat) (s t : State) : Prop := ∃ k', FdChannelInv k' ∧ t.channels = s.channels.set c k'

/-- An operation that replaces its channel, whatever it adds to the trace. -/
theorem updateChannel_fdKept {c : Nat} {s t : State} {k : Channel} {ev : List Event} {f : Channel → Channel}
    (hk : s.channels[c]? = some k) (hf : FdChannelInv (f k)) (h : updateChannel c { s with events := ev } f = .next t) :
    FdKept c s t := by
  obtain ⟨k', hk', rfl⟩ := updateChannel_next c _ t f h
  obtain rfl : k = k' := Option.some.inj (hk.symm.trans hk')
  exact ⟨f k, hf, rfl⟩

/-- `FD.SOH.HIT` opens an empty block (R186). -/
theorem execFdSohHit_fdKept {c : Nat} {s t : State} {k : Channel} (hk : s.channels[c]? = some k) (h : FdStoreInv k.fd)
    (he : execFdSohHit c s = .next t) : FdKept c s t := by
  rw [execFdSohHit, onChannel_some c s _ k hk] at he
  cases he
  refine ⟨_, ?_, rfl⟩
  refine .of_pop ⟨h.buf_wf, h.buf_range, ?_, ?_, ?_⟩ rfl ?_ ?_
  all_goals simp

/-- The text operations store inside the buffer and end the block or leave room (R188, R189). -/
theorem storeCharacter_fdKept {c : Nat} {s t : State} {k : Channel} {r : Byte} {st : Stage} (hk : s.channels[c]? = some k)
    (h : FdStoreInv k.fd) (hstage : st = .txt ∧ k.fd.len < 242 ∨ st = .crc1)
    (he : storeCharacter c s (maskParity r) st = .next t) : FdKept c s t := by
  obtain ⟨k', hk', hlen, rfl⟩ := storeCharacter_next c s t _ st he
  obtain rfl : k = k' := Option.some.inj (hk.symm.trans hk')
  have hlen : k.fd.len < 243 := hlen
  have hne : st ≠ .done := by rcases hstage with ⟨rfl, -⟩ | rfl <;> simp
  refine ⟨_, .of_pop (h.write hlen rfl (by simp) (by simpa using hlen) fun hs => ?_) rfl (by simp) (by simpa using hne),
    rfl⟩
  rcases hstage with ⟨-, hl⟩ | rfl
  · simp only [FdState.goto_len, FdState.append_len, Channel.fdaGoto_fd]
    omega
  · simp at hs

/-- `FD.TXT.FULL` stores the last character and ends the block (R190). -/
theorem execFdTxtFull_fdKept {c : Nat} {s t : State} {k : Channel} {r : Byte} (hk : s.channels[c]? = some k)
    (h : FdStoreInv k.fd) (he : execFdTxtFull c r s = .next t) : FdKept c s t := by
  refine updateChannel_fdKept hk (.of_pop (h.write (a := 242) (r := r) (by decide) rfl ?_ ?_ ?_) rfl ?_ ?_) he
  all_goals simp [Config.blkMax, Config.hdrMax, Config.txtMax]

/-- `FD.CRC1` changes no clause but the stage (R191). -/
theorem execFdCrc1_fdKept {c : Nat} {s t : State} {k : Channel} {r : Byte} (hk : s.channels[c]? = some k)
    (h : FdStoreInv k.fd) (hstage : k.fd.stage = .crc1) (he : execFdCrc1 c r s = .next t) : FdKept c s t :=
  updateChannel_fdKept (ev := s.events) hk
    (.of_pop ⟨h.buf_wf, h.buf_range, h.len_le, fun hs => by simp at hs, fun _ => h.ended (.inl hstage)⟩ rfl (by simp)
      (by simp)) he

/-- `FD.DONE` from its push on: the frame is queued and the decoder seeks again, or it is held (R193). -/
theorem dispatched_fdKept {c : Nat} {s : State} {k : Channel} (h : FdStoreInv k.fd) (hstage : k.fd.stage = .done)
    (hp : k.fda.pos = .push) (hseek : 1 ≤ s.cfg.seekReload ∧ s.cfg.seekReload ≤ 8) : FdKept c s (dispatched c s k) := by
  unfold dispatched
  split_ifs
  · exact ⟨_, stageMiss_inv h hseek, rfl⟩
  · exact ⟨k, .of_push h hp hstage, rfl⟩

/-- `FD.CRC2` runs `FD.DONE` on the block that is over (R192). -/
theorem execFdCrc2_fdKept {c : Nat} {s t : State} {k : Channel} {r : Byte} (hk : s.channels[c]? = some k)
    (h : FdStoreInv k.fd) (hstage : k.fd.stage = .crc2) (hseek : 1 ≤ s.cfg.seekReload ∧ s.cfg.seekReload ≤ 8)
    (he : execFdCrc2 c r s = .next t) : FdKept c s t := by
  have hdone : FdStoreInv { k.fd with crc1 := r, stage := .done } :=
    ⟨h.buf_wf, h.buf_range, h.len_le, fun hs => by simp at hs, fun _ => h.ended (.inr (.inl hstage))⟩
  rw [execFdCrc2_some c r s k hk,
    execFdDone_some c _ _ (putChannel_self s c k _ hk) (by simp) (by simp) (by exact h.len_le)] at he
  cases he
  obtain ⟨k', hk', e⟩ := dispatched_fdKept (c := c) (s := s.putChannel c _) (k := built s.cfg.chars
    ({ k with fd := { k.fd with crc1 := r, stage := .done } }.fdaGoto .done)) (by exact hdone) rfl rfl hseek
  exact ⟨k', hk', e.trans (List.set_set ..)⟩

/-- The stage operation that a completed byte selects leaves the channel between operations or held at `OQ.PUSH`. -/
theorem stageOperation_fdKept {c : Nat} {s t : State} {k : Channel} {i : Instr} (hk : s.channels[c]? = some k)
    (h : FdStoreInv k.fd) (hseek : 1 ≤ s.cfg.seekReload ∧ s.cfg.seekReload ≤ 8)
    (hd : decodeByte s.cfg.chars c k.fd.stage k.fd.sr k.fd.len = .ok i) (he : exec i s = .next t) : FdKept c s t := by
  unfold decodeByte at hd
  cases hs : k.fd.stage <;> simp only [hs, Except.ok.injEq, reduceCtorEq] at hd
  case syn1 =>
    split_ifs at hd <;> subst hd
    · exact updateChannel_fdKept (ev := s.events) hk (stageTransfer_inv h (.inl rfl)) he
    · exact updateChannel_fdKept (ev := s.events) hk (stageMiss_inv h hseek) he
  case syn2 =>
    split_ifs at hd <;> subst hd
    · exact updateChannel_fdKept (ev := s.events) hk (stageTransfer_inv h (.inr rfl)) he
    · exact updateChannel_fdKept hk (stageMiss_inv h hseek) he
  case soh =>
    split_ifs at hd <;> subst hd
    · exact execFdSohHit_fdKept hk h he
    · exact updateChannel_fdKept hk (stageMiss_inv h hseek) he
  case txt =>
    split_ifs at hd with _ _ _ hl <;> simp only [Except.ok.injEq] at hd <;> subst hd
    · exact storeCharacter_fdKept hk h (.inr rfl) he
    · exact storeCharacter_fdKept hk h (.inr rfl) he
    · exact execFdTxtFull_fdKept hk h he
    · exact storeCharacter_fdKept hk h (.inl ⟨rfl, hl⟩) he
  case crc1 =>
    subst hd
    exact execFdCrc1_fdKept hk h hs he
  case crc2 =>
    subst hd
    exact execFdCrc2_fdKept hk h hs hseek he

/-! ### The operations that a step can run -/

/-- `FD.BIT`: one bit fewer missing, or the byte complete and its stage operation run (R181). -/
theorem execFdBit_fdKept {c : Nat} {s t : State} {k : Channel} (hk : s.channels[c]? = some k) (h : FdStoreInv k.fd)
    (hbits : 1 ≤ k.fd.nb ∧ k.fd.nb ≤ 8) (hstage : k.fd.stage ≠ .done)
    (hseek : 1 ≤ s.cfg.seekReload ∧ s.cfg.seekReload ≤ 8) (he : execFdBit c s = .next t) : FdKept c s t := by
  have hshift : FdStoreInv (shifted s.cfg.numerics k).fd := ⟨h.buf_wf, h.buf_range, h.len_le, h.room, h.ended⟩
  have hnb : (shifted s.cfg.numerics k).fd.nb = k.fd.nb - 1 := rfl
  rw [execFdBit_some c s k hk] at he
  split_ifs at he with hn
  · split at he
    · obtain ⟨k', hk', e⟩ := stageOperation_fdKept (k := (shifted s.cfg.numerics k).fdaGoto .stage)
        (putChannel_self s c k _ hk) hshift hseek (by assumption) he
      exact ⟨k', hk', e.trans (List.set_set ..)⟩
    · cases he
  · cases he
    exact ⟨_, .of_pop (k := (shifted s.cfg.numerics k).fdaGoto .pop) hshift rfl (by simp only [Channel.fdaGoto_fd]; omega)
      hstage, rfl⟩

/-- `BQ.POP`: held, or `FD.BIT` on the decision taken (R242). -/
theorem execBqPop_fdKept {c : Nat} {s t : State} {k : Channel} (hk : s.channels[c]? = some k) (h : FdChannelInv k)
    (hp : k.fda.pos = .pop) (hseek : 1 ≤ s.cfg.seekReload ∧ s.cfg.seekReload ≤ 8) (he : execBqPop c s = .next t) :
    FdKept c s t := by
  cases hq : k.bq with
  | nil =>
    simp only [execBqPop, onChannel_some c s _ k hk, hq, pop, hold, Host.Outcome.next.injEq] at he
    exact ⟨k, h, by rw [← he, ← State.putChannel_channels, putChannel_of_channel hk]⟩
  | cons d q =>
    obtain ⟨h1, h8, hne⟩ := h.bits hp
    rw [execBqPop_some c s k d q hk hq] at he
    obtain ⟨k', hk', e⟩ := execFdBit_fdKept
      (k := { k with bq := q, fda := { k.fda with dec := d, pos := .bit } }) (putChannel_self s c k _ hk) h.store ⟨h1, h8⟩
      hne hseek he
    exact ⟨k', hk', e.trans (List.set_set ..)⟩

/-- Under the invariant `FDA[c]` runs `BQ.POP`, or `FD.DONE` resumed at its push. -/
theorem FdInv.runs_fda {s : State} {i : Instr} {c : Nat} (h : FdInv s) (hi : i.ofFda = some c) (hr : Runs s i) :
    ∃ k, s.channels[c]? = some k ∧ (k.fda.pos = .pop ∧ i = .bqPop c ∨ k.fda.pos = .push ∧ i = .fdDone c) := by
  have hpos : ∀ {d : Nat} {k : Channel}, s.channels[d]? = some k → k.fda.pos = .pop ∨ k.fda.pos = .push :=
    fun hk => (h.2.2 _ (List.mem_of_getElem? hk)).position
  cases hr <;> simp only [Instr.ofFda, Instr.ofCd, Instr.channel?, Option.isSome_some, Option.isSome_none, Bool.false_eq_true,
    if_true, if_false, Option.some.injEq, reduceCtorEq] at hi
  case bqPop k hk hp => exact ⟨k, hi ▸ hk, .inl ⟨hp, by rw [hi]⟩⟩
  case fdDone k hk hp =>
    have hp : k.fda.pos = .push := by
      rcases hp with hp | hp | hp
      · exact absurd (hpos hk) (by simp [hp])
      · exact hp
      · exact absurd (hpos hk) (by simp [hp])
    exact ⟨k, hi ▸ hk, .inr ⟨hp, by rw [hi]⟩⟩
  case bpSublabel k hk hp =>
    rcases hp with hp | ⟨hp, -⟩ <;> exact absurd (hpos hk) (by simp [hp])
  all_goals exact absurd (hpos ‹_›) (by simp [*])

/-- An operation of `FDA[c]` that a step runs. -/
theorem FdInv.exec_ofFda {s t : State} {i : Instr} {c : Nat} (h : FdInv s) (hi : i.ofFda = some c) (hr : Runs s i)
    (he : exec i s = .next t) : FdKept c s t := by
  obtain ⟨k, hk, ⟨hp, rfl⟩ | ⟨hp, rfl⟩⟩ := h.runs_fda hi hr
  all_goals
    obtain ⟨h1, h8, hall⟩ := h
    have hinv := hall k (List.mem_of_getElem? hk)
  · exact execBqPop_fdKept hk hinv hp ⟨h1, h8⟩ he
  · rw [show exec (.fdDone c) s = _ from execFdDone_held c s k hk hp] at he
    cases he
    exact dispatched_fdKept hinv.store (hinv.held hp) hp ⟨h1, h8⟩

/-- A channel as `SYS.CONFIG` starts it. -/
theorem FdChannelInv.reset {p : Params} (ft : Scalar) (hseek : 1 ≤ p.seekReload ∧ p.seekReload ≤ 8) :
    FdChannelInv (Channel.reset p ft) := by
  refine .of_pop ⟨Memory.wf_nil, List.forall_mem_nil _, Nat.zero_le _, ?_, ?_⟩ rfl hseek
    (by simp [Channel.reset, FdState.reset])
  all_goals simp [Channel.reset, FdState.reset]

/-- A channel after `SYS.RESET`, whatever its buffer was drawn to be (R291). -/
theorem FdChannelInv.afterReset {p : Params} (k : Channel) (n : Nat) (hseek : 1 ≤ p.seekReload ∧ p.seekReload ≤ 8) :
    FdChannelInv (k.afterReset p n) := by
  refine .of_pop ⟨Memory.wf_unspecified n, Memory.unspecified_range n, Nat.zero_le _, ?_, ?_⟩ rfl hseek
    (by simp [Channel.afterReset, FdState.afterReset, FdState.reset])
  all_goals simp [Channel.afterReset, FdState.afterReset, FdState.reset]

/-- The bounds of R6 on `SEEK_RELOAD`. -/
theorem seekReload_of_admitted {p : Params} (h : p.admitted = true) : 1 ≤ p.seekReload ∧ p.seekReload ≤ 8 := by
  simp only [Params.admitted, Bool.and_eq_true, decide_eq_true_eq] at h
  tauto

/-- Every effect of an operation keeps the invariant. -/
theorem FdInv.effect {s t : State} {i : Instr} (h : FdInv s) (he : Effect s i t) : FdInv t := by
  have hinv := h
  obtain ⟨h1, h8, hall⟩ := h
  cases he with
  | held => exact hinv
  | cd _ c _ hi hr he =>
    obtain ⟨k, k', ev, hk, hwork, rfl⟩ := exec_ofCd hi he
    refine ⟨h1, h8, fun x hx => ?_⟩
    rcases mem_putChannel s c k' x hx with rfl | hx
    · exact (hall k (List.mem_of_getElem? hk)).congr hwork.owned.fd hwork.owned.fda
    · exact hall x hx
  | fda _ c _ hi hr he =>
    obtain ⟨k', hk', hch⟩ := hinv.exec_ofFda hi hr he
    obtain ⟨_, _, _, _, _, _, _, _, rfl⟩ := Machine.exec_ofFda hi he
    refine ⟨h1, h8, fun x hx => ?_⟩
    rw [hch] at hx
    rcases mem_putChannel s c k' x hx with rfl | hx
    · exact hk'
    · exact hall x hx
  | deliver => exact hinv
  | feedBlock =>
    refine ⟨h1, h8, fun x hx => ?_⟩
    obtain ⟨k, hk, rfl⟩ := List.mem_map.1 hx
    exact (hall k hk).congr rfl rfl
  | feedEos => exact hinv
  | sysReset =>
    refine ⟨h1, h8, fun x hx => ?_⟩
    obtain ⟨k, -, n, rfl⟩ := mem_resetChannels s x hx
    exact .afterReset k n ⟨h1, h8⟩
  | sysConfig p ha hp =>
    have hseek := seekReload_of_admitted ha
    refine ⟨hseek.1, hseek.2, fun x hx => ?_⟩
    rcases mem_configureChannels p s.channels x hx with ⟨ft, -, rfl⟩ | ⟨k, hk, ft, -, rfl⟩ | hx
    · exact .reset ft hseek
    · exact (hall k hk).congr rfl rfl
    · exact hall x hx

/-- Settles O54: by the effects of a step; a completed byte leaves the channel between operations or held at `OQ.PUSH`. -/
theorem frameDecoderInvariantIsKept : Obligations.FrameDecoderInvariantIsKept :=
  fun _ _ h hstep => step_keeps (fun _ _ _ _ ht => ht) (fun _ _ he => h.effect he) hstep

end Sys2Proof.Machine
end

section
/-! The configuration and the tables (spec/10_state.md R44; spec/20_memory.md R61, R63, R78). -/

namespace Sys2Proof.Machine

/-! ### Who writes the configuration -/

/-- `SYS.CONFIG` is selected by a record on its port alone. -/
theorem selector_of_sysConfig {cc : ControlChars} {sel : Selector} {p : Params} (h : decode cc sel = .ok (.sysConfig p)) :
    sel = .configIn p := by
  cases sel with
  | demapKey c k =>
    simp only [decode, decodeDemap, Except.ok.injEq] at h
    split at h <;> cases h
  | fdKey c k len =>
    simp only [decode, decodeFdKey] at h
    split at h
    · exact absurd (ofFda_of_decodeByte h).1 (by simp [Instr.ofFda, Instr.ofCd, Instr.channel?])
    · cases h
  | blockByte c delim up =>
    simp only [decode, decodeBlockByte] at h
    split_ifs at h
    · split at h <;> cases h
    · cases h
  | cdStep c pos => cases pos <;> cases h
  | fdaStep c pos => cases pos <;> cases h
  | configIn q =>
    cases h
    rfl
  | deliver | sampleIn | eosIn | resetIn => cases h

/-- A record on the configuration port is selected in a turn of that port alone. -/
theorem turn_of_configIn {s : State} {t : Turn} {p : Params} (h : select t s = some (.configIn p)) : t = .config := by
  cases t with
  | config => rfl
  | cd c =>
    obtain ⟨k, -, hk⟩ := Option.bind_eq_some_iff.1 h
    unfold Channel.cdSelector at hk
    split at hk <;> cases hk
  | fda c =>
    obtain ⟨k, -, hk⟩ := Option.map_eq_some_iff.1 h
    unfold Channel.fdaSelector at hk
    split at hk <;> cases hk
  | feed =>
    simp only [select] at h
    split at h
    · split_ifs at h
      cases h
    · cases h
  | eos | reset =>
    simp only [select] at h
    split_ifs at h
    cases h
  | disp | sink => cases h

/-- No other operation writes the configuration. -/
theorem Effect.cfg {s t : State} {i : Instr} (h : Effect s i t) (hi : ∀ p, i ≠ .sysConfig p) : t.cfg = s.cfg := by
  cases h with
  | cd _ c _ hcd hr he =>
    obtain ⟨_, _, _, _, _, rfl⟩ := exec_ofCd hcd he
    rfl
  | fda _ c _ hfda hr he =>
    obtain ⟨_, _, _, _, _, _, _, _, rfl⟩ := exec_ofFda hfda he
    rfl
  | sysConfig p => exact absurd rfl (hi p)
  | held | deliver | feedBlock | feedEos | sysReset => rfl

/-- A step in a turn other than that of the configuration port keeps the configuration. -/
theorem step_cfg {s s' : State} (ht : s.turn ≠ .config) (h : step s = .next s') : s'.cfg = s.cfg := by
  by_cases hsink : ∃ b, s.turn = .sink b
  · obtain ⟨b, hb⟩ := hsink
    rw [step_sink s b hb] at h
    cases h
    rfl
  cases hs : select s.turn s with
  | none =>
    rw [step_of_select_none s (fun b hb => hsink ⟨b, hb⟩) hs] at h
    cases h
    rfl
  | some sel =>
    rw [step_of_select s sel hs] at h
    cases hd : decode s.cfg.chars sel with
    | error e => simp [hd] at h
    | ok i =>
      have hi : ∀ p, i ≠ .sysConfig p := fun p hp =>
        ht (turn_of_configIn (selector_of_sysConfig (hp ▸ hd) ▸ hs))
      cases he : exec i s with
      | next t =>
        simp only [hd, he, finish, Host.Outcome.next.injEq] at h
        subst h
        exact (effect_of_exec (runs_of_select s s.turn sel i hs hd) he).cfg hi
      | fault f => simp [hd, he, finish] at h
      | refused q => simp [hd, he, finish] at h

/-! ### The tables -/

/-- Replacing a channel by one with the same table keeps the list of tables. -/
theorem map_lo_putChannel {s : State} {c : Nat} {k k' : Channel} (hk : s.channels[c]? = some k) (hlo : k'.lo = k.lo) :
    (s.putChannel c k').channels.map Channel.lo = s.channels.map Channel.lo := by
  have hmap : (s.channels.map Channel.lo)[c]? = some k.lo := by simp [hk]
  obtain ⟨_, hc⟩ := List.getElem?_eq_some_iff.1 hmap
  rw [State.putChannel_channels, List.map_set, hlo, ← hc, List.set_getElem_self]

/-- A reset keeps the tables of the channels it keeps (R291). -/
theorem map_lo_resetChannels (p : Params) (n : Nat) (l : List Channel) :
    (l.mapIdx fun i k => k.afterReset p (n + i)).map Channel.lo = l.map Channel.lo := by
  refine List.ext_getElem? fun i => ?_
  simp [Channel.afterReset, Function.comp_def]

/-- A configuration computes the tables of its channels (R292). -/
theorem map_lo_configureChannels (p : Params) (old : List Channel) :
    ((configureChannels p old).take p.ft.length).map Channel.lo = p.ft.map p.loTable := by
  refine List.ext_getElem? fun i => ?_
  cases hft : p.ft[i]? with
  | none => simp [List.getElem?_eq_none_iff.1 hft]
  | some ft =>
    have hi := (List.getElem?_eq_some_iff.1 hft).1
    simp only [List.getElem?_map, List.getElem?_take, hi, if_true, configureChannels_of_freq p old i ft hft, hft,
      Option.map_some]
    cases old[i]? <;> rfl

/-- One target frequency per channel (R5, R6). -/
theorem length_ft_of_admitted {p : Params} (h : p.admitted = true) : p.ft.length = p.nchan := by
  simp only [Params.admitted, Params.shaped, Bool.and_eq_true, decide_eq_true_eq] at h
  tauto

/-- Every effect of an operation keeps the tables those of the configuration. -/
theorem TableInv.effect {s t : State} {i : Instr} (h : TableInv s) (he : Effect s i t) : TableInv t := by
  obtain ⟨hcoef, hlo⟩ := h
  have kept : ∀ {l : List Channel}, l.map Channel.lo = s.channels.map Channel.lo →
      (l.take s.cfg.nchan).map Channel.lo = s.cfg.ft.map s.cfg.loTable := fun hl => by
    rw [List.map_take, hl, ← List.map_take, hlo]
  cases he with
  | held | deliver | feedEos => exact ⟨hcoef, hlo⟩
  | cd _ c _ hi hr he =>
    obtain ⟨k, k', ev, hk, hwork, rfl⟩ := exec_ofCd hi he
    exact ⟨hcoef, kept (map_lo_putChannel hk hwork.owned.lo)⟩
  | fda _ c _ hi hr he =>
    obtain ⟨k, k', ev, oq, n, hk, hown, -, rfl⟩ := exec_ofFda hi he
    exact ⟨hcoef, kept (map_lo_putChannel hk hown.lo)⟩
  | feedBlock => exact ⟨hcoef, kept (by simp [Function.comp_def])⟩
  | sysReset =>
    refine ⟨hcoef, ?_⟩
    rw [List.map_take, map_lo_resetChannels, ← List.map_take, List.take_take, min_self, hlo]
  | sysConfig p ha =>
    refine ⟨rfl, ?_⟩
    rw [← length_ft_of_admitted ha]
    exact map_lo_configureChannels p s.channels

/-- Settles O52: by the effects of a step; a step that configures is a turn of the configuration port. -/
theorem tablesMatchTheConfiguration : Obligations.TablesMatchTheConfiguration :=
  fun _ _ h hstep =>
    ⟨step_keeps (fun _ _ _ _ ht => ht) (fun _ _ he => h.effect he) hstep, fun ht => step_cfg ht hstep⟩

end Sys2Proof.Machine
end

section
/-! The Channelizer's invariant (spec/10_state.md R22 to R24; spec/40_channelizer.md R131 to R136). -/

namespace Sys2Proof.Machine

/-! ### One channel -/

/-- The invariant of one channel reads of the machine the configuration, the phase and the block, of the channel the parts of
`CD[c]`. -/
theorem CdChannelInv.congr {s t : State} {k k' : Channel} (h : CdChannelInv s k) (hcfg : t.cfg = s.cfg)
    (hphase : t.phase = s.phase) (hblk : t.blk = s.blk) (hch : k'.ch = k.ch) (hdm : k'.dm = k.dm) (hcd : k'.cd = k.cd) :
    CdChannelInv t k' := by
  constructor <;> simp only [hcfg, hphase, hblk, hch, hdm, hcd]
  exacts [h.buffer, h.empty_window, h.window, h.cursor, h.position, h.between, h.at_end, h.block, h.sampling, h.held]

/-- Where the loop of `CH.BLOCK` goes on (R131). -/
theorem loopPos_cases {p : Params} {n : Nat} (hn : n ≤ p.blockLen) :
    loopPos p n = .sample ∧ n < p.blockLen ∨ loopPos p n = .idle ∧ n = p.blockLen := by
  unfold loopPos
  split_ifs with h
  · exact .inl ⟨rfl, h⟩
  · exact .inr ⟨rfl, by omega⟩

/-- A channel whose window is closed, inside a block or at its end (R131 to R133). -/
theorem CdChannelInv.of_closed {s : State} {k : Channel} (hblk : s.blk.length = s.cfg.blockLen)
    (hbuf : k.dm.buf.length = s.cfg.flen ∧ k.dm.idx < s.cfg.flen) (hdecim : 1 ≤ s.cfg.decim)
    (hacc : k.ch.acc = s.cfg.numerics.cZero) (hcnt : k.ch.cnt = 0) (hn : k.ch.n ≤ s.cfg.blockLen)
    (hmod : k.ch.n % s.cfg.decim = 0) (hpos : k.cd.pos = .push ∨ k.cd.pos = loopPos s.cfg k.ch.n) : CdChannelInv s k := by
  have cases : k.cd.pos = .push ∨ k.cd.pos = .sample ∧ k.ch.n < s.cfg.blockLen ∨
      k.cd.pos = .idle ∧ k.ch.n = s.cfg.blockLen := by
    rcases hpos with hp | hp
    · exact .inl hp
    · rw [hp]
      exact .inr (loopPos_cases hn)
  refine ⟨fun _ => hbuf, fun _ _ => hacc, by omega, fun _ => hn, ?_, fun _ => hcnt, fun _ hi => ?_, fun _ => hblk,
    fun hs => ?_, fun _ => ⟨hn, hmod, hcnt⟩⟩
  · rcases cases with h | ⟨h, -⟩ | ⟨h, -⟩ <;> simp [h]
  · rcases cases with h | ⟨h, -⟩ | ⟨-, h⟩
    · simp [h] at hi
    · simp [h] at hi
    · exact h
  · rcases cases with h | ⟨-, h⟩ | ⟨h, -⟩
    · simp [h] at hs
    · exact ⟨h, by omega⟩
    · simp [h] at hs

/-- A channel whose window is open: it stands at the next sample of the window (R132). -/
theorem CdChannelInv.of_open {s : State} {k : Channel} (hblk : s.blk.length = s.cfg.blockLen)
    (hbuf : k.dm.buf.length = s.cfg.flen ∧ k.dm.idx < s.cfg.flen) (hopen : k.ch.cnt ≠ 0) (hcnt : k.ch.cnt < s.cfg.decim)
    (hn : k.ch.n < s.cfg.blockLen) (hmod : k.ch.cnt = k.ch.n % s.cfg.decim) (hpos : k.cd.pos = .sample) :
    CdChannelInv s k :=
  ⟨fun _ => hbuf, fun _ h => absurd h hopen, hcnt, fun _ => hn.le, by simp [hpos], by simp [hpos], by simp [hpos],
    fun _ => hblk, fun _ => ⟨hn, hmod⟩, by simp [hpos]⟩

/-- A channel between blocks, before the first one (R290) or while a configuration waits for its reset (R293). -/
theorem CdChannelInv.of_idle {s : State} {k : Channel} (hrun : s.phase ≠ .running) (hdecim : 1 ≤ s.cfg.decim)
    (hready : s.phase ≠ .configured → (k.dm.buf.length = s.cfg.flen ∧ k.dm.idx < s.cfg.flen) ∧
      k.ch.acc = s.cfg.numerics.cZero ∧ k.ch.n ≤ s.cfg.blockLen)
    (hcnt : k.ch.cnt = 0) (hpos : k.cd.pos = .idle) : CdChannelInv s k :=
  ⟨fun h => (hready h).1, fun h _ => (hready h).2.1, by omega, fun h => (hready h).2.2, .inl hpos, fun _ => hcnt,
    fun h => absurd h hrun, fun h => absurd hpos h, by simp [hpos], by simp [hpos]⟩

/-! ### What a sample does to a channel -/

/-- `DM.SAMPLE` in terms of its advance: a symbol falls due and is decided, or the loop goes on. -/
theorem sampled_eq (p : Params) (coef : List Scalar) (k : Channel) :
    sampled p coef k =
      if symbolDue p k.dm then pushed p (decided p coef (k.advanced p))
      else (k.advanced p).cdGoto (loopPos p k.ch.n) := rfl

@[simp] theorem decided_ch (p : Params) (coef : List Scalar) (k : Channel) : (decided p coef k).ch = k.ch := rfl
@[simp] theorem decided_buf (p : Params) (coef : List Scalar) (k : Channel) : (decided p coef k).dm.buf = k.dm.buf := rfl
@[simp] theorem decided_idx (p : Params) (coef : List Scalar) (k : Channel) : (decided p coef k).dm.idx = k.dm.idx := rfl

/-- The push leaves `CH` and the circular buffer as they are. -/
theorem pushed_frame (p : Params) (k : Channel) :
    (pushed p k).ch = k.ch ∧ (pushed p k).dm.buf = k.dm.buf ∧ (pushed p k).dm.idx = k.dm.idx := by
  unfold pushed
  split_ifs <;> exact ⟨rfl, rfl, rfl⟩

/-- A decision is pushed and the loop goes on, or it is held. -/
theorem pushed_pos (p : Params) {k : Channel} (hp : k.cd.pos = .push) :
    (pushed p k).cd.pos = .push ∨ (pushed p k).cd.pos = loopPos p k.ch.n := by
  unfold pushed
  split_ifs
  · exact .inr rfl
  · exact .inl hp

/-- A sample leaves `CH` as it is. -/
theorem sampled_ch (p : Params) (coef : List Scalar) (k : Channel) : (sampled p coef k).ch = k.ch := by
  rw [sampled_eq]
  split_ifs
  · exact (pushed_frame p _).1
  · rfl

/-- A sample keeps the size of the circular buffer and leaves its index inside (R153). -/
theorem sampled_buffer (p : Params) (coef : List Scalar) (k : Channel) (hlen : k.dm.buf.length = p.flen) :
    (sampled p coef k).dm.buf.length = p.flen ∧ (sampled p coef k).dm.idx < p.flen := by
  have hadv : (k.advanced p).dm.buf.length = p.flen ∧ (k.advanced p).dm.idx < p.flen :=
    ⟨by simpa [Channel.advanced, sampleStep] using hlen, Nat.mod_lt _ (Nat.succ_pos _)⟩
  rw [sampled_eq]
  split_ifs
  · obtain ⟨-, hbuf, hidx⟩ := pushed_frame p (decided p coef (k.advanced p))
    rwa [hbuf, hidx]
  · exact hadv

/-- After a sample the loop goes on, or a decision is held. -/
theorem sampled_pos (p : Params) (coef : List Scalar) (k : Channel) :
    (sampled p coef k).cd.pos = .push ∨ (sampled p coef k).cd.pos = loopPos p k.ch.n := by
  rw [sampled_eq]
  split_ifs
  · exact pushed_pos p (k := decided p coef (k.advanced p)) rfl
  · exact .inr rfl

/-! ### The operations that a step can run -/

/-- An agent inside a block runs (R293, R247). -/
theorem CdInv.running {s : State} (h : CdInv s) {c : Nat} {k : Channel} (hk : s.channels[c]? = some k)
    (hpos : k.cd.pos ≠ .idle) : s.phase = .running ∧ s.eos = false := by
  by_contra hcon
  refine hpos (h.quiet ?_ k (List.mem_of_getElem? hk))
  by_cases hphase : s.phase = .running
  · exact .inr (by simpa [hphase] using hcon)
  · exact .inl hphase

/-- Under the invariant `CD[c]` runs `CH.BLOCK`, `CH.SAMPLE`, or `DM.SYMBOL` resumed at its push. -/
theorem CdInv.runs_cd {s : State} {i : Instr} {c : Nat} (h : CdInv s) (hi : i.ofCd = some c) (hr : Runs s i) :
    ∃ k, s.channels[c]? = some k ∧
      (k.cd.pos = .block ∧ i = .chBlock c ∨ k.cd.pos = .sample ∧ i = .chSample c ∨ k.cd.pos = .push ∧ i = .dmSymbol c) := by
  have hpos : ∀ {d : Nat} {k : Channel}, s.channels[d]? = some k →
      k.cd.pos = .idle ∨ k.cd.pos = .block ∨ k.cd.pos = .sample ∨ k.cd.pos = .push :=
    fun hk => (h.channel _ (List.mem_of_getElem? hk)).position
  cases hr <;> simp only [Instr.ofCd, Option.some.injEq, reduceCtorEq] at hi
  case chBlock k hk hp => exact ⟨k, hi ▸ hk, .inl ⟨hp, by rw [hi]⟩⟩
  case chSample k hk hp => exact ⟨k, hi ▸ hk, .inr (.inl ⟨hp, by rw [hi]⟩)⟩
  case dmSymbol k hk hp =>
    have hp : k.cd.pos = .push := by
      rcases hp with hp | hp | hp
      · exact absurd (hpos hk) (by simp [hp])
      · exact hp
      · exact absurd (hpos hk) (by simp [hp])
    exact ⟨k, hi ▸ hk, .inr (.inr ⟨hp, by rw [hi]⟩)⟩
  all_goals exact absurd (hpos ‹_›) (by simp [*])

/-- The count of samples modulo `DECIM`, one sample on (R132, R136). -/
theorem succ_mod_of_lt {n d : Nat} (h : n % d + 1 < d) : (n + 1) % d = n % d + 1 := by
  rw [← Nat.mod_add_mod, Nat.mod_eq_of_lt h]

theorem succ_mod_of_eq {n d : Nat} (h : n % d + 1 = d) : (n + 1) % d = 0 := by
  rw [← Nat.mod_add_mod, h, Nat.mod_self]

/-- `CH.SAMPLE` inside a window (R132). -/
theorem mixed_inv {s : State} {k : Channel} {x w : Cplx} (h : CdInv s) (hk : CdChannelInv s k) (hrun : s.phase = .running)
    (hpos : k.cd.pos = .sample) (hopen : k.ch.cnt + 1 ≠ s.cfg.decim) :
    CdChannelInv s ((mixSample s.cfg.numerics k x w).cdGoto (loopPos s.cfg (k.ch.n + 1))) := by
  obtain ⟨hn, hcnt⟩ := hk.sampling hpos
  have hlt : k.ch.cnt + 1 < s.cfg.decim := lt_of_le_of_ne hk.window hopen
  have hmod : (k.ch.n + 1) % s.cfg.decim = k.ch.cnt + 1 := hcnt ▸ succ_mod_of_lt (hcnt ▸ hlt)
  have hend : k.ch.n + 1 ≠ s.cfg.blockLen := fun e => by
    rw [e, h.aligned] at hmod
    omega
  have hloop : loopPos s.cfg (k.ch.n + 1) = .sample := if_pos (lt_of_le_of_ne hn hend)
  exact .of_open (hk.block (by simp [hpos])) (hk.buffer (by simp [hrun])) (Nat.succ_ne_zero _) hlt (lt_of_le_of_ne hn hend)
    hmod.symm hloop

/-- `CH.SAMPLE` at the end of a window, with the `CH.DUMP` and the `DM.SAMPLE` it calls (R132, R133). -/
theorem windowed_inv {s : State} {k : Channel} {x w : Cplx} (h : CdInv s) (hk : CdChannelInv s k)
    (hrun : s.phase = .running) (hpos : k.cd.pos = .sample) (hclosed : k.ch.cnt + 1 = s.cfg.decim) :
    CdChannelInv s (sampled s.cfg s.coef (dumped s.cfg (mixSample s.cfg.numerics k x w))) := by
  obtain ⟨hn, hcnt⟩ := hk.sampling hpos
  have hch := sampled_ch s.cfg s.coef (dumped s.cfg (mixSample s.cfg.numerics k x w))
  refine .of_closed (hk.block (by simp [hpos])) (sampled_buffer _ _ _ (hk.buffer (by simp [hrun])).1) h.decim_pos
    ?_ ?_ ?_ ?_ (hch ▸ sampled_pos _ _ _)
  all_goals rw [hch]
  · rfl
  · rfl
  · exact hn
  · exact succ_mod_of_eq (hcnt ▸ hclosed)

/-- `CH.BLOCK` on a block of the configured length, before end-of-stream (R131). -/
theorem execChBlock_some (c : Nat) (s : State) (k : Channel) (hk : s.channels[c]? = some k) (heos : s.eos = false)
    (hblk : s.blk.length = s.cfg.blockLen) :
    execChBlock c s = .next (s.putChannel c ({ k with ch := { k.ch with n := 0 } }.cdGoto (loopPos s.cfg 0))) := by
  simp [execChBlock, onChannel_some c s _ k hk, heos, hblk]

/-- `CH.BLOCK` at the start of a block (R131). -/
theorem restarted_inv {s : State} {k : Channel} (h : CdInv s) (hk : CdChannelInv s k) (hrun : s.phase = .running)
    (hpos : k.cd.pos = .block) :
    CdChannelInv s ({ k with ch := { k.ch with n := 0 } }.cdGoto (loopPos s.cfg 0)) := by
  have hcnt := hk.between (.inr hpos)
  exact .of_closed (hk.block (by simp [hpos])) (hk.buffer (by simp [hrun])) h.decim_pos (hk.empty_window (by simp [hrun]) hcnt)
    hcnt (Nat.zero_le _) (Nat.zero_mod _) (.inr rfl)

/-- `DM.SYMBOL` resumed at its push (R154, R241). -/
theorem resumed_inv {s : State} {k : Channel} (h : CdInv s) (hk : CdChannelInv s k) (hrun : s.phase = .running)
    (hpos : k.cd.pos = .push) : CdChannelInv s (pushed s.cfg k) := by
  obtain ⟨hn, hmod, hcnt⟩ := hk.held hpos
  obtain ⟨hch, hbuf, hidx⟩ := pushed_frame s.cfg k
  refine .of_closed (hk.block (by simp [hpos])) (by rw [hbuf, hidx]; exact hk.buffer (by simp [hrun])) h.decim_pos ?_ ?_ ?_ ?_
    (hch ▸ pushed_pos s.cfg hpos)
  all_goals rw [hch]
  · exact hk.empty_window (by simp [hrun]) hcnt
  · exact hcnt
  · exact hn
  · exact hmod

/-- An operation of `CD[c]` that a step runs finds its channel inside a block and keeps the invariant of that channel. -/
theorem CdInv.exec_ofCd {s t : State} {i : Instr} {c : Nat} (h : CdInv s) (hi : i.ofCd = some c) (hr : Runs s i)
    (he : exec i s = .next t) :
    ∃ k k' ev, s.channels[c]? = some k ∧ k.cd.pos ≠ .idle ∧ CdChannelInv s k' ∧
      t = { s.putChannel c k' with events := ev } := by
  obtain ⟨k, hk, hp⟩ := h.runs_cd hi hr
  have hinv := h.channel k (List.mem_of_getElem? hk)
  have hne : k.cd.pos ≠ .idle := by rcases hp with ⟨hp, -⟩ | ⟨hp, -⟩ | ⟨hp, -⟩ <;> simp [hp]
  obtain ⟨hrun, heos⟩ := h.running hk hne
  rcases hp with ⟨hp, rfl⟩ | ⟨hp, rfl⟩ | ⟨hp, rfl⟩
  · rw [show exec (.chBlock c) s = _ from execChBlock_some c s k hk heos (hinv.block hne)] at he
    cases he
    exact ⟨k, _, s.events, hk, hne, restarted_inv h hinv hrun hp, rfl⟩
  · obtain ⟨x, w, -, -, -, ⟨hopen, rfl⟩ | ⟨hclosed, ev, rfl⟩⟩ := execChSample_next c s t k hk he
    · exact ⟨k, _, s.events, hk, hne, mixed_inv h hinv hrun hp hopen, rfl⟩
    · exact ⟨k, _, ev, hk, hne, windowed_inv h hinv hrun hp hclosed, rfl⟩
  · rw [show exec (.dmSymbol c) s = _ from execDmSymbol_held c s k hk hp] at he
    cases he
    exact ⟨k, _, s.events, hk, hne, resumed_inv h hinv hrun hp, rfl⟩

/-! ### Every effect of an operation -/

/-- The invariant reads the configuration, the channels, the phase, the block and `FEED.eos` alone. -/
theorem CdInv.congr {s t : State} (h : CdInv s) (hcfg : t.cfg = s.cfg) (hch : t.channels = s.channels)
    (hphase : t.phase = s.phase) (hblk : t.blk = s.blk) (heos : t.eos = s.eos) : CdInv t := by
  have hchannel : ∀ k ∈ t.channels, CdChannelInv t k := fun k hk =>
    (h.channel k (hch ▸ hk)).congr hcfg hphase hblk rfl rfl rfl
  constructor <;> simp only [hcfg, hch, hphase, heos]
  exacts [h.decim_pos, h.block_pos, h.aligned, h.covered, h.exist, h.count, h.lo_length, h.quiet, hch ▸ hchannel]

/-- One channel replaced by one that meets the invariant and stands where the machine lets it stand. -/
theorem CdInv.put {s : State} {c : Nat} {k k' : Channel} (h : CdInv s) (hk : s.channels[c]? = some k) (hlo : k'.lo = k.lo)
    (hidle : k.cd.pos = .idle → k'.cd.pos = .idle) (hinv : CdChannelInv s k') : CdInv (s.putChannel c k') := by
  refine ⟨h.decim_pos, h.block_pos, h.aligned, h.covered, ?_, ?_, fun d x hd hx => ?_, fun hq x hx => ?_, fun x hx => ?_⟩
  · simpa using h.exist
  · simpa using h.count
  · by_cases hdc : d = c
    · subst hdc
      rw [putChannel_self s d k k' hk, Option.some.injEq] at hx
      rw [← hx, hlo]
      exact h.lo_length d k hd hk
    · rw [putChannel_ne s c d k' hdc] at hx
      exact h.lo_length d x hd hx
  · rcases mem_putChannel s c k' x hx with rfl | hx
    · exact hidle (h.quiet hq k (List.mem_of_getElem? hk))
    · exact h.quiet hq x hx
  · rcases mem_putChannel s c k' x hx with rfl | hx
    · exact hinv.congr rfl rfl rfl rfl rfl rfl
    · exact (h.channel x hx).congr rfl rfl rfl rfl rfl rfl

/-- `FEED.BLOCK` starts a block in every channel (R246). -/
theorem CdInv.feedBlock {s : State} {b : Block} (h : CdInv s) (hp : s.phase ≠ .configured) (heos : s.eos = false)
    (hidle : ∀ k ∈ s.channels, k.cd.pos = .idle) (hb : b.length = s.cfg.blockLen) :
    CdInv
      { s with
        blk := b, channels := s.channels.map (fun k => k.cdGoto .block), sampleIn := s.sampleIn.tail
        phase := .running } := by
  refine ⟨h.decim_pos, h.block_pos, h.aligned, h.covered, ?_, fun _ => ?_, fun c x hc hx => ?_, ?_, fun x hx => ?_⟩
  · simpa using h.exist
  · simpa using h.count hp
  · obtain ⟨k, hk, rfl⟩ := by simpa using hx
    exact h.lo_length c k hc hk
  · simp [heos]
  · obtain ⟨k, hk, rfl⟩ := List.mem_map.1 hx
    have hinv := h.channel k hk
    exact ⟨fun _ => hinv.buffer hp, fun _ => hinv.empty_window hp, hinv.window, fun _ => hinv.cursor hp, .inr (.inl rfl),
      fun _ => hinv.between (.inl (hidle k hk)), by simp, fun _ => hb, by simp, by simp⟩

/-- `FEED.EOS` ends the run between blocks (R247). -/
theorem CdInv.feedEos {s : State} (h : CdInv s) (hidle : ∀ k ∈ s.channels, k.cd.pos = .idle) :
    CdInv ({ s with eos := true, eosIn := false }.raise .feedEos) :=
  ⟨h.decim_pos, h.block_pos, h.aligned, h.covered, h.exist, h.count, h.lo_length, fun _ => hidle,
    fun k hk => (h.channel k hk).congr rfl rfl rfl rfl rfl rfl⟩

/-- `SYS.RESET` starts the channels of the configuration (R290). -/
theorem CdInv.sysReset {s : State} (h : CdInv s) :
    CdInv
      { s with
        channels := (s.channels.take s.cfg.nchan).mapIdx (fun i k => k.afterReset s.cfg (s.draws + i))
        oq := [], eos := false, resetIn := false, phase := .ready, draws := s.draws + s.channels.length } := by
  refine ⟨h.decim_pos, h.block_pos, h.aligned, h.covered, ?_, fun _ => ?_, fun c x hc hx => ?_, fun _ x hx => ?_,
    fun x hx => ?_⟩
  · simpa using h.exist
  · simpa using h.exist
  · simp only [List.getElem?_mapIdx, List.getElem?_take, Option.map_eq_some_iff] at hx
    obtain ⟨k, hk, rfl⟩ := hx
    rw [if_pos (by exact hc)] at hk
    exact h.lo_length c k hc hk
  · obtain ⟨k, -, n, rfl⟩ := mem_resetChannels s x hx
    rfl
  · obtain ⟨k, -, n, rfl⟩ := mem_resetChannels s x hx
    exact .of_idle (by simp) h.decim_pos
      (fun _ => ⟨⟨List.length_replicate, Nat.succ_pos _⟩, rfl, Nat.zero_le _⟩) rfl rfl

/-- What R6 asks of the block, the table and the channels. -/
theorem shape_of_admitted {p : Params} (h : p.admitted = true) :
    1 ≤ p.decim ∧ 1 ≤ p.blockLen ∧ p.blockLen % p.decim = 0 ∧ p.blockLen ≤ p.loLen := by
  simp only [Params.admitted, Bool.and_eq_true, decide_eq_true_eq] at h
  tauto

/-- `SYS.CONFIG` takes a record while every `CD[c]` is between blocks (R292, R293). -/
theorem CdInv.sysConfig {s : State} {p : Params} (h : CdInv s) (ha : p.admitted = true)
    (hp : ¬(s.phase = .running ∧ s.eos = false)) :
    CdInv
      { s with
        cfg := p, coef := p.coefStored, channels := configureChannels p s.channels, configIn := none
        phase := .configured } := by
  obtain ⟨hdecim, hblock, haligned, hcovered⟩ := shape_of_admitted ha
  have hft := length_ft_of_admitted ha
  have hold : ∀ k ∈ s.channels, k.cd.pos = .idle ∧ k.ch.cnt = 0 := fun k hk => by
    have hidle := h.quiet (by by_contra hcon; simp at hcon; exact hp hcon) k hk
    exact ⟨hidle, (h.channel k hk).between (.inl hidle)⟩
  have hnew : ∀ x ∈ configureChannels p s.channels, x.cd.pos = .idle ∧ x.ch.cnt = 0 := fun x hx => by
    rcases mem_configureChannels p s.channels x hx with ⟨ft, -, rfl⟩ | ⟨k, hk, ft, -, rfl⟩ | hx
    · exact ⟨rfl, rfl⟩
    · exact hold k hk
    · exact hold x hx
  refine ⟨hdecim, hblock, haligned, hcovered, ?_, by simp, fun c x hc hx => ?_, fun _ x hx => (hnew x hx).1,
    fun x hx => ?_⟩
  · simp [hft]
  · have hc : c < p.ft.length := hft ▸ hc
    rw [configureChannels_of_freq p s.channels c p.ft[c] (List.getElem?_eq_getElem hc), Option.some.injEq] at hx
    have hlo : x.lo = p.loTable p.ft[c] := by
      rw [← hx]
      split <;> rfl
    simp [hlo, Params.loTable]
  · exact .of_idle (by simp) hdecim (by simp) (hnew x hx).2 (hnew x hx).1

/-- Every effect of an operation keeps the invariant. -/
theorem CdInv.effect {s t : State} {i : Instr} (h : CdInv s) (he : Effect s i t) : CdInv t := by
  cases he with
  | held => exact h
  | cd _ c _ hi hr he =>
    obtain ⟨k, k', ev, hk, hne, hinv, rfl⟩ := h.exec_ofCd hi hr he
    have hlo : k'.lo = k.lo := by
      obtain ⟨k₀, k₁, _, hk₀, hwork, e⟩ := Machine.exec_ofCd hi he
      obtain rfl : k = k₀ := Option.some.inj (hk.symm.trans hk₀)
      have hk₁ : (s.putChannel c k').channels[c]? = (s.putChannel c k₁).channels[c]? := congrArg (·.channels[c]?) e
      rw [putChannel_self s c k k' hk, putChannel_self s c k k₁ hk, Option.some.injEq] at hk₁
      rw [hk₁, hwork.owned.lo]
    exact (h.put hk hlo (fun hp => absurd hp hne) hinv).congr rfl rfl rfl rfl rfl
  | fda _ c _ hi hr he =>
    obtain ⟨k, k', ev, oq, n, hk, hown, -, rfl⟩ := exec_ofFda hi he
    have hinv := (h.channel k (List.mem_of_getElem? hk)).congr (t := s) rfl rfl rfl hown.ch hown.dm hown.cd
    exact (h.put hk hown.lo (fun hp => hown.cd ▸ hp) hinv).congr rfl rfl rfl rfl rfl
  | deliver => exact h.congr rfl rfl rfl rfl rfl
  | feedBlock b hp he hidle hb => exact h.feedBlock hp he hidle hb
  | feedEos _ hidle => exact h.feedEos hidle
  | sysReset => exact h.sysReset
  | sysConfig p ha hp => exact h.sysConfig ha hp

/-- Settles O55: by the effects of a step; of the operations of `CD[c]` only the three that can run in a reachable position
touch the invariant. -/
theorem channelizerInvariantIsKept : Obligations.ChannelizerInvariantIsKept :=
  fun _ _ h hstep => step_keeps (fun _ _ _ _ ht => ht.congr rfl rfl rfl rfl rfl) (fun _ _ he => h.effect he) hstep

end Sys2Proof.Machine
end

section
/-! The ranges of the real quantities over exact reals (spec/10_state.md R25 to R30; spec/30_encoding.md R94;
spec/41_demodulator.md R165). -/

namespace Sys2Proof.Machine

/-! ### The values that the rules compute -/

/-- A magnitude is not negative (R8). -/
theorem cAbs_nonneg (z : Cplx) : 0 ≤ (Numerics.exact.cAbs z).toReal := by
  rw [Numerics.toReal_cAbs]
  exact Real.sqrt_nonneg _

/-- A component is at most the magnitude, so below the magnitude plus `EPS`: the quotient of R156 is inside `(−1, 1)`
(R165 (a)). -/
theorem abs_div_lt_one {x m : ℝ} (h : |x| ≤ m) : |x / (m + 1 / 1000000)| < 1 := by
  have hpos : 0 < m + 1 / 1000000 := by linarith [abs_nonneg x]
  rw [abs_div, abs_of_pos hpos, div_lt_one hpos]
  linarith

theorem abs_normalise_lt (v : Cplx) :
    |(normalise Numerics.exact v (Numerics.exact.cAbs v)).re.toReal| < 1 ∧
      |(normalise Numerics.exact v (Numerics.exact.cAbs v)).im.toReal| < 1 := by
  have hre : |v.re.toReal| ≤ (Numerics.exact.cAbs v).toReal := by
    rw [Numerics.toReal_cAbs]
    exact Real.abs_le_sqrt (by nlinarith [mul_self_nonneg v.im.toReal])
  have him : |v.im.toReal| ≤ (Numerics.exact.cAbs v).toReal := by
    rw [Numerics.toReal_cAbs]
    exact Real.abs_le_sqrt (by nlinarith [mul_self_nonneg v.re.toReal])
  obtain ⟨ere, eim⟩ := Numerics.toReal_cDiv v (Numerics.exact.add (Numerics.exact.cAbs v) Numerics.exact.eps)
  rw [normalise, ere, eim, Numerics.exact_add, Scalar.toReal_add, Numerics.toReal_eps]
  exact ⟨abs_div_lt_one hre, abs_div_lt_one him⟩

/-- The level estimator keeps a level that is not negative (R157, R165 (c)). -/
theorem levelNext_nonneg {lvl m : Scalar} (hlvl : 0 ≤ lvl.toReal) (hm : 0 ≤ m.toReal) :
    0 ≤ (levelNext Numerics.exact lvl m).toReal := by
  simp only [levelNext, Numerics.exact_add, Numerics.exact_mul, Numerics.exact_div, Scalar.toReal_add, Scalar.toReal_mul,
    Scalar.toReal_div, Numerics.toReal_lvlKeep, Numerics.toReal_lvlNew, Numerics.toReal_lvlDiv]
  positivity

/-- The demapper changes signs alone (R158). -/
theorem abs_negIf (b : Bool) (x : Scalar) : |(negIf Numerics.exact b x).toReal| = |x.toReal| := by
  cases b <;> simp [negIf]

theorem abs_demap_lt {u : Cplx} (row : DemapRow) (hu : |u.re.toReal| < 1 ∧ |u.im.toReal| < 1) :
    |(demapSoft Numerics.exact row u).toReal| < 1 ∧ |(demapErr Numerics.exact row u).toReal| < 1 := by
  obtain ⟨hre, him⟩ := hu
  have hvo : |(demapDecision row u).toReal| < 1 := by unfold demapDecision; split_ifs <;> assumption
  have hother : |(demapOther row u).toReal| < 1 := by unfold demapOther; split_ifs <;> assumption
  refine ⟨by rwa [demapSoft, abs_negIf], ?_⟩
  unfold demapErr
  split_ifs <;> rwa [abs_negIf]

/-- The correction of the loop is inside `(−PLLG, PLLG)` (R164, R26). -/
theorem abs_pll_lt {err : Scalar} (h : |err.toReal| < 1) :
    |(Numerics.exact.mul Numerics.exact.pllg err).toReal| < 38 / 10000 := by
  rw [Numerics.exact_mul, Scalar.toReal_mul, Numerics.toReal_pllg, abs_mul, abs_of_pos (by norm_num)]
  linarith

/-! ### What keeps the ranges of a channel -/

/-- Each elementary change of `CD[c]` keeps the ranges. -/
theorem RealChannelInv.change {p : Params} {coef : List Scalar} {k k' : Channel} (hp : p.num = .exact)
    (hc : CdChange p coef k k') (h : RealChannelInv k) : RealChannelInv k' := by
  have hN := Params.numerics_exact p hp
  cases hc with
  | goto | restart | mix | filter | count => exact { h with }
  | dump => exact { h with y := by rw [dumped, envelope, hN]; exact cAbs_nonneg _ }
  | norm => exact { h with m := by rw [hN]; exact cAbs_nonneg _, u := by rw [hN]; exact abs_normalise_lt _ }
  | level => exact { h with lvl := by rw [hN]; exact levelNext_nonneg h.lvl h.m }
  | demap row =>
    exact { h with
      soft := by rw [demapWith, hN]; exact (abs_demap_lt row h.u).1
      err := by rw [hN]; exact (abs_demap_lt row h.u).2 }
  | decide => exact { h with dec := ⟨h.soft, h.lvl⟩ }
  | push =>
    have hqueue : ∀ d ∈ k.bq ++ [k.cd.dec], BitDecision.inRange d := List.forall_mem_append.2
      ⟨h.queue, List.forall_mem_singleton.2 h.dec⟩
    exact { h with queue := hqueue }
  | pll => exact { h with df := by rw [hN]; exact abs_pll_lt h.err }

/-- An operation of `FDA[c]` moves decisions that are in range (R181, R242). -/
theorem RealChannelInv.fda {k k' : Channel} (ho : FdaOwned k k') (h : RealChannelInv k) : RealChannelInv k' := by
  have hd : ∀ d ∈ k.fda.dec :: k.bq, BitDecision.inRange d := List.forall_mem_cons.2 ⟨h.popped, h.queue⟩
  refine ⟨ho.dm ▸ h.df, ho.dm ▸ h.lvl, ho.cd ▸ h.y, ho.cd ▸ h.m, ho.cd ▸ h.u, ho.cd ▸ h.soft, ho.cd ▸ h.err, ho.cd ▸ h.dec,
    fun d hq => h.queue d (ho.bq.subset hq), hd _ ho.dec, ?_⟩
  rcases ho.lvl with e | ⟨d, hmem, e⟩
  · rw [e]
    exact h.level
  · rw [e]
    exact (hd d hmem).2

/-- A channel after `SYS.RESET`: every quantity is 0 (R290). -/
theorem RealChannelInv.afterReset {p : Params} (hp : p.num = .exact) (k : Channel) (n : Nat) :
    RealChannelInv (k.afterReset p n) := by
  have hN := Params.numerics_exact p hp
  constructor <;> norm_num [Channel.afterReset, DmState.reset, CdFlight.reset, FdaFlight.reset, BitDecision.inRange, hN]

/-- Every effect of an operation keeps the ranges. -/
theorem RealInv.effect {s t : State} {i : Instr} (h : RealInv s) (he : Effect s i t) : RealInv t := by
  intro hphase hnum
  cases he with
  | held | deliver | feedEos => exact h hphase hnum
  | cd _ c _ hi hr he =>
    obtain ⟨k, k', ev, hk, hwork, rfl⟩ := exec_ofCd hi he
    intro x hx
    rcases mem_putChannel s c k' x hx with rfl | hx
    · exact hwork.keeps (fun _ _ => RealChannelInv.change hnum) (fun _ ha => { ha with })
        (h hphase hnum k (List.mem_of_getElem? hk))
    · exact h hphase hnum x hx
  | fda _ c _ hi hr he =>
    obtain ⟨k, k', ev, oq, n, hk, hown, -, rfl⟩ := exec_ofFda hi he
    intro x hx
    rcases mem_putChannel s c k' x hx with rfl | hx
    · exact .fda hown (h hphase hnum k (List.mem_of_getElem? hk))
    · exact h hphase hnum x hx
  | feedBlock b hp =>
    intro x hx
    obtain ⟨k, hk, rfl⟩ := List.mem_map.1 hx
    exact { h hp hnum k hk with }
  | sysReset =>
    intro x hx
    obtain ⟨k, -, n, rfl⟩ := mem_resetChannels s x hx
    exact .afterReset hnum k n
  | sysConfig => exact absurd rfl hphase

/-- Settles O56: by the effects of a step; every elementary change of `CD[c]` keeps the ranges, and `FDA[c]` only moves
decisions that are in range. -/
theorem realRangesAreKept : Obligations.RealRangesAreKept :=
  fun _ _ h hstep => step_keeps (fun _ _ _ _ ht => ht) (fun _ _ he => h.effect he) hstep

end Sys2Proof.Machine
end

section
/-! The ranges of the loop over exact reals (spec/10_state.md R25, R27; spec/41_demodulator.md R153, R165 (d)). -/

namespace Sys2Proof.Machine

/-! ### One sample -/

/-- One subtraction of `top` brings a finite value below `2·top` into `[0, top)` (R153). -/
theorem wrapOnce_range {top x : Scalar} (htop : top.finite = true) (hx : x.finite = true) (h0 : 0 ≤ x.toReal)
    (h2 : x.toReal < 2 * top.toReal) :
    0 ≤ (wrapOnce Numerics.exact top x).toReal ∧ (wrapOnce Numerics.exact top x).toReal < top.toReal := by
  unfold wrapOnce
  rw [Numerics.exact_le]
  split_ifs with h
  · rw [Scalar.le_exact top x htop hx] at h
    rw [Numerics.exact_sub, Scalar.toReal_sub]
    constructor <;> linarith
  · rw [Scalar.le_exact top x htop hx, not_le] at h
    exact ⟨h0, h⟩

/-- Under the conditions of R6 one sample keeps the phase and the clock in their ranges: the increment is positive and below
`3π/2`. -/
theorem sampleStep_ranges {p : Params} {dm : DmState} {y : Scalar} (hp : p.num = .exact) (hw : p.w0.finite = true)
    (hloop : 38 / 10000 < p.w0.toReal ∧ p.w0.toReal + 38 / 10000 < 3 * Real.pi / 2) (hphi : dm.phi.finite = true)
    (hclk : dm.clk.finite = true) (hdf : dm.df.finite = true) (hrange : |dm.df.toReal| < 38 / 10000) (h : LoopRanges dm) :
    LoopRanges (sampleStep p dm y) := by
  obtain ⟨hphi0, hphi2, hclk0, hclk2⟩ := h
  obtain ⟨hlow, hhigh⟩ := hloop
  obtain ⟨hdf1, hdf2⟩ := abs_lt.1 hrange
  have hN := Params.numerics_exact p hp
  have hpi := Real.pi_pos
  have hphi' := wrapOnce_range (x := (dm.phi.add (p.w0.add dm.df))) Numerics.finite_twoPi (by simp [hphi, hw, hdf])
    (by simp only [Scalar.toReal_add]; linarith) (by simp only [Scalar.toReal_add, Numerics.toReal_twoPi]; linarith)
  have hclk' := wrapOnce_range (x := (dm.clk.add (p.w0.add dm.df))) Numerics.finite_clkTh (by simp [hclk, hw, hdf])
    (by simp only [Scalar.toReal_add]; linarith) (by simp only [Scalar.toReal_add, Numerics.toReal_clkTh]; linarith)
  rw [Numerics.toReal_twoPi] at hphi'
  rw [Numerics.toReal_clkTh] at hclk'
  simp only [LoopRanges, sampleStep, phiNext, clkSum, increment, hN, Numerics.exact_add]
  exact ⟨hphi'.1, hphi'.2, hclk'.1, hclk'.2⟩

/-! ### Operations -/

/-- No elementary change of `CD[c]` moves the phase or the clock. -/
theorem changes_phase {p : Params} {coef : List Scalar} {k k' : Channel} (h : CdChanges p coef k k') :
    k'.dm.phi = k.dm.phi ∧ k'.dm.clk = k.dm.clk := by
  induction h with
  | refl => exact ⟨rfl, rfl⟩
  | tail _ hstep ih => cases hstep <;> exact ih

/-- An operation of `CD[c]` leaves the phase and the clock alone, or advances them by one sample. -/
theorem CdWork.phase {p : Params} {coef : List Scalar} {k k' : Channel} (h : CdWork p coef k k') :
    k'.dm.phi = k.dm.phi ∧ k'.dm.clk = k.dm.clk ∨
      ∃ y, k'.dm.phi = (sampleStep p k.dm y).phi ∧ k'.dm.clk = (sampleStep p k.dm y).clk := by
  cases h with
  | plain h => exact .inl (changes_phase h)
  | sample k₀ before hdm after =>
    refine .inr ⟨k₀.cd.y, ?_⟩
    rw [← hdm]
    exact changes_phase after

/-- The ranges read the phase and the clock alone. -/
theorem LoopRanges.congr {dm dm' : DmState} (h : LoopRanges dm) (e : dm'.phi = dm.phi ∧ dm'.clk = dm.clk) :
    LoopRanges dm' := by
  rwa [LoopRanges, e.1, e.2]

/-- The conditions of R6 on an admitted configuration, as real numbers. -/
theorem loop_of_admitted {p : Params} (ha : p.admitted = true) (hp : p.num = .exact) :
    38 / 10000 < p.w0.toReal ∧ p.w0.toReal + 38 / 10000 < 3 * Real.pi / 2 := by
  have hloop : p.loopAdmitted = true := by
    simp only [Params.admitted, Bool.and_eq_true] at ha
    tauto
  simp only [Params.loopAdmitted, Params.numerics_exact p hp, Bool.and_eq_true, Numerics.exact_lt, Numerics.exact_add] at hloop
  obtain ⟨hlow, hhigh⟩ := hloop
  obtain ⟨-, hw⟩ := Scalar.finite_of_lt _ _ hlow
  rw [Scalar.lt_exact _ _ Numerics.finite_pllg hw, Numerics.toReal_pllg] at hlow
  rw [Scalar.lt_exact _ _ (by simp [hw]) Numerics.finite_clkTh, Scalar.toReal_add, Numerics.toReal_pllg,
    Numerics.toReal_clkTh] at hhigh
  exact ⟨hlow, hhigh⟩

/-- Every effect of an operation keeps the ranges of the loop. -/
theorem LoopInv.effect {s t : State} {i : Instr} (hfin : FiniteInv s) (hreal : RealInv s) (h : LoopInv s)
    (he : Effect s i t) : LoopInv t := by
  obtain ⟨hcfg, hranges⟩ := h
  cases he with
  | held | deliver | feedEos => exact ⟨hcfg, hranges⟩
  | cd _ c _ hi hr he =>
    obtain ⟨k, k', ev, hk, hwork, rfl⟩ := exec_ofCd hi he
    refine ⟨hcfg, fun hphase hnum x hx => ?_⟩
    rcases mem_putChannel s c k' x hx with rfl | hx
    · have hmem := List.mem_of_getElem? hk
      have hk := hranges hphase hnum k hmem
      rcases hwork.phase with e | ⟨y, e⟩
      · exact hk.congr e
      · have hf := hfin.channel k hmem
        exact (sampleStep_ranges (y := y) hnum hfin.increment (hcfg hnum) hf.phi hf.clk hf.df (hreal hphase hnum k hmem).df
          hk).congr e
    · exact hranges hphase hnum x hx
  | fda _ c _ hi hr he =>
    obtain ⟨k, k', ev, oq, n, hk, hown, -, rfl⟩ := exec_ofFda hi he
    refine ⟨hcfg, fun hphase hnum x hx => ?_⟩
    rcases mem_putChannel s c k' x hx with rfl | hx
    · exact hown.dm ▸ hranges hphase hnum k (List.mem_of_getElem? hk)
    · exact hranges hphase hnum x hx
  | feedBlock b hp =>
    refine ⟨hcfg, fun _ hnum x hx => ?_⟩
    obtain ⟨k, hk, rfl⟩ := List.mem_map.1 hx
    exact hranges hp hnum k hk
  | sysReset =>
    refine ⟨hcfg, fun _ hnum x hx => ?_⟩
    obtain ⟨k, -, n, rfl⟩ := mem_resetChannels s x hx
    have hzero : s.cfg.numerics.zero.toReal = 0 := by simp [Params.numerics_exact s.cfg hnum]
    simp only [LoopRanges, Channel.afterReset, DmState.reset, hzero]
    have hpi := Real.pi_pos
    refine ⟨le_rfl, by linarith, le_rfl, by linarith⟩
  | sysConfig p ha => exact ⟨loop_of_admitted ha, fun hphase => absurd rfl hphase⟩

/-- Settles O60: by the effects of a step; the increment of a sample is positive and below both tops, so that one
subtraction is enough. -/
theorem loopRangesAreKept : Obligations.LoopRangesAreKept :=
  fun _ _ hfin hreal h hstep =>
    step_keeps (fun _ _ _ _ ht => ht) (fun _ _ he => h.effect hfin hreal he) hstep

end Sys2Proof.Machine
end

section
/-! Isolation of the channel agents (spec/10_state.md R21; spec/20_memory.md R79): the operations of `CD[c]` on two states that
agree on what `CD[c]` can see. -/

namespace Sys2Proof.Machine

/-- The two states agree on what `CD[c]` can see (R21, R79). -/
structure Agree (c : Nat) (s₁ s₂ : State) : Prop where
  cfg : s₁.cfg = s₂.cfg
  coef : s₁.coef = s₂.coef
  blk : s₁.blk = s₂.blk
  eos : s₁.eos = s₂.eos
  channel : s₁.channels[c]? = s₂.channels[c]?

/-- The two answers are alike, and two next states agree on what `CD[c]` can see. -/
inductive SameAnswer (c : Nat) : Result → Result → Prop where
  | next {t₁ t₂ : State} (h : Agree c t₁ t₂) : SameAnswer c (.next t₁) (.next t₂)
  | fault (f : Fault) : SameAnswer c (.fault f) (.fault f)
  | refused (q : Refusal) : SameAnswer c (.refused q) (.refused q)

section
variable {c : Nat} {s₁ s₂ : State} (h : Agree c s₁ s₂)
include h

/-! ### The shared operations -/

theorem Agree.put (k : Channel) : Agree c (s₁.putChannel c k) (s₂.putChannel c k) :=
  ⟨h.cfg, h.coef, h.blk, h.eos, by simp [List.getElem?_set_self', h.channel]⟩

theorem Agree.raiseIf (b : Bool) (e : Event) : Agree c (s₁.raiseIf b e) (s₂.raiseIf b e) :=
  ⟨h.cfg, h.coef, h.blk, h.eos, h.channel⟩

/-- An operation of channel `c` meets the same channel. -/
theorem Agree.onChannel {f₁ f₂ : Channel → Result} (hf : ∀ k, SameAnswer c (f₁ k) (f₂ k)) :
    SameAnswer c (onChannel c s₁ f₁) (onChannel c s₂ f₂) := by
  unfold Machine.onChannel
  rw [h.channel]
  cases s₂.channels[c]? with
  | some k => exact hf k
  | none => exact .fault _

/-- An operation that replaces its channel. -/
theorem Agree.update (f : Channel → Channel) : SameAnswer c (updateChannel c s₁ f) (updateChannel c s₂ f) :=
  h.onChannel fun _ => .next (h.put _)

omit h in
/-- The next line of a composite. -/
theorem SameAnswer.chain {r₁ r₂ : Result} {f : State → Result} (hr : SameAnswer c r₁ r₂)
    (hf : ∀ t₁ t₂, Agree c t₁ t₂ → SameAnswer c (f t₁) (f t₂)) : SameAnswer c (chain r₁ f) (chain r₂ f) := by
  cases hr with
  | next ht => exact hf _ _ ht
  | fault f => exact .fault f
  | refused q => exact .refused q

/-! ### The Demodulator -/

theorem Agree.execDmMf : SameAnswer c (execDmMf c s₁) (execDmMf c s₂) := by
  simp only [Machine.execDmMf, h.cfg, h.coef]
  exact h.update _

theorem Agree.execDmNorm : SameAnswer c (execDmNorm c s₁) (execDmNorm c s₂) := by
  simp only [Machine.execDmNorm, h.cfg]
  exact h.onChannel fun k => .next ((h.put _).raiseIf _ _)

theorem Agree.execDmLevel : SameAnswer c (execDmLevel c s₁) (execDmLevel c s₂) := by
  simp only [Machine.execDmLevel, h.cfg]
  exact h.update _

/-- A demapper operation, by the row it reads. -/
theorem Agree.demap (row : Params → DemapRow) :
    SameAnswer c (updateChannel c s₁ (demapWith s₁.cfg.numerics (row s₁.cfg)))
      (updateChannel c s₂ (demapWith s₂.cfg.numerics (row s₂.cfg))) := by
  rw [h.cfg]
  exact h.update _

theorem Agree.demapBySymbolPhase : SameAnswer c (demapBySymbolPhase c s₁) (demapBySymbolPhase c s₂) := by
  refine h.onChannel fun k => ?_
  generalize k.dm.s.toNat = n
  match n with
  | 0 => exact h.demap (·.demap.row0)
  | 1 => exact h.demap (·.demap.row1)
  | 2 => exact h.demap (·.demap.row2)
  | _ + 3 => exact h.demap (·.demap.row3)

theorem Agree.execBqPush : SameAnswer c (execBqPush c s₁) (execBqPush c s₂) := by
  refine h.onChannel fun k => ?_
  rw [h.cfg]
  cases push s₂.cfg.bqCap k.bq k.cd.dec with
  | some q => exact .next (h.put _)
  | none => exact .next h

theorem Agree.execDmEmit : SameAnswer c (execDmEmit c s₁) (execDmEmit c s₂) :=
  h.onChannel fun _ => (h.put _).execBqPush

theorem Agree.execDmPll : SameAnswer c (execDmPll c s₁) (execDmPll c s₂) := by
  simp only [Machine.execDmPll, h.cfg]
  exact h.update _

theorem Agree.symbolTail : SameAnswer c (symbolTail c s₁) (symbolTail c s₂) := by
  refine h.onChannel fun k => ?_
  split_ifs
  · exact (h.put _).execDmPll
  · exact .next h

theorem Agree.execDmSymbol : SameAnswer c (execDmSymbol c s₁) (execDmSymbol c s₂) := by
  refine h.onChannel fun k => ?_
  generalize k.cd.pos = pos
  cases pos
  case push => exact h.execBqPush.chain fun _ _ ht => ht.symbolTail
  case tail => exact h.symbolTail
  all_goals
    exact h.execDmMf.chain fun _ _ h => h.execDmNorm.chain fun _ _ h => h.execDmLevel.chain fun _ _ h =>
      h.demapBySymbolPhase.chain fun _ _ h => h.execDmEmit.chain fun _ _ h => h.symbolTail

theorem Agree.execDmSample : SameAnswer c (execDmSample c s₁) (execDmSample c s₂) := by
  simp only [Machine.execDmSample, h.cfg]
  refine h.onChannel fun k => ?_
  split_ifs
  · exact (h.put _).execDmSymbol
  · exact .next (h.put _)
  · exact .refused _

/-! ### The Channelizer -/

theorem Agree.execChDump : SameAnswer c (execChDump c s₁) (execChDump c s₂) := by
  simp only [Machine.execChDump, h.cfg]
  exact h.onChannel fun _ => (h.put _).execDmSample

theorem Agree.execChBlock : SameAnswer c (execChBlock c s₁) (execChBlock c s₂) := by
  simp only [Machine.execChBlock, h.cfg, h.blk, h.eos]
  refine h.onChannel fun k => ?_
  split_ifs
  · exact .next h
  · exact .refused _
  · exact .next (h.put _)

theorem Agree.execChSample : SameAnswer c (execChSample c s₁) (execChSample c s₂) := by
  simp only [Machine.execChSample, h.cfg, h.blk]
  refine h.onChannel fun k => ?_
  cases s₂.blk[k.ch.n]? with
  | none => exact .fault _
  | some x =>
    dsimp only
    split_ifs
    · cases k.lo[k.ch.n]? with
      | none => exact .refused _
      | some w =>
        dsimp only
        split_ifs
        · exact (h.put _).execChDump
        · exact .next (h.put _)
    · exact .refused _

/-- Every operation of `CD[c]`. -/
theorem Agree.exec {i : Instr} (hi : i.ofCd = some c) : SameAnswer c (exec i s₁) (exec i s₂) := by
  cases i <;> simp only [Instr.ofCd, Option.some.injEq, reduceCtorEq] at hi <;> subst hi
  case chBlock => exact h.execChBlock
  case chSample => exact h.execChSample
  case chDump => exact h.execChDump
  case dmSample => exact h.execDmSample
  case dmSymbol => exact h.execDmSymbol
  case dmMf => exact h.execDmMf
  case dmNorm => exact h.execDmNorm
  case dmLevel => exact h.execDmLevel
  case dmDemap0 => exact h.demap (·.demap.row0)
  case dmDemap1 => exact h.demap (·.demap.row1)
  case dmDemap2 => exact h.demap (·.demap.row2)
  case dmDemap3 => exact h.demap (·.demap.row3)
  case dmEmit => exact h.execDmEmit
  case dmPll => exact h.execDmPll
  case bqPush => exact h.execBqPush

end

/-- Settles O50: line by line, each shared operation keeps two states that agree in agreement. -/
theorem cdSeesOnlyItsChannel : Obligations.CdSeesOnlyItsChannel := by
  intro i c s₁ s₂ hi hcfg hcoef hblk heos hch
  have h : SameAnswer c (exec i s₁) (exec i s₂) := Agree.exec ⟨hcfg, hcoef, hblk, heos, hch⟩ hi
  cases hr₁ : exec i s₁ <;> cases hr₂ : exec i s₂ <;> rw [hr₁, hr₂] at h <;> cases h
  · exact Agree.channel ‹_›
  · rfl
  · rfl

end Sys2Proof.Machine
end

section
/-! Whose operation a step runs (spec/00_scope.md R9; spec/30_encoding.md R90): the selected operation is one of the agent or
port that has the turn. -/

namespace Sys2Proof

/-- The operations of the agent or port that has the turn (R9, R90). -/
def Turn.Owns : Turn → Instr → Prop
  | .cd c, i => i.ofCd = some c
  | .fda c, i => i.ofFda = some c
  | .disp, i => i = .dispDeliver
  | .feed, i => ∃ b, i = .feedBlock b
  | .eos, i => i = .feedEos
  | .config, i => ∃ p, i = .sysConfig p
  | .reset, i => i = .sysReset
  | .sink _, _ => False

/-- An operation of `CD[c]` is run in a turn of `CD[c]` alone. -/
theorem Turn.Owns.eq_cd {t : Turn} {i : Instr} {c : Nat} (h : t.Owns i) (hi : i.ofCd = some c) : t = .cd c := by
  cases t with
  | cd d => rw [Option.some.inj (hi.symm.trans h)]
  | fda d => simp [Turn.Owns, Instr.ofFda, hi] at h
  | feed | config => obtain ⟨_, rfl⟩ := h; cases hi
  | disp | eos | reset => subst h; cases hi
  | sink b => exact h.elim

/-- An operation of `FDA[c]` is run in a turn of `FDA[c]` alone. -/
theorem Turn.Owns.eq_fda {t : Turn} {i : Instr} {c : Nat} (h : t.Owns i) (hi : i.ofFda = some c) : t = .fda c := by
  cases t with
  | fda d => rw [Option.some.inj (hi.symm.trans h)]
  | cd d =>
    have hcd : i.ofCd = some d := h
    simp [Instr.ofFda, hcd] at hi
  | feed | config => obtain ⟨_, rfl⟩ := h; cases hi
  | disp | eos | reset => subst h; cases hi
  | sink b => exact h.elim

/-- `SYS.RESET` is run in a turn of its port alone. -/
theorem Turn.Owns.eq_reset {t : Turn} (h : t.Owns .sysReset) : t = .reset := by
  cases t <;> simp [Turn.Owns, Instr.ofFda, Instr.ofCd, Instr.channel?] at h ⊢

/-- `SYS.CONFIG` is run in a turn of its port alone. -/
theorem Turn.Owns.eq_config {t : Turn} {p : Params} (h : t.Owns (.sysConfig p)) : t = .config := by
  cases t <;> simp [Turn.Owns, Instr.ofFda, Instr.ofCd, Instr.channel?] at h ⊢

end Sys2Proof

namespace Sys2Proof.Machine

/-- What selects in a turn of `CD[c]` selects an operation of `CD[c]`. -/
theorem ofCd_of_cdSelector {cc : ControlChars} {c : Nat} {k : Channel} {sel : Selector} {i : Instr}
    (hs : Channel.cdSelector c k = some sel) (hd : decode cc sel = .ok i) : i.ofCd = some c := by
  unfold Channel.cdSelector at hs
  cases hp : k.cd.pos <;> simp only [hp, reduceCtorEq, Option.some.injEq] at hs <;> subst hs
  case demap =>
    simp only [decode, decodeDemap, Except.ok.injEq] at hd
    split at hd <;> subst hd <;> rfl
  all_goals
    cases hd
    rfl

/-- The key of a stage and a byte selects what `decodeByte` answers (R103). -/
theorem decode_stageKey (cc : ControlChars) (c : Nat) (st : Stage) (r : Byte) (len : Nat) :
    decode cc (.fdKey c (stageKey st.number r) len) = decodeByte cc c st r len :=
  Laws.RoundTrip.decode_encodeByte cc c st r len

/-- What selects in a turn of `FDA[c]` selects an operation of `FDA[c]`. -/
theorem ofFda_of_fdaSelector {cc : ControlChars} {c : Nat} {k : Channel} {i : Instr}
    (hd : decode cc (Channel.fdaSelector c k) = .ok i) : i.ofFda = some c := by
  unfold Channel.fdaSelector at hd
  cases hp : k.fda.pos <;> simp only [hp] at hd
  case stage =>
    rw [decode_stageKey] at hd
    exact (ofFda_of_decodeByte hd).1
  case opt =>
    simp only [decode, decodeBlockByte] at hd
    split_ifs at hd
    · split at hd <;> cases hd <;> rfl
    · cases hd
      rfl
  all_goals
    cases hd
    rfl

/-- The selected operation is one of the agent or port that has the turn. -/
theorem owns_of_select {s : State} {t : Turn} {sel : Selector} {i : Instr} (hs : select t s = some sel)
    (hd : decode s.cfg.chars sel = .ok i) : t.Owns i := by
  cases t with
  | cd c =>
    obtain ⟨k, -, hk⟩ := Option.bind_eq_some_iff.1 hs
    exact ofCd_of_cdSelector hk hd
  | fda c =>
    obtain ⟨k, -, rfl⟩ := Option.map_eq_some_iff.1 hs
    exact ofFda_of_fdaSelector hd
  | disp =>
    cases hs
    cases hd
    rfl
  | feed | config =>
    simp only [select] at hs
    split at hs
    · split_ifs at hs
      cases hs
      cases hd
      exact ⟨_, rfl⟩
    · cases hs
  | eos | reset =>
    simp only [select] at hs
    split_ifs at hs
    cases hs
    cases hd
    rfl
  | sink b => cases hs

/-- A step that has selected an operation answers what the operation answers, the schedule moved on. -/
theorem step_eq_finish {s : State} {sel : Selector} {i : Instr} (hs : select s.turn s = some sel)
    (hd : decode s.cfg.chars sel = .ok i) : step s = finish (exec i s) := by
  rw [step_of_select s sel hs, hd]

/-- A step in which no operation is selected completes; of the state the schedule and the sink's readiness alone change. -/
theorem step_unselected {s : State} (hs : select s.turn s = none) :
    ∃ b, step s = .next { s with sinkReady := b }.advance := by
  by_cases hsink : ∃ b, s.turn = .sink b
  · obtain ⟨b, hb⟩ := hsink
    exact ⟨b, step_sink s b hb⟩
  · exact ⟨s.sinkReady, step_of_select_none s (fun b hb => hsink ⟨b, hb⟩) hs⟩

/-- What a step that completes did: at most the sink changed its readiness, or an operation of the agent or port that has the
turn had its effect; and the schedule moved on. -/
theorem step_effect {s s' : State} (h : step s = .next s') :
    (∃ b, s' = { s with sinkReady := b }.advance) ∨ ∃ i t, s.turn.Owns i ∧ Effect s i t ∧ s' = t.advance := by
  cases hs : select s.turn s with
  | none =>
    obtain ⟨b, hb⟩ := step_unselected hs
    exact .inl ⟨b, Host.Outcome.next.inj (h.symm.trans hb)⟩
  | some sel =>
    cases hd : decode s.cfg.chars sel with
    | error e => simp [step_of_select s sel hs, hd] at h
    | ok i =>
      rw [step_eq_finish hs hd] at h
      cases he : exec i s with
      | next t =>
        rw [he] at h
        cases h
        exact .inr ⟨i, t, owns_of_select hs hd, effect_of_exec (runs_of_select s s.turn sel i hs hd) he, rfl⟩
      | fault f => simp [he, finish] at h
      | refused q => simp [he, finish] at h

end Sys2Proof.Machine
end

section
/-! Bits and bytes from the decision queue (spec/20_memory.md R67, R72; spec/30_encoding.md R102; spec/42_frame_decoder.md
R181; spec/44_queues_dispatch.md R242). -/

namespace Sys2Proof.Machine

/-- A channel whose `FDA[c]` has the decision `d` taken from the queue, `q` being left (R242). -/
def Channel.popped (k : Channel) (d : BitDecision) (q : List BitDecision) : Channel :=
  { k with bq := q, fda := { k.fda with dec := d, pos := .bit } }

/-- A channel with the decision `d` taken and shifted in, at position `pos` (R181, R242). -/
def Channel.took (N : Numerics) (k : Channel) (d : BitDecision) (q : List BitDecision) (pos : FdaPos) : Channel :=
  { k with
    bq := q
    fd := { k.fd with sr := shiftIn k.fd.sr (hardBit N d.soft), nb := k.fd.nb - 1 }
    fda := { k.fda with dec := d, lvl := d.lvl, pos := pos } }

/-- `BQ.POP` on an empty queue holds (R72). -/
theorem execBqPop_nil {c : Nat} {s : State} {k : Channel} (hk : s.channels[c]? = some k) (hq : k.bq = []) :
    execBqPop c s = .next s := by
  simp [execBqPop, onChannel_some c s _ k hk, hq, pop, hold]

/-- `BQ.POP` of a decision: the byte goes on, or the stage operation that the completed byte selects runs (R181, R242). -/
theorem execBqPop_cons {c : Nat} {s : State} {k : Channel} {d : BitDecision} {q : List BitDecision}
    (hk : s.channels[c]? = some k) (hq : k.bq = d :: q) :
    execBqPop c s =
      if k.fd.nb - 1 = 0 then
        match decodeByte s.cfg.chars c k.fd.stage (shiftIn k.fd.sr (hardBit s.cfg.numerics d.soft)) k.fd.len with
        | .ok i => exec i (s.putChannel c (k.took s.cfg.numerics d q .stage))
        | .error e => .refused (.noOperation e)
      else .next (s.putChannel c (k.took s.cfg.numerics d q .pop)) := by
  rw [execBqPop_some c s k d q hk hq, execFdBit_some c _ _ (putChannel_self s c k _ hk)]
  simp only [putChannel_putChannel, State.putChannel_cfg]
  rfl

/-- `BQ.POP` of a decision that does not complete a byte. -/
theorem execBqPop_of_two_le {c : Nat} {s : State} {k : Channel} {d : BitDecision} {q : List BitDecision}
    (hk : s.channels[c]? = some k) (hq : k.bq = d :: q) (hn : 2 ≤ k.fd.nb) :
    execBqPop c s = .next (s.putChannel c (k.took s.cfg.numerics d q .pop)) := by
  rw [execBqPop_cons hk hq, if_neg (by omega)]

/-- Settles O39: by the closed form of `BQ.POP`; a decision that leaves a bit missing ends the operation. -/
theorem bqPopTakesTheOldestOrHolds : Obligations.BqPopTakesTheOldestOrHolds := by
  intro s c k hk
  exact ⟨fun d q hq => ⟨execBqPop_some c s k d q hk hq, execBqPop_of_two_le hk hq⟩, execBqPop_nil hk⟩

/-! ### The byte of eight decisions -/

/-- The shift register after decisions were shifted in, the first one first (R181). -/
def shiftAll (N : Numerics) (sr : Byte) (ds : List BitDecision) : Byte :=
  ds.foldl (fun r d => shiftIn r (hardBit N d.soft)) sr

/-- The number that decisions stand for, least significant bit first (R67, R102 (a)). -/
def bitsValue (N : Numerics) (ds : List BitDecision) : Nat :=
  ∑ j ∈ Finset.range ds.length, if (ds[j]?.any fun d => hardBit N d.soft) then 2 ^ j else 0

/-- The first decision is bit 0, the others stand one place higher. -/
theorem bitsValue_cons (N : Numerics) (d : BitDecision) (ds : List BitDecision) :
    bitsValue N (d :: ds) = (hardBit N d.soft).toNat + 2 * bitsValue N ds := by
  have hbit : (if hardBit N d.soft then 2 ^ 0 else 0) = (hardBit N d.soft).toNat := by
    cases hardBit N d.soft <;> rfl
  simp only [bitsValue, List.length_cons, Finset.sum_range_succ', List.getElem?_cons_succ, List.getElem?_cons_zero,
    Option.any_some, hbit, Finset.mul_sum, mul_ite, mul_zero, pow_succ']
  exact Nat.add_comm _ _

/-- A shift halves the register and sets bit 7 (R181). -/
theorem toNat_shiftIn (r : Byte) (b : Bool) : (shiftIn r b).toNat = r.toNat / 2 + 128 * b.toNat := by
  have hlow : r.toNat / 2 < 2 ^ 7 := by have := r.isLt; omega
  have hbit : ((if b then 1#8 else 0#8) <<< 7).toNat = 2 ^ 7 * b.toNat := by cases b <;> rfl
  rw [shiftIn, BitVec.toNat_or, hbit, BitVec.toNat_ushiftRight, Nat.shiftRight_eq_div_pow, pow_one, Nat.or_comm,
    ← Nat.two_pow_add_eq_or_of_lt hlow]
  omega

/-- Shifting decisions in: they enter above the register, which moves down by one place for each. -/
theorem toNat_shiftAll (N : Numerics) (r : Byte) (ds : List BitDecision) :
    (shiftAll N r ds).toNat = (r.toNat + 256 * bitsValue N ds) / 2 ^ ds.length := by
  induction ds generalizing r with
  | nil => simp [shiftAll, bitsValue]
  | cons d ds ih =>
    have hhalf : r.toNat / 2 + 128 * (hardBit N d.soft).toNat + 256 * bitsValue N ds =
        (r.toNat + 256 * bitsValue N (d :: ds)) / 2 := by
      rw [bitsValue_cons]
      omega
    calc (shiftAll N (shiftIn r (hardBit N d.soft)) ds).toNat
        = (r.toNat + 256 * bitsValue N (d :: ds)) / 2 / 2 ^ ds.length := by rw [ih, toNat_shiftIn, hhalf]
      _ = (r.toNat + 256 * bitsValue N (d :: ds)) / 2 ^ (d :: ds).length := by
        rw [Nat.div_div_eq_div_mul, List.length_cons, pow_succ']

/-- Eight decisions push out all that the register held (R67, R102 (a)). -/
theorem toNat_shiftAll_of_eight (N : Numerics) (r : Byte) {ds : List BitDecision} (hlen : ds.length = 8) :
    (shiftAll N r ds).toNat = bitsValue N ds := by
  have hr := r.isLt
  rw [toNat_shiftAll, hlen]
  omega

/-- A sequence of one operation is that operation. -/
theorem runOps_singleton (i : Instr) (s : State) : runOps [i] s = exec i s := by
  unfold runOps
  cases exec i s <;> rfl

/-- Pops that complete no byte: the decisions are shifted in, and of the flight the popped decision, its level and the
position alone change. -/
theorem runOps_bqPop {c : Nat} {s : State} {k : Channel} (ds rest : List BitDecision) (hk : s.channels[c]? = some k)
    (hq : k.bq = ds ++ rest) (hn : ds.length < k.fd.nb) :
    ∃ d l pos, runOps (List.replicate ds.length (.bqPop c)) s =
      .next (s.putChannel c
        { k with
          fd := { k.fd with sr := shiftAll s.cfg.numerics k.fd.sr ds, nb := k.fd.nb - ds.length }
          bq := rest
          fda := { k.fda with dec := d, lvl := l, pos := pos } }) := by
  induction ds generalizing s k with
  | nil =>
    refine ⟨k.fda.dec, k.fda.lvl, k.fda.pos, ?_⟩
    have hbq : k.bq = rest := hq
    rw [List.length_nil, List.replicate_zero, runOps_nil, ← hbq]
    exact congrArg _ (putChannel_of_channel hk).symm
  | cons d ds ih =>
    rw [List.length_cons] at hn ⊢
    rw [List.replicate_succ, runOps_cons _ _ _ _ (by exact execBqPop_of_two_le hk hq (by omega))]
    obtain ⟨d', l, pos, hrun⟩ := ih (putChannel_self s c k (k.took s.cfg.numerics d (ds ++ rest) .pop) hk) rfl
      (by simp only [Channel.took]; omega)
    refine ⟨d', l, pos, hrun.trans ?_⟩
    simp only [putChannel_putChannel, Channel.took, shiftAll, List.foldl_cons, State.putChannel_cfg, Nat.sub_sub,
      Nat.add_comm]

/-- Settles O22: seven pops shift seven decisions in, and the eighth completes the byte. -/
theorem eightDecisionsMakeAByte : Obligations.EightDecisionsMakeAByte := by
  intro s c k ds rest d hk hnb hlen hd hq
  refine ⟨shiftAll s.cfg.numerics k.fd.sr ds, ?_, fun i hi => ?_⟩
  · rw [toNat_shiftAll_of_eight _ _ hlen, bitsValue, hlen]
  · obtain ⟨pre, rfl⟩ : ∃ pre, ds = pre ++ [d] := by
      rw [← List.getLast?_eq_some_iff, List.getLast?_eq_getElem?, hlen]
      exact hd
    have hpre : pre.length = 7 := by simpa using hlen
    obtain ⟨d', l, pos, hrun⟩ := runOps_bqPop pre (d :: rest) hk (by simpa using hq) (by omega)
    have hbyte : shiftIn (shiftAll s.cfg.numerics k.fd.sr pre) (hardBit s.cfg.numerics d.soft) =
        shiftAll s.cfg.numerics k.fd.sr (pre ++ [d]) := by simp [shiftAll]
    rw [hpre] at hrun
    rw [List.replicate_succ', runOps_append _ _ _ _ hrun, runOps_singleton]
    refine (execBqPop_cons (putChannel_self s c k _ hk) rfl).trans ?_
    simp only [State.putChannel_cfg, hbyte, hnb, hi, if_true, putChannel_putChannel, Channel.took, Nat.reduceSub]

end Sys2Proof.Machine
end

section
/-! What an operation of `FDA[c]` does to the decision queue, to the byte store and to the output queue, and the frame of
every operation on the byte store (spec/20_memory.md R65, R70 to R73). -/

namespace Sys2Proof.Machine

/-- What an operation of `FDA[c]` makes of its channel `k` and of the output queue, the decision it works on already taken: the
decisions stay, at most the byte at `idx` is stored, and at most the frame in flight is queued, where there is room (R65,
R71). -/
structure FdaMoved (idx : Option Nat) (s t : State) (k k' : Channel) : Prop where
  bq : k'.bq = k.bq
  dec : k'.fda.dec = k.fda.dec
  buf : k'.fd.buf = k.fd.buf ∨ ∃ a b, idx = some a ∧ k'.fd.buf = k.fd.buf.write a b
  oq : t.oq = s.oq ∨ s.oq.length < s.cfg.oqCap ∧ t.oq = s.oq ++ [k'.fda.frame]

/-- `FDA[c]` ran an operation that finds channel `k`. -/
def FdaMoves (c : Nat) (idx : Option Nat) (s t : State) (k : Channel) : Prop :=
  ∃ k', t.channels[c]? = some k' ∧ FdaMoved idx s t k k'

/-- An operation that leaves queues and store alone, whatever it adds to the trace and to the count of draws. -/
theorem FdaMoves.still {c : Nat} {idx : Option Nat} {s : State} {k k' : Channel} {ev : List Event} {n : Nat}
    (hk : s.channels[c]? = some k)
    (h : k' = { k' with bq := k.bq, fd := { k'.fd with buf := k.fd.buf }, fda := { k'.fda with dec := k.fda.dec } }) :
    FdaMoves c idx s { s.putChannel c k' with events := ev, draws := n } k := by
  refine ⟨k', putChannel_self s c k k' hk, ?_⟩
  rw [h]
  exact ⟨rfl, rfl, .inl rfl, .inl rfl⟩

/-- An operation that stores one byte. -/
theorem FdaMoves.store {c a : Nat} {b : Byte} {s : State} {k k' : Channel} {ev : List Event} (hk : s.channels[c]? = some k)
    (hbq : k'.bq = k.bq) (hdec : k'.fda.dec = k.fda.dec) (hbuf : k'.fd.buf = k.fd.buf.write a b) :
    FdaMoves c (some a) s { s.putChannel c k' with events := ev } k :=
  ⟨k', putChannel_self s c k k' hk, hbq, hdec, .inr ⟨a, b, rfl, hbuf⟩, .inl rfl⟩

/-- An operation that first replaces its channel by one with the same queue, decision and store. -/
theorem FdaMoves.of_put {c : Nat} {idx : Option Nat} {s t : State} {k k₀ : Channel}
    (h : FdaMoves c idx (s.putChannel c k₀) t k₀) (hbq : k₀.bq = k.bq) (hdec : k₀.fda.dec = k.fda.dec)
    (hbuf : k₀.fd.buf = k.fd.buf) : FdaMoves c idx s t k := by
  obtain ⟨k', hk', hm⟩ := h
  exact ⟨k', hk', hm.bq.trans hbq, hm.dec.trans hdec, hbuf ▸ hm.buf, hm.oq⟩

/-- An operation that replaces its channel, leaving queues and store alone, whatever it adds to the trace. -/
theorem updateChannel_moves {c : Nat} {idx : Option Nat} {s t : State} {k : Channel} {ev : List Event}
    {f : Channel → Channel} (hk : s.channels[c]? = some k)
    (hf : f k = { f k with bq := k.bq, fd := { (f k).fd with buf := k.fd.buf }, fda := { (f k).fda with dec := k.fda.dec } })
    (h : updateChannel c { s with events := ev } f = .next t) : FdaMoves c idx s t k := by
  obtain ⟨k', hk', rfl⟩ := updateChannel_next c _ t f h
  obtain rfl : k = k' := Option.some.inj (hk.symm.trans hk')
  exact .still (ev := ev) (n := s.draws) hk hf

/-- The stores of the text operations (R188, R189). -/
theorem storeCharacter_moves {c : Nat} {s t : State} {k : Channel} {ch : Byte} {st : Stage} (hk : s.channels[c]? = some k)
    (h : storeCharacter c s ch st = .next t) : FdaMoves c (some k.fd.len) s t k := by
  obtain ⟨k', hk', -, rfl⟩ := storeCharacter_next c s t ch st h
  obtain rfl : k = k' := Option.some.inj (hk.symm.trans hk')
  exact .store (ev := s.events) hk rfl rfl rfl

/-- `BP.PARSE` (R211). -/
theorem execBpParse_moves {c : Nat} {idx : Option Nat} {s t : State} {k : Channel} (hk : s.channels[c]? = some k)
    (h : execBpParse c s = .next t) : FdaMoves c idx s t k := by
  by_cases hl : k.fd.len ≤ Config.blkMax
  · rw [execBpParse_some c s k hk hl] at h
    cases h
    exact .still (n := s.draws) hk rfl
  · rw [execBpParse, onChannel_some c s _ k hk, if_neg hl] at h
    cases h

/-- `OQ.PUSH` (R244). -/
theorem execOqPush_moves {c : Nat} {idx : Option Nat} {s t : State} {k : Channel} (hk : s.channels[c]? = some k)
    (h : execOqPush c s = .next t) : FdaMoves c idx s t k := by
  rw [execOqPush, onChannel_some c s _ k hk] at h
  split at h <;> cases h
  · obtain ⟨hroom, rfl⟩ := (push_eq_some _ _ _ _).1 ‹_›
    exact ⟨_, putChannel_self s c k (k.fdaGoto .resync) hk, rfl, rfl, .inl rfl, .inr ⟨hroom, rfl⟩⟩
  · exact ⟨k, hk, rfl, rfl, .inl rfl, .inl rfl⟩

/-- `FD.DONE` from its push on (R193, R244). -/
theorem dispatched_moves {c : Nat} {idx : Option Nat} {s : State} {k k₀ : Channel} {ev : List Event}
    (hk : s.channels[c]? = some k) (hbq : k₀.bq = k.bq) (hdec : k₀.fda.dec = k.fda.dec) (hbuf : k₀.fd.buf = k.fd.buf) :
    FdaMoves c idx s { dispatched c s k₀ with events := ev } k := by
  unfold dispatched
  split_ifs with hroom
  · exact ⟨_, putChannel_self s c k (stageMiss s.cfg k₀) hk, hbq, hdec, .inl hbuf, .inr ⟨hroom, rfl⟩⟩
  · exact ⟨_, putChannel_self s c k k₀ hk, hbq, hdec, .inl hbuf, .inl rfl⟩

/-- `FD.DONE`, resumed after its push (R193). -/
theorem execFdDone_resync {c : Nat} {s : State} {k : Channel} (hk : s.channels[c]? = some k) (hp : k.fda.pos = .resync) :
    execFdDone c s = .next (s.putChannel c (stageMiss s.cfg k)) := by
  simp [execFdDone, frameTail, onChannel_some c s _ k hk, hp]

/-- `FD.DONE` on a length outside the parser's domain stops (R66, R219). -/
theorem execFdDone_fault {c : Nat} {s : State} {k : Channel} (hk : s.channels[c]? = some k) (hp : k.fda.pos ≠ .push)
    (hr : k.fda.pos ≠ .resync) (hl : ¬k.fd.len ≤ Config.blkMax) :
    execFdDone c s = .fault (.bufferIndex (k.fd.len - 1)) := by
  rw [execFdDone, onChannel_some c s _ k hk]
  split
  · exact absurd ‹_› hp
  · exact absurd ‹_› hr
  · rw [execBpParse, onChannel_some c s _ k hk, if_neg hl, chain_of_fault]

/-- `FD.DONE` (R193): resumed at its push, resumed after it, or whole. -/
theorem execFdDone_moves {c : Nat} {idx : Option Nat} {s t : State} {k : Channel} (hk : s.channels[c]? = some k)
    (h : execFdDone c s = .next t) : FdaMoves c idx s t k := by
  by_cases hp : k.fda.pos = .push
  · rw [execFdDone_held c s k hk hp] at h
    cases h
    exact dispatched_moves (ev := (dispatched c s k).events) hk rfl rfl rfl
  by_cases hr : k.fda.pos = .resync
  · rw [execFdDone_resync hk hr] at h
    cases h
    exact .still (ev := s.events) (n := s.draws) hk rfl
  by_cases hl : k.fd.len ≤ Config.blkMax
  · rw [execFdDone_some c s k hk hp hr hl] at h
    cases h
    exact dispatched_moves hk rfl rfl rfl
  · rw [execFdDone_fault hk hp hr hl] at h
    cases h

/-- The operations of `FDA[c]` below `BQ.POP` and `FD.BIT`. -/
theorem exec_ofFda_below_moves {i : Instr} {c : Nat} {s t : State} {k : Channel} (hi : i.ofFda = some c)
    (hbit : i ≠ .fdBit c) (hpop : i ≠ .bqPop c) (hk : s.channels[c]? = some k) (h : exec i s = .next t) :
    FdaMoves c (storeIndex i c k) s t k := by
  cases i <;> simp only [Instr.ofFda, Instr.ofCd, Instr.channel?, Option.isSome_some, Option.isSome_none, Bool.false_eq_true,
    if_true, if_false, Option.some.injEq, reduceCtorEq] at hi <;>
    subst hi
  case fdBit => exact absurd rfl hbit
  case bqPop => exact absurd rfl hpop
  case fdTxtEndEtx | fdTxtEndEtb | fdTxtData =>
    simp only [storeIndex, if_true]
    exact storeCharacter_moves hk h
  case fdTxtFull =>
    simp only [storeIndex, if_true]
    rw [show exec (.fdTxtFull _ _) s = _ from updateChannel_some _ _ _ k hk] at h
    cases h
    exact .store hk rfl rfl rfl
  case fdSohHit =>
    rw [show exec (.fdSohHit _) s = _ from onChannel_some _ s _ k hk] at h
    cases h
    exact .still (ev := s.events) hk rfl
  case fdCrc2 =>
    rw [show exec (.fdCrc2 _ _) s = _ from execFdCrc2_some _ _ s k hk] at h
    exact (execFdDone_moves (putChannel_self s _ k _ hk) h).of_put rfl rfl rfl
  case fdDone => exact execFdDone_moves hk h
  case bpParse => exact execBpParse_moves hk h
  case oqPush => exact execOqPush_moves hk h
  case fdSyn2Miss => exact updateChannel_moves hk rfl h
  case fdSohMiss => exact updateChannel_moves hk rfl h
  all_goals exact updateChannel_moves (ev := s.events) hk rfl h

/-- The byte that a completed bit stores is the one its stage operation stores (R188 to R190). -/
theorem storeIndex_of_decodeByte {cc : ControlChars} {c : Nat} {r : Byte} {k k₀ : Channel} {i : Instr}
    (h : decodeByte cc c k.fd.stage r k.fd.len = .ok i) (hn : k.fd.nb - 1 = 0) (hlen : k₀.fd.len = k.fd.len) :
    storeIndex i c k₀ = storeIndex (.fdBit c) c k := by
  unfold decodeByte at h
  cases hs : k.fd.stage <;> simp only [hs, Except.ok.injEq, reduceCtorEq] at h
  case txt =>
    split_ifs at h with _ _ hl <;> cases h <;> simp [storeIndex, hs, hn, hlen]
    exact hl.symm
  case crc1 | crc2 => subst h; simp [storeIndex, hs]
  all_goals split_ifs at h <;> subst h <;> simp [storeIndex, hs]

/-- `FD.BIT`: the store and the output queue change as by the stage operation that may run (R181). -/
theorem execFdBit_moves {c : Nat} {s t : State} {k : Channel} (hk : s.channels[c]? = some k) (h : execFdBit c s = .next t) :
    FdaMoves c (storeIndex (.fdBit c) c k) s t k := by
  rw [execFdBit_some c s k hk] at h
  split_ifs at h with hn
  · split at h
    · have hd := ‹decodeByte _ _ _ _ _ = _›
      obtain ⟨hi, hbit, hpop⟩ := ofFda_of_decodeByte hd
      have hm := exec_ofFda_below_moves hi hbit hpop (putChannel_self s c k _ hk) h
      have hidx := storeIndex_of_decodeByte (k₀ := (shifted s.cfg.numerics k).fdaGoto .stage) hd hn rfl
      exact (hidx ▸ hm).of_put rfl rfl rfl
    · cases h
  · cases h
    exact .still (ev := s.events) (n := s.draws) hk rfl

/-- What an operation of `FDA[c]` can do to queues and store (R71, R72): `BQ.POP` takes the oldest decision, if any, first. -/
theorem exec_ofFda_moves {i : Instr} {c : Nat} {s t : State} {k : Channel} (hi : i.ofFda = some c)
    (hk : s.channels[c]? = some k) (h : exec i s = .next t) :
    FdaMoves c (storeIndex i c k) s t k ∨
      ∃ d q, k.bq = d :: q ∧ FdaMoves c (storeIndex i c k) s t (k.popped d q) := by
  by_cases hbit : i = .fdBit c
  · subst hbit
    exact .inl (execFdBit_moves hk h)
  by_cases hpop : i = .bqPop c
  · subst hpop
    cases hq : k.bq with
    | nil =>
      rw [show exec (.bqPop c) s = _ from execBqPop_nil hk hq] at h
      cases h
      exact .inl ⟨k, hk, rfl, rfl, .inl rfl, .inl rfl⟩
    | cons d q =>
      rw [show exec (.bqPop c) s = _ from execBqPop_some c s k d q hk hq] at h
      exact .inr ⟨d, q, rfl, (execFdBit_moves (putChannel_self s c k (k.popped d q) hk) h).of_put rfl rfl rfl⟩
  · exact .inl (exec_ofFda_below_moves hi hbit hpop hk h)

/-! ### The frame of the byte store -/

/-- A configuration leaves of a channel that exists all but its table (R292). -/
theorem configureChannels_of_channel {p : Params} {old : List Channel} {c : Nat} {k : Channel} (h : old[c]? = some k) :
    ∃ lo, (configureChannels p old)[c]? = some { k with lo := lo } := by
  by_cases hc : c < p.ft.length
  · have hft := configureChannels_of_freq p old c p.ft[c] (List.getElem?_eq_getElem hc)
    rw [h] at hft
    exact ⟨_, hft⟩
  · exact ⟨k.lo, (configureChannels_beyond p old c (not_lt.1 hc)).trans h⟩

/-- An operation that belongs to no channel agent, `SYS.RESET` apart, leaves the Frame Decoder of every channel. -/
theorem exec_unowned_fd {i : Instr} {s t : State} {c : Nat} {k : Channel} (hi : i.channel? = none) (hr : i ≠ .sysReset)
    (h : exec i s = .next t) (hk : s.channels[c]? = some k) : ∃ k', t.channels[c]? = some k' ∧ k'.fd = k.fd := by
  have same : ∀ {u : State}, u.channels = s.channels → ∃ k', u.channels[c]? = some k' ∧ k'.fd = k.fd :=
    fun e => ⟨k, e ▸ hk, rfl⟩
  cases i <;> simp only [Instr.channel?, reduceCtorEq] at hi
  case dispDeliver =>
    simp only [exec, execDispDeliver] at h
    split at h
    · split_ifs at h <;> cases h <;> exact same rfl
    · cases h
      exact same rfl
  case feedEos =>
    simp only [exec, execFeedEos] at h
    split_ifs at h <;> cases h <;> exact same rfl
  case feedBlock b =>
    simp only [exec, execFeedBlock] at h
    split_ifs at h <;> cases h
    · exact same rfl
    · exact ⟨k.cdGoto .block, by simp [hk], rfl⟩
  case sysReset => exact absurd rfl hr
  case sysConfig p =>
    simp only [exec, execSysConfig] at h
    split_ifs at h
    · cases h
      obtain ⟨lo, hlo⟩ := configureChannels_of_channel (p := p) hk
      exact ⟨_, hlo, rfl⟩
    · cases h

/-- What an operation other than `SYS.RESET` does to a byte store: nothing, or one store, to the byte that `storeIndex`
names. -/
theorem exec_buf {i : Instr} {s t : State} {c : Nat} {k : Channel} (hr : i ≠ .sysReset) (h : exec i s = .next t)
    (hk : s.channels[c]? = some k) :
    ∃ k', t.channels[c]? = some k' ∧
      (k'.fd.buf = k.fd.buf ∨ ∃ a b, storeIndex i c k = some a ∧ k'.fd.buf = k.fd.buf.write a b) := by
  cases hcd : i.ofCd with
  | some d =>
    obtain ⟨x, x', ev, hx, hwork, rfl⟩ := exec_ofCd hcd h
    by_cases hc : c = d
    · subst hc
      obtain rfl : k = x := Option.some.inj (hk.symm.trans hx)
      exact ⟨x', putChannel_self s c k x' hk, .inl (by rw [hwork.owned.fd])⟩
    · exact ⟨k, (putChannel_ne s d c x' hc).trans hk, .inl rfl⟩
  | none =>
    cases hfda : i.ofFda with
    | some d =>
      by_cases hc : c = d
      · subst hc
        rcases exec_ofFda_moves hfda hk h with ⟨k', hk', hm⟩ | ⟨_, _, -, k', hk', hm⟩
        · exact ⟨k', hk', hm.buf⟩
        · exact ⟨k', hk', hm.buf⟩
      · obtain ⟨x, x', ev, oq, n, hx, -, -, rfl⟩ := exec_ofFda hfda h
        exact ⟨k, (putChannel_ne s d c x' hc).trans hk, .inl rfl⟩
    | none =>
      obtain ⟨k', hk', hfd⟩ := exec_unowned_fd (channel_eq_none_of_unowned hcd hfda) hr h hk
      exact ⟨k', hk', .inl (by rw [hfd])⟩

/-- Settles O30: the operations of `FDA[c]` alone store, at most the byte that `storeIndex` names; a write keeps the canonical
form and every other byte. -/
theorem operationsKeepOtherBytes : Obligations.OperationsKeepOtherBytes := by
  intro i s t c k k' h hr hk hk' hwf
  obtain ⟨k₁, hk₁, hbuf⟩ := exec_buf hr h hk
  obtain rfl : k' = k₁ := Option.some.inj (hk'.symm.trans hk₁)
  rcases hbuf with e | ⟨a, b, ha, e⟩ <;> rw [e]
  · exact ⟨hwf, fun _ _ => rfl⟩
  · refine ⟨Memory.wf_write _ _ _ hwf, fun x hx => ?_⟩
    rw [Memory.read_write _ _ _ hwf, if_neg (fun hxa => hx (by rw [ha, hxa]))]

end Sys2Proof.Machine
end

section
/-! Conservation in the queues (spec/20_memory.md R70 to R73, R76; spec/70_reset_and_hazards.md R290, R296). -/

namespace Sys2Proof.Machine

/-! ### `BQ.PUSH` in the operations of `CD[c]` -/

/-- At most one decision is appended to the queue, the one then in flight, where there is room (R71, R163). -/
def Pushes (p : Params) (k k' : Channel) : Prop :=
  k'.bq = k.bq ∨ k.bq.length < p.bqCap ∧ k'.bq = k.bq ++ [k'.cd.dec]

/-- The push of `DM.SYMBOL` (R154, R241). -/
theorem pushes_pushed (p : Params) (k : Channel) : Pushes p k (pushed p k) := by
  unfold pushed
  split_ifs with hroom
  · exact .inr ⟨hroom, rfl⟩
  · exact .inl rfl

/-- `DM.SAMPLE`, with the symbol that may fall in it (R153). -/
theorem pushes_sampled (p : Params) (coef : List Scalar) (k : Channel) : Pushes p k (sampled p coef k) := by
  rw [sampled_eq]
  split_ifs
  · exact pushes_pushed p (decided p coef (k.advanced p))
  · exact .inl rfl

/-- An operation of `CD[c]` that finds channel `k` pushes at most one decision. -/
def CdPushes (c : Nat) (s t : State) (k : Channel) : Prop := ∃ k', t.channels[c]? = some k' ∧ Pushes s.cfg k k'

theorem CdPushes.put {c : Nat} {s : State} {k k' : Channel} {ev : List Event} (hk : s.channels[c]? = some k)
    (h : Pushes s.cfg k k') : CdPushes c s { s.putChannel c k' with events := ev } k :=
  ⟨k', putChannel_self s c k k' hk, h⟩

/-- An operation that replaces its channel and leaves the queue alone. -/
theorem updateChannel_pushes {c : Nat} {s t : State} {k : Channel} {f : Channel → Channel} (hk : s.channels[c]? = some k)
    (hf : (f k).bq = k.bq) (h : updateChannel c s f = .next t) : CdPushes c s t k := by
  rw [updateChannel_some c s f k hk] at h
  cases h
  exact .put (ev := s.events) hk (.inl hf)

/-- `CH.BLOCK` pushes nothing. -/
theorem execChBlock_pushes {c : Nat} {s t : State} {k : Channel} (hk : s.channels[c]? = some k)
    (h : execChBlock c s = .next t) : CdPushes c s t k := by
  rw [execChBlock, onChannel_some c s _ k hk] at h
  split_ifs at h <;> cases h
  · exact ⟨k, hk, .inl rfl⟩
  · exact .put (ev := s.events) hk (.inl rfl)

/-- `CH.SAMPLE`. -/
theorem execChSample_pushes {c : Nat} {s t : State} {k : Channel} (hk : s.channels[c]? = some k)
    (h : execChSample c s = .next t) : CdPushes c s t k := by
  obtain ⟨x, w, -, -, -, ⟨-, rfl⟩ | ⟨-, ev, rfl⟩⟩ := execChSample_next c s t k hk h
  · exact .put (ev := s.events) hk (.inl rfl)
  · exact .put hk (pushes_sampled s.cfg s.coef (dumped s.cfg (mixSample s.cfg.numerics k x w)))

/-- `DM.SYMBOL`, resumed after its push (R154). -/
theorem execDmSymbol_tail {c : Nat} {s : State} {k : Channel} (hk : s.channels[c]? = some k) (hp : k.cd.pos = .tail) :
    execDmSymbol c s =
      .next (s.putChannel c
        { k with
          dm := { k.dm with s := k.dm.s + 1, df := s.cfg.numerics.mul s.cfg.numerics.pllg k.cd.err }
          cd := { k.cd with pos := loopPos s.cfg k.ch.n } }) := by
  rw [← symbolTail_tail c s k hk hp]
  simp [execDmSymbol, onChannel_some c s _ k hk, hp]

/-- `DM.SYMBOL`: resumed at its push, resumed after it, or whole. -/
theorem execDmSymbol_pushes {c : Nat} {s t : State} {k : Channel} (hk : s.channels[c]? = some k)
    (h : execDmSymbol c s = .next t) : CdPushes c s t k := by
  by_cases hp : k.cd.pos = .push
  · rw [execDmSymbol_held c s k hk hp] at h
    cases h
    exact .put (ev := s.events) hk (pushes_pushed s.cfg k)
  by_cases ht : k.cd.pos = .tail
  · rw [execDmSymbol_tail hk ht] at h
    cases h
    exact .put (ev := s.events) hk (.inl rfl)
  · rw [execDmSymbol_some c s k hk hp ht] at h
    cases h
    exact .put hk (pushes_pushed s.cfg (decided s.cfg s.coef k))

/-- `BQ.PUSH`. -/
theorem execBqPush_pushes {c : Nat} {s t : State} {k : Channel} (hk : s.channels[c]? = some k)
    (h : execBqPush c s = .next t) : CdPushes c s t k := by
  rw [execBqPush_some c s k hk] at h
  split_ifs at h with hroom <;> cases h
  · exact .put (ev := s.events) hk (.inr ⟨hroom, rfl⟩)
  · exact ⟨k, hk, .inl rfl⟩

/-- What an operation of `CD[c]` can do to its queue. -/
theorem exec_ofCd_pushes {i : Instr} {c : Nat} {s t : State} {k : Channel} (hi : i.ofCd = some c)
    (hk : s.channels[c]? = some k) (h : exec i s = .next t) : CdPushes c s t k := by
  cases i <;> simp only [Instr.ofCd, Option.some.injEq, reduceCtorEq] at hi <;> subst hi
  case chBlock => exact execChBlock_pushes hk h
  case chSample => exact execChSample_pushes hk h
  case chDump =>
    obtain ⟨-, ev, rfl⟩ := execChDump_next _ s t k hk h
    exact .put hk (pushes_sampled s.cfg s.coef (dumped s.cfg k))
  case dmSample =>
    obtain ⟨-, ev, rfl⟩ := execDmSample_next _ s t k hk h
    exact .put hk (pushes_sampled s.cfg s.coef k)
  case dmSymbol => exact execDmSymbol_pushes hk h
  case dmNorm =>
    rw [show exec (.dmNorm _) s = _ from onChannel_some _ s _ k hk] at h
    cases h
    exact .put hk (.inl rfl)
  case dmEmit =>
    rw [show exec (.dmEmit _) s = _ from onChannel_some _ s _ k hk] at h
    obtain ⟨k', hk', hp⟩ := execBqPush_pushes (putChannel_self s _ k _ hk) h
    exact ⟨k', hk', hp⟩
  case bqPush => exact execBqPush_pushes hk h
  all_goals exact updateChannel_pushes hk (by rfl) h

/-! ### Every effect of an operation -/

/-- What an operation makes of the queue of channel `c` (R71 to R73): nothing, a push by `CD[c]`, or a pop by `FDA[c]`. -/
def BqConserved (turn : Turn) (c : Nat) (s : State) (k k' : Channel) : Prop :=
  k'.bq = k.bq ∨
    (turn = .cd c ∧ k.bq.length < s.cfg.bqCap ∧ k'.bq = k.bq ++ [k'.cd.dec]) ∨
    (turn = .fda c ∧ k.bq = k'.fda.dec :: k'.bq)

/-- The queue of every channel that an effect other than a reset finds. -/
theorem Effect.bq {s t : State} {i : Instr} {turn : Turn} (he : Effect s i t) (hown : turn.Owns i) (ht : turn ≠ .reset)
    {c : Nat} {k : Channel} (hk : s.channels[c]? = some k) :
    ∃ k', t.channels[c]? = some k' ∧ BqConserved turn c s k k' := by
  cases he with
  | held | deliver | feedEos => exact ⟨k, hk, .inl rfl⟩
  | cd _ d _ hi hr he =>
    obtain rfl := hown.eq_cd hi
    by_cases hc : c = d
    · subst hc
      obtain ⟨k', hk', h | h⟩ := exec_ofCd_pushes hi hk he
      · exact ⟨k', hk', .inl h⟩
      · exact ⟨k', hk', .inr (.inl ⟨rfl, h⟩)⟩
    · obtain ⟨_, x', _, _, _, rfl⟩ := exec_ofCd hi he
      exact ⟨k, (putChannel_ne s d c x' hc).trans hk, .inl rfl⟩
  | fda _ d _ hi hr he =>
    obtain rfl := hown.eq_fda hi
    by_cases hc : c = d
    · subst hc
      rcases exec_ofFda_moves hi hk he with ⟨k', hk', hm⟩ | ⟨d, q, hq, k', hk', hm⟩
      · exact ⟨k', hk', .inl hm.bq⟩
      · exact ⟨k', hk', .inr (.inr ⟨rfl, by rw [hm.bq, hm.dec]; exact hq⟩)⟩
    · obtain ⟨_, x', _, _, _, _, _, _, rfl⟩ := exec_ofFda hi he
      exact ⟨k, (putChannel_ne s d c x' hc).trans hk, .inl rfl⟩
  | feedBlock => exact ⟨k.cdGoto .block, by simp [hk], .inl rfl⟩
  | sysReset => exact absurd hown.eq_reset ht
  | sysConfig p =>
    obtain ⟨lo, hlo⟩ := configureChannels_of_channel (p := p) hk
    exact ⟨_, hlo, .inl rfl⟩

/-- What an operation of `FDA[c]` makes of `OQ` (R71): nothing, or the push of the frame then in flight, where there is room. -/
def OqConserved (c : Nat) (s t : State) : Prop :=
  t.oq = s.oq ∨ ∃ k', t.channels[c]? = some k' ∧ s.oq.length < s.cfg.oqCap ∧ t.oq = s.oq ++ [k'.fda.frame]

theorem FdaMoves.oq {c : Nat} {idx : Option Nat} {s t : State} {k : Channel} (h : FdaMoves c idx s t k) :
    OqConserved c s t := by
  obtain ⟨k', hk', hm⟩ := h
  exact hm.oq.imp id fun hoq => ⟨k', hk', hoq⟩

/-- What an operation of `FDA[c]` can do to `OQ`. -/
theorem exec_ofFda_oq {i : Instr} {c : Nat} {s t : State} (hi : i.ofFda = some c) (h : exec i s = .next t) :
    OqConserved c s t := by
  obtain ⟨k, -, -, -, -, hk, -⟩ := exec_ofFda hi h
  rcases exec_ofFda_moves hi hk h with hm | ⟨_, _, -, hm⟩
  · exact hm.oq
  · exact hm.oq

/-- The output, emitted and queued, under every effect other than a reset (R70, R245). -/
theorem Effect.output {s t : State} {i : Instr} {turn : Turn} (he : Effect s i t) (hown : turn.Owns i)
    (ht : turn ≠ .reset) :
    t.frameOut ++ t.oq = s.frameOut ++ s.oq ∨
      ∃ (c : Nat) (k' : Channel), turn = .fda c ∧ t.channels[c]? = some k' ∧ s.oq.length < s.cfg.oqCap ∧
        t.frameOut = s.frameOut ∧ t.oq = s.oq ++ [k'.fda.frame] := by
  cases he with
  | held | feedEos | feedBlock | sysConfig => exact .inl rfl
  | deliver f q hq => exact .inl (by simp [hq])
  | cd _ c _ hi hr he =>
    obtain ⟨_, _, _, _, _, rfl⟩ := exec_ofCd hi he
    exact .inl rfl
  | fda _ c _ hi hr he =>
    have hout : t.frameOut = s.frameOut := by
      obtain ⟨_, _, _, _, _, _, _, _, rfl⟩ := exec_ofFda hi he
      rfl
    rcases exec_ofFda_oq hi he with hoq | ⟨k', hk', hroom, hoq⟩
    · exact .inl (by rw [hout, hoq])
    · exact .inr ⟨c, k', hown.eq_fda hi, hk', hroom, hout, hoq⟩
  | sysReset => exact absurd hown.eq_reset ht

/-- The number of channels under every effect other than a reset: a configuration alone can add some (R292). -/
theorem Effect.channel_count {s t : State} {i : Instr} {turn : Turn} (he : Effect s i t) (hown : turn.Owns i)
    (ht : turn ≠ .reset) :
    s.channels.length ≤ t.channels.length ∧ (turn ≠ .config → t.channels.length = s.channels.length) := by
  have same : t.channels.length = s.channels.length →
      s.channels.length ≤ t.channels.length ∧ (turn ≠ .config → t.channels.length = s.channels.length) :=
    fun e => ⟨e.ge, fun _ => e⟩
  cases he with
  | held | deliver | feedEos => exact same rfl
  | feedBlock => exact same (List.length_map _)
  | cd _ c _ hi hr he =>
    obtain ⟨_, k', _, _, _, rfl⟩ := exec_ofCd hi he
    exact same (length_putChannel s c k')
  | fda _ c _ hi hr he =>
    obtain ⟨_, k', _, _, _, _, _, _, rfl⟩ := exec_ofFda hi he
    exact same (length_putChannel s c k')
  | sysReset => exact absurd hown.eq_reset ht
  | sysConfig p => exact ⟨by simp, fun h => absurd hown.eq_config h⟩

/-- Every effect of an operation keeps the capacity bounds (R70). -/
theorem QueueInv.effect {s t : State} {i : Instr} (h : QueueInv s) (he : Effect s i t) : QueueInv t := by
  intro hphase
  cases he with
  | held | feedEos => exact h hphase
  | deliver f q hq =>
    obtain ⟨hoq, hbq⟩ := h hphase
    refine ⟨?_, hbq⟩
    rw [hq, List.length_cons] at hoq
    exact Nat.le_of_succ_le hoq
  | cd _ c _ hi hr he =>
    obtain ⟨k, k', ev, hk, -, rfl⟩ := exec_ofCd hi he
    obtain ⟨hoq, hbq⟩ := h hphase
    refine ⟨hoq, fun x hx => ?_⟩
    rcases mem_putChannel s c k' x hx with rfl | hx
    · obtain ⟨k₁, hk₁, hp⟩ := exec_ofCd_pushes hi hk he
      obtain rfl : x = k₁ := Option.some.inj ((putChannel_self s c k x hk).symm.trans hk₁)
      rcases hp with e | ⟨hroom, e⟩ <;> rw [e]
      · exact hbq k (List.mem_of_getElem? hk)
      · simpa using hroom
    · exact hbq x hx
  | fda _ c _ hi hr he =>
    have hroom : t.oq = s.oq ∨ s.oq.length < s.cfg.oqCap ∧ t.oq.length = s.oq.length + 1 := by
      rcases exec_ofFda_oq hi he with hoq | ⟨k', -, hroom, hoq⟩
      · exact .inl hoq
      · exact .inr ⟨hroom, by simp [hoq]⟩
    obtain ⟨k, k', ev, oq, n, hk, hown, -, rfl⟩ := exec_ofFda hi he
    obtain ⟨hoq, hbq⟩ := h hphase
    refine ⟨?_, fun x hx => ?_⟩
    · rcases hroom with e | ⟨hroom, e⟩
      · rw [e]
        exact hoq
      · rw [e]
        exact hroom
    · rcases mem_putChannel s c k' x hx with rfl | hx
      · exact hown.bq.length_le.trans (hbq k (List.mem_of_getElem? hk))
      · exact hbq x hx
  | feedBlock b hp =>
    obtain ⟨hoq, hbq⟩ := h hp
    refine ⟨hoq, fun x hx => ?_⟩
    obtain ⟨k, hk, rfl⟩ := List.mem_map.1 hx
    exact hbq k hk
  | sysReset =>
    refine ⟨Nat.zero_le _, fun x hx => ?_⟩
    obtain ⟨k, -, n, rfl⟩ := mem_resetChannels s x hx
    exact Nat.zero_le _
  | sysConfig => exact absurd rfl hphase

/-- Settles O44: by the effects of a step, one quantity at a time. -/
theorem queuesConserveTheirValues : Obligations.QueuesConserveTheirValues := by
  intro s s' hstep
  refine ⟨fun h => step_keeps (fun _ _ _ _ ht => ht) (fun _ _ he => h.effect he) hstep, fun ht => ?_⟩
  rcases step_effect hstep with ⟨b, rfl⟩ | ⟨i, t, hown, he, rfl⟩
  · exact ⟨le_rfl, fun _ => rfl, fun c k hk => ⟨k, hk, .inl rfl⟩, .inl rfl⟩
  · obtain ⟨hle, heq⟩ := he.channel_count hown ht
    exact ⟨hle, heq, fun c k hk => he.bq hown ht hk, he.output hown ht⟩

end Sys2Proof.Machine
end

section
/-! The order of the channels (spec/20_memory.md R62, R79): operations of the `CD` agents of different channels commute. -/

namespace Sys2Proof.Machine

/-! ### The trace of an operation of `CD[c]` -/

/-- A symbol falls in this `DM.SAMPLE`, and its filter output has magnitude 0 (R153, R265). -/
def sampleDegenerate (p : Params) (coef : List Scalar) (k : Channel) : Bool :=
  symbolDue p k.dm && isDegenerate p.numerics (decided p coef (k.advanced p)).cd.m

/-- The `CH.SAMPLE` that takes the sample `x` with the table entry `w` closes the window, and a degenerate symbol falls in it
(R132, R265). -/
def windowDegenerate (p : Params) (coef : List Scalar) (k : Channel) (x w : Cplx) : Bool :=
  decide ((mixSample p.numerics k x w).ch.cnt = p.decim) &&
    sampleDegenerate p coef (dumped p (mixSample p.numerics k x w))

/-- Whether an operation of `CD[c]` that completes raises `EV_DEGENERATE`, from what `CD[c]` can see (R79, R265). -/
def degenerates (p : Params) (coef : List Scalar) (blk : Block) (k : Channel) : Instr → Bool
  | .chSample _ =>
    match blk[k.ch.n]?, k.lo[k.ch.n]? with
    | some x, some w => windowDegenerate p coef k x w
    | _, _ => false
  | .chDump _ => sampleDegenerate p coef (dumped p k)
  | .dmSample _ => sampleDegenerate p coef k
  | .dmSymbol _ =>
    decide (k.cd.pos ≠ .push ∧ k.cd.pos ≠ .tail) && isDegenerate p.numerics (decided p coef k).cd.m
  | .dmNorm _ => isDegenerate p.numerics (p.numerics.cAbs k.cd.v)
  | _ => false

/-- The operation left the trace as it was, with `EV_DEGENERATE` of channel `c` at its end where `cause` holds. -/
def Traced (c : Nat) (cause : Bool) (s t : State) : Prop := t.events = (s.raiseIf cause (.degenerate c)).events

/-- An operation that replaces its channel raises nothing. -/
theorem updateChannel_traced {c : Nat} {s t : State} {f : Channel → Channel} (h : updateChannel c s f = .next t) :
    Traced c false s t := by
  obtain ⟨k, -, rfl⟩ := updateChannel_next c s t f h
  rfl

/-- `BQ.PUSH` raises nothing. -/
theorem execBqPush_traced {c : Nat} {s t : State} {k : Channel} (hk : s.channels[c]? = some k)
    (h : execBqPush c s = .next t) : Traced c false s t := by
  rw [execBqPush_some c s k hk] at h
  split_ifs at h <;> cases h <;> rfl

/-- `CH.BLOCK` raises nothing. -/
theorem execChBlock_traced {c : Nat} {s t : State} {k : Channel} (hk : s.channels[c]? = some k)
    (h : execChBlock c s = .next t) : Traced c false s t := by
  rw [execChBlock, onChannel_some c s _ k hk] at h
  split_ifs at h <;> cases h <;> rfl

/-- `DM.SYMBOL` raises where it runs `DM.NORM`, not where it resumes (R154, R265). -/
theorem execDmSymbol_traced {c : Nat} {s t : State} {k : Channel} (hk : s.channels[c]? = some k)
    (h : execDmSymbol c s = .next t) : Traced c (degenerates s.cfg s.coef s.blk k (.dmSymbol c)) s t := by
  by_cases hp : k.cd.pos = .push
  · rw [execDmSymbol_held c s k hk hp] at h
    cases h
    simp [Traced, degenerates, hp]
  by_cases ht : k.cd.pos = .tail
  · rw [execDmSymbol_tail hk ht] at h
    cases h
    simp [Traced, degenerates, ht]
  · rw [execDmSymbol_some c s k hk hp ht] at h
    cases h
    simp [Traced, degenerates, hp, ht]

/-- `DM.SAMPLE`. -/
theorem execDmSample_traced {c : Nat} {s t : State} {k : Channel} (hk : s.channels[c]? = some k)
    (h : execDmSample c s = .next t) : Traced c (sampleDegenerate s.cfg s.coef k) s t := by
  obtain ⟨hf, -⟩ := execDmSample_next c s t k hk h
  rw [execDmSample_some c s k hk hf] at h
  unfold sampleDegenerate
  cases hdue : symbolDue s.cfg k.dm
  · simp only [hdue, Bool.false_eq_true, if_false] at h
    cases h
    rfl
  · simp only [hdue, if_true] at h
    exact execDmSymbol_traced (putChannel_self s c k _ hk) h

/-- `CH.DUMP`. -/
theorem execChDump_traced {c : Nat} {s t : State} {k : Channel} (hk : s.channels[c]? = some k)
    (h : execChDump c s = .next t) : Traced c (sampleDegenerate s.cfg s.coef (dumped s.cfg k)) s t := by
  rw [execChDump, onChannel_some c s _ k hk] at h
  exact (execDmSample_traced (putChannel_self s c k _ hk) h :)

/-- `CH.SAMPLE`. -/
theorem execChSample_traced {c : Nat} {s t : State} {k : Channel} (hk : s.channels[c]? = some k)
    (h : execChSample c s = .next t) : Traced c (degenerates s.cfg s.coef s.blk k (.chSample c)) s t := by
  obtain ⟨x, w, hx, hf, hw, -⟩ := execChSample_next c s t k hk h
  rw [execChSample, onChannel_some c s _ k hk] at h
  simp only [hx, hf, hw, if_true] at h
  simp only [degenerates, hx, hw, windowDegenerate]
  split_ifs at h with hc
  · simp only [hc, decide_true, Bool.true_and]
    exact (execChDump_traced (putChannel_self s c k _ hk) h :)
  · cases h
    simp only [hc, decide_false, Bool.false_and]
    rfl

/-- What an operation of `CD[c]` adds to the trace depends on what `CD[c]` can see alone. -/
theorem exec_ofCd_traced {i : Instr} {c : Nat} {s t : State} {k : Channel} (hi : i.ofCd = some c)
    (hk : s.channels[c]? = some k) (h : exec i s = .next t) : Traced c (degenerates s.cfg s.coef s.blk k i) s t := by
  cases i <;> simp only [Instr.ofCd, Option.some.injEq, reduceCtorEq] at hi <;> subst hi
  case chBlock => exact execChBlock_traced hk h
  case chSample => exact execChSample_traced hk h
  case chDump => exact execChDump_traced hk h
  case dmSample => exact execDmSample_traced hk h
  case dmSymbol => exact execDmSymbol_traced hk h
  case dmNorm =>
    rw [show exec (.dmNorm _) s = _ from onChannel_some _ s _ k hk] at h
    cases h
    rfl
  case dmEmit =>
    rw [show exec (.dmEmit _) s = _ from onChannel_some _ s _ k hk] at h
    exact (execBqPush_traced (putChannel_self s _ k _ hk) h :)
  case bqPush => exact execBqPush_traced hk h
  all_goals exact updateChannel_traced h

/-! ### Two operations of different channels -/

/-- An operation of `CD[c]` as one state change: one channel and the trace, the latter by what `CD[c]` can see. -/
theorem exec_ofCd_eq {i : Instr} {c : Nat} {s t : State} (hi : i.ofCd = some c) (h : exec i s = .next t) :
    ∃ k k', s.channels[c]? = some k ∧
      t = (s.putChannel c k').raiseIf (degenerates s.cfg s.coef s.blk k i) (.degenerate c) := by
  obtain ⟨k, k', ev, hk, -, rfl⟩ := exec_ofCd hi h
  have hev : ev = (s.raiseIf _ (.degenerate c)).events := exec_ofCd_traced hi hk h
  exact ⟨k, k', hk, by rw [hev]; rfl⟩

/-- An operation of `CD[b]` on the state that an operation of another channel left: it completes, and makes of channel `b` and
of the trace what it makes of them before that operation. -/
theorem exec_after_other {j : Instr} {a b : Nat} {s s₂ : State} {ka kb kb' : Channel} {ra : Bool} (hj : j.ofCd = some b)
    (hab : a ≠ b) (hkb : s.channels[b]? = some kb) (h : exec j s = .next s₂) (hkb' : s₂.channels[b]? = some kb') :
    exec j ((s.putChannel a ka).raiseIf ra (.degenerate a)) =
      .next ((((s.putChannel a ka).putChannel b kb').raiseIf ra (.degenerate a)).raiseIf
        (degenerates s.cfg s.coef s.blk kb j) (.degenerate b)) := by
  have hput : ((s.putChannel a ka).raiseIf ra (.degenerate a)).channels[b]? = s.channels[b]? := putChannel_ne s a b ka hab.symm
  have hagree : Agree b s ((s.putChannel a ka).raiseIf ra (.degenerate a)) := ⟨rfl, rfl, rfl, rfl, hput.symm⟩
  have hsame : SameAnswer b (exec j s) (exec j ((s.putChannel a ka).raiseIf ra (.degenerate a))) := hagree.exec hj
  rw [h] at hsame
  generalize hr : exec j ((s.putChannel a ka).raiseIf ra (.degenerate a)) = r at hsame
  cases hsame with
  | next ht =>
    obtain ⟨k, k', hk, rfl⟩ := exec_ofCd_eq hj hr
    obtain rfl : kb = k := Option.some.inj (hkb.symm.trans (hput.symm.trans hk))
    have hself := (putChannel_self _ b kb k' hk).symm.trans (ht.channel.symm.trans hkb')
    rw [show k' = kb' from Option.some.inj hself]
    rfl

/-- Two events at the end of a trace, raised in either order. -/
theorem raiseIf_events_perm (s : State) (x y : Bool) (e f : Event) :
    ((s.raiseIf x e).raiseIf y f).events.Perm ((s.raiseIf y f).raiseIf x e).events := by
  cases x <;> cases y
  case true.true =>
    simp only [State.raiseIf_events, if_true, List.append_assoc]
    exact (List.Perm.swap f e []).append_left s.events
  all_goals exact .refl _

/-- Settles O51: each of the two sees the same before and after the other (`Agree`), and the two write different channels. -/
theorem cdAgentsCommute : Obligations.CdAgentsCommute := by
  intro i j a b s s₁ s₂ hi hj hab h₁ h₂
  obtain ⟨ka, ka', hka, rfl⟩ := exec_ofCd_eq hi h₁
  obtain ⟨kb, kb', hkb, rfl⟩ := exec_ofCd_eq hj h₂
  refine ⟨_, _, exec_after_other hj hab hkb h₂ (putChannel_self s b kb kb' hkb),
    exec_after_other hi hab.symm hka h₁ (putChannel_self s a ka ka' hka), ?_, ?_⟩
  · simp only [State.raiseIf, State.putChannel, List.set_comm _ _ hab]
  · exact raiseIf_events_perm s _ _ _ _

end Sys2Proof.Machine
end

section
/-! Totality (spec/20_memory.md R66; spec/30_encoding.md R103; spec/60_exceptions.md R260, R261): what a step can answer under
the invariants of the two channel agents. -/

namespace Sys2Proof.Machine

/-! ### Agent `FDA[c]` -/

/-- A completed byte selects an operation, except in the transient stage and beyond the buffer (R103, R190). -/
theorem decodeByte_total {cc : ControlChars} {c : Nat} {st : Stage} {r : Byte} {len : Nat} (hst : st ≠ .done)
    (hroom : st = .txt → len < 243) : ∃ i, decodeByte cc c st r len = .ok i := by
  cases st
  case done => exact absurd rfl hst
  case txt =>
    have hlen := hroom rfl
    have hmax : Config.blkMax = 243 := rfl
    simp only [decodeByte]
    split_ifs
    case neg => omega
    all_goals exact ⟨_, rfl⟩
  all_goals exact ⟨_, rfl⟩

/-- The text operations complete while there is room (R188, R189). -/
theorem storeCharacter_total {c : Nat} {s : State} {k : Channel} {ch : Byte} {st : Stage} (hk : s.channels[c]? = some k)
    (hlen : k.fd.len < 243) : ∃ t, storeCharacter c s ch st = .next t := by
  rw [storeCharacter, onChannel_some c s _ k hk]
  exact ⟨_, if_pos hlen⟩

/-- `FD.CRC2` completes for every length of a block (R192, R193). -/
theorem execFdCrc2_total {c : Nat} {s : State} {k : Channel} {r : Byte} (hk : s.channels[c]? = some k)
    (hlen : k.fd.len ≤ 243) : ∃ t, execFdCrc2 c r s = .next t := by
  rw [execFdCrc2_some c r s k hk, execFdDone_some c _ _ (putChannel_self s c k _ hk) (by simp) (by simp) (by exact hlen)]
  exact ⟨_, rfl⟩

/-- The stage operation that a completed byte selects completes. -/
theorem stageOperation_total {c : Nat} {s : State} {k : Channel} {st : Stage} {r : Byte} {i : Instr}
    (hk : s.channels[c]? = some k) (hroom : st = .txt → k.fd.len < 243) (hlen : k.fd.len ≤ 243)
    (hd : decodeByte s.cfg.chars c st r k.fd.len = .ok i) : ∃ t, exec i s = .next t := by
  have update : ∀ {ev : List Event} {f : Channel → Channel}, ∃ t, updateChannel c { s with events := ev } f = .next t :=
    ⟨_, updateChannel_some c _ _ k hk⟩
  unfold decodeByte at hd
  cases st <;> simp only [Except.ok.injEq, reduceCtorEq] at hd
  case txt =>
    have hlt := hroom rfl
    split_ifs at hd <;> cases hd
    · exact storeCharacter_total hk hlt
    · exact storeCharacter_total hk hlt
    · exact update
    · exact storeCharacter_total hk hlt
  case crc1 =>
    subst hd
    exact update (ev := s.events)
  case crc2 =>
    subst hd
    exact execFdCrc2_total hk hlen
  case syn1 => split_ifs at hd <;> subst hd <;> exact update (ev := s.events)
  case syn2 =>
    split_ifs at hd <;> subst hd
    · exact update (ev := s.events)
    · exact update
  case soh =>
    split_ifs at hd <;> subst hd
    · exact ⟨_, onChannel_some c s _ k hk⟩
    · exact update

/-- `BQ.POP` between operations completes: it holds, or a bit goes in, or the byte it completes runs its operation (R242). -/
theorem execBqPop_total {c : Nat} {s : State} {k : Channel} (hk : s.channels[c]? = some k) (h : FdChannelInv k)
    (hp : k.fda.pos = .pop) : ∃ t, execBqPop c s = .next t := by
  obtain ⟨-, -, hst⟩ := h.bits hp
  cases hq : k.bq with
  | nil => exact ⟨s, execBqPop_nil hk hq⟩
  | cons d q =>
    rw [execBqPop_cons hk hq]
    split_ifs
    · obtain ⟨i, hi⟩ := decodeByte_total (cc := s.cfg.chars) (c := c)
        (r := shiftIn k.fd.sr (hardBit s.cfg.numerics d.soft)) hst h.room
      simp only [hi]
      exact stageOperation_total (k := k.took s.cfg.numerics d q .stage) (putChannel_self s c k _ hk) h.room h.len_le hi
    · exact ⟨_, rfl⟩

/-! ### Agent `CD[c]` -/

/-- An operation or a step completes, or refuses for one of the reasons `allowed`. -/
def Answers (allowed : List Refusal) (r : Result) : Prop := (∃ t, r = .next t) ∨ ∃ q ∈ allowed, r = .refused q

/-- `DM.SAMPLE` completes, or refuses a non-finite sample (R153, R266). -/
theorem execDmSample_answers {c : Nat} {s : State} {k : Channel} (hk : s.channels[c]? = some k) :
    Answers [.cvNonfinite] (execDmSample c s) := by
  cases hf : s.cfg.numerics.finite k.cd.y
  · exact .inr ⟨_, List.mem_cons_self, by simp [execDmSample, onChannel_some c s _ k hk, hf, refuse]⟩
  · rw [execDmSample_some c s k hk hf]
    dsimp only
    split_ifs
    · rw [execDmSymbol_some c _ _ (putChannel_self s c k _ hk) (by simp) (by simp)]
      exact .inl ⟨_, rfl⟩
    · exact .inl ⟨_, rfl⟩

/-- So does `CH.SAMPLE` on a sample and a table entry that exist (R66 (d), R132, R266). -/
theorem execChSample_answers {c : Nat} {s : State} {k : Channel} (hk : s.channels[c]? = some k)
    (hblk : k.ch.n < s.blk.length) (hlo : k.ch.n < k.lo.length) : Answers [.cvNonfinite] (execChSample c s) := by
  rw [execChSample, onChannel_some c s _ k hk]
  simp only [List.getElem?_eq_getElem hblk, List.getElem?_eq_getElem hlo]
  split_ifs
  · rw [execChDump, onChannel_some c _ _ _ (putChannel_self s c k _ hk)]
    exact execDmSample_answers (putChannel_self _ c _ _ (putChannel_self s c k _ hk))
  · exact .inl ⟨_, rfl⟩
  · exact .inr ⟨_, List.mem_cons_self, rfl⟩

/-- Inside a block the sample and the table entry exist (R61, R62, R131). -/
theorem CdInv.sample_exists {s : State} (h : CdInv s) {c : Nat} {k : Channel} (hk : s.channels[c]? = some k)
    (hp : k.cd.pos = .sample) : k.ch.n < s.blk.length ∧ k.ch.n < k.lo.length := by
  have hinv := h.channel k (List.mem_of_getElem? hk)
  have hne : k.cd.pos ≠ .idle := by simp [hp]
  obtain ⟨hrun, -⟩ := h.running hk hne
  have hc : c < s.cfg.nchan := h.count (by simp [hrun]) ▸ lt_of_channel s c k hk
  obtain ⟨hn, -⟩ := hinv.sampling hp
  rw [hinv.block hne, h.lo_length c k hc hk]
  exact ⟨hn, hn.trans_le h.covered⟩

/-! ### Steps -/

/-- The reasons for which a step can refuse, by whose turn it is (R261, R266, R268, R292). -/
def refusalsOf : Turn → List Refusal
  | .cd _ => [.cvNonfinite]
  | .feed => [.cvBlockLen]
  | .config => [.cvConfig]
  | .fda _ | .disp | .eos | .reset | .sink _ => []

/-- A selector selects an operation, and that answers as the turn `t` allows. -/
def SelectsAnswering (t : Turn) (s : State) (sel : Selector) : Prop :=
  ∃ i, decode s.cfg.chars sel = .ok i ∧ Answers (refusalsOf t) (exec i s)

/-- A step answers what its operation answers, and completes where none is selected. -/
theorem step_answers {s : State} {allowed : List Refusal}
    (h : ∀ sel, select s.turn s = some sel → ∃ i, decode s.cfg.chars sel = .ok i ∧ Answers allowed (exec i s)) :
    Answers allowed (step s) := by
  cases hs : select s.turn s with
  | none =>
    obtain ⟨b, hb⟩ := step_unselected hs
    exact .inl ⟨_, hb⟩
  | some sel =>
    obtain ⟨i, hd, ha⟩ := h sel hs
    rw [step_eq_finish hs hd]
    rcases ha with ⟨t, he⟩ | ⟨q, hq, he⟩
    · exact .inl ⟨t.advance, by rw [he]; rfl⟩
    · exact .inr ⟨q, hq, by rw [he]; rfl⟩

/-- What is selected in a turn of `CD[c]`. -/
theorem CdInv.cd_answers {s : State} (h : CdInv s) {c : Nat} {sel : Selector} (hs : select (.cd c) s = some sel) :
    SelectsAnswering (.cd c) s sel := by
  obtain ⟨k, hk, hsel⟩ := Option.bind_eq_some_iff.1 hs
  have hinv := h.channel k (List.mem_of_getElem? hk)
  rcases hinv.position with hp | hp | hp | hp <;> simp only [Channel.cdSelector, hp] at hsel <;> cases hsel
  · have hne : k.cd.pos ≠ .idle := by simp [hp]
    exact ⟨.chBlock c, rfl, .inl ⟨_, execChBlock_some c s k hk (h.running hk hne).2 (hinv.block hne)⟩⟩
  · obtain ⟨hblk, hlo⟩ := h.sample_exists hk hp
    exact ⟨.chSample c, rfl, execChSample_answers hk hblk hlo⟩
  · exact ⟨.dmSymbol c, rfl, .inl ⟨_, execDmSymbol_held c s k hk hp⟩⟩

/-- What is selected in a turn of `FDA[c]`. -/
theorem FdInv.fda_answers {s : State} (h : FdInv s) {c : Nat} {sel : Selector} (hs : select (.fda c) s = some sel) :
    SelectsAnswering (.fda c) s sel := by
  obtain ⟨k, hk, rfl⟩ := Option.map_eq_some_iff.1 hs
  have hinv := h.2.2 k (List.mem_of_getElem? hk)
  rcases hinv.position with hp | hp <;> simp only [SelectsAnswering, Channel.fdaSelector, hp]
  · exact ⟨.bqPop c, rfl, .inl (execBqPop_total hk hinv hp)⟩
  · exact ⟨.fdDone c, rfl, .inl ⟨_, execFdDone_held c s k hk hp⟩⟩

/-- What is selected in a turn of `DISP` (R245). -/
theorem disp_answers {s : State} {sel : Selector} (hs : select .disp s = some sel) : SelectsAnswering .disp s sel := by
  cases hs
  refine ⟨.dispDeliver, rfl, .inl ?_⟩
  simp only [exec, execDispDeliver]
  split
  · split_ifs <;> exact ⟨_, rfl⟩
  · exact ⟨_, rfl⟩

/-- What is selected in a turn of the block port (R246, R268). -/
theorem feed_answers {s : State} {sel : Selector} (hs : select .feed s = some sel) : SelectsAnswering .feed s sel := by
  simp only [select] at hs
  split at hs
  · split_ifs at hs
    cases hs
    refine ⟨.feedBlock _, rfl, ?_⟩
    simp only [exec, execFeedBlock]
    split_ifs
    · exact .inl ⟨_, rfl⟩
    · exact .inr ⟨_, List.mem_cons_self, rfl⟩
    · exact .inl ⟨_, rfl⟩
  · cases hs

/-- What is selected in a turn of the end-of-stream port (R247). -/
theorem eos_answers {s : State} {sel : Selector} (hs : select .eos s = some sel) : SelectsAnswering .eos s sel := by
  simp only [select] at hs
  split_ifs at hs
  cases hs
  refine ⟨.feedEos, rfl, .inl ?_⟩
  simp only [exec, execFeedEos]
  split_ifs <;> exact ⟨_, rfl⟩

/-- What is selected in a turn of the configuration port (R292). -/
theorem config_answers {s : State} {sel : Selector} (hs : select .config s = some sel) :
    SelectsAnswering .config s sel := by
  simp only [select] at hs
  split at hs
  · split_ifs at hs
    cases hs
    refine ⟨.sysConfig _, rfl, ?_⟩
    simp only [exec, execSysConfig]
    split_ifs
    · exact .inl ⟨_, rfl⟩
    · exact .inr ⟨_, List.mem_cons_self, rfl⟩
  · cases hs

/-- What is selected in a turn of the reset port (R290). -/
theorem reset_answers {s : State} {sel : Selector} (hs : select .reset s = some sel) : SelectsAnswering .reset s sel := by
  simp only [select] at hs
  split_ifs at hs
  cases hs
  exact ⟨.sysReset, rfl, .inl ⟨_, rfl⟩⟩

/-- Under the invariants a step completes, or refuses for a reason that its turn allows. -/
theorem step_answers_of_inv {s : State} (hfd : FdInv s) (hcd : CdInv s) : Answers (refusalsOf s.turn) (step s) := by
  refine step_answers fun sel hs => ?_
  generalize s.turn = t at hs ⊢
  cases t with
  | cd c => exact hcd.cd_answers hs
  | fda c => exact hfd.fda_answers hs
  | disp => exact disp_answers hs
  | feed => exact feed_answers hs
  | eos => exact eos_answers hs
  | config => exact config_answers hs
  | reset => exact reset_answers hs
  | sink b => cases hs

/-- Settles O59: under the invariants every selected operation is one whose indices exist; the reasons left are those of
`refusalsOf`. -/
theorem noStepTraps : Obligations.NoStepTraps := by
  intro s hfd hcd
  rcases step_answers_of_inv hfd hcd with hnext | ⟨q, hq, hr⟩
  · exact .inl hnext
  cases ht : s.turn with
  | cd c =>
    obtain rfl : q = .cvNonfinite := by simpa [refusalsOf, ht] using hq
    exact .inr (.inl ⟨hr, c, rfl⟩)
  | feed =>
    obtain rfl : q = .cvBlockLen := by simpa [refusalsOf, ht] using hq
    exact .inr (.inr (.inl ⟨hr, rfl⟩))
  | config =>
    obtain rfl : q = .cvConfig := by simpa [refusalsOf, ht] using hq
    exact .inr (.inr (.inr ⟨hr, rfl⟩))
  | fda | disp | eos | reset | sink => simp [refusalsOf, ht] at hq

end Sys2Proof.Machine
end

section
/-! Selectors and operations (spec/30_encoding.md R90, R103 to R105): decoding undoes encoding, encoding undoes decoding, and the
decoder is the table of R103. -/

namespace Sys2Proof.Laws.RoundTrip

/-- The round trip of every operation, from the lemma of its constructor. -/
theorem all_instr : ∀ i : Instr, Statement i
  | .chBlock c => chBlock c
  | .chSample c => chSample c
  | .chDump c => chDump c
  | .dmSample c => dmSample c
  | .dmSymbol c => dmSymbol c
  | .dmMf c => dmMf c
  | .dmNorm c => dmNorm c
  | .dmLevel c => dmLevel c
  | .dmDemap0 c => dmDemap0 c
  | .dmDemap1 c => dmDemap1 c
  | .dmDemap2 c => dmDemap2 c
  | .dmDemap3 c => dmDemap3 c
  | .dmEmit c => dmEmit c
  | .dmPll c => dmPll c
  | .fdBit c => fdBit c
  | .fdSyn1Hit c => fdSyn1Hit c
  | .fdSyn1Miss c r => fdSyn1Miss c r
  | .fdSyn2Hit c => fdSyn2Hit c
  | .fdSyn2Miss c r => fdSyn2Miss c r
  | .fdSohHit c => fdSohHit c
  | .fdSohMiss c r => fdSohMiss c r
  | .fdTxtEndEtx c p => fdTxtEndEtx c p
  | .fdTxtEndEtb c p => fdTxtEndEtb c p
  | .fdTxtFull c r => fdTxtFull c r
  | .fdTxtData c r => fdTxtData c r
  | .fdCrc1 c r => fdCrc1 c r
  | .fdCrc2 c r => fdCrc2 c r
  | .fdDone c => fdDone c
  | .bpParse c => bpParse c
  | .bpFixed c => bpFixed c
  | .bpFlags c => bpFlags c
  | .bpDown c => bpDown c
  | .bpUp c => bpUp c
  | .bpSublabel c => bpSublabel c
  | .bqPush c => bqPush c
  | .bqPop c => bqPop c
  | .faBuild c => faBuild c
  | .oqPush c => oqPush c
  | .dispDeliver => dispDeliver
  | .feedBlock b => feedBlock b
  | .feedEos => feedEos
  | .sysReset => sysReset
  | .sysConfig p => sysConfig p

end Sys2Proof.Laws.RoundTrip

namespace Sys2Proof

/-- Settles O5: one round trip for each operation. -/
theorem decodeOfEncode : Obligations.DecodeOfEncode := Laws.RoundTrip.all_instr

/-! ### Keys -/

/-- A key is its stage and its byte. -/
theorem stageKey_fields (k : BitVec 11) : stageKey (keyStage k) (keyByte k) = k :=
  (BitVec.extractLsb'_append_extractLsb'_eq_extractLsb' rfl).trans BitVec.extractLsb'_eq_self

/-- A stage number names the stage with that number alone. -/
theorem number_of_ofNumber? {n : BitVec 3} {st : Stage} (h : Stage.ofNumber? n = some st) : st.number = n := by
  revert n st
  decide

/-- A byte is its parity bit and its 7-bit character (R96). -/
theorem withParity_fields (r : Byte) : withParity (parityBit r) (maskParity r) = r := by
  revert r
  decide

/-- What a key that selects an operation is: a stage and a byte for which `decodeByte` answers that operation. -/
theorem decodeFdKey_ok {cc : ControlChars} {c : Nat} {key : BitVec 11} {len : Nat} {i : Instr}
    (h : decodeFdKey cc c key len = .ok i) :
    ∃ st : Stage, key = stageKey st.number (keyByte key) ∧ decodeByte cc c st (keyByte key) len = .ok i := by
  unfold decodeFdKey at h
  split at h
  · rename_i st hst
    exact ⟨st, by rw [number_of_ofNumber? hst, stageKey_fields], h⟩
  · cases h

/-- The operation that a stage and a byte select names its channel. -/
theorem channel_of_decodeByte {cc : ControlChars} {c : Nat} {st : Stage} {r : Byte} {len : Nat} {i : Instr}
    (h : decodeByte cc c st r len = .ok i) : i.channel? = some c := by
  have hfda := (Machine.ofFda_of_decodeByte h).1
  unfold Instr.ofFda at hfda
  split_ifs at hfda
  exact hfda

/-- The operation that a stage and a byte select has a byte its row matches, and encodes to that stage and byte; the length in
the encoding is 242 for `FD.TXT.FULL` alone (R103). -/
theorem encode_of_decodeByte {cc : ControlChars} {c : Nat} {st : Stage} {r : Byte} {len : Nat} {i : Instr}
    (h : decodeByte cc c st r len = .ok i) :
    i.byteOk cc = true ∧ ∃ len', encode cc i = encodeByte c st r len' ∧ (len' = 242 ↔ i.mnemonic = "FD.TXT.FULL") := by
  unfold decodeByte at h
  cases st <;> simp only [Except.ok.injEq, reduceCtorEq] at h
  case syn1 | syn2 | soh =>
    split_ifs at h with hr <;> subst h
    · exact ⟨rfl, 0, by simp only [encode, hr], by simp [Instr.mnemonic]⟩
    · exact ⟨by simpa [Instr.byteOk] using hr, 0, rfl, by simp [Instr.mnemonic]⟩
  case txt =>
    split_ifs at h with hx hb <;> cases h
    · exact ⟨rfl, 0, by simp only [encode, ← hx, withParity_fields], by simp [Instr.mnemonic]⟩
    · exact ⟨rfl, 0, by simp only [encode, ← hb, withParity_fields], by simp [Instr.mnemonic]⟩
    · exact ⟨by simp [Instr.byteOk, ControlChars.isDelimiter, hx, hb], 242, rfl, by simp [Instr.mnemonic]⟩
    · exact ⟨by simp [Instr.byteOk, ControlChars.isDelimiter, hx, hb], 0, rfl, by simp [Instr.mnemonic]⟩
  case crc1 | crc2 =>
    subst h
    exact ⟨rfl, 0, rfl, by simp [Instr.mnemonic]⟩

/-- Settles O6: a key is its stage and byte, and the operation they select encodes to them. -/
theorem encodeOfDecodedKey : Obligations.EncodeOfDecodedKey := by
  intro cc nchan c key len i _ hc h
  obtain ⟨st, hkey, hd⟩ := decodeFdKey_ok h
  obtain ⟨hbyte, len', henc, hlen⟩ := encode_of_decodeByte hd
  refine ⟨?_, len', ?_, hlen⟩
  · simp [Instr.wellFormed, Instr.channelOk, channel_of_decodeByte hd, hc, hbyte]
  · rw [henc, encodeByte, ← hkey]

/-! ### The table of R103 -/

/-- The condition of a row on `FD.len`. -/
def SelRow.lenHits (row : SelRow) (len : Nat) : Bool :=
  match row.lenOk with
  | none => true
  | some true => decide (len = 242)
  | some false => decide (len < 242)

/-- Two keys agree where their stages and their bytes do. -/
theorem stageKey_inj {m n : BitVec 3} {q r : Byte} : stageKey m q = stageKey n r ↔ m = n ∧ q = r := by
  refine ⟨fun h => ⟨?_, ?_⟩, fun ⟨hm, hq⟩ => by rw [hm, hq]⟩
  · simpa only [Laws.RoundTrip.keyStage_stageKey] using congrArg keyStage h
  · simpa only [Laws.RoundTrip.keyByte_stageKey] using congrArg keyByte h

/-- A mask selects bits of the stage and of the byte. -/
theorem stageKey_and (n : BitVec 3) (r : Byte) (mask : BitVec 11) :
    stageKey n r &&& mask = stageKey (n &&& keyStage mask) (r &&& keyByte mask) := by
  conv_lhs => rw [← stageKey_fields mask]
  exact BitVec.and_append

/-- The row's stage is that of the key. -/
def SelRow.hitsStage (row : SelRow) (n : BitVec 3) : Bool := n &&& keyStage row.mask == keyStage row.pattern

/-- The row matches the byte and its condition on `FD.len` holds. -/
def SelRow.hitsByte (row : SelRow) (r : Byte) (len : Nat) : Bool :=
  r &&& keyByte row.mask == keyByte row.pattern && row.lenHits len

/-- A row matches a key where it matches the stage, the byte and the length. -/
theorem SelRow.hits_stageKey (row : SelRow) (n : BitVec 3) (r : Byte) (len : Nat) :
    row.hits (stageKey n r) len = (row.hitsStage n && row.hitsByte r len) := by
  have hkey : (stageKey n r &&& row.mask == row.pattern) =
      (row.hitsStage n && r &&& keyByte row.mask == keyByte row.pattern) := by
    rw [stageKey_and, ← stageKey_fields row.pattern, Bool.eq_iff_iff, beq_iff_eq, stageKey_inj]
    simp [SelRow.hitsStage, Laws.RoundTrip.keyByte_stageKey]
  rw [SelRow.hitsByte, ← Bool.and_assoc, ← hkey]
  rfl

/-- The first row that matches a key is found among the rows of its stage. -/
theorem find_stageKey (n : BitVec 3) (r : Byte) (len : Nat) :
    selectorRows.find? (fun row => row.hits (stageKey n r) len) =
      (selectorRows.filter (fun row => row.hitsStage n)).find? (fun row => row.hitsByte r len) := by
  simp only [List.find?_filter, SelRow.hits_stageKey, Bool.decide_and, Bool.decide_eq_true]

/-- The rows of each stage number: those of R103, and none for the numbers 6 and 7. -/
theorem rows_of_stage (n : BitVec 3) :
    selectorRows.filter (fun row => row.hitsStage n) =
      match n with
      | 0#3 => [⟨0x016#11, 0x7FF#11, none, "FD.SYN1.HIT"⟩, ⟨0x000#11, 0x700#11, none, "FD.SYN1.MISS"⟩]
      | 1#3 => [⟨0x116#11, 0x7FF#11, none, "FD.SYN2.HIT"⟩, ⟨0x100#11, 0x700#11, none, "FD.SYN2.MISS"⟩]
      | 2#3 => [⟨0x201#11, 0x7FF#11, none, "FD.SOH.HIT"⟩, ⟨0x200#11, 0x700#11, none, "FD.SOH.MISS"⟩]
      | 3#3 =>
        [⟨0x303#11, 0x77F#11, none, "FD.TXT.END"⟩, ⟨0x317#11, 0x77F#11, none, "FD.TXT.END"⟩,
          ⟨0x300#11, 0x700#11, some true, "FD.TXT.FULL"⟩, ⟨0x300#11, 0x700#11, some false, "FD.TXT.DATA"⟩]
      | 4#3 => [⟨0x400#11, 0x700#11, none, "FD.CRC1"⟩]
      | 5#3 => [⟨0x500#11, 0x700#11, none, "FD.CRC2"⟩]
      | _ => [] := by
  revert n
  decide

/-- A mask of eight ones leaves the byte. -/
theorem byte_and_full (r : Byte) : r &&& 0xFF#8 = r := BitVec.and_allOnes

/-- A mask of seven ones leaves the character without its parity bit (R96). -/
theorem byte_and_character (r : Byte) : r &&& 0x7F#8 = maskParity r := rfl

/-- The first row that matches a stage and a byte is a row of the operation that `decodeByte` answers (R103). -/
theorem firstRow_of_stage (c : Nat) {st : Stage} (r : Byte) {len : Nat} (hst : st ≠ .done) (hlen : len ≤ 242) :
    ∃ row i, selectorRows.find? (fun row => row.hits (stageKey st.number r) len) = some row ∧
      decodeByte ControlChars.default c st r len = .ok i ∧ i.mnemonic = row.mnemonic := by
  rw [find_stageKey, rows_of_stage]
  cases st
  case done => exact absurd rfl hst
  case syn1 | syn2 =>
    by_cases hr : r = 0x16#8 <;>
      simp [Stage.number, SelRow.hitsByte, SelRow.lenHits, keyByte, byte_and_full, decodeByte, ControlChars.default, hr,
        Instr.mnemonic]
  case soh =>
    by_cases hr : r = 0x01#8 <;>
      simp [Stage.number, SelRow.hitsByte, SelRow.lenHits, keyByte, byte_and_full, decodeByte, ControlChars.default, hr,
        Instr.mnemonic]
  case txt =>
    have hmax : Config.blkMax - 1 = 242 := rfl
    have etx : ControlChars.default.etx = 0x03#8 := rfl
    have etb : ControlChars.default.etb = 0x17#8 := rfl
    by_cases hx : maskParity r = 0x03#8
    · simp [Stage.number, SelRow.hitsByte, SelRow.lenHits, keyByte, byte_and_character, decodeByte, Instr.mnemonic, etx, hx]
    by_cases hb : maskParity r = 0x17#8
    · simp [Stage.number, SelRow.hitsByte, SelRow.lenHits, keyByte, byte_and_character, decodeByte, Instr.mnemonic, etx, etb, hb]
    by_cases hl : len = 242
    · simp [Stage.number, SelRow.hitsByte, SelRow.lenHits, keyByte, byte_and_character, decodeByte, Instr.mnemonic, etx, etb, hx,
        hb, hmax, hl]
    · have hlt : len < 242 := by omega
      simp [Stage.number, SelRow.hitsByte, SelRow.lenHits, keyByte, byte_and_character, decodeByte, Instr.mnemonic, etx, etb, hx,
        hb, hmax, hl, hlt]
  case crc1 | crc2 =>
    simp [Stage.number, SelRow.hitsByte, SelRow.lenHits, keyByte, decodeByte, Instr.mnemonic]

/-- A stage number below 6 is that of a reachable stage. -/
theorem reachable_stage {n : BitVec 3} (h : n < 6#3) : ∃ st ∈ Stage.ofNumber? n, st ≠ .done := by
  revert n
  decide

/-- The stage numbers 6 and 7 have no row, and no key of theirs selects. -/
theorem unreachable_stage {n : BitVec 3} (h : 6#3 ≤ n) :
    selectorRows.filter (fun row => row.hitsStage n) = [] ∧ (Stage.ofNumber? n = some .done ∨ Stage.ofNumber? n = none) := by
  revert n
  decide

/-- Settles O4: the first row that matches is found among the rows of the key's stage; the operation that the decoder answers
has that row's name, and encodes to the key. -/
theorem decoderIsTheSelectorTable : Obligations.DecoderIsTheSelectorTable := by
  intro c key len hlen
  have hkey := stageKey_fields key
  refine ⟨fun hst => ?_, fun hst => ?_⟩
  · obtain ⟨st, hnum, hne⟩ := reachable_stage hst
    rw [Option.mem_def] at hnum
    obtain ⟨row, i, hrow, hd, hname⟩ := firstRow_of_stage c (keyByte key) hne hlen
    obtain ⟨-, len', henc, -⟩ := encode_of_decodeByte hd
    rw [encodeByte] at henc
    rw [number_of_ofNumber? hnum, hkey] at hrow henc
    exact ⟨row, i, hrow, by simp only [decodeFdKey, hnum, hd], hname, channel_of_decodeByte hd, len', henc⟩
  · obtain ⟨hrows, hnum⟩ := unreachable_stage hst
    refine ⟨?_, ?_⟩
    · rcases hnum with hnum | hnum <;> simp [decodeFdKey, hnum, decodeByte]
    · rw [← hkey, find_stageKey, hrows, List.find?_nil]

/-- Settles O3: each word is a literal, so its selector and the operation it selects evaluate. -/
theorem wordsDecodeToTheirOperations : Obligations.WordsDecodeToTheirOperations :=
  ⟨rfl, rfl, rfl, rfl, rfl, rfl, rfl, rfl, rfl, rfl, rfl, rfl, rfl, rfl, rfl, rfl⟩

end Sys2Proof

namespace Sys2Proof.Machine

/-! ### What each agent and port selects -/

variable {s : State} {c : Nat} {k : Channel}

/-- A step of `CD[c]` in a position that selects. -/
theorem step_of_cdSelector {sel : Selector} {i : Instr} (ht : s.turn = .cd c) (hk : s.channels[c]? = some k)
    (hs : Channel.cdSelector c k = some sel) (hd : decode s.cfg.chars sel = .ok i) : step s = finish (exec i s) :=
  step_eq_finish (by rw [ht]; simp [select, hk, hs]) hd

/-- A step of `CD[c]` at the demapper: the symbol phase selects (R104). -/
theorem step_of_demap (ht : s.turn = .cd c) (hk : s.channels[c]? = some k) (hp : k.cd.pos = .demap) :
    step s = finish (exec (decodeDemap c k.dm.s) s) :=
  step_of_cdSelector ht hk (sel := .demapKey c k.dm.s) (by simp [Channel.cdSelector, hp]) rfl

/-- The demapper operation of a symbol phase, by comparison with the four keys. -/
theorem decodeDemap_eq (c : Nat) (b : BitVec 2) :
    decodeDemap c b =
      if b = 0#2 then .dmDemap0 c else if b = 1#2 then .dmDemap1 c else if b = 2#2 then .dmDemap2 c else .dmDemap3 c := by
  rcases two_bits b with rfl | rfl | rfl | rfl <;> rfl

/-- A step of `FDA[c]` runs what its selector decodes to. -/
theorem step_of_fdaSelector {i : Instr} (ht : s.turn = .fda c) (hk : s.channels[c]? = some k)
    (hd : decode s.cfg.chars (Channel.fdaSelector c k) = .ok i) : step s = finish (exec i s) :=
  step_eq_finish (by rw [ht]; simp [select, hk]) hd

/-- The selector of a completed byte decodes as its stage and byte do (R103). -/
theorem decode_fdaSelector_stage (hp : k.fda.pos = .stage) :
    decode s.cfg.chars (Channel.fdaSelector c k) = decodeByte s.cfg.chars c k.fd.stage k.fd.sr k.fd.len := by
  simp only [Channel.fdaSelector, hp, decode_stageKey]

/-- The selector of step 3 of `BP.PARSE` decodes by the delimiter and the direction (R105). -/
theorem decode_fdaSelector_opt (hp : k.fda.pos = .opt) :
    decode s.cfg.chars (Channel.fdaSelector c k) = decodeBlockByte s.cfg.chars c k.fda.blk.delim k.fda.blk.up := by
  simp only [Channel.fdaSelector, hp, decode]

/-- A turn in which nothing is selected is used up. -/
theorem step_of_idle {t : Turn} (ht : s.turn = t) (hsink : ∀ b, t ≠ .sink b) (hs : select t s = none) :
    step s = .next s.advance :=
  step_of_select_none s (ht ▸ hsink) (ht ▸ hs)

/-- A step of `FDA[c]` on a completed byte. -/
theorem step_of_byte {i : Instr} (ht : s.turn = .fda c) (hk : s.channels[c]? = some k) (hp : k.fda.pos = .stage)
    (hd : decodeByte s.cfg.chars c k.fd.stage k.fd.sr k.fd.len = .ok i) : step s = finish (exec i s) :=
  step_of_fdaSelector ht hk ((decode_fdaSelector_stage hp).trans hd)

/-- A completed byte in the transient stage selects nothing. -/
theorem step_of_stageDone (ht : s.turn = .fda c) (hk : s.channels[c]? = some k) (hp : k.fda.pos = .stage)
    (hs : k.fd.stage = .done) : step s = .refused (.noOperation .stageUnreachable) := by
  rw [step_of_select s (Channel.fdaSelector c k) (by rw [ht]; simp [select, hk]), decode_fdaSelector_stage hp, hs]
  rfl

/-- A step of `FDA[c]` at step 3 of `BP.PARSE`. -/
theorem step_of_opt {i : Instr} (ht : s.turn = .fda c) (hk : s.channels[c]? = some k) (hp : k.fda.pos = .opt)
    (hd : decodeBlockByte s.cfg.chars c k.fda.blk.delim k.fda.blk.up = .ok i) : step s = finish (exec i s) :=
  step_of_fdaSelector ht hk ((decode_fdaSelector_opt hp).trans hd)

/-- A channel that does not exist selects nothing. -/
theorem step_of_no_channel (ht : s.turn = .cd c ∨ s.turn = .fda c) (hk : s.channels[c]? = none) :
    step s = .next s.advance := by
  rcases ht with ht | ht <;> exact step_of_idle ht (by simp) (by simp [select, hk])

/-- No block is selected where none waits, or before the reset that follows a configuration (R290, R293). -/
theorem select_feed_none (h : s.sampleIn = [] ∨ s.phase = .configured) : select .feed s = none := by
  simp only [select]
  split
  · exact if_pos (h.resolve_left (by simp [*]))
  · rfl

/-- No configuration is selected where none waits, or inside a run (R292, R293). -/
theorem select_config_none (h : s.configIn = none ∨ (s.phase = .running ∧ s.eos = false)) : select .config s = none := by
  simp only [select]
  split
  · exact if_pos (h.resolve_left (by simp [*]))
  · rfl

/-- Settles O2: by the position of the agent, or by what waits on the port. -/
theorem positionsSelectTheirOperations : Obligations.PositionsSelectTheirOperations := by
  refine ⟨fun s c k ht hk => ?cd, fun s c k ht hk => ?fda, fun s c => step_of_no_channel, fun s ht => ?disp,
    fun s ht => ⟨fun b rest hb hp => ?block, fun h => ?noBlock⟩, fun s ht => ?eos,
    fun s ht => ⟨fun p hp hrun => ?config, fun h => ?noConfig⟩, fun s ht => ?reset⟩
  case cd =>
    cases hp : k.cd.pos
    case idle => exact step_of_idle ht (by simp) (by simp [select, hk, Channel.cdSelector, hp])
    case demap =>
      rw [step_of_demap ht hk hp, decodeDemap_eq]
      dsimp only
      split_ifs <;> rfl
    all_goals exact step_of_cdSelector ht hk (by simp only [Channel.cdSelector, hp]; rfl) rfl
  case fda =>
    cases hp : k.fda.pos
    case stage =>
      have run := fun {i : Instr} => step_of_byte (i := i) ht hk hp
      cases hs : k.fd.stage <;> rw [hs] at run
      case txt =>
        dsimp only
        split_ifs with hx hb hl
        · exact run (if_pos hx)
        · exact run ((if_neg hx).trans (if_pos hb))
        · exact run ((if_neg hx).trans ((if_neg hb).trans (if_pos hl)))
        · exact fun hlt => run ((if_neg hx).trans ((if_neg hb).trans ((if_neg hl).trans (if_pos hlt))))
      case done => exact step_of_stageDone ht hk hp hs
      all_goals exact run rfl
    case opt =>
      dsimp only
      split_ifs with hd
      · exact ⟨fun hu => step_of_opt ht hk hp ((if_pos hd).trans (by rw [hu])),
          fun hu => step_of_opt ht hk hp ((if_pos hd).trans (by rw [hu]))⟩
      · exact step_of_opt ht hk hp (if_neg hd)
    all_goals exact step_of_fdaSelector ht hk (by simp only [Channel.fdaSelector, hp]; rfl)
  case disp => exact step_eq_finish (sel := .deliver) (by rw [ht]; rfl) rfl
  case block => exact step_eq_finish (sel := .sampleIn b) (by rw [ht]; simp [select, hb, hp]) rfl
  case noBlock => exact step_of_idle ht (by simp) (select_feed_none h)
  case eos =>
    split_ifs with hi
    · exact step_eq_finish (sel := .eosIn) (by rw [ht]; exact if_pos hi) rfl
    · exact step_of_idle ht (by simp) (if_neg hi)
  case config => exact step_eq_finish (sel := .configIn p) (by rw [ht]; simp only [select, hp, if_neg hrun]) rfl
  case noConfig => exact step_of_idle ht (by simp) (select_config_none h)
  case reset =>
    split_ifs with hi
    · exact step_eq_finish (sel := .resetIn) (by rw [ht]; exact if_pos hi) rfl
    · exact step_of_idle ht (by simp) (if_neg hi)

end Sys2Proof.Machine
end

section
/-! The content of a block (spec/30_encoding.md R96, R107; spec/42_frame_decoder.md R188 to R198): what a stage operation makes of
the block, and that it keeps delimiters out of it. -/

namespace Sys2Proof

/-- The stages of a block that is over (R197). -/
def Stage.IsOver (st : Stage) : Prop := st = .crc1 ∨ st = .crc2 ∨ st = .done

end Sys2Proof

namespace Sys2Proof.Machine

/-! ### Characters -/

/-- Masking twice is masking once. -/
theorem maskParity_maskParity (r : Byte) : maskParity (maskParity r) = maskParity r := by
  rw [maskParity, maskParity, BitVec.and_assoc, BitVec.and_self]

/-- A character is a delimiter as stored where it is one as received (R103, R107). -/
theorem isDelimiter_maskParity (cc : ControlChars) (r : Byte) : cc.isDelimiter (maskParity r) = cc.isDelimiter r := by
  simp only [ControlChars.isDelimiter, maskParity_maskParity]

/-! ### The block of one channel -/

/-- What an operation makes of the block of a channel (R186 to R194). -/
inductive BlockChange (cc : ControlChars) (fd fd' : FdState) : Prop where
  /-- The decoder seeks. -/
  | seek (hstage : fd'.stage ≠ .txt ∧ ¬fd'.stage.IsOver)
  /-- A block is opened, empty. -/
  | opened (hstage : fd'.stage = .txt) (hlen : fd'.len = 0)
  /-- The block stays as it is, and over if it is then over. -/
  | kept (hstage : fd'.stage = fd.stage ∨ fd.stage.IsOver ∧ fd'.stage.IsOver) (hlen : fd'.len = fd.len)
      (hbuf : fd'.buf = fd.buf)
  /-- A character that is no delimiter is appended. -/
  | stored (r : Byte) (hopen : fd.stage = .txt) (hr : cc.isDelimiter r = false) (hstage : fd'.stage = .txt)
      (hlen : fd'.len = fd.len + 1) (hbuf : fd'.buf = fd.buf.write fd.len (maskParity r))
  /-- A last character is appended: a delimiter, or the 243rd. -/
  | ended (r : Byte) (hopen : fd.stage = .txt) (hr : cc.isDelimiter r = true ∨ fd.len = 242) (hstage : fd'.stage = .crc1)
      (hlen : fd'.len = fd.len + 1) (hbuf : fd'.buf = fd.buf.write fd.len (maskParity r))

/-- The content reads the stage, the length and the store alone. -/
theorem BlockContentInv.congr {cc : ControlChars} {k k' : Channel} (h : BlockContentInv cc k)
    (hstage : k'.fd.stage = k.fd.stage) (hlen : k'.fd.len = k.fd.len) (hbuf : k'.fd.buf = k.fd.buf) :
    BlockContentInv cc k' := by
  constructor <;> simp only [hstage, hlen, hbuf]
  exacts [h.open_block, h.closed_block]

/-- A decoder that seeks has no block. -/
theorem BlockContentInv.seek {cc : ControlChars} {k : Channel} (h : k.fd.stage ≠ .txt ∧ ¬k.fd.stage.IsOver) :
    BlockContentInv cc k := ⟨fun hs => absurd hs h.1, fun hs => absurd hs h.2⟩

/-- Every change of the block keeps its content. -/
theorem BlockContentInv.change {cc : ControlChars} {k k' : Channel} (h : BlockContentInv cc k) (hwf : k.fd.buf.wf)
    (hc : BlockChange cc k.fd k'.fd) : BlockContentInv cc k' := by
  -- A character appended to an open block leaves the characters before it, and can be read back.
  have append : ∀ {r : Byte}, k.fd.stage = .txt → k'.fd.len = k.fd.len + 1 →
      k'.fd.buf = k.fd.buf.write k.fd.len (maskParity r) →
      (∀ j < k.fd.len, cc.isDelimiter (k'.fd.buf.read j) = false) ∧
        cc.isDelimiter (k'.fd.buf.read k.fd.len) = cc.isDelimiter r := fun hopen hlen hbuf => by
    refine ⟨fun j hj => ?_, ?_⟩
    · rw [hbuf, Memory.read_write _ _ _ hwf, if_neg hj.ne]
      exact h.open_block hopen j hj
    · rw [hbuf, Memory.read_write _ _ _ hwf, if_pos rfl, isDelimiter_maskParity]
  cases hc with
  | seek hstage => exact .seek hstage
  | opened hstage hlen =>
    refine ⟨fun _ j hj => ?_, fun hs => ?_⟩
    · omega
    · simp [hstage] at hs
  | kept hstage hlen hbuf =>
    rcases hstage with hstage | ⟨hover, hover'⟩
    · exact h.congr hstage hlen hbuf
    · refine ⟨fun hs => ?_, fun _ => ?_⟩
      · simp [Stage.IsOver, hs] at hover'
      · rw [hlen, hbuf]
        exact h.closed_block hover
  | stored r hopen hr hstage hlen hbuf =>
    obtain ⟨hbefore, hlast⟩ := append hopen hlen hbuf
    refine ⟨fun _ j hj => ?_, fun hs => by simp [hstage] at hs⟩
    rcases (by omega : j < k.fd.len ∨ j = k.fd.len) with hj | rfl
    · exact hbefore j hj
    · exact hlast.trans hr
  | ended r hopen hr hstage hlen hbuf =>
    obtain ⟨hbefore, hlast⟩ := append hopen hlen hbuf
    refine ⟨fun hs => by simp [hstage] at hs, fun _ => ⟨fun j hj => hbefore j (by omega), ?_⟩⟩
    rw [hlen, Nat.add_sub_cancel]
    exact hr.imp hlast.trans (fun h => by omega)

/-! ### Operations -/

/-- An operation of `FDA[c]` changes the block `fd` of its channel. -/
def ChangesBlock (cc : ControlChars) (c : Nat) (fd : FdState) (t : State) : Prop :=
  ∃ k', t.channels[c]? = some k' ∧ BlockChange cc fd k'.fd

/-- An operation that replaces its channel, whatever it adds to the trace. -/
theorem updateChannel_block {c : Nat} {s t : State} {k : Channel} {cc : ControlChars} {ev : List Event} {f : Channel → Channel}
    (hk : s.channels[c]? = some k) (hf : BlockChange cc k.fd (f k).fd)
    (h : updateChannel c { s with events := ev } f = .next t) : ChangesBlock cc c k.fd t := by
  obtain ⟨k', hk', rfl⟩ := updateChannel_next c _ t f h
  obtain rfl : k = k' := Option.some.inj (hk.symm.trans hk')
  exact ⟨f k, putChannel_self _ c k (f k) hk, hf⟩

/-- `FD.RESYNC` (R194). -/
theorem stageMiss_block (cc : ControlChars) (p : Params) (k : Channel) (fd : FdState) :
    BlockChange cc fd (stageMiss p k).fd := .seek (by simp [stageMiss, Stage.IsOver])

/-- A hit while seeking (R182, R184). -/
theorem stageTransfer_block (cc : ControlChars) (k : Channel) {st : Stage} (hst : st = .syn2 ∨ st = .soh) :
    BlockChange cc k.fd (stageTransfer st k).fd :=
  .seek (by rcases hst with rfl | rfl <;> simp [stageTransfer, Stage.IsOver])

/-- `FD.DONE` from its push on: the decoder seeks again, or the block that is over stays (R193). -/
theorem dispatched_block {cc : ControlChars} {c : Nat} {s : State} {k k₀ : Channel} {fd : FdState}
    (hk : s.channels[c]? = some k₀) (h : BlockChange cc fd k.fd) : ChangesBlock cc c fd (dispatched c s k) := by
  unfold dispatched
  split_ifs
  · exact ⟨_, putChannel_self s c k₀ _ hk, stageMiss_block cc s.cfg k fd⟩
  · exact ⟨_, putChannel_self s c k₀ k hk, h⟩

/-- `FD.CRC2` runs `FD.DONE` on a block that is over (R192). -/
theorem execFdCrc2_block {cc : ControlChars} {c : Nat} {r : Byte} {s t : State} {k : Channel} (hk : s.channels[c]? = some k)
    (hs : k.fd.stage = .crc2) (hlen : k.fd.len ≤ 243) (h : execFdCrc2 c r s = .next t) : ChangesBlock cc c k.fd t := by
  rw [execFdCrc2_some c r s k hk,
    execFdDone_some c _ _ (putChannel_self s c k _ hk) (by simp) (by simp) (by exact hlen)] at h
  cases h
  exact dispatched_block (putChannel_self s c k _ hk)
    (.kept (.inr ⟨.inr (.inl hs), .inr (.inr rfl)⟩) rfl rfl)

/-- The text operations (R188, R189). -/
theorem storeCharacter_block {cc : ControlChars} {c : Nat} {s t : State} {k : Channel} {ch : Byte} {st : Stage}
    (hk : s.channels[c]? = some k) (hc : BlockChange cc k.fd ((k.fd.append ch).goto st)) (h : storeCharacter c s ch st = .next t) :
    ChangesBlock cc c k.fd t := by
  obtain ⟨k', hk', -, rfl⟩ := storeCharacter_next c s t ch st h
  obtain rfl : k = k' := Option.some.inj (hk.symm.trans hk')
  exact ⟨_, putChannel_self s c k _ hk, hc⟩

/-- The stage operation that a completed byte selects changes the block by a character of the text, or ends it, or seeks. -/
theorem stageOperation_block {c : Nat} {s t : State} {k : Channel} {i : Instr} {r : Byte} (hk : s.channels[c]? = some k)
    (hlen : k.fd.len ≤ 243) (hd : decodeByte s.cfg.chars c k.fd.stage r k.fd.len = .ok i)
    (h : exec i s = .next t) : ChangesBlock s.cfg.chars c k.fd t := by
  unfold decodeByte at hd
  cases hs : k.fd.stage <;> simp only [hs, Except.ok.injEq, reduceCtorEq] at hd
  case syn1 =>
    split_ifs at hd <;> subst hd
    · exact updateChannel_block (ev := s.events) hk (stageTransfer_block _ k (.inl rfl)) h
    · exact updateChannel_block (ev := s.events) hk (stageMiss_block _ s.cfg k k.fd) h
  case syn2 =>
    split_ifs at hd <;> subst hd
    · exact updateChannel_block (ev := s.events) hk (stageTransfer_block _ k (.inr rfl)) h
    · exact updateChannel_block hk (stageMiss_block _ s.cfg k k.fd) h
  case soh =>
    split_ifs at hd <;> subst hd
    · rw [show exec (.fdSohHit c) s = _ from onChannel_some c s _ k hk] at h
      cases h
      exact ⟨_, putChannel_self s c k _ hk, .opened rfl rfl⟩
    · exact updateChannel_block hk (stageMiss_block _ s.cfg k k.fd) h
  case txt =>
    split_ifs at hd with hx hb hl <;> cases hd
    · refine storeCharacter_block hk (.ended r hs (.inl ?_) rfl rfl ?_) h
      · simp [ControlChars.isDelimiter, hx]
      · simp only [← hx, withParity_fields, FdState.goto_buf, FdState.append_buf]
    · refine storeCharacter_block hk (.ended r hs (.inl ?_) rfl rfl ?_) h
      · simp [ControlChars.isDelimiter, hb]
      · simp only [← hb, withParity_fields, FdState.goto_buf, FdState.append_buf]
    · have hl : k.fd.len = 242 := hl
      exact updateChannel_block hk (.ended r hs (.inr hl) rfl (by rw [hl]; rfl) (by rw [hl]; rfl)) h
    · exact storeCharacter_block hk (.stored r hs (by simp [ControlChars.isDelimiter, hx, hb]) rfl rfl rfl) h
  case crc1 =>
    subst hd
    exact updateChannel_block (ev := s.events) hk (.kept (.inr ⟨.inl hs, .inr (.inl rfl)⟩) rfl rfl) h
  case crc2 =>
    subst hd
    exact execFdCrc2_block hk hs hlen h

/-- The channel that an operation of `FDA[c]` leaves keeps the content. -/
def ContentKept (cc : ControlChars) (c : Nat) (t : State) : Prop :=
  ∃ k', t.channels[c]? = some k' ∧ BlockContentInv cc k'

theorem ChangesBlock.keeps {cc : ControlChars} {c : Nat} {t : State} {k : Channel} (h : ChangesBlock cc c k.fd t)
    (hwf : k.fd.buf.wf) (hk : BlockContentInv cc k) : ContentKept cc c t := by
  obtain ⟨k', hk', hc⟩ := h
  exact ⟨k', hk', hk.change hwf hc⟩

/-- `BQ.POP` (R242): held, one bit of a byte, or the stage operation of the byte it completes. -/
theorem execBqPop_content {c : Nat} {s t : State} {k : Channel} (hk : s.channels[c]? = some k) (hinv : FdChannelInv k)
    (hcontent : BlockContentInv s.cfg.chars k) (h : execBqPop c s = .next t) : ContentKept s.cfg.chars c t := by
  cases hq : k.bq with
  | nil =>
    rw [execBqPop_nil hk hq] at h
    cases h
    exact ⟨k, hk, hcontent⟩
  | cons d q =>
    rw [execBqPop_cons hk hq] at h
    split_ifs at h
    · split at h
      · have hc := stageOperation_block (k := k.took s.cfg.numerics d q .stage) (putChannel_self s c k _ hk) hinv.len_le
          (by assumption) h
        exact hc.keeps hinv.buf_wf (hcontent.congr rfl rfl rfl)
      · cases h
    · cases h
      exact ⟨_, putChannel_self s c k _ hk, hcontent.congr rfl rfl rfl⟩

/-- An operation of `FDA[c]` that a step runs. -/
theorem FdInv.exec_ofFda_content {s t : State} {i : Instr} {c : Nat} (h : FdInv s) (hi : i.ofFda = some c) (hr : Runs s i)
    (hcontent : ∀ k ∈ s.channels, BlockContentInv s.cfg.chars k) (he : exec i s = .next t) :
    ContentKept s.cfg.chars c t := by
  obtain ⟨k, hk, hrun⟩ := h.runs_fda hi hr
  have hinv := h.2.2 k (List.mem_of_getElem? hk)
  have hk₀ := hcontent k (List.mem_of_getElem? hk)
  rcases hrun with ⟨-, rfl⟩ | ⟨hp, rfl⟩
  · exact execBqPop_content hk hinv hk₀ he
  · rw [show exec (.fdDone c) s = _ from execFdDone_held c s k hk hp] at he
    cases he
    exact (dispatched_block hk (.kept (.inl rfl) rfl rfl)).keeps hinv.buf_wf hk₀

/-- Every effect of an operation keeps the content of the blocks. -/
theorem ContentInv.effect {s t : State} {i : Instr} (hfd : FdInv s) (h : ContentInv s) (he : Effect s i t) :
    ContentInv t := by
  intro hphase
  cases he with
  | held | deliver | feedEos => exact h hphase
  | cd _ c _ hi hr he =>
    obtain ⟨k, k', ev, hk, hwork, rfl⟩ := exec_ofCd hi he
    intro x hx
    rcases mem_putChannel s c k' x hx with rfl | hx
    · have hown := hwork.owned.fd
      exact (h hphase k (List.mem_of_getElem? hk)).congr (by rw [hown]) (by rw [hown]) (by rw [hown])
    · exact h hphase x hx
  | fda _ c _ hi hr he =>
    obtain ⟨k, k', ev, oq, n, hk, -, -, rfl⟩ := exec_ofFda hi he
    intro x hx
    rcases mem_putChannel s c k' x hx with rfl | hx
    · obtain ⟨k₁, hk₁, hcontent⟩ := hfd.exec_ofFda_content hi hr (h hphase) he
      obtain rfl : x = k₁ := Option.some.inj ((putChannel_self s c k x hk).symm.trans hk₁)
      exact hcontent
    · exact h hphase x hx
  | feedBlock b hp =>
    intro x hx
    obtain ⟨k, hk, rfl⟩ := List.mem_map.1 hx
    exact (h hp k hk).congr rfl rfl rfl
  | sysReset =>
    intro x hx
    obtain ⟨k, -, n, rfl⟩ := mem_resetChannels s x hx
    exact .seek (by simp [Channel.afterReset, FdState.afterReset, FdState.reset, Stage.IsOver])
  | sysConfig => exact absurd rfl hphase

/-- Settles O57: by the effects of a step; a character that is no delimiter goes into an open block, a delimiter or the 243rd
character ends it. -/
theorem blockContentIsKept : Obligations.BlockContentIsKept :=
  fun _ _ hfd h hstep => step_keeps (fun _ _ _ _ ht => ht) (fun _ _ he => h.effect hfd he) hstep

end Sys2Proof.Machine
end

section
/-! Finiteness over exact reals (spec/30_encoding.md R108; spec/41_demodulator.md R166; spec/60_exceptions.md R260, R266): the
rules compute finite values from finite ones, so no operation refuses a value that arose inside. -/

namespace Sys2Proof.Numerics

/-! ### Complex values -/

theorem finite_cAdd {z w : Cplx} (hz : z.finite = true) (hw : w.finite = true) : (exact.cAdd z w).finite = true := by
  simp only [Cplx.finite, Bool.and_eq_true] at hz hw
  simp [Cplx.finite, cAdd, hz, hw]

theorem finite_cMul {z w : Cplx} (hz : z.finite = true) (hw : w.finite = true) : (exact.cMul z w).finite = true := by
  simp only [Cplx.finite, Bool.and_eq_true] at hz hw
  simp [Cplx.finite, cMul, hz, hw]

theorem finite_cScale {r : Scalar} {z : Cplx} (hr : r.finite = true) (hz : z.finite = true) :
    (exact.cScale r z).finite = true := by
  simp only [Cplx.finite, Bool.and_eq_true] at hz
  simp [Cplx.finite, cScale, hr, hz]

/-- A quotient by a number other than 0 is finite. -/
theorem finite_div_of_ne {x y : Scalar} (hx : x.finite = true) (hy : y.finite = true) (h : y.toReal ≠ 0) :
    (exact.div x y).finite = true :=
  Scalar.finite_div x y hx hy (fun hz => h (by simp [hz]))

theorem finite_cDiv {z : Cplx} {r : Scalar} (hz : z.finite = true) (hr : r.finite = true) (h : r.toReal ≠ 0) :
    (exact.cDiv z r).finite = true := by
  simp only [Cplx.finite, Bool.and_eq_true] at hz ⊢
  exact ⟨finite_div_of_ne hz.1 hr h, finite_div_of_ne hz.2 hr h⟩

end Sys2Proof.Numerics

namespace Sys2Proof.Params

/-! ### The values of an admitted configuration -/

variable {p : Params}

/-- Every real parameter is a real number (R5, R6). -/
structure Finite (p : Params) : Prop where
  targets : ∀ x ∈ p.ft, x.finite = true
  fs : p.fs.finite = true
  fc : p.fc.finite = true
  f0 : p.f0.finite = true
  table : ∀ t, p.coefTable = some t → ∀ x ∈ t, x.finite = true

/-- Admission asks for real numbers (R6). -/
theorem finite_of_admitted (hp : p.num = .exact) (ha : p.admitted = true) : p.Finite := by
  have hshaped : p.shaped = true := by
    simp only [admitted, Bool.and_eq_true] at ha
    tauto
  simp only [shaped, numerics_exact p hp, Bool.and_eq_true] at hshaped
  obtain ⟨⟨⟨⟨⟨-, hfs⟩, hfc⟩, hf0⟩, hft⟩, hcoef⟩ := hshaped
  refine ⟨List.all_eq_true.1 hft, hfs, hfc, hf0, fun t ht => ?_⟩
  simp only [ht, Bool.and_eq_true] at hcoef
  exact List.all_eq_true.1 hcoef.2

/-- The sample rate is not 0 (R6). -/
theorem fs_ne_zero_of_admitted (hp : p.num = .exact) (ha : p.admitted = true) : p.fs.toReal ≠ 0 := by
  have hpos : p.numerics.isPos p.fs = true := by
    simp only [admitted, Bool.and_eq_true] at ha
    tauto
  rw [numerics_exact p hp, Numerics.isPos_exact _ (finite_of_admitted hp ha).fs] at hpos
  exact hpos.ne'

/-- Nor is the rate at the Demodulator (R5). -/
theorem fsD_ne_zero_of_admitted (hp : p.num = .exact) (ha : p.admitted = true) : p.fsD.toReal ≠ 0 := by
  have hdecim : p.decim ≠ 0 := by
    have := (Machine.shape_of_admitted ha).1
    omega
  rw [toReal_fsD hp]
  exact div_ne_zero (fs_ne_zero_of_admitted hp ha) (Nat.cast_ne_zero.2 hdecim)

theorem finite_fsD_of_admitted (hp : p.num = .exact) (ha : p.admitted = true) : p.fsD.finite = true :=
  finite_fsD hp (finite_of_admitted hp ha).fs (Machine.shape_of_admitted ha).1

theorem finite_w0_of_admitted (hp : p.num = .exact) (ha : p.admitted = true) : p.w0.finite = true := by
  rw [w0, numerics_exact p hp]
  exact Numerics.finite_div_of_ne (by simp [(finite_of_admitted hp ha).f0]) (finite_fsD_of_admitted hp ha)
    (fsD_ne_zero_of_admitted hp ha)

/-- The table of a target frequency that is a real number (R61). -/
theorem finite_loTable (hp : p.num = .exact) (ha : p.admitted = true) {ft : Scalar} (hft : ft ∈ p.ft) :
    ∀ w ∈ p.loTable ft, w.finite = true := by
  have hreal := finite_of_admitted hp ha
  have htheta : (p.theta ft).finite = true := by
    rw [theta, numerics_exact p hp]
    exact Numerics.finite_div_of_ne (by simp [hreal.targets ft hft, hreal.fc]) hreal.fs (fs_ne_zero_of_admitted hp ha)
  intro w hw
  obtain ⟨n, -, rfl⟩ := List.mem_map.1 hw
  simp [loEntry, numerics_exact p hp, Cplx.finite, htheta]

/-- The coefficients, configured or computed (R63, R152). -/
theorem finite_coefStored (hp : p.num = .exact) (ha : p.admitted = true) : ∀ x ∈ p.coefStored, x.finite = true := by
  have hvector : ∀ x ∈ p.coefVector, x.finite = true := by
    cases htable : p.coefTable with
    | some t =>
      rw [coefVector_of_some htable]
      exact (finite_of_admitted hp ha).table t htable
    | none =>
      rw [coefVector_of_none htable]
      intro x hx
      obtain ⟨a, -, rfl⟩ := List.mem_map.1 hx
      have hangle := finite_coefAngle hp (finite_fsD_of_admitted hp ha) (fsD_ne_zero_of_admitted hp ha) a
      simp only [defaultCoef, numerics_exact p hp]
      split_ifs
      · simp [hangle]
      · rfl
  exact List.forall_mem_append.2 ⟨hvector, hvector⟩

end Sys2Proof.Params

namespace Sys2Proof.Machine

/-! ### The values that the rules compute -/

/-- The filter output (R155). -/
theorem finite_matchedFilter {flen : Nat} {coef : List Scalar} {dm : DmState} (hcoef : ∀ x ∈ coef, x.finite = true)
    (hbuf : ∀ z ∈ dm.buf, z.finite = true) : (matchedFilter Numerics.exact flen coef dm).finite = true := by
  have hc : ∀ a, (coefAt Numerics.exact coef a).finite = true := fun a => by
    rw [coefAt, List.getD_eq_getElem?_getD]
    cases h : coef[a]? with
    | none => rfl
    | some x => exact hcoef x (List.mem_of_getElem? h)
  have hz : ∀ a, (dm.byAge Numerics.exact flen a).finite = true := fun a => by
    rw [DmState.byAge, List.getD_eq_getElem?_getD]
    cases h : dm.buf[(dm.idx + a) % flen]? with
    | none => rfl
    | some z => exact hbuf z (List.mem_of_getElem? h)
  unfold matchedFilter
  exact List.foldlRecOn (motive := fun z : Cplx => z.finite = true) _ _ rfl fun _ hacc a _ =>
    Numerics.finite_cAdd hacc (Numerics.finite_cScale (hc a) (hz a))

/-- The normalised output: the divisor is at least `EPS` (R156). -/
theorem finite_normalise {v : Cplx} (hv : v.finite = true) :
    (normalise Numerics.exact v (Numerics.exact.cAbs v)).finite = true := by
  refine Numerics.finite_cDiv hv (by simp [hv]) ?_
  rw [Numerics.exact_add, Scalar.toReal_add, Numerics.toReal_eps]
  have := cAbs_nonneg v
  positivity

/-- The level (R157). -/
theorem finite_levelNext {lvl m : Scalar} (hlvl : lvl.finite = true) (hm : m.finite = true) :
    (levelNext Numerics.exact lvl m).finite = true := by
  have hdiv : (Numerics.exact.div m Numerics.exact.lvlDiv).finite = true :=
    Numerics.finite_div_of_ne hm rfl (by norm_num)
  rw [Numerics.exact_div] at hdiv
  simp [levelNext, hlvl, hdiv, Numerics.lvlKeep, Numerics.lvlNew]

@[simp] theorem finite_negIf (b : Bool) (x : Scalar) : (negIf Numerics.exact b x).finite = x.finite := by
  cases b <;> simp [negIf]

/-- The soft value and the error (R158). -/
theorem finite_demap {u : Cplx} (row : DemapRow) (hu : u.finite = true) :
    (demapSoft Numerics.exact row u).finite = true ∧ (demapErr Numerics.exact row u).finite = true := by
  simp only [Cplx.finite, Bool.and_eq_true] at hu
  have hvo : (demapDecision row u).finite = true := by unfold demapDecision; split_ifs; exacts [hu.2, hu.1]
  have hother : (demapOther row u).finite = true := by unfold demapOther; split_ifs; exacts [hu.1, hu.2]
  refine ⟨by rw [demapSoft, finite_negIf, hvo], ?_⟩
  unfold demapErr
  split_ifs <;> rw [finite_negIf, hother]

/-- A wrapped value (R153). -/
theorem finite_wrapOnce {top x : Scalar} (htop : top.finite = true) (hx : x.finite = true) :
    (wrapOnce Numerics.exact top x).finite = true := by
  unfold wrapOnce
  split_ifs
  · simp [htop, hx]
  · exact hx

/-- The envelope sample of a window (R133). -/
theorem finite_envelope {p : Params} {acc : Cplx} (hp : p.num = .exact) (hd : 1 ≤ p.decim) (hacc : acc.finite = true) :
    (envelope p acc).finite = true := by
  rw [envelope, Params.numerics_exact p hp, Numerics.finite_cAbs]
  exact Numerics.finite_cDiv hacc rfl (by simpa using Nat.one_le_iff_ne_zero.1 hd)

/-! ### What keeps the values of a channel finite -/

variable {s t : State} {c : Nat} {k k' : Channel}

/-- The decision in flight joins the queue (R241). -/
theorem FiniteChannelInv.enqueued (h : FiniteChannelInv k) : FiniteChannelInv { k with bq := k.bq ++ [k.cd.dec] } :=
  { h with queue := List.forall_mem_append.2 ⟨h.queue, List.forall_mem_singleton.2 h.dec⟩ }

/-- An elementary change of `CD[c]` that takes no sample, so that the cursor does not move on. -/
theorem FiniteChannelInv.change (hs : FiniteInv s) (h : FiniteChannelInv k) (hc : CdChange s.cfg s.coef k k')
    (hn : k'.ch.n ≤ k.ch.n) : FiniteChannelInv k' := by
  have hN := Params.numerics_exact s.cfg hs.exact
  cases hc with
  | goto | restart | count => exact { h with }
  | mix => exact absurd hn (Nat.not_succ_le_self _)
  | dump =>
    exact { h with
      acc := by rw [dumped, hN]; rfl
      y := finite_envelope hs.exact hs.divisor h.acc }
  | filter => exact { h with v := by rw [hN]; exact finite_matchedFilter hs.coef h.buf }
  | norm =>
    exact { h with
      m := by rw [hN, Numerics.finite_cAbs]; exact h.v
      u := by rw [hN]; exact finite_normalise h.v }
  | level => exact { h with lvl := by rw [hN]; exact finite_levelNext h.lvl h.m }
  | demap row =>
    exact { h with
      soft := by rw [demapWith, hN]; exact (finite_demap row h.u).1
      err := by rw [demapWith, hN]; exact (finite_demap row h.u).2 }
  | decide => exact { h with dec := ⟨h.soft, h.lvl⟩ }
  | push => exact h.enqueued
  | pll => exact { h with df := by rw [hN]; simp [h.err] }

/-- A sample mixed into the window sum (R132). -/
theorem FiniteChannelInv.mix (hs : FiniteInv s) (h : FiniteChannelInv k) {x w : Cplx} (hx : x.finite = true)
    (hw : w.finite = true) : FiniteChannelInv (mixSample s.cfg.numerics k x w) :=
  { h with
    acc := by
      rw [mixSample, Params.numerics_exact s.cfg hs.exact]
      exact Numerics.finite_cAdd h.acc (Numerics.finite_cMul hx hw) }

/-- The oscillator, the clock and the buffer moved on by one sample (R153). -/
theorem FiniteChannelInv.advanced (hs : FiniteInv s) (h : FiniteChannelInv k) : FiniteChannelInv (k.advanced s.cfg) := by
  have hN := Params.numerics_exact s.cfg hs.exact
  have hphi : (phiNext s.cfg k.dm).finite = true := by
    rw [phiNext, hN]
    exact finite_wrapOnce Numerics.finite_twoPi (by simp [increment, hN, h.phi, hs.increment, h.df])
  have hclk : (wrapOnce s.cfg.numerics s.cfg.numerics.clkTh (clkSum s.cfg k.dm)).finite = true := by
    rw [hN]
    exact finite_wrapOnce Numerics.finite_clkTh (by simp [clkSum, increment, hN, h.clk, hs.increment, h.df])
  have hmix : (mixDown s.cfg.numerics k.cd.y (phiNext s.cfg k.dm)).finite = true := by
    simp [mixDown, hN, Cplx.finite, h.y, hphi]
  refine { h with phi := hphi, clk := hclk, buf := fun z hz => ?_ }
  rcases List.mem_or_eq_of_mem_set hz with hz | rfl
  · exact h.buf z hz
  · exact hmix

/-- The symbol decision (R154). -/
theorem FiniteChannelInv.decided (hs : FiniteInv s) (h : FiniteChannelInv k) :
    FiniteChannelInv (decided s.cfg s.coef k) :=
  (((((h.change hs .filter le_rfl).change hs .norm le_rfl).change hs .level le_rfl).change hs
    (.demap (tableRow s.cfg.demap k.dm.s)) le_rfl).change hs .decide le_rfl).change hs (.goto .push) le_rfl

/-- Its push, or the hold (R154, R241). -/
theorem FiniteChannelInv.pushed (hs : FiniteInv s) (h : FiniteChannelInv k) : FiniteChannelInv (pushed s.cfg k) := by
  unfold Machine.pushed
  split_ifs
  · exact (((h.change hs .push le_rfl).change hs .count le_rfl).change hs .pll le_rfl).change hs
      (.goto (loopPos s.cfg k.ch.n)) le_rfl
  · exact h

/-- `DM.SAMPLE`, with the symbol that may fall in it (R153). -/
theorem FiniteChannelInv.sampled (hs : FiniteInv s) (h : FiniteChannelInv k) :
    FiniteChannelInv (sampled s.cfg s.coef k) := by
  rw [sampled_eq]
  split_ifs
  · exact ((h.advanced hs).decided hs).pushed hs
  · exact (h.advanced hs).change hs (.goto _) le_rfl

/-- The channel an operation leaves is finite. -/
def FiniteAt (c : Nat) (t : State) : Prop := ∃ k', t.channels[c]? = some k' ∧ FiniteChannelInv k'

theorem FiniteAt.put {ev : List Event} (hk : s.channels[c]? = some k) (h : FiniteChannelInv k') :
    FiniteAt c { s.putChannel c k' with events := ev } := ⟨k', putChannel_self s c k k' hk, h⟩

/-- An operation that replaces its channel, whatever it adds to the trace. -/
theorem updateChannel_finite {ev : List Event} {f : Channel → Channel} (hk : s.channels[c]? = some k)
    (hf : FiniteChannelInv (f k)) (h : updateChannel c { s with events := ev } f = .next t) : FiniteAt c t := by
  obtain ⟨k', hk', rfl⟩ := updateChannel_next c _ t f h
  obtain rfl : k = k' := Option.some.inj (hk.symm.trans hk')
  exact .put hk hf

/-! ### Agent `CD[c]` -/

/-- `CH.SAMPLE` mixes a finite sample with a finite table entry (R132). -/
theorem execChSample_finite (hs : FiniteInv s) (hk : s.channels[c]? = some k) (h : FiniteChannelInv k)
    (he : execChSample c s = .next t) : FiniteAt c t := by
  obtain ⟨x, w, hx, -, hw, hcase⟩ := execChSample_next c s t k hk he
  have hmix := h.mix hs (hs.blk x (List.mem_of_getElem? hx)) (h.lo w (List.mem_of_getElem? hw))
  rcases hcase with ⟨-, rfl⟩ | ⟨-, ev, rfl⟩
  · exact .put (ev := s.events) hk (hmix.change hs (.goto _) le_rfl)
  · exact .put hk ((hmix.change hs .dump le_rfl).sampled hs)

/-- `DM.SYMBOL`: resumed at its push, resumed after it, or whole. -/
theorem execDmSymbol_finite (hs : FiniteInv s) (hk : s.channels[c]? = some k) (h : FiniteChannelInv k)
    (he : execDmSymbol c s = .next t) : FiniteAt c t := by
  by_cases hp : k.cd.pos = .push
  · rw [execDmSymbol_held c s k hk hp] at he
    cases he
    exact .put (ev := s.events) hk (h.pushed hs)
  by_cases ht : k.cd.pos = .tail
  · rw [execDmSymbol_tail hk ht] at he
    cases he
    exact .put (ev := s.events) hk (((h.change hs .count le_rfl).change hs .pll le_rfl).change hs (.goto _) le_rfl)
  · rw [execDmSymbol_some c s k hk hp ht] at he
    cases he
    exact .put hk ((h.decided hs).pushed hs)

/-- `BQ.PUSH`. -/
theorem execBqPush_finite (hk : s.channels[c]? = some k) (h : FiniteChannelInv k)
    (he : execBqPush c s = .next t) : FiniteAt c t := by
  rw [execBqPush_some c s k hk] at he
  split_ifs at he <;> cases he
  · exact .put (ev := s.events) hk { h.enqueued with }
  · exact ⟨k, hk, h⟩

/-- What an operation of `CD[c]` leaves is finite. -/
theorem exec_ofCd_finite {i : Instr} (hi : i.ofCd = some c) (hs : FiniteInv s) (hk : s.channels[c]? = some k)
    (h : FiniteChannelInv k) (he : exec i s = .next t) : FiniteAt c t := by
  cases i <;> simp only [Instr.ofCd, Option.some.injEq, reduceCtorEq] at hi <;> subst hi
  case chBlock =>
    rw [show exec (.chBlock _) s = _ from onChannel_some _ s _ k hk] at he
    split_ifs at he <;> cases he
    · exact ⟨k, hk, h⟩
    · exact .put (ev := s.events) hk ((h.change hs .restart (Nat.zero_le _)).change hs (.goto _) le_rfl)
  case chSample => exact execChSample_finite hs hk h he
  case chDump =>
    obtain ⟨-, ev, rfl⟩ := execChDump_next _ s t k hk he
    exact .put hk ((h.change hs .dump le_rfl).sampled hs)
  case dmSample =>
    obtain ⟨-, ev, rfl⟩ := execDmSample_next _ s t k hk he
    exact .put hk (h.sampled hs)
  case dmSymbol => exact execDmSymbol_finite hs hk h he
  case dmMf =>
    exact updateChannel_finite (ev := s.events) hk ((h.change hs .filter le_rfl).change hs (.goto .norm) le_rfl) he
  case dmNorm =>
    rw [show exec (.dmNorm _) s = _ from onChannel_some _ s _ k hk] at he
    cases he
    exact .put hk ((h.change hs .norm le_rfl).change hs (.goto .level) le_rfl)
  case dmLevel =>
    exact updateChannel_finite (ev := s.events) hk ((h.change hs .level le_rfl).change hs (.goto .demap) le_rfl) he
  case dmDemap0 | dmDemap1 | dmDemap2 | dmDemap3 =>
    exact updateChannel_finite (ev := s.events) hk (h.change hs (.demap _) le_rfl) he
  case dmEmit =>
    rw [show exec (.dmEmit _) s = _ from onChannel_some _ s _ k hk] at he
    have hdec := (h.change hs .decide le_rfl).change hs (.goto .push) le_rfl
    exact execBqPush_finite (putChannel_self s _ k _ hk) hdec he
  case dmPll =>
    exact updateChannel_finite (ev := s.events) hk ((h.change hs .pll le_rfl).change hs (.goto _) le_rfl) he
  case bqPush => exact execBqPush_finite hk h he

/-! ### Agent `FDA[c]` -/

/-- `FD.RESYNC` (R194). -/
theorem FiniteChannelInv.stageMiss (p : Params) (h : FiniteChannelInv k) : FiniteChannelInv (stageMiss p k) := { h with }

/-- `FD.SOH.HIT` records a target frequency and a level in decibels, or reals drawn (R186). -/
theorem execFdSohHit_finite (hnum : s.cfg.num = .exact) (hft : ∀ x ∈ s.cfg.ft, x.finite = true)
    (hk : s.channels[c]? = some k) (h : FiniteChannelInv k) (he : execFdSohHit c s = .next t) : FiniteAt c t := by
  rw [execFdSohHit, onChannel_some c s _ k hk] at he
  cases he
  refine ⟨_, putChannel_self s c k _ hk, { h with freq := ?_, lvldb := ?_ }⟩
  · rw [Channel.fdaGoto_fd, List.getD_eq_getElem?_getD]
    cases hc : s.cfg.ft[c]? with
    | none => rfl
    | some x => exact hft x (List.mem_of_getElem? hc)
  · rw [Channel.fdaGoto_fd, Params.numerics_exact s.cfg hnum]
    split_ifs
    · simp [decibels, h.level]
    · rfl

/-- The text operations (R188, R189). -/
theorem storeCharacter_finite {ch : Byte} {st : Stage} (hk : s.channels[c]? = some k) (h : FiniteChannelInv k)
    (he : storeCharacter c s ch st = .next t) : FiniteAt c t := by
  obtain ⟨k', hk', -, rfl⟩ := storeCharacter_next c s t ch st he
  obtain rfl : k = k' := Option.some.inj (hk.symm.trans hk')
  exact .put (ev := s.events) hk { h with }

/-- `BP.PARSE` (R211). -/
theorem execBpParse_finite (hk : s.channels[c]? = some k) (h : FiniteChannelInv k) (he : execBpParse c s = .next t) :
    FiniteAt c t := by
  by_cases hl : k.fd.len ≤ Config.blkMax
  · rw [execBpParse_some c s k hk hl] at he
    cases he
    exact .put hk { h with }
  · rw [execBpParse, onChannel_some c s _ k hk, if_neg hl] at he
    cases he

/-- `OQ.PUSH` (R244). -/
theorem execOqPush_finite (hk : s.channels[c]? = some k) (h : FiniteChannelInv k) (he : execOqPush c s = .next t) :
    FiniteAt c t := by
  rw [execOqPush, onChannel_some c s _ k hk] at he
  split at he <;> cases he
  · exact ⟨_, putChannel_self s c k (k.fdaGoto .resync) hk, { h with }⟩
  · exact ⟨k, hk, h⟩

/-- `FD.DONE` from its push on (R193). -/
theorem dispatched_finite {ev : List Event} (hk : s.channels[c]? = some k) (h : FiniteChannelInv k') :
    FiniteAt c { dispatched c s k' with events := ev } := by
  unfold dispatched
  split_ifs
  · exact ⟨_, putChannel_self s c k _ hk, h.stageMiss s.cfg⟩
  · exact ⟨_, putChannel_self s c k k' hk, h⟩

/-- `FD.DONE`: resumed at its push, resumed after it, or whole; the frame it builds has the fields of the frame decoder
(R193, R243). -/
theorem execFdDone_finite (hk : s.channels[c]? = some k) (h : FiniteChannelInv k) (he : execFdDone c s = .next t) :
    FiniteAt c t := by
  by_cases hp : k.fda.pos = .push
  · rw [execFdDone_held c s k hk hp] at he
    cases he
    exact dispatched_finite (ev := (dispatched c s k).events) hk h
  by_cases hr : k.fda.pos = .resync
  · rw [execFdDone_resync hk hr] at he
    cases he
    exact .put (ev := s.events) hk (h.stageMiss s.cfg)
  by_cases hl : k.fd.len ≤ Config.blkMax
  · rw [execFdDone_some c s k hk hp hr hl] at he
    cases he
    exact dispatched_finite hk { h with frame := ⟨h.freq, h.lvldb⟩ }
  · rw [execFdDone_fault hk hp hr hl] at he
    cases he

/-- The operations of `FDA[c]` below `BQ.POP` and `FD.BIT`. -/
theorem exec_ofFda_below_finite {i : Instr} (hi : i.ofFda = some c) (hbit : i ≠ .fdBit c) (hpop : i ≠ .bqPop c)
    (hnum : s.cfg.num = .exact) (hft : ∀ x ∈ s.cfg.ft, x.finite = true) (hk : s.channels[c]? = some k)
    (h : FiniteChannelInv k) (he : exec i s = .next t) : FiniteAt c t := by
  cases i <;> simp only [Instr.ofFda, Instr.ofCd, Instr.channel?, Option.isSome_some, Option.isSome_none, Bool.false_eq_true,
    if_true, if_false, Option.some.injEq, reduceCtorEq] at hi <;>
    subst hi
  case fdBit => exact absurd rfl hbit
  case bqPop => exact absurd rfl hpop
  case fdSohHit => exact execFdSohHit_finite hnum hft hk h he
  case fdTxtEndEtx | fdTxtEndEtb | fdTxtData => exact storeCharacter_finite hk h he
  case fdCrc2 =>
    rw [show exec (.fdCrc2 _ _) s = _ from execFdCrc2_some _ _ s k hk] at he
    refine execFdDone_finite (putChannel_self s _ k _ hk) ?_ he
    exact { h with }
  case fdDone => exact execFdDone_finite hk h he
  case bpParse => exact execBpParse_finite hk h he
  case faBuild => exact updateChannel_finite (ev := s.events) hk { h with frame := ⟨h.freq, h.lvldb⟩ } he
  case oqPush => exact execOqPush_finite hk h he
  case fdSyn2Miss | fdSohMiss => exact updateChannel_finite hk (h.stageMiss s.cfg) he
  case fdTxtFull => exact updateChannel_finite hk { h with } he
  all_goals exact updateChannel_finite (ev := s.events) hk { h with } he

/-- `FD.BIT`: the level of the decision goes into flight, then the selected stage operation may run (R181). -/
theorem execFdBit_finite (hnum : s.cfg.num = .exact) (hft : ∀ x ∈ s.cfg.ft, x.finite = true)
    (hk : s.channels[c]? = some k) (h : FiniteChannelInv k) (he : execFdBit c s = .next t) : FiniteAt c t := by
  have hshift : FiniteChannelInv (shifted s.cfg.numerics k) := { h with level := h.popped.2 }
  rw [execFdBit_some c s k hk] at he
  split_ifs at he
  · split at he
    · obtain ⟨hi, hbit, hpop⟩ := ofFda_of_decodeByte ‹_›
      refine exec_ofFda_below_finite hi hbit hpop ?_ ?_ (putChannel_self s c k _ hk) ?_ he
      exacts [hnum, hft, { hshift with }]
    · cases he
  · cases he
    exact .put (ev := s.events) hk { hshift with }

/-- `BQ.POP`: the oldest decision goes into flight, then `FD.BIT` runs (R242). -/
theorem execBqPop_finite (hnum : s.cfg.num = .exact) (hft : ∀ x ∈ s.cfg.ft, x.finite = true)
    (hk : s.channels[c]? = some k) (h : FiniteChannelInv k) (he : execBqPop c s = .next t) : FiniteAt c t := by
  cases hq : k.bq with
  | nil =>
    rw [execBqPop_nil hk hq] at he
    cases he
    exact ⟨k, hk, h⟩
  | cons d q =>
    rw [execBqPop_some c s k d q hk hq] at he
    obtain ⟨hd, hrest⟩ := List.forall_mem_cons.1 (hq ▸ h.queue)
    refine execFdBit_finite ?_ ?_ (putChannel_self s c k _ hk) ?_ he
    exacts [hnum, hft, { h with queue := hrest, popped := hd }]

/-- What an operation of `FDA[c]` leaves is finite. -/
theorem exec_ofFda_finite {i : Instr} (hi : i.ofFda = some c) (hs : FiniteInv s) (hk : s.channels[c]? = some k)
    (h : FiniteChannelInv k) (he : exec i s = .next t) : FiniteAt c t := by
  by_cases hbit : i = .fdBit c
  · subst hbit
    exact execFdBit_finite hs.exact hs.targets hk h he
  by_cases hpop : i = .bqPop c
  · subst hpop
    exact execBqPop_finite hs.exact hs.targets hk h he
  · exact exec_ofFda_below_finite hi hbit hpop hs.exact hs.targets hk h he

/-! ### Every effect of an operation -/

/-- A channel as `SYS.CONFIG` starts it. -/
theorem FiniteChannelInv.reset {p : Params} {ft : Scalar} (hp : p.num = .exact)
    (hlo : ∀ w ∈ p.loTable ft, w.finite = true) : FiniteChannelInv (Channel.reset p ft) := by
  have hN := Params.numerics_exact p hp
  constructor <;>
    simp_all [Channel.reset, ChState.reset, DmState.reset, CdFlight.reset, FdaFlight.reset, FdState.reset, Cplx.finite,
      AcarsFrame.isFinite]

/-- A channel after `SYS.RESET`, with the table it had (R290, R291). -/
theorem FiniteChannelInv.afterReset {p : Params} (hp : p.num = .exact) (h : FiniteChannelInv k) (n : Nat) :
    FiniteChannelInv (k.afterReset p n) := by
  have hN := Params.numerics_exact p hp
  have hlo := h.lo
  constructor <;>
    simp_all [Channel.afterReset, ChState.reset, DmState.reset, CdFlight.reset, FdaFlight.reset, FdState.afterReset,
      Cplx.finite, AcarsFrame.isFinite]

/-- One channel, the trace, `OQ` and the draws replaced. -/
theorem FiniteInv.put {ev : List Event} {oq : List AcarsFrame} {n : Nat} (hs : FiniteInv s) (h : FiniteChannelInv k')
    (hoq : ∀ f ∈ oq, f.isFinite) : FiniteInv { s.putChannel c k' with events := ev, oq := oq, draws := n } := by
  refine { hs with queued := hoq, channel := fun x hx => ?_ }
  rcases mem_putChannel s c k' x hx with rfl | hx
  · exact h
  · exact hs.channel x hx

/-- `SYS.CONFIG` takes an admitted configuration over exact reals (R6, R292). -/
theorem FiniteInv.sysConfig {p : Params} (hs : FiniteInv s) (hp : p.num = .exact) (ha : p.admitted = true) :
    FiniteInv
      { s with
        cfg := p, coef := p.coefStored, channels := configureChannels p s.channels, configIn := none
        phase := .configured } := by
  refine ⟨hp, (Params.finite_of_admitted hp ha).targets, hs.queued, hs.output, Params.finite_w0_of_admitted hp ha,
    (shape_of_admitted ha).1, Params.finite_coefStored hp ha, hs.blk, hs.feed, fun x hx => ?_⟩
  rcases mem_configureChannels p s.channels x hx with ⟨ft, hft, rfl⟩ | ⟨k, hk, ft, hft, rfl⟩ | hx
  · exact .reset hp (Params.finite_loTable hp ha hft)
  · exact { hs.channel k hk with lo := Params.finite_loTable hp ha hft }
  · exact hs.channel x hx

/-- Every operation that a step runs keeps the values finite, unless it takes a configuration of another numeric domain. -/
theorem FiniteInv.exec_keeps {i : Instr} (hs : FiniteInv s) (hr : Runs s i) (he : exec i s = .next t)
    (hnum : t.cfg.num = .exact) : FiniteInv t := by
  cases effect_of_exec hr he with
  | held => exact hs
  | cd _ c _ hi =>
    obtain ⟨k, k', ev, hk, -, rfl⟩ := exec_ofCd hi he
    obtain ⟨k₁, hk₁, h⟩ := exec_ofCd_finite hi hs hk (hs.channel k (List.mem_of_getElem? hk)) he
    obtain rfl : k' = k₁ := Option.some.inj ((putChannel_self s c k k' hk).symm.trans hk₁)
    exact hs.put h hs.queued
  | fda _ c _ hi =>
    obtain ⟨k, k', ev, oq, n, hk, -, -, rfl⟩ := exec_ofFda hi he
    have hself := putChannel_self s c k k' hk
    obtain ⟨k₁, hk₁, h⟩ := exec_ofFda_finite hi hs hk (hs.channel k (List.mem_of_getElem? hk)) he
    obtain rfl : k' = k₁ := Option.some.inj (hself.symm.trans hk₁)
    refine hs.put h ?_
    rcases exec_ofFda_oq hi he with hoq | ⟨k₂, hk₂, -, hoq⟩
    · obtain rfl : oq = s.oq := hoq
      exact hs.queued
    · obtain rfl : k' = k₂ := Option.some.inj (hself.symm.trans hk₂)
      obtain rfl : oq = s.oq ++ [k'.fda.frame] := hoq
      exact List.forall_mem_append.2 ⟨hs.queued, List.forall_mem_singleton.2 h.frame⟩
  | deliver f q hq =>
    obtain ⟨hf, hrest⟩ := List.forall_mem_cons.1 (hq ▸ hs.queued)
    exact { hs with
      queued := hrest
      output := List.forall_mem_append.2 ⟨hs.output, List.forall_mem_singleton.2 hf⟩ }
  | feedBlock b =>
    cases hr with
    | feedBlock _ rest hi =>
      refine { hs with
        blk := hs.feed b (by simp [hi])
        feed := fun b' hb' => hs.feed b' (List.mem_of_mem_tail hb')
        channel := fun x hx => ?_ }
      obtain ⟨k, hk, rfl⟩ := List.mem_map.1 hx
      exact { hs.channel k hk with }
  | feedEos => exact { hs with }
  | sysReset =>
    refine { hs with queued := List.forall_mem_nil _, channel := fun x hx => ?_ }
    obtain ⟨k, hk, n, rfl⟩ := mem_resetChannels s x hx
    exact (hs.channel k hk).afterReset hs.exact n
  | sysConfig p ha => exact hs.sysConfig hnum ha

/-! ### No operation refuses a non-finite value -/

/-- The operation does not refuse for a non-finite value (R266). -/
def Accepts (r : Result) : Prop := r ≠ .refused .cvNonfinite

theorem Accepts.next (t : State) : Accepts (.next t) := by simp [Accepts]
theorem Accepts.fault (f : Fault) : Accepts (.fault f) := by simp [Accepts]
theorem Accepts.refused {q : Refusal} (h : q ≠ .cvNonfinite) : Accepts (.refused q) := by simpa [Accepts] using h

/-- An operation of a channel, from what it answers where the channel exists. -/
theorem onChannel_accepts {f : Channel → Result} (h : ∀ k, s.channels[c]? = some k → Accepts (f k)) :
    Accepts (onChannel c s f) := by
  cases hk : s.channels[c]? with
  | none =>
    rw [onChannel_none c s f hk]
    exact .fault _
  | some k =>
    rw [onChannel_some c s f k hk]
    exact h k hk

/-- The schedule moving on changes no refusal. -/
theorem Accepts.finish {r : Result} (h : Accepts r) : Accepts (finish r) := by
  cases r with
  | next t => exact .next _
  | fault f => exact .fault f
  | refused q => exact h

/-- The channel may be assumed to exist. -/
theorem accepts_of_channel {f : Channel → Result}
    (h : ∀ k, s.channels[c]? = some k → Accepts (onChannel c s f)) : Accepts (onChannel c s f) :=
  onChannel_accepts fun k hk => onChannel_some c s f k hk ▸ h k hk

theorem updateChannel_accepts {f : Channel → Channel} : Accepts (updateChannel c s f) :=
  onChannel_accepts fun _ _ => .next _

theorem execBqPush_accepts : Accepts (execBqPush c s) := by
  refine onChannel_accepts fun k _ => ?_
  split <;> exact .next _

/-- `DM.SYMBOL` completes wherever the channel exists. -/
theorem execDmSymbol_accepts : Accepts (execDmSymbol c s) := by
  refine accepts_of_channel fun k hk => ?_
  change Accepts (execDmSymbol c s)
  by_cases hp : k.cd.pos = .push
  · rw [execDmSymbol_held c s k hk hp]
    exact .next _
  by_cases ht : k.cd.pos = .tail
  · rw [execDmSymbol_tail hk ht]
    exact .next _
  · rw [execDmSymbol_some c s k hk hp ht]
    exact .next _

/-- A finite envelope sample is accepted (R153). -/
theorem execDmSample_accepts (hnum : s.cfg.num = .exact)
    (hy : ∀ k, s.channels[c]? = some k → k.cd.y.finite = true) : Accepts (execDmSample c s) := by
  refine onChannel_accepts fun k hk => ?_
  rw [Params.numerics_exact s.cfg hnum, Numerics.exact_finite, if_pos (hy k hk)]
  dsimp only
  split_ifs
  · exact execDmSymbol_accepts
  · exact .next _

/-- The envelope sample of a finite window is finite (R133). -/
theorem execChDump_accepts (hnum : s.cfg.num = .exact) (hd : 1 ≤ s.cfg.decim)
    (hacc : ∀ k, s.channels[c]? = some k → k.ch.acc.finite = true) : Accepts (execChDump c s) := by
  refine onChannel_accepts fun k hk => execDmSample_accepts (by exact hnum) fun k' hk' => ?_
  obtain rfl := Option.some.inj ((putChannel_self s c k _ hk).symm.trans hk')
  exact finite_envelope hnum hd (hacc k hk)

/-- The samples of the block are finite, and so is their window (R132). -/
theorem execChSample_accepts (hs : FiniteInv s) : Accepts (execChSample c s) := by
  refine onChannel_accepts fun k hk => ?_
  have h := hs.channel k (List.mem_of_getElem? hk)
  split
  · exact .fault _
  rename_i x hx
  have hfin := hs.blk x (List.mem_of_getElem? hx)
  rw [if_pos (by rw [Params.numerics_exact s.cfg hs.exact]; exact hfin)]
  split
  · exact .refused (by simp)
  rename_i w hw
  dsimp only
  split_ifs
  · refine execChDump_accepts (by exact hs.exact) (by exact hs.divisor) fun k' hk' => ?_
    obtain rfl := Option.some.inj ((putChannel_self s c k _ hk).symm.trans hk')
    exact (h.mix hs hfin (h.lo w (List.mem_of_getElem? hw))).acc
  · exact .next _

/-- No operation of `CD[c]` refuses for a non-finite value. -/
theorem exec_ofCd_accepts {i : Instr} (hi : i.ofCd = some c) (hs : FiniteInv s) : Accepts (exec i s) := by
  have channel := fun k (hk : s.channels[c]? = some k) => hs.channel k (List.mem_of_getElem? hk)
  cases i <;> simp only [Instr.ofCd, Option.some.injEq, reduceCtorEq] at hi <;> subst hi
  case chBlock =>
    refine onChannel_accepts fun k _ => ?_
    split_ifs
    exacts [.next _, .refused (by simp), .next _]
  case chSample => exact execChSample_accepts hs
  case chDump => exact execChDump_accepts hs.exact hs.divisor fun k hk => (channel k hk).acc
  case dmSample => exact execDmSample_accepts hs.exact fun k hk => (channel k hk).y
  case dmSymbol => exact execDmSymbol_accepts
  case dmNorm => exact onChannel_accepts fun _ _ => .next _
  case dmEmit => exact onChannel_accepts fun _ _ => execBqPush_accepts
  case bqPush => exact execBqPush_accepts
  all_goals exact updateChannel_accepts

theorem storeCharacter_accepts {ch : Byte} {st : Stage} : Accepts (storeCharacter c s ch st) := by
  refine onChannel_accepts fun k _ => ?_
  split_ifs
  exacts [.next _, .fault _]

/-- `FD.DONE` completes for every length of the parser's domain (R193, R219). -/
theorem execFdDone_accepts : Accepts (execFdDone c s) := by
  refine accepts_of_channel fun k hk => ?_
  change Accepts (execFdDone c s)
  by_cases hp : k.fda.pos = .push
  · rw [execFdDone_held c s k hk hp]
    exact .next _
  by_cases hr : k.fda.pos = .resync
  · rw [execFdDone_resync hk hr]
    exact .next _
  by_cases hl : k.fd.len ≤ Config.blkMax
  · rw [execFdDone_some c s k hk hp hr hl]
    exact .next _
  · rw [execFdDone_fault hk hp hr hl]
    exact .fault _

theorem execBpParse_accepts : Accepts (execBpParse c s) := by
  refine accepts_of_channel fun k hk => ?_
  change Accepts (execBpParse c s)
  by_cases hl : k.fd.len ≤ Config.blkMax
  · rw [execBpParse_some c s k hk hl]
    exact .next _
  · rw [execBpParse, onChannel_some c s _ k hk, if_neg hl]
    exact .fault _

theorem execOqPush_accepts : Accepts (execOqPush c s) := by
  refine onChannel_accepts fun k _ => ?_
  split <;> exact .next _

/-- The operations of `FDA[c]` below `BQ.POP` and `FD.BIT`. -/
theorem exec_ofFda_below_accepts {i : Instr} (hi : i.ofFda = some c) (hbit : i ≠ .fdBit c) (hpop : i ≠ .bqPop c) :
    Accepts (exec i s) := by
  cases i <;> simp only [Instr.ofFda, Instr.ofCd, Instr.channel?, Option.isSome_some, Option.isSome_none, Bool.false_eq_true,
    if_true, if_false, Option.some.injEq, reduceCtorEq] at hi <;>
    subst hi
  case fdBit => exact absurd rfl hbit
  case bqPop => exact absurd rfl hpop
  case fdSohHit => exact onChannel_accepts fun _ _ => .next _
  case fdTxtEndEtx | fdTxtEndEtb | fdTxtData => exact storeCharacter_accepts
  case fdCrc2 => exact onChannel_accepts fun _ _ => execFdDone_accepts
  case fdDone => exact execFdDone_accepts
  case bpParse => exact execBpParse_accepts
  case oqPush => exact execOqPush_accepts
  all_goals exact updateChannel_accepts

theorem execFdBit_accepts : Accepts (execFdBit c s) := by
  refine accepts_of_channel fun k hk => ?_
  change Accepts (execFdBit c s)
  rw [execFdBit_some c s k hk]
  split_ifs
  · split
    · obtain ⟨hi, hbit, hpop⟩ := ofFda_of_decodeByte ‹_›
      exact exec_ofFda_below_accepts hi hbit hpop
    · exact .refused (by simp)
  · exact .next _

/-- No operation of `FDA[c]` refuses for a non-finite value: it meets none. -/
theorem exec_ofFda_accepts {i : Instr} (hi : i.ofFda = some c) : Accepts (exec i s) := by
  by_cases hbit : i = .fdBit c
  · subst hbit
    exact execFdBit_accepts
  by_cases hpop : i = .bqPop c
  · subst hpop
    refine onChannel_accepts fun k _ => ?_
    split
    · exact execFdBit_accepts
    · exact .next _
  · exact exec_ofFda_below_accepts hi hbit hpop

/-- Nor does an operation that names no channel. -/
theorem exec_unowned_accepts {i : Instr} (hi : i.channel? = none) : Accepts (exec i s) := by
  cases i <;> simp only [Instr.channel?, reduceCtorEq] at hi
  case dispDeliver =>
    simp only [exec, execDispDeliver]
    split
    · split_ifs <;> exact .next _
    · exact .next _
  case feedBlock =>
    simp only [exec, execFeedBlock]
    split_ifs
    exacts [.next _, .refused (by simp), .next _]
  case feedEos =>
    simp only [exec, execFeedEos]
    split_ifs <;> exact .next _
  case sysReset => exact .next _
  case sysConfig =>
    simp only [exec, execSysConfig]
    split_ifs
    exacts [.next _, .refused (by simp)]

/-- Over exact reals and from finite values no operation refuses for a non-finite one (R166, R266). -/
theorem FiniteInv.exec_accepts (hs : FiniteInv s) (i : Instr) : Accepts (exec i s) := by
  cases hcd : i.ofCd with
  | some c => exact exec_ofCd_accepts hcd hs
  | none =>
    cases hfda : i.ofFda with
    | some c => exact exec_ofFda_accepts hfda
    | none => exact exec_unowned_accepts (channel_eq_none_of_unowned hcd hfda)

/-- So no step does: it answers what its operation answers, or that none is selected. -/
theorem FiniteInv.step_accepts (hs : FiniteInv s) : Accepts (step s) := by
  cases hsel : select s.turn s with
  | none =>
    obtain ⟨b, hb⟩ := step_unselected hsel
    rw [hb]
    exact .next _
  | some sel =>
    rw [step_of_select s sel hsel]
    cases decode s.cfg.chars sel with
    | error e => exact .refused (by simp)
    | ok i => exact (hs.exec_accepts i).finish

/-- Settles O58: no operation meets a non-finite value, and each computes finite values from finite ones. -/
theorem finiteFeedStaysFinite : Obligations.FiniteFeedStaysFinite := by
  refine fun s hs => ⟨hs.step_accepts, fun s' hstep hnum => ?_⟩
  rcases step_next s s' hstep with ⟨b, -, rfl⟩ | ⟨-, rfl⟩ | ⟨i, t, hr, he, rfl⟩
  · exact { hs with }
  · exact { hs with }
  · exact { hs.exec_keeps hr he hnum with }

end Sys2Proof.Machine
end

section
/-! The Channelizer (spec/40_channelizer.md R131 to R133; spec/60_exceptions.md R266 to R268): each operation in closed form,
with its refusals and holds. -/

namespace Sys2Proof.Machine

variable {c : Nat} {s : State} {k : Channel}

/-! ### `CH.BLOCK` -/

/-- `CH.BLOCK` refuses a block of another length (R268). -/
theorem execChBlock_refused (hk : s.channels[c]? = some k) (heos : s.eos = false) (hblk : s.blk.length ≠ s.cfg.blockLen) :
    execChBlock c s = .refused .cvBlockLen := by
  simp [execChBlock, onChannel_some c s _ k hk, heos, hblk, refuse]

/-- `CH.BLOCK` holds after end-of-stream (R43, R131). -/
theorem execChBlock_held (hk : s.channels[c]? = some k) (heos : s.eos = true) : execChBlock c s = .next s := by
  simp [execChBlock, onChannel_some c s _ k hk, heos, hold]

/-- Settles O7: a block of at least one sample starts the loop at its first sample. -/
theorem chBlockStartsTheLoop : Obligations.ChBlockStartsTheLoop := by
  intro s c k hk
  refine ⟨fun heos hblk hlen => ?_, execChBlock_refused hk, execChBlock_held hk⟩
  have hpos : loopPos s.cfg 0 = .sample := if_pos hlen
  rw [exec, execChBlock_some c s k hk heos hblk, hpos]
  rfl

/-! ### `CH.DUMP` -/

/-- `CH.DUMP` is `DM.SAMPLE` on the channel whose window is closed (R133). -/
theorem execChDump_some (hk : s.channels[c]? = some k) :
    execChDump c s = execDmSample c (s.putChannel c (dumped s.cfg k)) :=
  onChannel_some c s _ k hk

/-- Over exact reals the envelope sample is the magnitude of the window mean (R8, R133). -/
theorem toReal_envelope {p : Params} (hp : p.num = .exact) (acc : Cplx) :
    (envelope p acc).toReal =
      Real.sqrt ((acc.re.toReal / p.decim) ^ 2 + (acc.im.toReal / p.decim) ^ 2) := by
  obtain ⟨hre, him⟩ := Numerics.toReal_cDiv acc (Numerics.exact.ofNat p.decim)
  rw [envelope, Params.numerics_exact p hp, Numerics.toReal_cAbs, hre, him, Numerics.toReal_ofNat]

/-- Over exact reals the envelope sample is not negative (R93, R133). -/
theorem envelope_nonneg {p : Params} (hp : p.num = .exact) (acc : Cplx) : 0 ≤ (envelope p acc).toReal := by
  rw [envelope, Params.numerics_exact p hp]
  exact cAbs_nonneg _

/-- Over exact reals `CH.DUMP` completes on a finite window sum: its one refusal is of a non-finite envelope sample (R133). -/
theorem execChDump_completes (hk : s.channels[c]? = some k) (hnum : s.cfg.num = .exact) (hacc : k.ch.acc.finite = true)
    (hd : 1 ≤ s.cfg.decim) : ∃ t, execChDump c s = .next t := by
  have haccepts : Accepts (execChDump c s) := execChDump_accepts hnum hd fun k' hk' => by
    obtain rfl := Option.some.inj (hk.symm.trans hk')
    exact hacc
  have hanswers : Answers [.cvNonfinite] (execChDump c s) :=
    execChDump_some hk ▸ execDmSample_answers (putChannel_self s c k _ hk)
  rcases hanswers with hnext | ⟨q, hq, hrefused⟩
  · exact hnext
  · exact absurd (List.mem_singleton.1 hq ▸ hrefused) haccepts

/-- Settles O9: the envelope sample is the one `CH.DUMP` hands on, the cleared accumulator is the domain's zero. -/
theorem chDumpClosesTheWindow : Obligations.ChDumpClosesTheWindow := by
  intro s c k hk
  refine ⟨envelope s.cfg k.ch.acc, s.cfg.numerics.zero, rfl, fun hnum => ?_, fun hnum => ?_, execChDump_some hk,
    execChDump_completes hk⟩
  · rw [Params.numerics_exact s.cfg hnum, Numerics.exact_zero]
  · exact ⟨toReal_envelope hnum _, envelope_nonneg hnum _⟩

/-! ### `CH.SAMPLE` -/

/-- Over exact reals a mixed sample adds the complex product to the window sum (R8, R132). -/
theorem toReal_mixSample_acc (k : Channel) (x w : Cplx) :
    (mixSample Numerics.exact k x w).ch.acc.re.toReal =
        k.ch.acc.re.toReal + (x.re.toReal * w.re.toReal - x.im.toReal * w.im.toReal) ∧
      (mixSample Numerics.exact k x w).ch.acc.im.toReal =
        k.ch.acc.im.toReal + (x.re.toReal * w.im.toReal + x.im.toReal * w.re.toReal) := by
  obtain ⟨haddre, haddim⟩ := Numerics.toReal_cAdd k.ch.acc (Numerics.exact.cMul x w)
  obtain ⟨hmulre, hmulim⟩ := Numerics.toReal_cMul x w
  exact ⟨by rw [mixSample, haddre, hmulre], by rw [mixSample, haddim, hmulim]⟩

/-- `CH.SAMPLE` on a finite sample with a table entry: the window goes on, or `CH.DUMP` closes it (R132). -/
theorem execChSample_some {x w : Cplx} (hk : s.channels[c]? = some k) (hx : s.blk[k.ch.n]? = some x)
    (hf : s.cfg.numerics.cFinite x = true) (hw : k.lo[k.ch.n]? = some w) :
    execChSample c s =
      let k' := mixSample s.cfg.numerics k x w
      if k.ch.cnt + 1 = s.cfg.decim then execChDump c (s.putChannel c (k'.cdGoto .dump))
      else .next (s.putChannel c (k'.cdGoto (loopPos s.cfg (k.ch.n + 1)))) := by
  rw [execChSample, onChannel_some c s _ k hk]
  simp only [hx, hf, hw, if_true]
  rfl

/-- `CH.SAMPLE` refuses a sample that is not finite, whatever the table holds (R266, R272). -/
theorem execChSample_nonfinite {x : Cplx} (hk : s.channels[c]? = some k) (hx : s.blk[k.ch.n]? = some x)
    (hf : s.cfg.numerics.cFinite x = false) : execChSample c s = .refused .cvNonfinite := by
  simp [execChSample, onChannel_some c s _ k hk, hx, hf, refuse]

/-- `CH.SAMPLE` refuses an index beyond the oscillator table (R267). -/
theorem execChSample_loIndex {x : Cplx} (hk : s.channels[c]? = some k) (hx : s.blk[k.ch.n]? = some x)
    (hf : s.cfg.numerics.cFinite x = true) (hlo : k.lo.length ≤ k.ch.n) : execChSample c s = .refused .cvLoIndex := by
  simp [execChSample, onChannel_some c s _ k hk, hx, hf, List.getElem?_eq_none hlo, refuse]

/-- Settles O8: by the closed form of `CH.SAMPLE` and its two refusals. -/
theorem chSampleMixesAndAccumulates : Obligations.ChSampleMixesAndAccumulates := by
  intro s c k x hk hx
  refine ⟨fun w hf hw => ⟨fun hnum => ?_, fun hopen => ?_, fun hfull => ?_⟩, execChSample_nonfinite hk hx,
    execChSample_loIndex hk hx⟩
  · rw [Params.numerics_exact s.cfg hnum]
    exact toReal_mixSample_acc k x w
  · exact (execChSample_some hk hx hf hw).trans (if_neg hopen)
  · exact (execChSample_some hk hx hf hw).trans (if_pos hfull)

end Sys2Proof.Machine
end

section
/-! The Demodulator (spec/41_demodulator.md R153 to R168; spec/44_queues_dispatch.md R241): each operation in closed form, its
values over exact reals, and the symbol decision as the sequence of its steps. -/

namespace Sys2Proof.Machine

variable {c : Nat} {s : State} {k : Channel}

/-! ### `DM.EMIT` and `BQ.PUSH` -/

/-- A decision is appended while there is room (R71, R241). -/
theorem execBqPush_room (hk : s.channels[c]? = some k) (hroom : k.bq.length < s.cfg.bqCap) :
    execBqPush c s =
      .next (s.putChannel c { k with bq := k.bq ++ [k.cd.dec], cd := { k.cd with pos := .tail } }) :=
  (execBqPush_some c s k hk).trans (if_pos hroom)

/-- A decision is held while the queue is full (R241). -/
theorem execBqPush_full (hk : s.channels[c]? = some k) (hfull : s.cfg.bqCap ≤ k.bq.length) : execBqPush c s = .next s :=
  (execBqPush_some c s k hk).trans (if_neg hfull.not_gt)

/-- `DM.EMIT` is `BQ.PUSH` with the decision in flight (R163). -/
theorem execDmEmit_some (hk : s.channels[c]? = some k) :
    execDmEmit c s =
      execBqPush c (s.putChannel c { k with cd := { k.cd with dec := ⟨k.cd.soft, k.dm.lvl⟩, pos := .push } }) :=
  onChannel_some c s _ k hk

/-- Settles O38: `DM.EMIT` is `BQ.PUSH` on the channel with its decision in flight. -/
theorem emittedDecisionIsPushedOrHeld : Obligations.EmittedDecisionIsPushedOrHeld := by
  intro s c k hk dec
  have hput := putChannel_self s c k { k with cd := { k.cd with dec := dec, pos := .push } } hk
  refine ⟨fun hroom => ⟨?_, execBqPush_room hk hroom⟩, fun hfull => ⟨?_, execBqPush_full hk hfull⟩⟩
  · exact (execDmEmit_some hk).trans ((execBqPush_room hput hroom).trans (by rw [putChannel_putChannel]))
  · exact (execDmEmit_some hk).trans (execBqPush_full hput hfull)

/-! ### `DM.PLL`, `DM.LEVEL` -/

/-- Over exact reals the correction is the error times the gain (R164). -/
theorem toReal_pll (err : Scalar) :
    (Numerics.exact.mul Numerics.exact.pllg err).toReal = 38 / 10000 * err.toReal := by
  rw [Numerics.exact_mul, Scalar.toReal_mul, Numerics.toReal_pllg]

/-- Settles O19: the correction is a product, which the error's bound bounds. -/
theorem dmPllAssignsTheCorrection : Obligations.DmPllAssignsTheCorrection := by
  intro s c k hk
  refine ⟨s.cfg.numerics.mul s.cfg.numerics.pllg k.cd.err, fun hnum => ?_, updateChannel_some c s _ k hk⟩
  rw [Params.numerics_exact s.cfg hnum]
  exact ⟨toReal_pll _, fun hzero => by rw [toReal_pll, hzero, mul_zero], abs_pll_lt⟩

/-- `DM.LEVEL` in closed form (R157). -/
theorem execDmLevel_some (hk : s.channels[c]? = some k) :
    execDmLevel c s =
      .next (s.putChannel c
        { k with dm := { k.dm with lvl := levelNext s.cfg.numerics k.dm.lvl k.cd.m }, cd := { k.cd with pos := .demap } }) :=
  updateChannel_some c s _ k hk

/-- Over exact reals the level is a moving average of the normalised magnitude (R157). -/
theorem toReal_levelNext (lvl m : Scalar) :
    (levelNext Numerics.exact lvl m).toReal = 99 / 100 * lvl.toReal + 1 / 100 * (m.toReal / (52 / 10)) := by
  simp only [levelNext, Numerics.exact_add, Numerics.exact_mul, Numerics.exact_div, Scalar.toReal_add, Scalar.toReal_mul,
    Scalar.toReal_div, Numerics.toReal_lvlKeep, Numerics.toReal_lvlNew, Numerics.toReal_lvlDiv]
  norm_num

/-- Settles O16: the average is exact, and it keeps a level that is not negative. -/
theorem dmLevelAverages : Obligations.DmLevelAverages := by
  intro s c k hk
  refine ⟨_, fun hnum => ?_, execDmLevel_some hk⟩
  rw [Params.numerics_exact s.cfg hnum]
  exact ⟨toReal_levelNext _ _, levelNext_nonneg⟩

/-! ### `DM.MF` -/

/-- `DM.MF` in closed form (R155). -/
theorem execDmMf_some (hk : s.channels[c]? = some k) :
    execDmMf c s =
      .next (s.putChannel c
        { k with cd := { k.cd with v := matchedFilter s.cfg.numerics s.cfg.flen s.coef k.dm, pos := .norm } }) :=
  updateChannel_some c s _ k hk

/-- Over exact reals a sum from zero in the order of the index is the sum of the components (R8). -/
theorem toReal_foldl_cAdd (f : Nat → Cplx) (n : Nat) :
    let sum := (List.range n).foldl (fun acc a => Numerics.exact.cAdd acc (f a)) Numerics.exact.cZero
    sum.re.toReal = ∑ a ∈ Finset.range n, (f a).re.toReal ∧ sum.im.toReal = ∑ a ∈ Finset.range n, (f a).im.toReal := by
  induction n with
  | zero => simp
  | succ n ih =>
    obtain ⟨hre, him⟩ := ih
    simp only [List.range_succ, List.foldl_append, List.foldl_cons, List.foldl_nil, Finset.sum_range_succ]
    rw [(Numerics.toReal_cAdd _ _).1, (Numerics.toReal_cAdd _ _).2, hre, him]
    exact ⟨rfl, rfl⟩

/-- Settles O14: the filter output is a sum of products in the order of age, and each of them is exact. -/
theorem dmMfIsTheCorrelation : Obligations.DmMfIsTheCorrelation := by
  intro s c k hk
  refine ⟨_, fun hnum => ?_, execDmMf_some hk⟩
  rw [Params.numerics_exact s.cfg hnum, matchedFilter, (toReal_foldl_cAdd _ _).1, (toReal_foldl_cAdd _ _).2]
  exact ⟨Finset.sum_congr rfl fun a _ => (Numerics.toReal_cScale _ _).1,
    Finset.sum_congr rfl fun a _ => (Numerics.toReal_cScale _ _).2⟩

/-! ### `DM.NORM` -/

/-- Over exact reals the quotient of R156, component by component. -/
theorem toReal_normalise (v : Cplx) (m : Scalar) :
    (normalise Numerics.exact v m).re.toReal = v.re.toReal / (m.toReal + 1 / 1000000) ∧
      (normalise Numerics.exact v m).im.toReal = v.im.toReal / (m.toReal + 1 / 1000000) := by
  obtain ⟨hre, him⟩ := Numerics.toReal_cDiv v (Numerics.exact.add m Numerics.exact.eps)
  rw [Numerics.exact_add, Scalar.toReal_add, Numerics.toReal_eps] at hre him
  exact ⟨hre, him⟩

/-- Dividing by more than the magnitude brings a pair into the unit disc (R165 (a)). -/
theorem sq_div_add_lt_one {x y m e : ℝ} (hm : m = Real.sqrt (x ^ 2 + y ^ 2)) (he : 0 < e) :
    (x / (m + e)) ^ 2 + (y / (m + e)) ^ 2 < 1 := by
  have hm0 : 0 ≤ m := hm ▸ Real.sqrt_nonneg _
  have hsq : x ^ 2 + y ^ 2 = m ^ 2 := by rw [hm, Real.sq_sqrt (by positivity)]
  rw [div_pow, div_pow, ← add_div, hsq, div_lt_one (by positivity)]
  exact pow_lt_pow_left₀ (by linarith) hm0 two_ne_zero

/-- The magnitude of the complex zero is the number 0. -/
theorem cAbs_zero : Numerics.exact.cAbs Cplx.zero = Scalar.zero := by decide +kernel

/-- A magnitude is degenerate exactly at the complex zero (R265). -/
theorem isDegenerate_cAbs {v : Cplx} (hv : v.finite = true) :
    isDegenerate Numerics.exact (Numerics.exact.cAbs v) = true ↔ v.re.toReal = 0 ∧ v.im.toReal = 0 := by
  have hnonneg : 0 ≤ v.re.toReal ^ 2 + v.im.toReal ^ 2 := by positivity
  rw [isDegenerate, Numerics.isZero_exact _ (by rwa [Numerics.finite_cAbs]), Numerics.toReal_cAbs,
    Real.sqrt_eq_zero hnonneg, add_eq_zero_iff_of_nonneg (sq_nonneg _) (sq_nonneg _), sq_eq_zero_iff, sq_eq_zero_iff]

/-- `DM.NORM` in closed form (R156, R265). -/
theorem execDmNorm_some (hk : s.channels[c]? = some k) :
    execDmNorm c s =
      .next ((s.putChannel c
        { k with
          cd := { k.cd with
            m := s.cfg.numerics.cAbs k.cd.v, u := normalise s.cfg.numerics k.cd.v (s.cfg.numerics.cAbs k.cd.v)
            pos := .level } }).raiseIf (isDegenerate s.cfg.numerics (s.cfg.numerics.cAbs k.cd.v)) (.degenerate c)) :=
  onChannel_some c s _ k hk

/-- Settles O15: the quotient is inside the unit disc because the divisor exceeds the magnitude by `1e-6`. -/
theorem dmNormNormalises : Obligations.DmNormNormalises := by
  intro s c k hk
  refine ⟨_, _, _, execDmNorm_some hk, fun hnum => ?_⟩
  rw [Params.numerics_exact s.cfg hnum]
  obtain ⟨hre, him⟩ := toReal_normalise k.cd.v (Numerics.exact.cAbs k.cd.v)
  refine ⟨Numerics.toReal_cAbs _, hre, him, ?_, fun hzero => ?_, isDegenerate_cAbs⟩
  · rw [hre, him]
    exact sq_div_add_lt_one (Numerics.toReal_cAbs _) (by norm_num)
  · rw [hre, him, hzero]
    exact ⟨cAbs_zero, by simp, by simp⟩

/-! ### The demapper -/

/-- Over exact reals the demapper negates exactly (R158). -/
theorem toReal_negIf (b : Bool) (x : Scalar) :
    (negIf Numerics.exact b x).toReal = if b then -x.toReal else x.toReal := by
  cases b <;> simp [negIf]

/-- The soft value of a row is `vo`, negated where the row says so (R158). -/
theorem toReal_demapSoft (row : DemapRow) (u : Cplx) :
    (demapSoft Numerics.exact row u).toReal =
      if row.negSoft then -(demapDecision row u).toReal else (demapDecision row u).toReal :=
  toReal_negIf _ _

/-- The error term of a row: the sign of `vo` decides on one negation, 0 counting as non-negative, the row on another
(R158 to R162). -/
theorem toReal_demapErr (row : DemapRow) {u : Cplx} (hu : u.finite = true) :
    (demapErr Numerics.exact row u).toReal =
      if 0 ≤ (demapDecision row u).toReal then
        if row.negErr then -(demapOther row u).toReal else (demapOther row u).toReal
      else if row.negErr then (demapOther row u).toReal else -(demapOther row u).toReal := by
  have hvo : (demapDecision row u).finite = true := by simpa [demapSoft] using (finite_demap row hu).1
  simp only [demapErr, apply_ite Scalar.toReal, Numerics.isNonneg_exact _ hvo, toReal_negIf]
  cases row.negErr <;> rfl

/-- Settles O17: the soft value and the error term of any row, read at the four rows of the default table. -/
theorem demapperFollowsItsTable : Obligations.DemapperFollowsItsTable := by
  intro s c k hk ur ui known done
  refine ⟨⟨_, _, updateChannel_some c s _ k hk, ?_⟩, ⟨_, _, updateChannel_some c s _ k hk, ?_⟩,
    ⟨_, _, updateChannel_some c s _ k hk, ?_⟩, ⟨_, _, updateChannel_some c s _ k hk, ?_⟩⟩
  all_goals
    rintro ⟨hnum, htable, hu⟩
    rw [Params.numerics_exact s.cfg hnum, htable, toReal_demapSoft, toReal_demapErr _ hu]
    exact ⟨rfl, rfl⟩

/-! ### `DM.SYMBOL` -/

/-- The row of each symbol phase (R158). -/
theorem eq_tableRow {t : DemapTable} {phase : BitVec 2} {row : DemapRow} (h0 : phase = 0#2 → row = t.row0)
    (h1 : phase = 1#2 → row = t.row1) (h2 : phase = 2#2 → row = t.row2) (h3 : phase = 3#2 → row = t.row3) :
    row = tableRow t phase := by
  have phases : ∀ x : BitVec 2, x = 0#2 ∨ x = 1#2 ∨ x = 2#2 ∨ x = 3#2 := by decide
  rcases phases phase with rfl | rfl | rfl | rfl
  exacts [h0 rfl, h1 rfl, h2 rfl, h3 rfl]

/-- Settles O20: `DM.SYMBOL` in closed form, its push with room and without. -/
theorem symbolDecisionIsEmitted : Obligations.SymbolDecisionIsEmitted := by
  intro s c k row hk hpush htail h0 h1 h2 h3
  obtain rfl := eq_tableRow h0 h1 h2 h3
  refine ⟨fun hroom => ?_, fun hfull => ?_⟩
  · have hpushed : pushed s.cfg (decided s.cfg s.coef k) = emitted s.cfg (decided s.cfg s.coef k) := if_pos hroom
    exact (execDmSymbol_some c s k hk hpush htail).trans (by rw [hpushed]; rfl)
  · have hheld : pushed s.cfg (decided s.cfg s.coef k) = decided s.cfg s.coef k := if_neg hfull.not_gt
    exact (execDmSymbol_some c s k hk hpush htail).trans (by rw [hheld]; rfl)

/-- The replaced channel, an event recorded or not. -/
theorem channel_raiseIf_putChannel {k' : Channel} {b : Bool} {e : Event} (hk : s.channels[c]? = some k) :
    ((s.putChannel c k').raiseIf b e).channels[c]? = some k' :=
  putChannel_self s c k k' hk

/-- The state in which `DM.SYMBOL` meets its push: the decision made and in flight, the event of its magnitude recorded (R154,
R265). -/
def decidedState (c : Nat) (s : State) (k : Channel) : State :=
  (s.putChannel c (decided s.cfg s.coef k)).raiseIf (isDegenerate s.cfg.numerics (decided s.cfg s.coef k).cd.m)
    (.degenerate c)

theorem decidedState_channel (hk : s.channels[c]? = some k) :
    (decidedState c s k).channels[c]? = some (decided s.cfg s.coef k) :=
  channel_raiseIf_putChannel hk

/-- `DM.SYMBOL` from its first line makes its decision, pushes it, and goes on where the push does (R154). -/
theorem execDmSymbol_eq_push (hk : s.channels[c]? = some k) (hpush : k.cd.pos ≠ .push) (htail : k.cd.pos ≠ .tail) :
    execDmSymbol c s = chain (execBqPush c (decidedState c s k)) (symbolTail c) := by
  rw [push_then_tail c _ _ (decidedState_channel hk) rfl, execDmSymbol_some c s k hk hpush htail, decidedState,
    raiseIf_putChannel, putChannel_putChannel]
  rfl

/-- The demapper operation that a key selects reads the row of that key (R104, R158). -/
theorem exec_decodeDemap (hk : s.channels[c]? = some k) (phase : BitVec 2) :
    exec (decodeDemap c phase) s =
      .next (s.putChannel c (demapWith s.cfg.numerics (tableRow s.cfg.demap phase) k)) := by
  rw [decodeDemap, tableRow]
  generalize phase.toNat = n
  match n with
  | 0 | 1 | 2 | _ + 3 => exact updateChannel_some c s _ k hk

/-- Steps 1 to 5 of `DM.SYMBOL` as operations make the decision and push it (R154). -/
theorem runOps_symbolSteps (hk : s.channels[c]? = some k) :
    runOps [.dmMf c, .dmNorm c, .dmLevel c, decodeDemap c k.dm.s, .dmEmit c] s = execBqPush c (decidedState c s k) := by
  have raised := fun k' b => channel_raiseIf_putChannel (k' := k') (b := b) (e := .degenerate c) hk
  rw [runOps_cons (.dmMf c) _ _ _ (execDmMf_some hk),
    runOps_cons (.dmNorm c) _ _ _ (execDmNorm_some (putChannel_self s c k _ hk)), putChannel_putChannel,
    runOps_cons (.dmLevel c) _ _ _ (execDmLevel_some (raised _ _)), raiseIf_putChannel, putChannel_putChannel,
    runOps_cons (decodeDemap c k.dm.s) _ _ _ (exec_decodeDemap (raised _ _) _), raiseIf_putChannel,
    putChannel_putChannel, runOps_singleton]
  refine (execDmEmit_some (raised _ _)).trans ?_
  rw [raiseIf_putChannel, putChannel_putChannel]
  rfl

/-- After its push `DM.SYMBOL` is its last lines (R154). -/
theorem execDmSymbol_eq_symbolTail (hk : s.channels[c]? = some k) (hpos : k.cd.pos = .tail) :
    execDmSymbol c s = symbolTail c s := by
  simp [execDmSymbol, onChannel_some c s _ k hk, hpos]

/-- The last lines of `DM.SYMBOL` count the symbol and run `DM.PLL` (R154, R168). -/
theorem symbolTail_eq_pll (hk : s.channels[c]? = some k) (hpos : k.cd.pos = .tail) :
    symbolTail c s =
      execDmPll c (s.putChannel c { k with dm := { k.dm with s := k.dm.s + 1 }, cd := { k.cd with pos := .pll } }) :=
  (onChannel_some c s _ k hk).trans (if_pos hpos)

/-- Held at its push, `DM.SYMBOL` pushes and goes on where the push does (R154, R241). -/
theorem execDmSymbol_of_push (hk : s.channels[c]? = some k) (hpos : k.cd.pos = .push) :
    execDmSymbol c s = chain (execBqPush c s) (symbolTail c) :=
  (execDmSymbol_held c s k hk hpos).trans (push_then_tail c s k hk hpos).symm

/-- A push with room for the decision, and the lines after it, which are `DM.SYMBOL` resumed after the push (R154). -/
theorem push_then_symbol (hk : s.channels[c]? = some k) (hroom : k.bq.length < s.cfg.bqCap) :
    chain (execBqPush c s) (symbolTail c) =
      execDmSymbol c (s.putChannel c { k with bq := k.bq ++ [k.cd.dec], cd := { k.cd with pos := .tail } }) := by
  rw [execBqPush_room hk hroom, chain_of_next, execDmSymbol_eq_symbolTail (putChannel_self s c k _ hk) rfl]

/-- A push without room ends the step (R241). -/
theorem push_held (hk : s.channels[c]? = some k) (hpos : k.cd.pos = .push) (hfull : s.cfg.bqCap ≤ k.bq.length) :
    chain (execBqPush c s) (symbolTail c) = .next s := by
  rw [execBqPush_full hk hfull, chain_of_next, symbolTail_held c s k hk (by simp [hpos])]

/-- Settles O13: by the three places at which `DM.SYMBOL` can be, its push with room and without. -/
theorem dmSymbolSequences : Obligations.DmSymbolSequences := by
  intro s c k hk
  refine ⟨fun hpush htail => ?_, fun hpos => ?_, fun hpos => ?_⟩
  · rw [runOps_symbolSteps hk, show exec (.dmSymbol c) s = _ from execDmSymbol_eq_push hk hpush htail]
    have hdecided := decidedState_channel hk
    rcases lt_or_ge k.bq.length s.cfg.bqCap with hroom | hfull
    · exact ⟨_, _, execBqPush_room hdecided hroom, putChannel_self _ c _ _ hdecided,
        .inl ⟨rfl, push_then_symbol hdecided hroom⟩⟩
    · exact ⟨_, _, execBqPush_full hdecided hfull, hdecided, .inr ⟨rfl, push_held hdecided rfl hfull⟩⟩
  · have hexec := execDmSymbol_of_push hk hpos
    exact ⟨fun hroom => hexec.trans (push_then_symbol hk hroom), fun hfull => hexec.trans (push_held hk hpos hfull)⟩
  · exact ⟨k.dm.s + 1, by simp [BitVec.toNat_add],
      (execDmSymbol_eq_symbolTail hk hpos).trans (symbolTail_eq_pll hk hpos)⟩

/-! ### `DM.SAMPLE` -/

/-- A finite sample in which the clock comes due: the oscillator moves on, and the symbol falls in the same step (R153,
R154). -/
theorem execDmSample_due (hk : s.channels[c]? = some k) (hf : s.cfg.numerics.finite k.cd.y = true)
    (hdue : symbolDue s.cfg k.dm = true) :
    execDmSample c s = execDmSymbol c (s.putChannel c ((k.advanced s.cfg).cdGoto .symbol)) :=
  (execDmSample_some c s k hk hf).trans (if_pos hdue)

/-- A finite sample in which it does not: the oscillator moves on, and the operation ends (R153). -/
theorem execDmSample_not_due (hk : s.channels[c]? = some k) (hf : s.cfg.numerics.finite k.cd.y = true)
    (hdue : symbolDue s.cfg k.dm = false) :
    execDmSample c s = .next (s.putChannel c ((k.advanced s.cfg).cdGoto (loopPos s.cfg k.ch.n))) :=
  (execDmSample_some c s k hk hf).trans (if_neg (by simp [hdue]))

/-- A sample that is not finite is refused (R266). -/
theorem execDmSample_refused (hk : s.channels[c]? = some k) (hf : s.cfg.numerics.finite k.cd.y = false) :
    execDmSample c s = .refused .cvNonfinite := by
  simp [execDmSample, onChannel_some c s _ k hk, hf, refuse]

/-- `DM.SYMBOL` from its first line completes (R154). -/
theorem execDmSymbol_completes (hk : s.channels[c]? = some k) (hpos : k.cd.pos = .symbol) :
    ∃ t, execDmSymbol c s = .next t :=
  ⟨_, execDmSymbol_some c s k hk (by simp [hpos]) (by simp [hpos])⟩

/-- Settles O10: by the test of the clock, whatever the domain makes of it. -/
theorem dmSampleCompletes : Obligations.DmSampleCompletes := by
  intro s c k hk N
  refine ⟨fun hf => ?_, execDmSample_refused hk⟩
  cases hdue : symbolDue s.cfg k.dm with
  | true =>
    have hexec := execDmSample_due hk hf hdue
    obtain ⟨t, ht⟩ := execDmSymbol_completes (putChannel_self s c k ((k.advanced s.cfg).cdGoto .symbol) hk) rfl
    exact ⟨⟨t, hexec.trans ht⟩, _, _, _, .inl hexec⟩
  | false =>
    have hexec := execDmSample_not_due hk hf hdue
    exact ⟨⟨_, hexec⟩, _, _, _, .inr hexec⟩

/-- Over exact reals one subtraction where the value has reached `top` (R153). -/
theorem toReal_wrapOnce {top x : Scalar} (htop : top.finite = true) (hx : x.finite = true) :
    (wrapOnce Numerics.exact top x).toReal =
      if top.toReal ≤ x.toReal then x.toReal - top.toReal else x.toReal := by
  simp only [wrapOnce, apply_ite Scalar.toReal, Numerics.exact_le, Scalar.le_exact top x htop hx, Numerics.exact_sub,
    Scalar.toReal_sub]

/-- Over exact reals the sum that a sample forms from the phase or from the clock (R153). -/
theorem advance_exact {p : Params} {dm : DmState} {x : Scalar} (hp : p.num = .exact) (hx : x.finite = true)
    (hw : p.w0.finite = true) (hdf : dm.df.finite = true) :
    (p.numerics.add x (increment p dm)).finite = true ∧
      (p.numerics.add x (increment p dm)).toReal = x.toReal + (p.w0.toReal + dm.df.toReal) := by
  simp [increment, Params.numerics_exact p hp, hx, hw, hdf]

/-- Settles O11: the two sums and their wraps are exact, and the clock's test is that of the reals. -/
theorem dmSampleAdvancesMixesAndClocks : Obligations.DmSampleAdvancesMixesAndClocks := by
  intro s c k hk hnum hy hphi hclk hdf hw inc
  have hN := Params.numerics_exact s.cfg hnum
  obtain ⟨hphif, hphir⟩ := advance_exact hnum hphi hw hdf
  obtain ⟨hclkf, hclkr⟩ := advance_exact hnum hclk hw hdf
  have hf : s.cfg.numerics.finite k.cd.y = true := by rw [hN]; exact hy
  have hdue : symbolDue s.cfg k.dm = true ↔ 3 * Real.pi / 2 ≤ k.dm.clk.toReal + inc := by
    rw [← hclkr, ← Numerics.toReal_clkTh, ← Scalar.le_exact _ _ Numerics.finite_clkTh hclkf, symbolDue, hN,
      Numerics.exact_le, clkSum, hN]
  refine ⟨phiNext s.cfg k.dm, _, mixDown s.cfg.numerics k.cd.y (phiNext s.cfg k.dm), ?_, ?_, ?_, ?_,
    fun h => execDmSample_due hk hf (hdue.2 h),
    fun h => execDmSample_not_due hk hf (Bool.eq_false_iff.2 (mt hdue.1 h.not_ge))⟩
  · rw [phiNext, hN, toReal_wrapOnce Numerics.finite_twoPi (hN ▸ hphif), Numerics.toReal_twoPi, ← hN, hphir]
  · rw [hN, clkSum, toReal_wrapOnce Numerics.finite_clkTh hclkf, Numerics.toReal_clkTh, hclkr]
  · simp [mixDown, hN]
  · simp [mixDown, hN]

/-- The symbol that may fall in a sample leaves the phase and the clock as the sample left them (R153, R154). -/
theorem LoopRanges.sampled {p : Params} {coef : List Scalar} (h : LoopRanges (k.advanced p).dm) :
    LoopRanges (sampled p coef k).dm :=
  h.congr (changes_phase (changes_sampled p coef k))

/-- Settles O12: the sample restores both ranges, and the symbol that may fall in it moves neither. -/
theorem dmSampleRestoresItsRanges : Obligations.DmSampleRestoresItsRanges := by
  intro s t c k k' hk hnum hphi hclk hdf hw hrange hlow hhigh hphi0 hphi2 hclk0 hclk2 hexec hk'
  obtain ⟨-, ev, rfl⟩ := execDmSample_next c s t k hk hexec
  obtain rfl := Option.some.inj ((putChannel_self s c k _ hk).symm.trans hk')
  exact LoopRanges.sampled
    (sampleStep_ranges hnum hw ⟨hlow, hhigh⟩ hphi hclk hdf hrange ⟨hphi0, hphi2, hclk0, hclk2⟩)

end Sys2Proof.Machine
end

section
/-! The stage operations of the Frame Decoder (spec/42_frame_decoder.md R181 to R192; spec/30_encoding.md R95, R96, R103): the
bit that is shifted in, and the state change of each operation. -/

namespace Sys2Proof.Machine

variable {c : Nat} {s : State} {k : Channel}

/-! ### `FD.BIT` -/

/-- A shift moves every bit down by one place (R181). -/
theorem getLsbD_shiftIn_of_lt (sr : Byte) (b : Bool) {j : Nat} (hj : j < 7) :
    (shiftIn sr b).getLsbD j = sr.getLsbD (j + 1) := by
  simp [shiftIn, hj, Nat.add_comm 1 j]

/-- A shift puts the new bit on top (R181). -/
theorem getLsbD_shiftIn_seven (sr : Byte) (b : Bool) : (shiftIn sr b).getLsbD 7 = b := by
  cases b <;> simp [shiftIn, BitVec.getLsbD_of_ge]

/-- Over exact reals the hard bit of a finite soft value is its being positive (R95). -/
theorem hardBit_exact {soft : Scalar} (hsoft : soft.finite = true) :
    hardBit Numerics.exact soft = decide (0 < soft.toReal) := by
  rw [hardBit, Bool.eq_iff_iff, decide_eq_true_iff]
  exact Numerics.isPos_exact soft hsoft

/-- Settles O21: the bits of a shift, and `FD.BIT` in closed form. -/
theorem fdBitShiftsAndCounts : Obligations.FdBitShiftsAndCounts := by
  intro s c k hk
  have hbit := execFdBit_some c s k hk
  refine ⟨shiftIn k.fd.sr (hardBit s.cfg.numerics k.fda.dec.soft), fun j hj => getLsbD_shiftIn_of_lt _ _ hj,
    getLsbD_shiftIn_seven _ _, fun hnum hsoft => ?_, fun hn => hbit.trans (if_neg hn), fun hn => ?_⟩
  · rw [getLsbD_shiftIn_seven, Params.numerics_exact s.cfg hnum, hardBit_exact hsoft]
  · have hcomplete := hbit.trans (if_pos hn)
    refine ⟨fun i hi => hcomplete.trans ?_, fun e he => hcomplete.trans ?_⟩
    · simp only [shifted, hi]
      rfl
    · simp only [shifted, he]

/-! ### Seeking -/

/-- Under admitted control characters `SYN` and `SOH` differ (R6). -/
theorem syn_ne_soh_of_admitted {cc : ControlChars} (h : cc.admitted = true) : cc.syn ≠ cc.soh := by
  simp only [ControlChars.admitted, Bool.and_eq_true, decide_eq_true_eq, List.nodup_cons, List.mem_cons, not_or] at h
  obtain ⟨-, ⟨hne, -⟩, -⟩ := h
  exact hne

/-- Settles O23: by the rows of R103 for the two stages, and the transfers of their hits. -/
theorem syncCharactersAdvance : Obligations.SyncCharactersAdvance := by
  intro s c k hk
  refine ⟨fun r len => ?_, fun r len => ?_, fun hcc len => ?_, updateChannel_some c s _ k hk, updateChannel_some c s _ k hk⟩
  · simp [decodeByte]
  · simp [decodeByte]
  · rw [decodeByte, if_neg (syn_ne_soh_of_admitted hcc)]

/-- Settles O24: each miss is `FD.RESYNC` on its channel, the two losses on the state with the event recorded. -/
theorem missesResynchronise : Obligations.MissesResynchronise := by
  intro s c k r hk
  exact ⟨updateChannel_some c s _ k hk, updateChannel_some c (s.raise _) _ k hk, updateChannel_some c (s.raise _) _ k hk⟩

/-! ### `FD.SOH.HIT` -/

/-- Over exact reals the level in decibels of a positive level (R186). -/
theorem toReal_decibels (lvl : Scalar) : (decibels Numerics.exact lvl).toReal = 10 * Real.logb 10 lvl.toReal := by
  simp [decibels]

/-- Over exact reals the level in decibels of a finite level is finite. -/
theorem finite_decibels {lvl : Scalar} (hlvl : lvl.finite = true) : (decibels Numerics.exact lvl).finite = true := by
  simp [decibels, hlvl]

/-- Settles O25: the frequency and the level that `FD.SOH.HIT` records; a level that is not positive gives a real drawn. -/
theorem sohHitOpensAFrame : Obligations.SohHitOpensAFrame := by
  intro s c k hk
  refine ⟨_, _, _, fun ft hft => ?_, fun hnum hlvl => ?_, onChannel_some c s _ k hk⟩
  · rw [List.getD_eq_getElem?_getD, hft, Option.getD_some]
  · rw [Params.numerics_exact s.cfg hnum]
    have hpos := Numerics.isPos_exact k.fda.lvl hlvl
    split_ifs with h
    · exact ⟨finite_decibels hlvl, fun _ => toReal_decibels _⟩
    · exact ⟨rfl, fun hlt => absurd (hpos.2 hlt) h⟩

/-! ### The text and the CRC bytes -/

/-- A character is stored while there is room (R188, R189). -/
theorem storeCharacter_some {ch : Byte} {st : Stage} (hk : s.channels[c]? = some k) (hlen : k.fd.len < 243) :
    storeCharacter c s ch st = .next (s.putChannel c ({ k with fd := (k.fd.append ch).goto st }.fdaGoto .pop)) :=
  (onChannel_some c s _ k hk).trans (if_pos hlen)

/-- A delimiter is stored without its parity bit (R103, R189). -/
theorem mask_delimiters {cc : ControlChars} (h : cc.admitted = true) (p : Bool) :
    maskParity (withParity p cc.etx) = cc.etx ∧ maskParity (withParity p cc.etb) = cc.etb := by
  obtain ⟨hetx, hetb, -⟩ := Laws.RoundTrip.delimiters_admitted cc h
  exact ⟨Laws.RoundTrip.maskParity_withParity p _ hetx, Laws.RoundTrip.maskParity_withParity p _ hetb⟩

/-- Settles O26: a write is read back at its address alone; the delimiters are stored as they are. -/
theorem textOperationsStoreOneCharacter : Obligations.TextOperationsStoreOneCharacter := by
  intro s c k r hk hwf hcc
  have stored : ∀ ch : Byte, (k.fd.buf.write k.fd.len ch).wf ∧
      ∀ a, (k.fd.buf.write k.fd.len ch).read a = if a = k.fd.len then ch else k.fd.buf.read a :=
    fun ch => ⟨Memory.wf_write _ _ _ hwf, Memory.read_write _ _ _ hwf⟩
  refine ⟨fun hlen => ⟨_, stored _, storeCharacter_some hk (by omega)⟩, fun p hlen => ?_,
    fun hlen => ⟨_, stored _, ?_⟩⟩
  · obtain ⟨hetx, hetb⟩ := mask_delimiters hcc p
    have hroom : k.fd.len < 243 := by omega
    refine ⟨⟨_, stored _, ?_⟩, ⟨_, stored _, ?_⟩⟩
    · rw [exec, execFdTxtEndEtx, hetx]
      exact storeCharacter_some hk hroom
    · rw [exec, execFdTxtEndEtb, hetb]
      exact storeCharacter_some hk hroom
  · rw [hlen]
    exact updateChannel_some c (s.raise _) _ k hk

/-- Settles O27: by the rows of R103 for the two stages; `FD.CRC2` is `FD.DONE` on its channel. -/
theorem crcBytesAreStoredUnchecked : Obligations.CrcBytesAreStoredUnchecked := by
  intro s c k r hk
  exact ⟨fun _ => rfl, fun _ => rfl, updateChannel_some c s _ k hk, execFdCrc2_some c r s k hk, execFdCrc2_total hk⟩

end Sys2Proof.Machine
end

section
/-! The completion of a frame (spec/42_frame_decoder.md R192 to R194; spec/44_queues_dispatch.md R243, R244): `FD.DONE` as the
sequence of its lines, and the frame that it queues or holds. -/

namespace Sys2Proof.Machine

variable {c : Nat} {s : State} {k : Channel}

/-! ### `OQ.PUSH` and what follows it -/

/-- A frame is appended while there is room (R71, R244). -/
theorem execOqPush_room (hk : s.channels[c]? = some k) (hroom : s.oq.length < s.cfg.oqCap) :
    execOqPush c s =
      .next { s.putChannel c { k with fda := { k.fda with pos := .resync } } with oq := s.oq ++ [k.fda.frame] } := by
  rw [execOqPush, onChannel_some c s _ k hk, (push_eq_some _ _ _ _).2 ⟨hroom, rfl⟩]
  rfl

/-- A frame is held while the queue is full (R244). -/
theorem execOqPush_full (hk : s.channels[c]? = some k) (hfull : s.cfg.oqCap ≤ s.oq.length) : execOqPush c s = .next s := by
  rw [execOqPush, onChannel_some c s _ k hk, (push_eq_none _ _ _).2 hfull]
  rfl

/-- After its push `FD.DONE` is its last line (R193). -/
theorem execFdDone_eq_frameTail (hk : s.channels[c]? = some k) (hpos : k.fda.pos = .resync) :
    execFdDone c s = frameTail c s := by
  simp [execFdDone, onChannel_some c s _ k hk, hpos]

/-- A push with room for the frame, and the line after it, which is `FD.DONE` resumed after the push (R193). -/
theorem push_then_done (hk : s.channels[c]? = some k) (hroom : s.oq.length < s.cfg.oqCap) :
    chain (execOqPush c s) (frameTail c) =
      execFdDone c
        { s.putChannel c { k with fda := { k.fda with pos := .resync } } with oq := s.oq ++ [k.fda.frame] } := by
  rw [execOqPush_room hk hroom, chain_of_next, execFdDone_eq_frameTail (by exact putChannel_self s c k _ hk) rfl]

/-- The frame that meets room is queued, and the decoder seeks again (R193, R244). -/
theorem dispatched_room (hroom : s.oq.length < s.cfg.oqCap) :
    dispatched c s k = { s.putChannel c (stageMiss s.cfg k) with oq := s.oq ++ [k.fda.frame] } :=
  if_pos hroom

/-- The frame that meets a full queue is held (R244). -/
theorem dispatched_full (hfull : s.cfg.oqCap ≤ s.oq.length) : dispatched c s k = s.putChannel c k :=
  if_neg hfull.not_gt

/-- A push without room ends the step (R244). -/
theorem frame_held (hk : s.channels[c]? = some k) (hpos : k.fda.pos = .push) (hfull : s.cfg.oqCap ≤ s.oq.length) :
    chain (execOqPush c s) (frameTail c) = .next s := by
  rw [push_then_resync c s k hk hpos, dispatched_full hfull, putChannel_of_channel hk]

/-! ### `FD.DONE` -/

/-- Held at its push, `FD.DONE` pushes and goes on where the push does (R193, R244). -/
theorem execFdDone_of_push (hk : s.channels[c]? = some k) (hpos : k.fda.pos = .push) :
    execFdDone c s = chain (execOqPush c s) (frameTail c) :=
  (execFdDone_held c s k hk hpos).trans (push_then_resync c s k hk hpos).symm

/-- A field of the block of a channel stays unset for want of length (R264). -/
def shortCause (cc : ControlChars) (k : Channel) : Bool := (built cc k).fda.blk.isShort cc

/-- The state in which `FD.DONE` meets its push: the block parsed, the frame built and in flight (R193, R243). -/
def builtState (c : Nat) (s : State) (k : Channel) : State :=
  (s.putChannel c (built s.cfg.chars k)).raiseIf (shortCause s.cfg.chars k) (.shortBlock c)

theorem builtState_channel (hk : s.channels[c]? = some k) :
    (builtState c s k).channels[c]? = some (built s.cfg.chars k) :=
  channel_raiseIf_putChannel hk

/-- What becomes of a frame does not read the event of its parse. -/
theorem dispatched_builtState (k' : Channel) :
    dispatched c (builtState c s k) k' = (dispatched c s k').raiseIf (shortCause s.cfg.chars k) (.shortBlock c) := by
  rcases lt_or_ge s.oq.length s.cfg.oqCap with hroom | hfull
  · rw [dispatched_room hroom, dispatched_room (by exact hroom), builtState, raiseIf_putChannel, putChannel_putChannel]
    rfl
  · rw [dispatched_full hfull, dispatched_full (by exact hfull), builtState, raiseIf_putChannel, putChannel_putChannel]

/-- The lines of `FD.DONE` as operations build the frame and push it (R193). -/
theorem runOps_frameLines (hk : s.channels[c]? = some k) (hlen : k.fd.len ≤ 243) :
    runOps [.bpParse c, .faBuild c, .oqPush c] s = execOqPush c (builtState c s k) := by
  rw [runOps_cons (.bpParse c) _ _ _ (execBpParse_some c s k hk hlen),
    runOps_cons (.faBuild c) _ _ _ (updateChannel_some c _ _ _ (channel_raiseIf_putChannel hk)), raiseIf_putChannel,
    putChannel_putChannel, runOps_singleton]
  rfl

/-- `FD.DONE` from its first line builds the frame, pushes it, and goes on where the push does (R193). -/
theorem execFdDone_eq_push (hk : s.channels[c]? = some k) (hpush : k.fda.pos ≠ .push) (hresync : k.fda.pos ≠ .resync)
    (hlen : k.fd.len ≤ 243) :
    execFdDone c s = chain (execOqPush c (builtState c s k)) (frameTail c) := by
  rw [push_then_resync c _ _ (builtState_channel hk) rfl, execFdDone_some c s k hk hpush hresync hlen,
    dispatched_builtState]
  rfl

/-- Settles O28: by the three places at which `FD.DONE` can be, its push with room and without. -/
theorem fdDoneParsesThenSeeks : Obligations.FdDoneParsesThenSeeks := by
  intro s c k hk
  refine ⟨fun hpush hresync hlen => ?_, fun hpos => ?_, execFdDone_resync hk⟩
  · rw [runOps_frameLines hk hlen, show exec (.fdDone c) s = _ from execFdDone_eq_push hk hpush hresync hlen]
    have hbuilt := builtState_channel hk
    rcases lt_or_ge s.oq.length s.cfg.oqCap with hroom | hfull
    · exact ⟨_, _, execOqPush_room hbuilt hroom, putChannel_self _ c _ _ hbuilt,
        .inl ⟨rfl, push_then_done hbuilt hroom⟩⟩
    · exact ⟨_, _, execOqPush_full hbuilt hfull, hbuilt, .inr ⟨rfl, frame_held hbuilt rfl hfull⟩⟩
  · have hexec := execFdDone_of_push hk hpos
    exact ⟨fun hroom => hexec.trans (push_then_done hk hroom), fun hfull => hexec.trans (frame_held hk hpos hfull)⟩

/-- `FD.DONE` with room in `OQ`: the frame is queued and the decoder seeks again (R193). -/
theorem execFdDone_room (hk : s.channels[c]? = some k) (hpush : k.fda.pos ≠ .push) (hresync : k.fda.pos ≠ .resync)
    (hlen : k.fd.len ≤ 243) (hroom : s.oq.length < s.cfg.oqCap) :
    execFdDone c s =
      .next
        ({ s.putChannel c (stageMiss s.cfg (built s.cfg.chars k)) with
            oq := s.oq ++ [(built s.cfg.chars k).fda.frame] }.raiseIf
          (shortCause s.cfg.chars k) (.shortBlock c)) := by
  rw [execFdDone_some c s k hk hpush hresync hlen, dispatched_room hroom]
  rfl

/-- `FD.DONE` with `OQ` full: the frame is held in flight (R193, R244). -/
theorem execFdDone_full (hk : s.channels[c]? = some k) (hpush : k.fda.pos ≠ .push) (hresync : k.fda.pos ≠ .resync)
    (hlen : k.fd.len ≤ 243) (hfull : s.cfg.oqCap ≤ s.oq.length) : execFdDone c s = .next (builtState c s k) := by
  rw [execFdDone_some c s k hk hpush hresync hlen, dispatched_full hfull]
  rfl

/-- The pop of the decision that completes the second CRC byte is `FD.DONE` on the channel with that byte stored (R192,
R242). -/
theorem execBqPop_crc2 {d : BitDecision} {q : List BitDecision} (hk : s.channels[c]? = some k) (hq : k.bq = d :: q)
    (hstage : k.fd.stage = .crc2) (hnb : k.fd.nb = 1) :
    execBqPop c s =
      execFdDone c
        (s.putChannel c
          { k with
            bq := q
            fd := { k.fd with
              stage := .done, sr := shiftIn k.fd.sr (hardBit s.cfg.numerics d.soft), nb := 0
              crc1 := shiftIn k.fd.sr (hardBit s.cfg.numerics d.soft) }
            fda := { k.fda with dec := d, lvl := d.lvl, pos := .done } }) := by
  rw [execBqPop_cons hk hq, if_pos (by omega), hstage]
  refine (execFdCrc2_some c _ _ _ (putChannel_self s c k _ hk)).trans ?_
  simp only [putChannel_putChannel, Channel.took, Channel.fdaGoto, hnb, Nat.sub_self]

/-- Settles O45: `FD.DONE` in closed form with room and without; the completing pop is `FD.DONE` on the channel with the byte
stored. -/
theorem completedFrameIsQueued : Obligations.CompletedFrameIsQueued := by
  intro s c k hk hlen
  refine ⟨fun hpush hresync => ?_, fun d rest hq hstage hnb hroom => ?_⟩
  · rcases lt_or_ge s.oq.length s.cfg.oqCap with hroom | hfull
    · exact ⟨_, _, execFdDone_room hk hpush hresync hlen hroom, putChannel_self s c k _ hk, rfl, rfl, rfl, rfl,
        fun d hd => putChannel_ne s c d _ hd, rfl, fun _ => ⟨rfl, rfl, rfl⟩, fun hfull => absurd hroom hfull.not_gt⟩
    · exact ⟨_, _, execFdDone_full hk hpush hresync hlen hfull, builtState_channel hk, rfl, rfl, rfl, rfl,
        fun d hd => putChannel_ne s c d _ hd, rfl, fun hroom => absurd hroom hfull.not_gt, fun _ => ⟨rfl, rfl, rfl⟩⟩
  · have hput := fun k' => putChannel_self s c k k' hk
    exact ⟨_, _, (execBqPop_crc2 hk hq hstage hnb).trans
      (execFdDone_room (hput _) (by simp) (by simp) (by exact hlen) (by exact hroom)),
      putChannel_self _ c _ _ (hput _), rfl, rfl, rfl, rfl⟩

end Sys2Proof.Machine
end

section
/-! The control transfers of the Frame Decoder (spec/42_frame_decoder.md R195): what each operation that a step can run makes of
the stage of its channel. -/

namespace Sys2Proof.Machine

variable {c : Nat} {s t : State} {k : Channel}

/-! ### The stage operations -/

/-- Channel `c` comes from stage `st` by a transfer of the table (R195). -/
def Transfers (c : Nat) (st : Stage) (t : State) : Prop :=
  ∃ k', t.channels[c]? = some k' ∧ (st, k'.fd.stage) ∈ stageTransfers

/-- An operation that replaces its channel by one in stage `st'`, whatever it adds to the trace. -/
theorem updateChannel_transfers {st : Stage} (st' : Stage) {ev : List Event} {f : Channel → Channel}
    (hk : s.channels[c]? = some k) (hf : (f k).fd.stage = st') (hst : (st, st') ∈ stageTransfers)
    (h : updateChannel c { s with events := ev } f = .next t) : Transfers c st t := by
  obtain ⟨k', hk', rfl⟩ := updateChannel_next c _ t f h
  obtain rfl : k = k' := Option.some.inj (hk.symm.trans hk')
  exact ⟨f k, putChannel_self s c k (f k) hk, hf ▸ hst⟩

/-- A text operation goes to the stage it names (R188, R189). -/
theorem storeCharacter_transfers {st st' : Stage} {ch : Byte} (hst : (st, st') ∈ stageTransfers)
    (h : storeCharacter c s ch st' = .next t) : Transfers c st t := by
  obtain ⟨k', hk', -, rfl⟩ := storeCharacter_next c s t ch st' h
  exact ⟨_, putChannel_self s c k' _ hk', hst⟩

/-- `FD.DONE` from its push on: back to seeking, or held in its stage (R193). -/
theorem dispatched_stage {k₀ : Channel} (hk : s.channels[c]? = some k₀) :
    ∃ k', (dispatched c s k).channels[c]? = some k' ∧ (k'.fd.stage = .syn1 ∨ k'.fd.stage = k.fd.stage) := by
  rcases lt_or_ge s.oq.length s.cfg.oqCap with hroom | hfull
  · rw [dispatched_room hroom]
    exact ⟨_, putChannel_self s c k₀ (stageMiss s.cfg k) hk, .inl rfl⟩
  · rw [dispatched_full hfull]
    exact ⟨k, putChannel_self s c k₀ k hk, .inr rfl⟩

/-- `FD.CRC2` goes through the transient stage back to seeking, or is held there (R192, R193). -/
theorem execFdCrc2_transfers {r : Byte} (hk : s.channels[c]? = some k) (hlen : k.fd.len ≤ 243)
    (h : execFdCrc2 c r s = .next t) : Transfers c .crc2 t := by
  rw [execFdCrc2_some c r s k hk,
    execFdDone_some c _ _ (putChannel_self s c k _ hk) (by simp) (by simp) (by exact hlen)] at h
  cases h
  obtain ⟨k', hk', hseek | hheld⟩ := dispatched_stage (c := c) (k := built s.cfg.chars
    ({ k with fd := { k.fd with crc1 := r, stage := .done } }.fdaGoto .done)) (putChannel_self s c k _ hk)
  · exact ⟨k', hk', by rw [hseek]; decide⟩
  · exact ⟨k', hk', hheld ▸ (by decide : (Stage.crc2, Stage.done) ∈ stageTransfers)⟩

/-- The stage operation that a completed byte selects follows the table. -/
theorem stageOperation_transfers {i : Instr} {r : Byte} (hk : s.channels[c]? = some k) (hlen : k.fd.len ≤ 243)
    (hd : decodeByte s.cfg.chars c k.fd.stage r k.fd.len = .ok i) (h : exec i s = .next t) :
    Transfers c k.fd.stage t := by
  unfold decodeByte at hd
  cases hs : k.fd.stage <;> simp only [hs, Except.ok.injEq, reduceCtorEq] at hd
  case syn1 =>
    split_ifs at hd <;> subst hd
    · exact updateChannel_transfers .syn2 (ev := s.events) hk rfl (by decide) h
    · exact updateChannel_transfers .syn1 (ev := s.events) hk rfl (by decide) h
  case syn2 =>
    split_ifs at hd <;> subst hd
    · exact updateChannel_transfers .soh (ev := s.events) hk rfl (by decide) h
    · exact updateChannel_transfers .syn1 hk rfl (by decide) h
  case soh =>
    split_ifs at hd <;> subst hd
    · rw [show exec (.fdSohHit c) s = _ from onChannel_some c s _ k hk] at h
      cases h
      exact ⟨_, putChannel_self s c k _ hk, (by decide : (Stage.soh, Stage.txt) ∈ stageTransfers)⟩
    · exact updateChannel_transfers .syn1 hk rfl (by decide) h
  case txt =>
    split_ifs at hd <;> cases hd
    · exact storeCharacter_transfers (by decide) h
    · exact storeCharacter_transfers (by decide) h
    · exact updateChannel_transfers .crc1 hk rfl (by decide) h
    · exact storeCharacter_transfers (by decide) h
  case crc1 =>
    subst hd
    exact updateChannel_transfers .crc2 (ev := s.events) hk rfl (by decide) h
  case crc2 =>
    subst hd
    exact execFdCrc2_transfers hk hlen h

/-! ### Every effect of an operation -/

/-- A channel in stage `st` finds itself afterwards in that stage or in one that the table allows (R195). -/
def KeepsToTable (c : Nat) (st : Stage) (t : State) : Prop :=
  ∃ k', t.channels[c]? = some k' ∧ (k'.fd.stage = st ∨ (st, k'.fd.stage) ∈ stageTransfers)

theorem Transfers.keeps {st : Stage} (h : Transfers c st t) : KeepsToTable c st t :=
  h.imp fun _ h => h.imp_right .inr

/-- `BQ.POP`: held, one bit of a byte, or the stage operation of the byte it completes (R181, R242). -/
theorem execBqPop_keepsToTable (hk : s.channels[c]? = some k) (hlen : k.fd.len ≤ 243) (h : execBqPop c s = .next t) :
    KeepsToTable c k.fd.stage t := by
  cases hq : k.bq with
  | nil =>
    rw [execBqPop_nil hk hq] at h
    cases h
    exact ⟨k, hk, .inl rfl⟩
  | cons d q =>
    rw [execBqPop_cons hk hq] at h
    split_ifs at h
    · split at h
      · exact (stageOperation_transfers (k := k.took s.cfg.numerics d q .stage) (putChannel_self s c k _ hk) hlen
          (by assumption) h).keeps
      · cases h
    · cases h
      exact ⟨_, putChannel_self s c k _ hk, .inl rfl⟩

/-- An operation of `FDA[c]` that a step runs. -/
theorem FdInv.exec_ofFda_keepsToTable {i : Instr} (hinv : FdInv s) (hi : i.ofFda = some c) (hr : Runs s i)
    (hk : s.channels[c]? = some k) (h : exec i s = .next t) : KeepsToTable c k.fd.stage t := by
  obtain ⟨k₀, hk₀, hrun⟩ := hinv.runs_fda hi hr
  obtain rfl : k = k₀ := Option.some.inj (hk.symm.trans hk₀)
  obtain ⟨-, -, hall⟩ := hinv
  have hfd := hall k (List.mem_of_getElem? hk)
  rcases hrun with ⟨-, rfl⟩ | ⟨hp, rfl⟩
  · exact execBqPop_keepsToTable hk hfd.len_le h
  · rw [show exec (.fdDone c) s = _ from execFdDone_held c s k hk hp] at h
    cases h
    obtain ⟨k', hk', hseek | hheld⟩ := dispatched_stage (k := k) hk
    · exact ⟨k', hk', .inr (by rw [hseek, hfd.held hp]; decide)⟩
    · exact ⟨k', hk', .inl hheld⟩

/-- The stage of every channel that an effect other than a reset finds: the operations of `FDA[c]` alone move it. -/
theorem Effect.keepsToTable {i : Instr} {turn : Turn} (he : Effect s i t) (hinv : FdInv s) (hown : turn.Owns i)
    (ht : turn ≠ .reset) (hk : s.channels[c]? = some k) : KeepsToTable c k.fd.stage t := by
  cases he with
  | held | deliver | feedEos => exact ⟨k, hk, .inl rfl⟩
  | cd _ d _ hi hr he =>
    obtain ⟨x, x', ev, hx, hwork, rfl⟩ := exec_ofCd hi he
    by_cases hc : c = d
    · subst hc
      obtain rfl : k = x := Option.some.inj (hk.symm.trans hx)
      exact ⟨x', putChannel_self s c k x' hk, .inl (by rw [hwork.owned.fd])⟩
    · exact ⟨k, (putChannel_ne s d c x' hc).trans hk, .inl rfl⟩
  | fda _ d _ hi hr he =>
    by_cases hc : c = d
    · subst hc
      exact hinv.exec_ofFda_keepsToTable hi hr hk he
    · obtain ⟨_, x', _, _, _, _, _, _, rfl⟩ := exec_ofFda hi he
      exact ⟨k, (putChannel_ne s d c x' hc).trans hk, .inl rfl⟩
  | feedBlock => exact ⟨k.cdGoto .block, by simp [hk], .inl rfl⟩
  | sysReset => exact absurd hown.eq_reset ht
  | sysConfig p =>
    obtain ⟨lo, hlo⟩ := configureChannels_of_channel (p := p) hk
    exact ⟨_, hlo, .inl rfl⟩

/-- Settles O29: by the effects of a step; `FDA[c]` runs a stage operation, each along one entry of the table, or is resumed at
its push. -/
theorem stageTransfersFollowTheTable : Obligations.StageTransfersFollowTheTable := by
  intro s s' c k k' hinv hstep ht hk hk'
  have hkeeps : KeepsToTable c k.fd.stage s' := by
    rcases step_effect hstep with ⟨b, rfl⟩ | ⟨i, t, hown, he, rfl⟩
    · exact ⟨k, hk, .inl rfl⟩
    · exact he.keepsToTable hinv hown ht hk
  obtain ⟨k₁, hk₁, htable⟩ := hkeeps
  obtain rfl : k' = k₁ := Option.some.inj (hk'.symm.trans hk₁)
  exact htable

end Sys2Proof.Machine
end

section
/-! The parser of a block and its operations (spec/43_block_parser.md R210 to R220; spec/30_encoding.md R101): what each step
makes of each field, and the whole parse as the sequence of its steps. -/

namespace Sys2Proof.Machine

/-! ### Fields of a block -/

/-- A field of several bytes has as many bytes as its offsets name, where its last byte lies inside the block (R102). -/
theorem length_slice {raw : List Byte} {lo hi : Nat} (hhi : hi < raw.length) : (slice raw lo hi).length = hi + 1 - lo := by
  rw [slice, List.length_take, List.length_drop]
  omega

theorem getElem?_slice {raw : List Byte} {lo hi j : Nat} (hj : j < hi + 1 - lo) : (slice raw lo hi)[j]? = raw[lo + j]? := by
  rw [slice, List.getElem?_take_of_lt hj, List.getElem?_drop]

/-- An unset field becomes present exactly where its condition holds. -/
theorem isSome_setIf_none {α : Type} (cond : Bool) (v : α) : (setIf cond (some v) none).isSome = cond := by
  cases cond <;> rfl

/-- An unset field of several bytes, set where its last byte lies inside the block, holds the bytes of its offsets (R101). -/
theorem bytes_of_setIf_slice {raw : List Byte} {cond : Bool} {lo hi n : Nat}
    (hcond : cond = true → hi < raw.length ∧ hi + 1 - lo = n) (f : List Byte)
    (hf : setIf cond (some (slice raw lo hi)) none = some f) : f.length = n ∧ ∀ j < n, f[j]? = raw[lo + j]? := by
  cases cond with
  | false => cases hf
  | true =>
    cases hf
    obtain ⟨hhi, rfl⟩ := hcond rfl
    exact ⟨length_slice hhi, fun j hj => getElem?_slice hj⟩

/-- An unset field of one byte, guarded by its offset, is the byte there, if there is one (R101). -/
theorem setIf_getElem?_none (raw : List Byte) (i : Nat) : setIf (decide (i + 1 ≤ raw.length)) raw[i]? none = raw[i]? := by
  by_cases hi : i < raw.length
  · exact if_pos (decide_eq_true hi)
  · rw [List.getElem?_eq_none (not_lt.1 hi)]
    exact ite_self none

/-- The suffix is the last byte of the block, if there is one (R212). -/
theorem setIf_last_none (raw : List Byte) :
    setIf (decide (1 ≤ raw.length)) raw[raw.length - 1]? none = raw.getLast? := by
  cases raw with
  | nil => rfl
  | cons b rest => rw [List.getLast?_eq_getElem?]; exact if_pos (by simp)

/-- Settles O32: each guard of R212 says that the last byte of its field exists. -/
theorem bpFixedExtractsTheFixedFields : Obligations.BpFixedExtractsTheFixedFields := by
  intro s c k raw hk hblk
  refine ⟨(AcarsBlock.ofRaw raw).fixed, ?_, rfl, setIf_getElem?_none raw 0, setIf_getElem?_none raw 8,
    setIf_getElem?_none raw 11, setIf_getElem?_none raw 12, setIf_last_none raw,
    isSome_setIf_none _ _, bytes_of_setIf_slice (raw := raw) fun h => ?_, isSome_setIf_none _ _,
    bytes_of_setIf_slice (raw := raw) fun h => ?_⟩
  · rw [show exec (.bpFixed c) s = _ from updateChannel_some c s _ k hk, parserStep, hblk]
    rfl
  · have hlen : 8 ≤ raw.length := of_decide_eq_true h
    omega
  · have hlen : 11 ≤ raw.length := of_decide_eq_true h
    omega

/-! ### Flags -/

/-- An uplink block-ID, on its unsigned value (R105). -/
theorem isUplink_eq (b : Byte) : isUplink b = decide (64 ≤ b.toNat ∨ b.toNat = 0) := by
  rw [isUplink, Bool.decide_or, decide_eq_decide.2 (BitVec.toNat_eq (x := b) (y := 0#8))]
  rfl

/-- A flag follows its source byte where that is present, and keeps its value where it is absent (R213). -/
theorem setIf_isSome_map {f : Byte → Bool} {src : Option Byte} {old : Option Bool} :
    (∀ b, src = some b → setIf src.isSome (src.map f) old = some (f b)) ∧
      (src = none → setIf src.isSome (src.map f) old = old) :=
  ⟨fun b h => by rw [h]; rfl, fun h => by rw [h]; rfl⟩

/-- Settles O33: each flag is set from its own byte. -/
theorem bpFlagsDerivesTheFlags : Obligations.BpFlagsDerivesTheFlags := by
  intro s c k hk
  obtain ⟨hup, hupNone⟩ := setIf_isSome_map (f := isUplink) (src := k.fda.blk.bid) (old := k.fda.blk.up)
  obtain ⟨hmb, hmbNone⟩ := setIf_isSome_map (f := isMultiblock s.cfg.chars) (src := k.fda.blk.suffix) (old := k.fda.blk.mb)
  exact ⟨_, _, updateChannel_some c s _ k hk, fun b hb => (hup b hb).trans (congrArg some (isUplink_eq b)), hupNone, hmb,
    hmbNone⟩

/-! ### Optional fields and sub-label -/

/-- Settles O34: each guard of R214 and R215 says that the last byte of its field exists. -/
theorem optionalFieldsByDirection : Obligations.OptionalFieldsByDirection := by
  intro s c k hk hmsn hflight htext
  dsimp only
  have hdown : exec (.bpDown c) s = _ := updateChannel_some c s _ k hk
  have hup : exec (.bpUp c) s = _ := updateChannel_some c s _ k hk
  simp only [parserStep, AcarsBlock.down, AcarsBlock.uplink, hmsn, hflight, htext] at hdown hup
  refine ⟨⟨_, _, _, hdown, isSome_setIf_none _ _, bytes_of_setIf_slice fun h => ?_, isSome_setIf_none _ _,
    bytes_of_setIf_slice fun h => ?_, isSome_setIf_none _ _, bytes_of_setIf_slice fun h => ?_⟩,
    ⟨_, by simpa only [hmsn, hflight] using hup, isSome_setIf_none _ _, bytes_of_setIf_slice fun h => ?_⟩⟩
  all_goals
    have hlen := of_decide_eq_true h
    omega

/-- Settles O35: the sub-label is guarded by the label and by the offset of its last byte (R216). -/
theorem bpSublabelReadsH1Only : Obligations.BpSublabelReadsH1Only := by
  intro s c k hk hsub
  dsimp only
  have hexec : exec (.bpSublabel c) s = _ := updateChannel_some c s _ k hk
  simp only [parserStep, AcarsBlock.subLabel, hsub] at hexec
  refine ⟨_, hexec, isSome_setIf_none _ _, bytes_of_setIf_slice fun h => ?_⟩
  have hlen : 26 ≤ k.fda.blk.raw.length := of_decide_eq_true (Bool.and_eq_true_iff.1 h).2
  omega

end Sys2Proof.Machine
end

section
/-! `BP.PARSE` (spec/43_block_parser.md R210, R211, R218 to R220; spec/60_exceptions.md R264): the whole parse as the sequence
of its steps, on the bytes below the length alone. -/

namespace Sys2Proof.Machine

variable {c : Nat} {s : State} {k : Channel} {cc : ControlChars} {b : AcarsBlock}

/-! ### The three ways through step 3 -/

theorem AcarsBlock.optional_of_downlink (hdelim : b.delim = some cc.stx) (hup : b.up = some false) :
    b.optional cc = b.down :=
  (if_pos hdelim).trans (if_pos hup)

theorem AcarsBlock.optional_of_not_downlink (hdelim : b.delim = some cc.stx) (hup : b.up ≠ some false) :
    b.optional cc = b.uplink :=
  (if_pos hdelim).trans (if_neg hup)

theorem AcarsBlock.optional_of_no_text (hdelim : b.delim ≠ some cc.stx) : b.optional cc = b :=
  if_neg hdelim

/-- Step 3 sets message number, flight and text alone (R214, R215). -/
theorem AcarsBlock.optional_eq_with (cc : ControlChars) (b : AcarsBlock) :
    ∃ msn flight text, b.optional cc = { b with msn := msn, flight := flight, text := text } := by
  by_cases hdelim : b.delim = some cc.stx
  · by_cases hup : b.up = some false
    · exact ⟨_, _, _, optional_of_downlink hdelim hup⟩
    · exact ⟨b.msn, b.flight, _, optional_of_not_downlink hdelim hup⟩
  · exact ⟨b.msn, b.flight, b.text, optional_of_no_text hdelim⟩

/-- The whole parse keeps the raw bytes, and the delimiter and the direction that its first two steps find. -/
theorem parseBlock_keeps (cc : ControlChars) (raw : List Byte) :
    (parseBlock cc raw).raw = raw ∧ (parseBlock cc raw).delim = ((AcarsBlock.ofRaw raw).fixed.flags cc).delim ∧
      (parseBlock cc raw).up = ((AcarsBlock.ofRaw raw).fixed.flags cc).up := by
  obtain ⟨msn, flight, text, h⟩ := ((AcarsBlock.ofRaw raw).fixed.flags cc).optional_eq_with cc
  rw [parseBlock, h]
  exact ⟨rfl, rfl, rfl⟩

/-! ### The sequence of the steps -/

/-- The operation of step 3, if the block has one (R211). -/
def optionalOps (cc : ControlChars) (c : Nat) (b : AcarsBlock) : List Instr :=
  if b.delim = some cc.stx then [if b.up = some false then .bpDown c else .bpUp c] else []

/-- Step 3 as an operation, or none, makes of the block what the pure parser does. -/
theorem runOps_optionalOps (hk : s.channels[c]? = some k) :
    ∃ pos, runOps (optionalOps s.cfg.chars c k.fda.blk) s =
      .next (s.putChannel c { k with fda := { k.fda with blk := k.fda.blk.optional s.cfg.chars, pos := pos } }) := by
  by_cases hdelim : k.fda.blk.delim = some s.cfg.chars.stx
  · by_cases hup : k.fda.blk.up = some false
    · rw [optionalOps, if_pos hdelim, if_pos hup, runOps_singleton, AcarsBlock.optional_of_downlink hdelim hup]
      exact ⟨_, updateChannel_some c s _ k hk⟩
    · rw [optionalOps, if_pos hdelim, if_neg hup, runOps_singleton, AcarsBlock.optional_of_not_downlink hdelim hup]
      exact ⟨_, updateChannel_some c s _ k hk⟩
  · rw [optionalOps, if_neg hdelim, runOps_nil, AcarsBlock.optional_of_no_text hdelim]
    exact ⟨k.fda.pos, by rw [putChannel_of_channel hk]⟩

/-- The four steps of R211 on a fresh block make the parsed block of it. -/
theorem runOps_parserSteps (hk : s.channels[c]? = some k) {raw : List Byte} (hblk : k.fda.blk = AcarsBlock.ofRaw raw) :
    runOps ([.bpFixed c, .bpFlags c] ++ optionalOps s.cfg.chars c (parseBlock s.cfg.chars raw) ++ [.bpSublabel c]) s =
      .next (s.putChannel c { k with fda := { k.fda with blk := parseBlock s.cfg.chars raw, pos := .build } }) := by
  have put := fun k' => putChannel_self s c k k' hk
  obtain ⟨-, hdelim, hup⟩ := parseBlock_keeps s.cfg.chars raw
  have hops : optionalOps s.cfg.chars c (parseBlock s.cfg.chars raw) =
      optionalOps s.cfg.chars c ((AcarsBlock.ofRaw raw).fixed.flags s.cfg.chars) := by
    rw [optionalOps, optionalOps, hdelim, hup]
  have hfirst : runOps [.bpFixed c, .bpFlags c] s =
      .next (s.putChannel c
        { k with fda := { k.fda with blk := (AcarsBlock.ofRaw raw).fixed.flags s.cfg.chars, pos := .opt } }) := by
    rw [runOps_cons (.bpFixed c) _ _ _ (updateChannel_some c _ _ k hk), runOps_singleton, ← hblk]
    refine (updateChannel_some c _ _ _ (put _)).trans ?_
    rw [putChannel_putChannel]
    rfl
  obtain ⟨pos, hoptional⟩ := runOps_optionalOps (put
    { k with fda := { k.fda with blk := (AcarsBlock.ofRaw raw).fixed.flags s.cfg.chars, pos := .opt } })
  rw [putChannel_putChannel] at hoptional
  rw [runOps_append _ _ _ _ ((runOps_append _ _ _ _ hfirst).trans (hops ▸ hoptional)), runOps_singleton]
  refine (updateChannel_some c _ _ _ (put _)).trans ?_
  rw [putChannel_putChannel]
  rfl

/-! ### The event -/

/-- The four cases of R264. -/
theorem AcarsBlock.isShort_iff (cc : ControlChars) (b : AcarsBlock) :
    b.isShort cc = true ↔
      b.raw.length < 13 ∨ (b.delim = some cc.stx ∧ b.up = some false ∧ b.raw.length ≤ 25) ∨
        (b.delim = some cc.stx ∧ b.up = some true ∧ b.raw.length ≤ 15) ∨ (b.label = some labelH1 ∧ b.raw.length < 26) := by
  simp only [isShort, Bool.or_eq_true, Bool.and_eq_true, decide_eq_true_eq, or_assoc, and_assoc]

/-! ### The raw bytes -/

theorem Memory.getElem?_readRange {m : Memory} {n i : Nat} (hi : i < n) : (m.readRange n)[i]? = some (m.read i) := by
  simp [Memory.readRange, hi]

/-- The raw bytes are those below the length. -/
theorem Memory.readRange_congr {m m' : Memory} {n : Nat} (h : ∀ i < n, m.read i = m'.read i) :
    m.readRange n = m'.readRange n :=
  List.map_congr_left fun i hi => h i (List.mem_range.1 hi)

/-- Settles O31: `BP.PARSE` in closed form is the four steps on the bytes below the length, and the event of its short block. -/
theorem bpParseReadsTheBlock : Obligations.BpParseReadsTheBlock := by
  intro s c k hk hlen
  obtain ⟨hraw, -, -⟩ := parseBlock_keeps s.cfg.chars (k.fd.buf.readRange k.fd.len)
  have hshort := (parseBlock s.cfg.chars (k.fd.buf.readRange k.fd.len)).isShort_iff s.cfg.chars
  rw [hraw, Memory.length_readRange] at hshort
  refine ⟨k.fd.buf.readRange k.fd.len, _, _, Memory.length_readRange _ _, fun i => Memory.getElem?_readRange, hraw, rfl, ?_,
    fun h => if_pos (hshort.2 h), fun h => if_neg (mt hshort.1 h), execBpParse_some c s k hk hlen⟩
  refine (runOps_parserSteps (putChannel_self s c k _ hk) rfl).trans ?_
  rw [putChannel_putChannel]
  rfl

/-- Settles O36: the block that `BP.PARSE` leaves is a function of the bytes below the length. -/
theorem parserIsPure : Obligations.ParserIsPure := by
  intro s₁ s₂ c₁ c₂ k₁ k₂ hk₁ hk₂ hchars hlen₁ hlen hbytes
  refine ⟨_, _, _, _, execBpParse_some c₁ s₁ k₁ hk₁ hlen₁, execBpParse_some c₂ s₂ k₂ hk₂ (hlen ▸ hlen₁),
    channel_raiseIf_putChannel hk₁, channel_raiseIf_putChannel hk₂, ?_⟩
  show parseBlock s₁.cfg.chars (k₁.fd.buf.readRange k₁.fd.len) = parseBlock s₂.cfg.chars (k₂.fd.buf.readRange k₂.fd.len)
  rw [Memory.readRange_congr hbytes, hchars, hlen]

end Sys2Proof.Machine
end

section
/-! The parser's invariant (spec/43_block_parser.md R210, R211; spec/44_queues_dispatch.md R243): what each operation of `FDA[c]`
that a step can run makes of the block and the frame in flight. -/

namespace Sys2Proof.Machine

variable {c : Nat} {s t : State} {k k' : Channel} {cc : ControlChars}

/-! ### The invariant of one channel -/

/-- What the invariant asks of a channel at position `pos`. -/
def ParsedTo (cc : ControlChars) (k : Channel) (pos : FdaPos) : Prop :=
  match pos with
  | .fixed => k.fda.blk = AcarsBlock.ofRaw k.rawBlock
  | .flags => k.fda.blk = (AcarsBlock.ofRaw k.rawBlock).fixed
  | .opt => k.fda.blk = (AcarsBlock.ofRaw k.rawBlock).fixed.flags cc
  | .sublabel => k.fda.blk = ((AcarsBlock.ofRaw k.rawBlock).fixed.flags cc).optional cc
  | .build => k.fda.blk = parseBlock cc k.rawBlock
  | .push => k.fda.frame = buildFrame k.fd (parseBlock cc k.rawBlock)
  | _ => True

theorem ParseChannelInv.of_pos (h : ParsedTo cc k k.fda.pos) : ParseChannelInv cc k := by
  constructor <;> intro hp <;> rwa [hp] at h

/-- The invariant reads `FD` and the flight of `FDA[c]` alone. -/
theorem ParseChannelInv.congr (h : ParseChannelInv cc k) (hfd : k'.fd = k.fd) (hfda : k'.fda = k.fda) :
    ParseChannelInv cc k' := by
  constructor <;> simp only [Channel.rawBlock, hfd, hfda]
  exacts [h.fixed, h.flags, h.opt, h.sublabel, h.build, h.push]

/-- Channel `c` meets the invariant. -/
def ParsesAt (c : Nat) (t : State) : Prop :=
  ∃ k', t.channels[c]? = some k' ∧ ParseChannelInv t.cfg.chars k'

/-- An operation that replaces its channel, whatever it adds to the trace. -/
theorem updateChannel_parses {ev : List Event} {f : Channel → Channel} (hk : s.channels[c]? = some k)
    (h : updateChannel c { s with events := ev } f = .next t) (hf : ParsedTo s.cfg.chars (f k) (f k).fda.pos) :
    ParsesAt c t := by
  obtain ⟨k', hk', rfl⟩ := updateChannel_next c _ t f h
  obtain rfl : k = k' := Option.some.inj (hk.symm.trans hk')
  exact ⟨f k, putChannel_self s c k (f k) hk, .of_pos hf⟩

/-! ### The parser's operations -/

/-- Step 3 makes of the block what the pure parser does, whichever operation it is. -/
theorem exec_optional_parses {f : AcarsBlock → AcarsBlock} (hk : s.channels[c]? = some k) (h : ParseChannelInv s.cfg.chars k)
    (hp : k.fda.pos = .opt) (hf : k.fda.blk.optional s.cfg.chars = f k.fda.blk)
    (he : updateChannel c s (parserStep f .sublabel) = .next t) : ParsesAt c t :=
  updateChannel_parses (ev := s.events) hk he (hf.symm.trans (congrArg (AcarsBlock.optional s.cfg.chars) (h.opt hp)))

/-- `BP.SUBLABEL` ends the parse, after step 3 or where there is none (R211, R216). -/
theorem execBpSublabel_parses (hk : s.channels[c]? = some k) (h : ParseChannelInv s.cfg.chars k)
    (hp : k.fda.pos = .sublabel ∨ (k.fda.pos = .opt ∧ k.fda.blk.delim ≠ some s.cfg.chars.stx))
    (he : execBpSublabel c s = .next t) : ParsesAt c t := by
  have hblk : k.fda.blk = ((AcarsBlock.ofRaw k.rawBlock).fixed.flags s.cfg.chars).optional s.cfg.chars := by
    rcases hp with hp | ⟨hp, hdelim⟩
    · exact h.sublabel hp
    · rw [← h.opt hp, AcarsBlock.optional_of_no_text hdelim]
  exact updateChannel_parses (ev := s.events) hk he (congrArg AcarsBlock.subLabel hblk)

/-- `FA.BUILD` builds the frame from the whole parse (R243). -/
theorem execFaBuild_parses (hk : s.channels[c]? = some k) (h : ParseChannelInv s.cfg.chars k) (hp : k.fda.pos = .build)
    (he : execFaBuild c s = .next t) : ParsesAt c t :=
  updateChannel_parses (ev := s.events) hk he (congrArg (buildFrame k.fd) (h.build hp))

/-- `BP.PARSE` leaves the whole parse in flight (R211). -/
theorem execBpParse_parses (hk : s.channels[c]? = some k) (he : execBpParse c s = .next t) :
    ParsesAt c t := by
  by_cases hl : k.fd.len ≤ Config.blkMax
  · rw [execBpParse_some c s k hk hl] at he
    cases he
    exact ⟨_, channel_raiseIf_putChannel hk, .of_pos rfl⟩
  · rw [execBpParse, onChannel_some c s _ k hk, if_neg hl] at he
    cases he

/-! ### The operations that lead to the parser and away from it -/

/-- `FD.DONE` from its push on: the decoder seeks again, or the frame stays in flight (R193). -/
theorem dispatched_parses {k₀ : Channel} (hk : s.channels[c]? = some k₀)
    (h : ParseChannelInv s.cfg.chars k) :
    ParsesAt c (dispatched c s k) := by
  rcases lt_or_ge s.oq.length s.cfg.oqCap with hroom | hfull
  · rw [dispatched_room hroom]
    exact ⟨stageMiss s.cfg k, putChannel_self s c k₀ _ hk, .of_pos trivial⟩
  · rw [dispatched_full hfull]
    exact ⟨k, putChannel_self s c k₀ k hk, h⟩

/-- `FD.DONE`: resumed at its push, resumed after it, or whole (R193). -/
theorem execFdDone_parses (he : execFdDone c s = .next t) (hk : s.channels[c]? = some k)
    (h : ParseChannelInv s.cfg.chars k) : ParsesAt c t := by
  by_cases hp : k.fda.pos = .push
  · rw [execFdDone_held c s k hk hp] at he
    cases he
    exact dispatched_parses hk h
  by_cases hr : k.fda.pos = .resync
  · rw [execFdDone_resync hk hr] at he
    cases he
    exact ⟨_, putChannel_self s c k _ hk, .of_pos trivial⟩
  by_cases hl : k.fd.len ≤ Config.blkMax
  · rw [execFdDone_some c s k hk hp hr hl] at he
    cases he
    exact dispatched_parses hk (.of_pos rfl : ParseChannelInv s.cfg.chars (built s.cfg.chars k))
  · rw [execFdDone_fault hk hp hr hl] at he
    cases he

/-- The text operations go back to `BQ.POP` (R188, R189). -/
theorem storeCharacter_parses {ch : Byte} {st : Stage} (he : storeCharacter c s ch st = .next t) : ParsesAt c t := by
  obtain ⟨k, hk, -, rfl⟩ := storeCharacter_next c s t ch st he
  exact ⟨_, putChannel_self s c k _ hk, .of_pos trivial⟩

/-- The operations of `FDA[c]` below `BQ.POP` and `FD.BIT`, each at the position at which it can run. -/
theorem exec_below_parses {i : Instr} (hi : i.ofFda = some c) (hbit : i ≠ .fdBit c) (hpop : i ≠ .bqPop c)
    (he : exec i s = .next t) (hr : Runs s i) (h : ∀ k, s.channels[c]? = some k → ParseChannelInv s.cfg.chars k) :
    ParsesAt c t := by
  cases hr <;> simp only [Instr.ofFda, Instr.ofCd, Instr.channel?, Option.isSome_some, Option.isSome_none,
    Bool.false_eq_true, if_true, if_false, Option.some.injEq, reduceCtorEq] at hi <;>
    subst hi
  case fdBit => exact absurd rfl hbit
  case bqPop => exact absurd rfl hpop
  case bpParse k hk hp => exact execBpParse_parses hk he
  case bpFixed k hk hp =>
    exact updateChannel_parses (ev := s.events) hk he (congrArg AcarsBlock.fixed ((h k hk).fixed hp))
  case bpFlags k hk hp =>
    exact updateChannel_parses (ev := s.events) hk he (congrArg (AcarsBlock.flags s.cfg.chars) ((h k hk).flags hp))
  case bpDown k hk hp hd hu => exact exec_optional_parses hk (h k hk) hp (AcarsBlock.optional_of_downlink hd hu) he
  case bpUp k hk hp hd hu =>
    exact exec_optional_parses hk (h k hk) hp (AcarsBlock.optional_of_not_downlink hd (by simp [hu])) he
  case bpSublabel k hk hp => exact execBpSublabel_parses hk (h k hk) hp he
  case faBuild k hk hp => exact execFaBuild_parses hk (h k hk) hp he
  case fdDone k hk hp => exact execFdDone_parses he hk (h k hk)
  case fdCrc2 k hk hp hs =>
    rw [show exec (.fdCrc2 _ _) s = _ from execFdCrc2_some _ _ s k hk] at he
    exact execFdDone_parses he (putChannel_self s _ k _ hk) (.of_pos trivial)
  case fdSohHit k hk hp hs hr =>
    rw [show exec (.fdSohHit _) s = _ from onChannel_some _ s _ k hk] at he
    cases he
    exact ⟨_, putChannel_self s _ k _ hk, .of_pos trivial⟩
  case fdTxtEndEtx | fdTxtEndEtb | fdTxtData => exact storeCharacter_parses he
  case fdSyn2Miss k hk _ _ _ | fdSohMiss k hk _ _ _ | fdTxtFull k hk _ _ _ _ _ =>
    exact updateChannel_parses hk he trivial
  case fdSyn1Hit k hk _ _ _ | fdSyn1Miss k hk _ _ _ | fdSyn2Hit k hk _ _ _ | fdCrc1 k hk _ _ =>
    exact updateChannel_parses (ev := s.events) hk he trivial

/-- `FD.BIT`: the byte goes on, or the stage operation that it selects runs (R181). -/
theorem execFdBit_parses (he : execFdBit c s = .next t) (hk : s.channels[c]? = some k) : ParsesAt c t := by
  rw [execFdBit_some c s k hk] at he
  have put := fun k' => putChannel_self s c k k' hk
  split_ifs at he
  · split at he
    · have hd := ‹decodeByte _ _ _ _ _ = _›
      obtain ⟨hi, hbit, hpop⟩ := ofFda_of_decodeByte hd
      refine exec_below_parses hi hbit hpop he (runs_byte _ c _ _ (put _) rfl hd) fun x hx => ?_
      obtain rfl : _ = x := Option.some.inj ((put _).symm.trans hx)
      exact .of_pos trivial
    · cases he
  · cases he
    exact ⟨_, put _, .of_pos trivial⟩

/-- `BQ.POP`: held, or `FD.BIT` on the decision it takes (R242). -/
theorem execBqPop_parses (hk : s.channels[c]? = some k) (h : ParseChannelInv s.cfg.chars k)
    (he : execBqPop c s = .next t) : ParsesAt c t := by
  cases hq : k.bq with
  | nil =>
    rw [execBqPop_nil hk hq] at he
    cases he
    exact ⟨k, hk, h⟩
  | cons d q =>
    rw [execBqPop_some c s k d q hk hq] at he
    exact execFdBit_parses he (putChannel_self s c k _ hk)

/-- An operation of `FDA[c]` that a step runs. -/
theorem exec_ofFda_parses {i : Instr} (hi : i.ofFda = some c) (hr : Runs s i) (hk : s.channels[c]? = some k)
    (h : ParseChannelInv s.cfg.chars k) (he : exec i s = .next t) : ParsesAt c t := by
  by_cases hbit : i = .fdBit c
  · subst hbit
    exact execFdBit_parses he hk
  by_cases hpop : i = .bqPop c
  · subst hpop
    exact execBqPop_parses hk h he
  · exact exec_below_parses hi hbit hpop he hr fun x hx => Option.some.inj (hk.symm.trans hx) ▸ h

/-! ### Every effect of an operation -/

/-- The block in flight and the frame held change by the operations of `FDA[c]` alone, a reset apart (R21, R290). -/
theorem ParseInv.effect {i : Instr} (h : ParseInv s) (he : Effect s i t) : ParseInv t := by
  intro hphase
  cases he with
  | held | deliver | feedEos => exact h hphase
  | cd _ c _ hi hr he =>
    obtain ⟨k, k', ev, hk, hwork, rfl⟩ := exec_ofCd hi he
    intro x hx
    rcases mem_putChannel s c k' x hx with rfl | hx
    · exact (h hphase k (List.mem_of_getElem? hk)).congr hwork.owned.fd hwork.owned.fda
    · exact h hphase x hx
  | fda _ c _ hi hr he =>
    obtain ⟨k, k', ev, oq, n, hk, -, -, rfl⟩ := exec_ofFda hi he
    intro x hx
    rcases mem_putChannel s c k' x hx with rfl | hx
    · obtain ⟨k₁, hk₁, hparse⟩ := exec_ofFda_parses hi hr hk (h hphase k (List.mem_of_getElem? hk)) he
      obtain rfl : x = k₁ := Option.some.inj ((putChannel_self s c k x hk).symm.trans hk₁)
      exact hparse
    · exact h hphase x hx
  | feedBlock b hp =>
    intro x hx
    obtain ⟨k, hk, rfl⟩ := List.mem_map.1 hx
    exact (h hp k hk).congr rfl rfl
  | sysReset =>
    intro x hx
    obtain ⟨k, -, n, rfl⟩ := mem_resetChannels s x hx
    exact .of_pos trivial
  | sysConfig => exact absurd rfl hphase

/-- Settles O37: by the effects of a step; each operation of the parser does to the block in flight what the pure parser does
next, and every other operation of `FDA[c]` leaves the parser, or leaves the whole parse or the frame built from it. -/
theorem parserInvariantIsKept : Obligations.ParserInvariantIsKept :=
  fun _ _ h hstep => step_keeps (fun _ _ _ _ ht => ht) (fun _ _ he => h.effect he) hstep

end Sys2Proof.Machine
end

section
/-! The output queue, dispatch and the feed (spec/44_queues_dispatch.md R243 to R247; spec/10_state.md R43;
spec/60_exceptions.md R268, R269): each operation in each of its cases, and what end-of-stream leaves possible. -/

namespace Sys2Proof.Machine

variable {s t : State}

/-! ### Frame assembly and dispatch -/

/-- Settles O40: `FA.BUILD` touches its channel alone; `OQ.PUSH` by its two cases. -/
theorem frameIsBuiltAndPushedOrHeld : Obligations.FrameIsBuiltAndPushedOrHeld :=
  fun s c k hk => ⟨updateChannel_some c s _ k hk, execOqPush_room hk, execOqPush_full hk⟩

/-- The oldest frame is emitted to a sink that is ready (R245). -/
theorem execDispDeliver_ready {f : AcarsFrame} {rest : List AcarsFrame} (hq : s.oq = f :: rest)
    (hready : s.sinkReady = true) :
    execDispDeliver s = .next { s with oq := rest, frameOut := s.frameOut ++ [f] } := by
  rw [execDispDeliver, (pop_eq_some _ _ _).2 hq]
  exact if_pos hready

/-- Delivery is held while no frame waits or the sink is not ready (R245). -/
theorem execDispDeliver_held (h : s.oq = [] ∨ s.sinkReady = false) : execDispDeliver s = .next s := by
  unfold execDispDeliver
  split
  · next f q hpop =>
    have hne : s.oq ≠ [] := by simp [(pop_eq_some _ _ _).1 hpop]
    exact if_neg (by simp [h.resolve_left hne])
  · rfl

/-- Settles O41: by whether a frame waits and the sink is ready. -/
theorem dispDeliverEmitsTheOldestFrame : Obligations.DispDeliverEmitsTheOldestFrame :=
  fun _ => ⟨fun _ _ => execDispDeliver_ready, execDispDeliver_held⟩

/-! ### The guard of the feed -/

/-- The feed is not enabled while a `CD[c]` is in a block, and after end-of-stream (R246, R247). -/
theorem feedGuard_iff :
    (s.eos || !s.feedFree) = true ↔ (∃ k ∈ s.channels, k.cd.pos ≠ .idle) ∨ s.eos = true := by
  simp [State.feedFree, or_comm]

/-- Before end-of-stream the feed is enabled between blocks. -/
theorem not_feedGuard (hidle : ∀ k ∈ s.channels, k.cd.pos = .idle) (he : s.eos = false) :
    ¬(s.eos || !s.feedFree) = true := by
  simp [he, (feedFree_iff s).2 hidle]

/-! ### `FEED.BLOCK` and `FEED.EOS` -/

/-- A block waits on its port while the feed is not enabled (R246). -/
theorem execFeedBlock_held (b : Block) (h : (∃ k ∈ s.channels, k.cd.pos ≠ .idle) ∨ s.eos = true) :
    execFeedBlock b s = .next s :=
  if_pos (feedGuard_iff.2 h)

/-- A block of another length is refused (R246, R268). -/
theorem execFeedBlock_refused {b : Block} (hidle : ∀ k ∈ s.channels, k.cd.pos = .idle) (he : s.eos = false)
    (hlen : b.length ≠ s.cfg.blockLen) : execFeedBlock b s = .refused .cvBlockLen :=
  (if_neg (not_feedGuard hidle he)).trans (if_pos hlen)

/-- A block is delivered to every channel at once (R246). -/
theorem execFeedBlock_delivered {b : Block} (hidle : ∀ k ∈ s.channels, k.cd.pos = .idle) (he : s.eos = false)
    (hlen : b.length = s.cfg.blockLen) :
    execFeedBlock b s =
      .next
        { s with
          blk := b, channels := s.channels.map (·.cdGoto .block), sampleIn := s.sampleIn.tail, phase := .running } :=
  (if_neg (not_feedGuard hidle he)).trans (if_neg (not_not.2 hlen))

/-- The pulse waits on its port while the feed is not enabled (R247). -/
theorem execFeedEos_held (h : (∃ k ∈ s.channels, k.cd.pos ≠ .idle) ∨ s.eos = true) : execFeedEos s = .next s :=
  if_pos (feedGuard_iff.2 h)

/-- The pulse ends the run between blocks and is recorded (R247, R269). -/
theorem execFeedEos_ends (hidle : ∀ k ∈ s.channels, k.cd.pos = .idle) (he : s.eos = false) :
    execFeedEos s = .next ({ s with eos := true, eosIn := false }.raise .feedEos) :=
  if_neg (not_feedGuard hidle he)

/-- Settles O42: by the guard of the feed, then by the length of the block. -/
theorem feedBlockDeliversToEveryChannel : Obligations.FeedBlockDeliversToEveryChannel :=
  fun _ b => ⟨execFeedBlock_held b, execFeedBlock_refused, execFeedBlock_delivered⟩

/-! ### After end-of-stream -/

/-- What end-of-stream makes final (R43): the bit stays set, and no block is taken from the port. -/
structure EosKept (s t : State) : Prop where
  eos : t.eos = true
  blk : t.blk = s.blk
  sampleIn : t.sampleIn = s.sampleIn

/-- After end-of-stream no operation but a reset has an effect on the bit or on the blocks: the two operations of the feed
have none, and no other writes them. -/
theorem Effect.eosKept {i : Instr} (h : Effect s i t) (hi : i ≠ .sysReset) (he : s.eos = true) : EosKept s t := by
  cases h with
  | held | deliver | sysConfig => exact ⟨he, rfl, rfl⟩
  | cd _ c _ hcd hr hexec =>
    obtain ⟨_, _, _, _, _, rfl⟩ := exec_ofCd hcd hexec
    exact ⟨he, rfl, rfl⟩
  | fda _ c _ hfda hr hexec =>
    obtain ⟨_, _, _, _, _, _, _, _, rfl⟩ := exec_ofFda hfda hexec
    exact ⟨he, rfl, rfl⟩
  | feedBlock b hp hopen | feedEos hopen => simp [he] at hopen
  | sysReset => exact absurd rfl hi

/-- No step in a turn other than that of the reset port undoes end-of-stream. -/
theorem step_eosKept {s' : State} (h : step s = .next s') (he : s.eos = true) (ht : s.turn ≠ .reset) : EosKept s s' := by
  rcases step_effect h with ⟨b, rfl⟩ | ⟨i, t, hown, heffect, rfl⟩
  · exact ⟨he, rfl, rfl⟩
  · obtain ⟨heos, hblk, hin⟩ := heffect.eosKept (fun hi => ht (hi ▸ hown).eq_reset) he
    exact ⟨heos, hblk, hin⟩

/-- Settles O43: by the two cases of `FEED.EOS`, and by what a step can do after end-of-stream. -/
theorem endOfStreamIsFinal : Obligations.EndOfStreamIsFinal := by
  refine ⟨fun _ => execFeedEos_ends, fun _ => execFeedEos_held, fun s s' hstep he ht => ?_⟩
  obtain ⟨heos, hblk, hin⟩ := step_eosKept hstep he ht
  exact ⟨heos, hblk, hin⟩

end Sys2Proof.Machine
end

section
/-! Bit polarity (spec/70_reset_and_hazards.md R300; spec/41_demodulator.md R158): what the demapper makes of `−u`. -/

namespace Sys2Proof.Machine

variable {row : DemapRow} {u : Cplx}

/-- The decision component of `−u` is that of `u`, negated. -/
theorem demapDecision_neg (row : DemapRow) (u : Cplx) :
    demapDecision row ⟨u.re.neg, u.im.neg⟩ = (demapDecision row u).neg := by
  unfold demapDecision
  split_ifs <;> rfl

/-- So is the error component. -/
theorem demapOther_neg (row : DemapRow) (u : Cplx) :
    demapOther row ⟨u.re.neg, u.im.neg⟩ = (demapOther row u).neg := by
  unfold demapOther
  split_ifs <;> rfl

/-- Where the decision component is not 0, the error term is its sign times the error component, negated where the row says so
(R158).  Only the sign test asks for a finite value. -/
theorem toReal_demapErr_eq_sign_mul (hvo : (demapDecision row u).finite = true) (h0 : (demapDecision row u).toReal ≠ 0) :
    (demapErr Numerics.exact row u).toReal =
      SignType.sign (demapDecision row u).toReal * (negIf Numerics.exact row.negErr (demapOther row u)).toReal := by
  simp only [demapErr, Numerics.isNonneg_exact _ hvo]
  rcases lt_or_gt_of_ne h0 with hneg | hpos
  · rw [if_neg hneg.not_ge, sign_neg hneg]
    cases row.negErr <;> simp [toReal_negIf]
  · simp [if_pos hpos.le, sign_pos hpos]

/-- The soft value of `−u`. -/
theorem toReal_demapSoft_neg (row : DemapRow) (u : Cplx) :
    (demapSoft Numerics.exact row ⟨u.re.neg, u.im.neg⟩).toReal = -(demapSoft Numerics.exact row u).toReal := by
  rw [toReal_demapSoft, toReal_demapSoft, demapDecision_neg, Scalar.toReal_neg]
  split_ifs <;> rfl

/-- The error term of `−u`: both factors change their sign. -/
theorem toReal_demapErr_neg (hvo : (demapDecision row u).finite = true) (h0 : (demapDecision row u).toReal ≠ 0) :
    (demapErr Numerics.exact row ⟨u.re.neg, u.im.neg⟩).toReal = (demapErr Numerics.exact row u).toReal := by
  have hother : (negIf Numerics.exact row.negErr (demapOther row u).neg).toReal =
      -(negIf Numerics.exact row.negErr (demapOther row u)).toReal := by
    rw [toReal_negIf, toReal_negIf, Scalar.toReal_neg]
    split_ifs <;> rfl
  rw [toReal_demapErr_eq_sign_mul hvo h0, toReal_demapErr_eq_sign_mul] <;> rw [demapDecision_neg]
  · rw [demapOther_neg, hother, Scalar.toReal_neg, Left.sign_neg, SignType.coe_neg, neg_mul_neg]
  · rwa [Scalar.finite_neg]
  · rwa [Scalar.toReal_neg, neg_ne_zero]

/-- Values of opposite sign have opposite hard bits (R95). -/
theorem hardBit_of_toReal_neg {x y : Scalar} (hx : x.finite = true) (hy : y.finite = true) (hneg : y.toReal = -x.toReal)
    (h0 : x.toReal ≠ 0) : hardBit Numerics.exact y = !hardBit Numerics.exact x := by
  rw [hardBit_exact hx, hardBit_exact hy, hneg, ← decide_not, decide_eq_decide, neg_pos, not_lt]
  exact ⟨le_of_lt, fun h => lt_of_le_of_ne h h0⟩

/-- Settles O18: both components of `−u` are negated; the soft value takes one of the two signs, the error term both. -/
theorem polarityNegatesSoftKeepsErr : Obligations.PolarityNegatesSoftKeepsErr := by
  intro row u hvo h0 N opposite
  have hsoft := toReal_demapSoft_neg row u
  have hsoft0 : (demapSoft N row u).toReal ≠ 0 := by
    rw [toReal_demapSoft]
    split_ifs
    exacts [neg_ne_zero.2 h0, h0]
  refine ⟨hsoft, toReal_demapErr_neg hvo h0, hardBit_of_toReal_neg ?_ ?_ hsoft hsoft0⟩
  · rwa [demapSoft, finite_negIf]
  · rwa [demapSoft, finite_negIf, demapDecision_neg, Scalar.finite_neg]

end Sys2Proof.Machine
end

section
/-! Configuration (spec/70_reset_and_hazards.md R292; spec/00_scope.md R5, R6; spec/20_memory.md R61, R63): which records
`SYS.CONFIG` takes, and the tables it computes. -/

namespace Sys2Proof

/-- What R6 asks of the control characters. -/
theorem ControlChars.admitted_iff (cc : ControlChars) :
    cc.admitted = true ↔
      (∀ b ∈ [cc.syn, cc.soh, cc.stx, cc.etx, cc.etb], b.toNat < 0x80) ∧
        [cc.syn, cc.soh, cc.stx, cc.etx, cc.etb].Nodup := by
  simp only [admitted, Bool.and_eq_true, List.all_eq_true, decide_eq_true_eq]

end Sys2Proof

namespace Sys2Proof.Params

variable {p : Params}

/-! ### Admission -/

/-- The shape of R5 over exact reals. -/
theorem shaped_iff (hp : p.num = .exact) :
    p.shaped = true ↔
      p.ft.length = p.nchan ∧ p.fs.finite = true ∧ p.fc.finite = true ∧ p.f0.finite = true ∧
        (∀ x ∈ p.ft, x.finite = true) ∧
        (∀ C, p.coefTable = some C → C.length = p.flen ∧ ∀ x ∈ C, x.finite = true) := by
  cases htable : p.coefTable <;>
    simp [shaped, numerics_exact p hp, htable, and_assoc]

/-- `W0` is a real number where `F0` and `FS` are, and `FS` is not 0. -/
theorem finite_w0 (hp : p.num = .exact) (hf0 : p.f0.finite = true) (hfs : p.fs.finite = true) (h0 : p.fs.toReal ≠ 0)
    (hdecim : 1 ≤ p.decim) : p.w0.finite = true := by
  have hfsD0 : p.fsD.toReal ≠ 0 := by
    rw [toReal_fsD hp]
    exact div_ne_zero h0 (Nat.cast_ne_zero.2 (by omega))
  rw [w0, numerics_exact p hp]
  exact Numerics.finite_div_of_ne (by simp [hf0]) (finite_fsD hp hfs hdecim) hfsD0

/-- The loop conditions of R6 are those of the reals, `W0` being one. -/
theorem loopAdmitted_iff (hp : p.num = .exact) (hw : p.w0.finite = true) :
    p.loopAdmitted = true ↔ 38 / 10000 < p.w0.toReal ∧ p.w0.toReal + 38 / 10000 < 3 * Real.pi / 2 := by
  rw [loopAdmitted, numerics_exact p hp, Bool.and_eq_true, Numerics.exact_lt, Numerics.exact_lt, Numerics.exact_add,
    Scalar.lt_exact _ _ Numerics.finite_pllg hw, Scalar.lt_exact _ _ (by simp [hw]) Numerics.finite_clkTh,
    Scalar.toReal_add, Numerics.toReal_pllg, Numerics.toReal_clkTh]

/-- The bound of R6 on the rate at the Demodulator is that of the reals. -/
theorem minRate_le_fsD_iff (hp : p.num = .exact) (hf : p.fsD.finite = true) :
    p.numerics.le p.numerics.minRate p.fsD = true ↔ 1200 ≤ p.fsD.toReal := by
  rw [numerics_exact p hp, Numerics.exact_le, Scalar.le_exact _ _ Numerics.finite_minRate hf, Numerics.toReal_minRate]

/-- Admission over exact reals: the shape of R5 makes the sample rate and `F0` real numbers, and with a positive sample rate
and `DECIM` also the derived parameters; so every comparison of R6 is that of the reals. -/
theorem admitted_iff (hp : p.num = .exact) :
    p.admitted = true ↔
      p.shaped = true ∧ 1 ≤ p.nchan ∧ 0 < p.fs.toReal ∧ 1 ≤ p.decim ∧ 1 ≤ p.blockLen ∧ p.blockLen % p.decim = 0 ∧
      p.blockLen ≤ p.loLen ∧ 1200 ≤ p.fsD.toReal ∧
      38 / 10000 < p.w0.toReal ∧ p.w0.toReal + 38 / 10000 < 3 * Real.pi / 2 ∧
      1 ≤ p.bqCap ∧ 1 ≤ p.oqCap ∧ 1 ≤ p.seekReload ∧ p.seekReload ≤ 8 ∧ p.chars.admitted = true := by
  simp only [admitted, Bool.and_eq_true, decide_eq_true_eq, and_assoc]
  refine and_congr_right fun hshaped => and_congr_right fun _ => ?_
  obtain ⟨-, hfs, -, hf0, -⟩ := (shaped_iff hp).1 hshaped
  have hrate : p.numerics.isPos p.fs = true ↔ 0 < p.fs.toReal := by
    rw [numerics_exact p hp, Numerics.isPos_exact _ hfs]
  rw [hrate]
  refine and_congr_right fun hpos => and_congr_right fun hdecim => ?_
  rw [minRate_le_fsD_iff hp (finite_fsD hp hfs hdecim), loopAdmitted_iff hp (finite_w0 hp hf0 hfs hpos.ne' hdecim),
    and_assoc]

/-! ### The tables -/

/-- An admitted record has `FLEN` coefficients, configured or computed (R5, R152). -/
theorem length_coefVector_of_admitted (ha : p.admitted = true) : p.coefVector.length = p.flen := by
  have hshaped : p.shaped = true := by
    simp only [admitted, Bool.and_eq_true] at ha
    tauto
  cases htable : p.coefTable with
  | some C =>
    rw [coefVector_of_some htable]
    simp only [shaped, htable, Bool.and_eq_true, decide_eq_true_eq] at hshaped
    exact hshaped.2.1
  | none => simp [coefVector_of_none htable]

/-- The two periods of `COEF` agree (R63). -/
theorem coefStored_periodic {i : Nat} (hi : i < p.coefVector.length) :
    p.coefStored[i]? = p.coefStored[i + p.coefVector.length]? := by
  rw [coefStored, List.getElem?_append_left hi, List.getElem?_append_right (by omega), Nat.add_sub_cancel]

theorem length_loTable (p : Params) (ft : Scalar) : (p.loTable ft).length = p.loLen := by simp [loTable]

/-- An entry of `LO[c]` as a pair of real numbers (R61). -/
theorem toReal_loEntry (hp : p.num = .exact) (ft : Scalar) (n : Nat) :
    (p.loEntry ft n).re.toReal = Real.cos (2 * Real.pi * (ft.toReal - p.fc.toReal) / p.fs.toReal * n) ∧
      (p.loEntry ft n).im.toReal = -Real.sin (2 * Real.pi * (ft.toReal - p.fc.toReal) / p.fs.toReal * n) := by
  simp [loEntry, theta, numerics_exact p hp]

end Sys2Proof.Params

namespace Sys2Proof.Machine

/-- The table of a channel of the configuration, kept or started (R61, R292). -/
theorem lo_of_configureChannels {p : Params} {old : List Channel} {c : Nat} {k : Channel} {ft : Scalar}
    (hk : (configureChannels p old)[c]? = some k) (hft : p.ft[c]? = some ft) : k.lo = p.loTable ft := by
  rw [configureChannels_of_freq p old c ft hft, Option.some.injEq] at hk
  rw [← hk]
  split <;> rfl

/-- `SYS.CONFIG` refuses a record that is not admitted (R292). -/
theorem execSysConfig_refused {s : State} {p : Params} (ha : p.admitted = false) :
    exec (.sysConfig p) s = .refused .cvConfig := by
  simp [exec, execSysConfig, ha, refuse]

/-- `SYS.CONFIG` takes a record that is admitted (R292). -/
theorem execSysConfig_taken {s : State} {p : Params} (ha : p.admitted = true) :
    exec (.sysConfig p) s =
      .next
        { s with
          cfg := p, coef := p.coefStored, channels := configureChannels p s.channels, configIn := none
          phase := .configured } :=
  if_pos ha

/-- Settles O47: admission condition by condition; the tables entry by entry; the channels as `configureChannels` leaves
them. -/
theorem configComputesTheTables : Obligations.ConfigComputesTheTables := by
  refine fun s p => ⟨fun hnum => ?admission, execSysConfig_refused, fun ha => ⟨_, execSysConfig_taken ha, rfl, ?_⟩⟩
  case admission =>
    rw [Params.admitted_iff hnum, Params.shaped_iff hnum, Params.toReal_w0 hnum, Params.toReal_fsD hnum,
      ControlChars.admitted_iff]
  have hft := length_ft_of_admitted ha
  have hlength := Params.length_coefVector_of_admitted ha
  refine ⟨?count, fun c hc => configureChannels_beyond p s.channels c (hft ▸ hc), fun c k hk => ?kept, rfl, rfl, rfl, rfl,
    hlength, fun i hi => ?periodic, fun c k ft hk hc => ?table⟩
  case count => rw [length_configureChannels, hft]
  case kept =>
    obtain ⟨lo, hlo⟩ := configureChannels_of_channel (p := p) hk
    exact ⟨_, hlo, rfl⟩
  case periodic =>
    rw [← hlength] at hi ⊢
    exact Params.coefStored_periodic hi
  case table =>
    rw [lo_of_configureChannels hk hc]
    exact ⟨Params.length_loTable p ft, fun hnum n hn =>
      ⟨p.loEntry ft n, by simp [Params.loTable, hn], Params.toReal_loEntry hnum ft n⟩⟩

end Sys2Proof.Machine
end

section
/-! Reset (spec/70_reset_and_hazards.md R290, R291; spec/00_scope.md R47): what `SYS.RESET` leaves in each channel, and the
invariants of the machine right after a configuration and a reset. -/

namespace Sys2Proof.Machine

/-! ### `SYS.RESET` -/

/-- A channel of the configuration after `SYS.RESET` (R290). -/
theorem channel_sysReset {s : State} {c : Nat} {k : Channel} (hc : c < s.cfg.nchan) (hk : s.channels[c]? = some k) :
    ((s.channels.take s.cfg.nchan).mapIdx fun i x => x.afterReset s.cfg (s.draws + i))[c]? =
      some (k.afterReset s.cfg (s.draws + c)) := by
  rw [List.getElem?_mapIdx, List.getElem?_take_of_lt hc, hk, Option.map_some]

/-- Settles O46: the elements of `Channel.afterReset`, for each channel of the configuration. -/
theorem resetInitialisesEveryElement : Obligations.ResetInitialisesEveryElement := by
  intro s
  refine ⟨_, rfl, rfl, rfl, rfl, rfl, rfl, rfl, ?_, s.cfg.numerics.zero, rfl, fun hnum => ?_, fun c k hc hk =>
    ⟨_, channel_sysReset hc hk, rfl, rfl, rfl, rfl, rfl, rfl, rfl, rfl, rfl, rfl⟩⟩
  · rw [List.length_mapIdx, List.length_take]
  · rw [Params.numerics_exact s.cfg hnum, Numerics.exact_zero]

/-! ### The invariants after a configuration and a reset -/

variable {p : Params}

/-- What holds of every channel as `SYS.CONFIG` starts it holds of every channel of the state (R292, R293). -/
theorem forall_channel_resetWith {P : Channel → Prop} (h : ∀ ft ∈ p.ft, P (Channel.reset p ft)) :
    ∀ k ∈ (State.resetWith p).channels, P k := List.forall_mem_map.2 h

theorem fdInv_resetWith (ha : p.admitted = true) : FdInv (State.resetWith p) := by
  have hseek := seekReload_of_admitted ha
  exact ⟨hseek.1, hseek.2, forall_channel_resetWith fun ft _ => .reset ft hseek⟩

/-- The Channelizer stands between blocks with an empty window. -/
theorem cdInv_resetWith (ha : p.admitted = true) : CdInv (State.resetWith p) := by
  obtain ⟨hdecim, hblock, haligned, hcovered⟩ := shape_of_admitted ha
  have hcount : (State.resetWith p).channels.length = p.nchan := by
    rw [State.resetWith, List.length_map, length_ft_of_admitted ha]
  refine ⟨hdecim, hblock, haligned, hcovered, hcount.ge, fun _ => hcount, fun c k _ hk => ?_, fun _ => ?_, ?_⟩
  · exact forall_channel_resetWith (P := fun k => k.lo.length = p.loLen) (fun ft _ => by
      simp [Channel.reset, Params.loTable]) k (List.mem_of_getElem? hk)
  · exact forall_channel_resetWith fun _ _ => rfl
  · exact forall_channel_resetWith fun _ _ => .of_idle (by simp [State.resetWith]) hdecim
      (fun _ => ⟨⟨List.length_replicate, Nat.succ_pos _⟩, rfl, Nat.zero_le _⟩) rfl rfl

theorem queueInv_resetWith (p : Params) : QueueInv (State.resetWith p) :=
  fun _ => ⟨Nat.zero_le _, forall_channel_resetWith fun _ _ => Nat.zero_le _⟩

/-- The tables are computed from the configuration (R292). -/
theorem tableInv_resetWith (ha : p.admitted = true) : TableInv (State.resetWith p) := by
  refine ⟨rfl, ?_⟩
  simp [State.resetWith, ← length_ft_of_admitted ha, Channel.reset, Function.comp_def]

/-- Every quantity in range is 0, as after `SYS.RESET`, which differs in the elements of `FD` alone. -/
theorem realInv_resetWith (p : Params) : RealInv (State.resetWith p) :=
  fun _ hnum => forall_channel_resetWith fun ft _ => { RealChannelInv.afterReset hnum (Channel.reset p ft) 0 with }

theorem loopInv_resetWith (ha : p.admitted = true) : LoopInv (State.resetWith p) := by
  refine ⟨loop_of_admitted ha, fun _ hnum => forall_channel_resetWith fun ft _ => ?_⟩
  have hzero : p.numerics.zero.toReal = 0 := by simp [Params.numerics_exact p hnum]
  have hpi := Real.pi_pos
  simp only [LoopRanges, Channel.reset, DmState.reset, hzero]
  exact ⟨le_rfl, by linarith, le_rfl, by linarith⟩

/-- Nothing is queued, emitted or yet to be delivered; the configuration and its tables are finite because it is
admitted. -/
theorem finiteInv_resetWith (hnum : p.num = .exact) (ha : p.admitted = true) : FiniteInv (State.resetWith p) where
  exact := hnum
  targets := (Params.finite_of_admitted hnum ha).targets
  queued := List.forall_mem_nil _
  output := List.forall_mem_nil _
  increment := Params.finite_w0_of_admitted hnum ha
  divisor := (shape_of_admitted ha).1
  coef := Params.finite_coefStored hnum ha
  blk := List.forall_mem_nil _
  feed := List.forall_mem_nil _
  channel := forall_channel_resetWith fun _ hft => .reset hnum (Params.finite_loTable hnum ha hft)

/-- Every decoder seeks. -/
theorem contentInv_resetWith (p : Params) : ContentInv (State.resetWith p) :=
  fun _ => forall_channel_resetWith fun _ _ => .seek (by simp [Channel.reset, FdState.reset, Stage.IsOver])

/-- Every `FDA[c]` waits for a decision. -/
theorem parseInv_resetWith (p : Params) : ParseInv (State.resetWith p) :=
  fun _ => forall_channel_resetWith fun _ _ => .of_pos trivial

/-- The configuration of `State.reset` is admitted (R6): every condition evaluates. -/
theorem default_admitted : Params.default.admitted = true := by decide +kernel

/-- Settles O53: the invariants hold after a configuration with any admitted record over exact reals and a reset, and the
default record is one. -/
theorem invariantsHoldAtReset : Obligations.InvariantsHoldAtReset := by
  have ha := default_admitted
  exact ⟨fdInv_resetWith ha, cdInv_resetWith ha, queueInv_resetWith _, tableInv_resetWith ha, realInv_resetWith _,
    loopInv_resetWith ha, finiteInv_resetWith rfl ha, contentInv_resetWith _, parseInv_resetWith _, ha⟩

end Sys2Proof.Machine
end
